-- ==== Sys2Proof/Word.lean ====
section
/-! DEFINITION. The two word types of the LJ-440's formats (R181): the byte, and the 16-bit number that
is carried as two bytes, high byte first. -/

namespace Sys2Proof

/-- One byte: a frame byte, a byte of shared RAM, a sequence (arithmetic modulo 256, Table 0.3). -/
abbrev Byte := BitVec 8

/-- A 16-bit number: a host tag, a time stamp, the CRC, the random generator. -/
abbrev Word16 := BitVec 16

end Sys2Proof
end

