-- ==== Sys2Proof/Syntax.lean ====
section
/-! DEFINITION. The commands of the block: one constructor per row of `spec/opcode_table.json`, in the
table's order. A row is one happening of the part (00 section 0.6, 95). -/

namespace Sys2Proof

/-- Where an SPI data byte stands in its transaction (R176). `first` and `only` are the first data byte, at
the address that the transaction gives; `next` and `last` are the next one of the transaction in progress,
at its address counter. After `only` and `last` SSN rises, which ends the transaction. -/
inductive SpiVia where
  | first
  | next
  | only
  | last
  deriving DecidableEq, Repr

/-- The byte is the first data byte of its transaction. -/
def SpiVia.begins : SpiVia → Bool
  | .first | .only => true
  | .next | .last => false

/-- SSN rises after the byte. -/
def SpiVia.ends : SpiVia → Bool
  | .only | .last => true
  | .first | .next => false

/-- One data byte that an SPI write transaction brings to shared RAM (R176, R178). `turn` is how many engine
accesses the arbiter takes before it, counted from the access that waits before it. -/
structure RamByte where
  via : SpiVia
  addr : Nat
  value : Byte
  turn : Nat
  deriving DecidableEq, Repr

/-- The 53 happenings. The ring commands carry no operand: the descriptor in shared RAM at the
next-command index is their operand (R151, R157). The dispatched items carry none either: the head of
the dispatch list is theirs (R45, R46). -/
inductive Instr where
  /-- HARD_RESET (R139): RESET_N is asserted. -/
  | hardReset
  /-- SOFT_RESET (R139): a write of 0x0F to CONTROL. -/
  | softReset (via : SpiVia)
  /-- START (R140): a write of 0x01 to CONTROL. `during` are the data bytes that follow it over SPI and come to
  the arbiter before the start record has been read (R178); where none is given, none follows. -/
  | start (via : SpiVia) (during : List RamByte := [])
  /-- CMD_ADVANCE (R155): a write of any value to CMD_ADVANCE. -/
  | cmdAdvance (via : SpiVia) (value : Byte)
  /-- NOTICE_TAKEN (R171): a write of k to NOTICE_TAKEN. -/
  | noticeTaken (via : SpiVia) (k : Byte)
  /-- TICK_HIGH_BYTE_READ (R179): a read of 0x400C. -/
  | tickHighByteRead (via : SpiVia)
  /-- REGISTER_WRITE_IGNORED (R180): a write with no effect, to `addr`. -/
  | registerWriteIgnored (via : SpiVia) (addr : Nat) (value : Byte)
  /-- SHARED_RAM_WRITE (R178): one data byte to shared RAM. `turn` is how many engine accesses the
  arbiter takes before it, counted from the write that waits before it. -/
  | sharedRamWrite (via : SpiVia) (addr : Nat) (value : Byte) (turn : Nat)
  /-- EXAMINATION (R156): an examination that finds no submitted descriptor. -/
  | examination
  /-- BAD_COMMAND (R152): a submitted descriptor of an unknown code is taken. -/
  | badCommand
  /-- SUBSCRIBE (R98). -/
  | subscribe
  /-- UNSUBSCRIBE (R99). -/
  | unsubscribe
  /-- CLAIM (R53, R54). -/
  | claim
  /-- RELINQUISH (R68). -/
  | relinquish
  /-- WRITE (R79). -/
  | write
  /-- READ (R82, R113). -/
  | read
  /-- PULL (R115). -/
  | pull
  /-- LOCK (R32, R114). -/
  | lock
  /-- UNLOCK (R32, R114). -/
  | unlock
  /-- UNBIND (R102). -/
  | unbind
  /-- SNAPSHOT (R162, R163). -/
  | snapshot
  /-- LEAVE (R145). -/
  | leave
  /-- REJOIN (R147). -/
  | rejoin
  /-- CARRIER_BEGINS (R36, R120). -/
  | carrierBegins
  /-- CARRIER_ABSENT (R36). -/
  | carrierAbsent
  /-- FRAME_END (R43): `bytes` are the bytes still expected when the header was complete: the body
  and the two CRC bytes. -/
  | frameEnd (bytes : List Byte)
  /-- DATA_RECORD_AT_CONSUME (R100): the head of the dispatch list reaches a CONSUME entry. -/
  | dataRecordAtConsume
  /-- DATA_RECORD_AT_PRODUCE (R60). -/
  | dataRecordAtProduce
  /-- CLAIM_HEARD (R61). -/
  | claimHeard
  /-- DISPUTE_HEARD (R62). -/
  | disputeHeard
  /-- RELINQUISH_HEARD_AT_PRODUCE (R63). -/
  | relinquishHeardAtProduce
  /-- RELINQUISH_HEARD_AT_CONSUME (R109). -/
  | relinquishHeardAtConsume
  /-- PULL_HEARD (R63, R85). -/
  | pullHeard
  /-- HOLD_HEARD (R132). -/
  | holdHeard
  /-- SLOT_BOUNDARY (R143). -/
  | slotBoundary
  /-- GRANT (R58): the window of claim slot `slot` runs out. -/
  | grant (slot : Nat)
  /-- HOLD_ENTRY_RUNS_OUT (R119): the last non-zero hold-table entry falls to 0. -/
  | holdEntryRunsOut
  /-- OWN_HOLD_EXPIRES (R135). -/
  | ownHoldExpires
  /-- JOIN_PERIOD_END (R144). -/
  | joinPeriodEnd
  /-- TICK (R143). `late` are the objects, and `timerLate` says of the coalescing timer, to which this tick comes
  later, as a happening of its own (R83, R110); where none is given, it comes to all of them at once. -/
  | tick (late : List Nat := []) (timerLate : Bool := false)
  /-- REFRESH_EXPIRY (R83, R84): the tick of `object`, which may bring its refresh counter to its period. -/
  | refreshExpiry (object : Nat)
  /-- AGE_EXPIRY (R110, R111): the tick of `object`, which may bring its age counter to its limit. -/
  | ageExpiry (object : Nat)
  /-- COALESCING_EXPIRY (R172): the tick of the coalescing timer, which may bring it to the coalescing time. -/
  | coalescingExpiry
  /-- QUIET_REACHED (R120). -/
  | quietReached
  /-- DEFERRAL_SLOT (R120). -/
  | deferralSlot
  /-- DEFERRAL_END (R123). -/
  | deferralEnd
  /-- COLLISION (R125). -/
  | collision
  /-- LATE_COLLISION (R126). -/
  | lateCollision
  /-- SUCCESSFUL_END (R127). -/
  | successfulEnd
  /-- PLACEMENT (R170). -/
  | placement
  /-- FIRST_BYTE_COLLECTED (R36). -/
  | firstByteCollected (byte : Byte)
  /-- HEADER_FIELDS_COMPLETE (R36, R42): the two header bytes. -/
  | headerFieldsComplete (byte1 byte2 : Byte)
  /-- RESET_N_RELEASED (R176). -/
  | resetNReleased
  deriving DecidableEq, Repr

end Sys2Proof
end

