-- ==== Sys2Proof/Config.lean ====
section
/-! DEFINITION. What the LJ-440 fixes for every part: sizes, addresses and codes. The spec leaves no
result of a command undefined, so no opaque free value stands here (log 22). -/

namespace Sys2Proof.Config

/-- Directory capacity (R1). -/
def directoryCapacity : Nat := 256
/-- Object numbers are 0 to 4095 (R2, R8). -/
def objectCount : Nat := 4096
/-- Payload bytes of a line (R18). -/
def lineBytes : Nat := 64
/-- Largest body of a DATA frame (R37, R86). -/
def maxBody : Nat := 128
/-- Most records of a DATA frame (R39). -/
def maxRecords : Nat := 8
/-- The opener of every frame (R35). -/
def opener : Byte := 0xC3
/-- Bytes of the collision window (R124). -/
def collisionWindow : Nat := 17
/-- Command places of the control queue (R129). -/
def commandPlaces : Nat := 6
/-- Automatic places of the control queue (R129). -/
def automaticPlaces : Nat := 2
/-- Backlog capacity (R168). -/
def backlogCapacity : Nat := 32
/-- The lost count stays at this value (R168). -/
def maxLost : Nat := 255
/-- Reset value of the random generator and the constant of its seed (R122). -/
def generatorSeed : Word16 := 0xACE1
/-- End of shared RAM (R177): its addresses are those below. -/
def ramEnd : Nat := 0x4000
/-- End of the start record (R140). -/
def startRecordEnd : Nat := 0x0020
/-- Port register addresses (Table 11.2). -/
def addrControl : Nat := 0x4006
/-- CMD_ADVANCE (Table 11.2). -/
def addrCmdAdvance : Nat := 0x4007
/-- NOTICE_TAKEN (Table 11.2). -/
def addrNoticeTaken : Nat := 0x4008
/-- TICK, high byte (Table 11.2). -/
def addrTickHigh : Nat := 0x400C
/-- The first address above the port registers (Table 11.1). -/
def registersEnd : Nat := 0x4010
/-- The end of the SPI address space (R176). -/
def spaceEnd : Nat := 0x10000

end Sys2Proof.Config
end

