-- ==== Sys2Proof/Machine/Bytes.lean ====
section
/-! DEFINITION. Bytes of the formats: two-byte numbers, payload padding, and the CRC of a frame. -/

namespace Sys2Proof.Machine

/-- The byte that holds a number (R181). -/
def byteOf (n : Nat) : Byte := BitVec.ofNat 8 n

/-- The high byte of a two-byte number (R181). -/
def highByte (n : Nat) : Byte := BitVec.ofNat 8 (n / 256)

/-- The two bytes of a number, high byte first (R181). -/
def twoBytes (n : Nat) : List Byte := [highByte n, byteOf n]

/-- The number that two bytes carry, high byte first (R181). -/
def number (high low : Byte) : Nat := high.toNat * 256 + low.toNat

/-- The byte at an offset of a format's bytes. -/
def byteAt (bytes : List Byte) (offset : Nat) : Byte := bytes.getD offset 0

/-- The two-byte number at an offset of a format's bytes. -/
def numberAt (bytes : List Byte) (offset : Nat) : Nat :=
  number (byteAt bytes offset) (byteAt bytes (offset + 1))

/-- The first `n` bytes of a value, zero beyond its length. -/
def padTo (n : Nat) (bytes : List Byte) : List Byte := (bytes ++ List.replicate n 0).take n

/-- The 64 payload bytes of a line: the value and then zeros (R18). -/
def linePayload (bytes : List Byte) : List Byte := padTo Config.lineBytes bytes

/-- The first four payload bytes of a notice (R167). -/
def firstFour (bytes : List Byte) : List Byte := padTo 4 bytes

/-- One step of the division by x^16 + x^12 + x^5 + 1 (R40). -/
def crcShift (r : Word16) : Word16 :=
  if r.msb then (r <<< 1) ^^^ 0x1021 else r <<< 1

/-- The division register takes one byte, most significant bit first (R40). -/
def crcByte (r : Word16) (b : Byte) : Word16 :=
  Nat.iterate crcShift 8 (r ^^^ (b.setWidth 16 <<< 8))

/-- The division register takes bytes in frame order (R40). -/
def crcRun (r : Word16) (bytes : List Byte) : Word16 := bytes.foldl crcByte r

/-- The register's first value: all sixteen bits one (R40). -/
def crcStart : Word16 := 0xFFFF

/-- The check value over header and body (R40). -/
def crcOf (bytes : List Byte) : Word16 := crcRun crcStart bytes

end Sys2Proof.Machine
end

