-- ==== Sys2Proof/Machine/State.lean ====
section
/-! DEFINITION. Everything the spec gives the LJ-440, as plain data, block by block (00 Table 0.1), and
the state right after reset. -/

namespace Sys2Proof.Machine

/-! ## Object Directory (Chapter 1) -/

/-- One way of a set of the Replica Store (R18). -/
inductive Way where
  | way0
  | way1
  deriving DecidableEq, Repr

/-- Ownership state of a PRODUCE entry (Table 1.1, Figure 4.1). -/
inductive Ownership where
  | claiming
  | owned
  | relinquishing
  | deposed
  deriving DecidableEq, Repr

/-- Whether the object stands in the publication queue, and with which REPEAT flag (Table 1.1). -/
inductive Queued where
  | no
  | yes (rep : Bool)
  deriving DecidableEq, Repr

/-- Whether a record for the object is in the frame in hand (Table 1.1). -/
inductive InFlight where
  | no
  | tentative (seq : Byte)
  | repeating
  deriving DecidableEq, Repr

/-- The PRODUCE part of an entry (R3, Table 1.1). -/
structure Produce where
  ownership : Ownership
  committed : Option Byte
  staged : Bool
  pending : Bool
  queued : Queued
  inFlight : InFlight
  refreshPeriod : Nat
  refreshCounter : Nat
  claimSlot : Option (Fin 4)
  releaseQueued : Bool
  releaseTag : Option Word16
  deriving DecidableEq, Repr

/-- The belief about the owner (Table 1.3). -/
inductive Binding where
  | unbound
  | bound (station : Nat)
  | orphaned (station : Nat)
  deriving DecidableEq, Repr

/-- The state of a replica (Table 1.3). -/
inductive Replica where
  | absent
  | fresh
  | stale
  deriving DecidableEq, Repr

/-- Notify mode (Table 1.3). -/
inductive NotifyMode where
  | none
  | change
  | all
  deriving DecidableEq, Repr

/-- The CONSUME part of an entry (R5, Table 1.3). -/
structure Consume where
  binding : Binding
  replica : Replica
  lastSeq : Option Byte
  ageLimit : Nat
  age : Nat
  ageRunning : Bool
  notify : NotifyMode
  deriving DecidableEq, Repr

/-- The role part of an entry (R2). -/
inductive Role where
  | produce (p : Produce)
  | consume (c : Consume)
  deriving DecidableEq, Repr

/-- A directory entry (R2). `tickOwed` is the model's own: the tick of the last TICK has still to come to
this entry, as a happening of its own (R83, R110, log 4, log 32). -/
structure Entry where
  object : Nat
  line : Option Way
  role : Role
  tickOwed : Bool
  deriving DecidableEq, Repr

/-! ## Replica Store (Chapter 2) -/

/-- A line (R18, Table 2.1). `payload` holds 64 bytes, zero from `length` on. -/
structure Line where
  valid : Bool
  object : Nat
  length : Nat
  payload : List Byte
  pinned : Bool
  locked : Bool
  deriving DecidableEq, Repr

/-- A set: two ways and the older-way indicator (R18, R23). -/
structure ReplicaSet where
  way0 : Line
  way1 : Line
  older : Way
  deriving DecidableEq, Repr

/-! ## Trunk items (Chapter 3) -/

/-- A control frame of this station: kind, and object number or hold length (R38, R129). Its source is
the station's own number, and its origin follows from its kind (R129). -/
inductive CtlFrame where
  | claim (object : Nat)
  | dispute (object : Nat)
  | relinquish (object : Nat)
  | pull (object : Nat)
  | hold (length : Nat)
  deriving DecidableEq, Repr

/-- A record of a DATA frame in hand: its own copy of the payload, with sequence and REPEAT flag
(R87, R88). -/
structure TxRecord where
  object : Nat
  rep : Bool
  seq : Byte
  payload : List Byte
  deriving DecidableEq, Repr

/-- The frame in hand (R117): a control frame with its withdrawn mark (R128), or the records of a DATA
frame (R88). -/
inductive InHand where
  | control (frame : CtlFrame) (withdrawn : Bool)
  | data (records : List TxRecord)
  deriving DecidableEq, Repr

/-- What the Receive Path hands on, with the frame's source (Table 3.6). -/
inductive Item where
  | record (source object : Nat) (rep : Bool) (seq : Byte) (payload : List Byte)
  | claim (source object : Nat)
  | dispute (source object : Nat)
  | relinquish (source object : Nat)
  | pull (source object : Nat)
  | hold (source length : Nat)
  deriving DecidableEq, Repr

/-- The frame being received (R36): the two header bytes once collected, the body bytes collected, the
running CRC and the bytes still expected. -/
structure RxFrame where
  header : Option (Byte × Byte)
  body : List Byte
  crc : Word16
  expected : Nat
  deriving DecidableEq, Repr

/-- Receive states (R36). `collecting` says that a first byte is being collected. -/
inductive Rx where
  | off
  | skip
  | listen (collecting : Bool)
  | frame (f : RxFrame)
  deriving DecidableEq, Repr

/-! ## Ownership Unit and Publication Unit (Chapters 4 and 5) -/

/-- A claim's phase (R52). A window of 0 stands for one that its last boundary ends; the grant is still to
come (log 4). -/
inductive Phase where
  | awaitSend
  | window (remaining : Nat)
  deriving DecidableEq, Repr

/-- A claim slot in use (R52). -/
structure ClaimSlot where
  object : Nat
  phase : Phase
  tag : Word16
  deriving DecidableEq, Repr

/-- The Ownership Unit: four claim slots and the wait list (R52, R55). -/
structure OwnershipUnit where
  slots : Vector (Option ClaimSlot) 4
  waitList : List CtlFrame
  deriving DecidableEq, Repr

/-- An item of the publication queue (R76). -/
structure PubItem where
  object : Nat
  rep : Bool
  deriving DecidableEq, Repr

/-! ## Contention Unit (Chapter 7) -/

/-- Contention state with the remaining deferral (Table 7.1). `due` says that the boundary that ends
the deferral has come (log 10). -/
inductive CState where
  | idle
  | waitQuiet (remaining : Nat)
  | deferring (remaining : Nat) (due : Bool)
  | sending
  deriving DecidableEq, Repr

/-- Own-hold states (Table 7.5). -/
inductive OwnHold where
  | off
  | starting
  | on
  | renewing
  | stopping
  deriving DecidableEq, Repr

/-- The Contention Unit (Table 7.1), with the CRS input and the quiet of the line (R120). `holdFall`
names the entry whose fall by one at the last slot boundary is still to come (log 5), and `expiryOwed` says that
the boundary that ends the own hold has still to come to it (log 4). -/
structure Contention where
  state : CState
  inHand : Option InHand
  attempts : Nat
  queue : List CtlFrame
  pendingHold : Option Nat
  holdTable : Vector Nat 32
  holdFall : Option (Fin 32)
  rng : Word16
  ownHold : OwnHold
  ownExpiry : Nat
  expiryOwed : Bool
  carrier : Bool
  quiet : Bool
  deriving DecidableEq, Repr

/-! ## Station Control (Chapter 8) -/

/-- Life-cycle states (Table 8.1). -/
inductive Life where
  | awaitStart
  | joining
  | active
  | leaving
  | detached
  | muted
  deriving DecidableEq, Repr

/-- The start record copy (R142, Table 11.6). Bytes 19 to 31 of a valid record are zero and are not
kept apart. -/
structure StartRecord where
  station : Nat
  bitRate : Nat
  retryLimit : Nat
  claimWindow : Nat
  joinPeriod : Nat
  tickLength : Nat
  cmdLength : Nat
  cmdBase : Nat
  noticeLength : Nat
  noticeBase : Nat
  holdLength : Nat
  highMark : Nat
  lowMark : Nat
  trigger : Nat
  coalescing : Nat
  deriving DecidableEq, Repr

/-- Station Control (Table 8.3). `rejoined` (log 16) and `joinOwed` are the model's own: the boundary that ends the
join period has still to come to the join timer (log 4). -/
structure Station where
  life : Life
  startError : Nat
  copy : Option StartRecord
  keptTag : Word16
  joinTimer : Nat
  joinRunning : Bool
  joinOwed : Bool
  rejoined : Bool
  slotCount : Nat
  tickCount : Nat
  deriving DecidableEq, Repr

/-! ## Command Unit and Notice Unit (Chapters 9 and 10) -/

/-- The Command Unit (R154). -/
structure CommandUnit where
  index : Nat
  scanning : Bool
  rescan : Bool
  deriving DecidableEq, Repr

/-- Notice kinds (Table 10.2). -/
inductive NoticeKind where
  | updated | gap | bound | ownerChanged | sourceConflict | orphaned | stale | evicted | noLine
  | claimGranted | claimLost | claimFailed | ownershipLost | relinquished | txAbandoned
  | joined | left | numberClash | holdStarted | holdEnded | noticesLost
  deriving DecidableEq, Repr

/-- A notice as it waits in the backlog: all fields but the serial (R167). -/
structure Notice where
  kind : NoticeKind
  object : Nat
  station : Nat
  seq : Byte
  detail : Nat
  length : Nat
  tag : Word16
  stamp : Word16
  first : List Byte
  deriving DecidableEq, Repr

/-- The coalescing timer (R172). -/
inductive Coalescing where
  | stopped
  | running (count : Nat)
  | expired
  deriving DecidableEq, Repr

/-- The Notice Unit (Chapter 10). `tickOwed` is the model's own: the tick of the last TICK has still to come to the
coalescing timer (log 4, log 32). -/
structure NoticeUnit where
  backlog : List Notice
  lost : Nat
  writeIndex : Nat
  unread : Nat
  serial : Nat
  timer : Coalescing
  tickOwed : Bool
  intLine : Bool
  deriving DecidableEq, Repr

/-! ## Host Port (Chapter 11) -/

/-- An SPI byte access that waits at the RAM arbiter until `turn` engine accesses have been taken (R178): a
write of `value`, or a read where there is none. -/
structure WaitingAccess where
  turn : Nat
  addr : Nat
  value : Option Byte
  deriving DecidableEq, Repr

/-- An SPI transaction in progress: its instruction and its address counter (R176). -/
structure SpiTransaction where
  isWrite : Bool
  counter : Word16
  deriving DecidableEq, Repr

/-- The Host Port (R176 to R179). `ram` is shared RAM in canonical form: addresses rising, no byte 0
listed; an unlisted address reads 0 (R177). -/
structure HostPort where
  ram : List Host.Cell
  waiting : List WaitingAccess
  tickLatch : Byte
  spi : Option SpiTransaction
  resetHeld : Bool
  readByte : Byte
  deriving DecidableEq, Repr

/-! ## The whole machine -/

/-- The state of the block, and the queue of the commands that wait. -/
structure State where
  station : Station
  directory : List Entry
  store : Vector ReplicaSet 64
  ownership : OwnershipUnit
  pubQueue : List PubItem
  rx : Rx
  dispatch : List Item
  contention : Contention
  command : CommandUnit
  notice : NoticeUnit
  port : HostPort
  pending : List Instr
  deriving DecidableEq, Repr

/-- The block has no fault: every bad input has an effect that the spec states (R41, R141, R160, R177),
so this type has no constructor and nobody raises one. -/
inductive Fault where
  deriving DecidableEq, Repr

/-- Why a command is refused. -/
inductive Refusal where
  /-- Raised by `exec` alone, for a command that has no meaning in the model. Safe: the model stops
  where the part goes on. No arm of `exec` raises it. -/
  | notModelled (mnemonic : String)
  deriving DecidableEq, Repr

/-! ## Reset -/

/-- An invalid line after reset (R34). Its object, length and payload have no meaning (R18): zero is a
DESIGN CHOICE (log 15). -/
def Line.reset : Line :=
  { valid := false, object := 0, length := 0, payload := List.replicate Config.lineBytes 0,
    pinned := false, locked := false }

/-- Both lines invalid, the indicator at way 0 (R34). -/
def ReplicaSet.reset : ReplicaSet := { way0 := .reset, way1 := .reset, older := .way0 }

/-- Table 8.3. -/
def Station.reset : Station :=
  { life := .awaitStart, startError := 0, copy := none, keptTag := 0, joinTimer := 0,
    joinRunning := false, joinOwed := false, rejoined := false, slotCount := 0, tickCount := 0 }

/-- R52, R55. -/
def OwnershipUnit.reset : OwnershipUnit := { slots := Vector.replicate 4 none, waitList := [] }

/-- Table 7.1, last column. The line is taken without carrier (DESIGN CHOICE, log 3). -/
def Contention.reset : Contention :=
  { state := .idle, inHand := none, attempts := 0, queue := [], pendingHold := none,
    holdTable := Vector.replicate 32 0, holdFall := none, rng := Config.generatorSeed,
    ownHold := .off, ownExpiry := 0, expiryOwed := false, carrier := false, quiet := false }

/-- R154. -/
def CommandUnit.reset : CommandUnit := { index := 0, scanning := false, rescan := false }

/-- R175. -/
def NoticeUnit.reset : NoticeUnit :=
  { backlog := [], lost := 0, writeIndex := 0, unread := 0, serial := 0, timer := .stopped,
    tickOwed := false, intLine := false }

/-- R139, R177, R179, with RESET_N released again and no byte read yet (DESIGN CHOICE, log 3, 14). -/
def HostPort.reset : HostPort :=
  { ram := [], waiting := [], tickLatch := 0, spi := none, resetHeld := false, readByte := 0 }

/-- The machine after a hard reset, RESET_N released (R139; R16, R34, R51, R52, R55, R96, R117, R154,
R175, R177). -/
def State.reset : State :=
  { station := .reset, directory := [], store := Vector.replicate 64 .reset, ownership := .reset,
    pubQueue := [], rx := .off, dispatch := [], contention := .reset, command := .reset,
    notice := .reset, port := .reset, pending := [] }

/-! ## Updates of one block -/

/-- Replace Station Control. -/
def State.setStation (s : State) (x : Station) : State := { s with station := x }
/-- Replace the directory. -/
def State.setDirectory (s : State) (x : List Entry) : State := { s with directory := x }
/-- Replace the store. -/
def State.setStore (s : State) (x : Vector ReplicaSet 64) : State := { s with store := x }
/-- Replace the Ownership Unit. -/
def State.setOwnership (s : State) (x : OwnershipUnit) : State := { s with ownership := x }
/-- Replace the publication queue. -/
def State.setPubQueue (s : State) (x : List PubItem) : State := { s with pubQueue := x }
/-- Replace the receive state. -/
def State.setRx (s : State) (x : Rx) : State := { s with rx := x }
/-- Replace the dispatch list. -/
def State.setDispatch (s : State) (x : List Item) : State := { s with dispatch := x }
/-- Replace the Contention Unit. -/
def State.setContention (s : State) (x : Contention) : State := { s with contention := x }
/-- Replace the Command Unit. -/
def State.setCommand (s : State) (x : CommandUnit) : State := { s with command := x }
/-- Replace the Notice Unit. -/
def State.setNotice (s : State) (x : NoticeUnit) : State := { s with notice := x }
/-- Replace the Host Port. -/
def State.setPort (s : State) (x : HostPort) : State := { s with port := x }
/-- Replace the queue of waiting commands. -/
def State.setPending (s : State) (x : List Instr) : State := { s with pending := x }

end Sys2Proof.Machine
end

