-- ==== Sys2Proof/Machine/Operands.lean ====
section
/-! DEFINITION. The byte layouts that software and peer stations see (11 section 11.5): the start record,
the command descriptor, the notice, the trunk frame, and the codes they carry. -/

namespace Sys2Proof.Machine

/-! ## Codes -/

/-- STATE codes (Table 8.1). -/
def Life.code : Life → Nat
  | .awaitStart => 0
  | .joining => 1
  | .active => 2
  | .leaving => 3
  | .detached => 4
  | .muted => 5

/-- Status codes (Table 9.5). -/
inductive Status where
  | ok | stale | notResident | badCommand | badObject | badParameter | badBuffer | badState
  | noEntry | roleConflict | exists | directoryFull | noLine | noClaimSlot | notOwner | queueFull
  deriving DecidableEq, Repr

/-- Table 9.5. -/
def Status.code : Status → Byte
  | .ok => 0x00
  | .stale => 0x01
  | .notResident => 0x02
  | .badCommand => 0x10
  | .badObject => 0x11
  | .badParameter => 0x12
  | .badBuffer => 0x13
  | .badState => 0x14
  | .noEntry => 0x20
  | .roleConflict => 0x21
  | .exists => 0x22
  | .directoryFull => 0x23
  | .noLine => 0x24
  | .noClaimSlot => 0x25
  | .notOwner => 0x26
  | .queueFull => 0x27

/-- Notice kind codes (Table 10.2). -/
def NoticeKind.code : NoticeKind → Byte
  | .updated => 0x01
  | .gap => 0x02
  | .bound => 0x03
  | .ownerChanged => 0x04
  | .sourceConflict => 0x05
  | .orphaned => 0x06
  | .stale => 0x07
  | .evicted => 0x08
  | .noLine => 0x09
  | .claimGranted => 0x10
  | .claimLost => 0x11
  | .claimFailed => 0x12
  | .ownershipLost => 0x13
  | .relinquished => 0x14
  | .txAbandoned => 0x15
  | .joined => 0x20
  | .left => 0x21
  | .numberClash => 0x22
  | .holdStarted => 0x23
  | .holdEnded => 0x24
  | .noticesLost => 0x25

/-- Cause codes of ownership notices (Table 4.4). -/
inductive Cause where
  | ok | data | claim | dispute | released | trunkFail | muted
  deriving DecidableEq, Repr

/-- Table 4.4. -/
def Cause.code : Cause → Nat
  | .ok => 0
  | .data => 1
  | .claim => 2
  | .dispute => 3
  | .released => 4
  | .trunkFail => 5
  | .muted => 6

/-- Station 0xFF of a notice: none (Table 10.1). -/
def noStation : Nat := 0xFF

/-! ## Start record -/

/-- The fields of the 32 bytes (Table 11.6). -/
def StartRecord.ofBytes (b : List Byte) : StartRecord :=
  { station := (byteAt b 0).toNat
    bitRate := (byteAt b 1).toNat
    retryLimit := (byteAt b 2).toNat
    claimWindow := (byteAt b 3).toNat
    joinPeriod := numberAt b 4
    tickLength := (byteAt b 6).toNat
    cmdLength := (byteAt b 7).toNat
    cmdBase := numberAt b 8
    noticeLength := (byteAt b 10).toNat
    noticeBase := numberAt b 11
    holdLength := numberAt b 13
    highMark := (byteAt b 15).toNat
    lowMark := (byteAt b 16).toNat
    trigger := (byteAt b 17).toNat
    coalescing := (byteAt b 18).toNat }

/-- A ring lies within 0x0020 to 0x3FFF and starts on a multiple of 16 (Table 8.4, codes 7 and 8). -/
def ringFits (length base : Nat) : Bool :=
  base % 16 == 0 && Config.startRecordEnd ≤ base && base + 16 * length - 1 < Config.ramEnd

/-- The two rings share no byte (Table 8.4, code 9). -/
def ringsApart (r : StartRecord) : Bool :=
  r.cmdBase + 16 * r.cmdLength ≤ r.noticeBase || r.noticeBase + 16 * r.noticeLength ≤ r.cmdBase

/-- The checks of Table 8.4 but for the last, in order, each with its field code. -/
def StartRecord.checks (r : StartRecord) : List (Nat × Bool) :=
  [ (1, r.station ≤ 31),
    (2, r.bitRate ≤ 3),
    (3, 1 ≤ r.retryLimit && r.retryLimit ≤ 15),
    (4, 8 ≤ r.claimWindow && r.claimWindow ≤ 255),
    (5, 16 ≤ r.joinPeriod && r.joinPeriod ≤ 1023),
    (6, 1 ≤ r.tickLength && r.tickLength ≤ 100),
    (7, 4 ≤ r.cmdLength && r.cmdLength ≤ 64 && ringFits r.cmdLength r.cmdBase),
    (8, 8 ≤ r.noticeLength && r.noticeLength ≤ 128 && ringFits r.noticeLength r.noticeBase),
    (9, ringsApart r),
    (10, 16 ≤ r.holdLength && r.holdLength ≤ 1023),
    (11, 4 ≤ r.highMark && r.highMark ≤ 32),
    (12, r.lowMark < r.highMark),
    (13, 1 ≤ r.trigger && r.trigger ≤ r.noticeLength) ]

/-- All checks on the 32 bytes, the last being that bytes 19 to 31 are zero (Table 8.4). -/
def startChecks (b : List Byte) : List (Nat × Bool) :=
  (StartRecord.ofBytes b).checks ++ [(14, (b.drop 19).all (· == 0))]

/-- The code of the first failing check (R141). -/
def firstError : List (Nat × Bool) → Option Nat
  | [] => none
  | (code, valid) :: rest => if valid then firstError rest else some code

/-- A record that passes the checks of Table 8.4. -/
def StartRecord.valid (r : StartRecord) : Bool := r.checks.all (·.2)

/-- What the accessors read while no copy is held: every field 0 (log 19). -/
def StartRecord.blank : StartRecord := StartRecord.ofBytes []

/-! ## Command descriptor -/

/-- The fields that the part reads (Table 11.7). -/
structure Descriptor where
  marker : Byte
  code : Byte
  object : Nat
  paramA : Nat
  paramB : Nat
  length : Nat
  buffer : Nat
  tag : Word16
  deriving DecidableEq, Repr

/-- Table 11.7. -/
def Descriptor.ofBytes (b : List Byte) : Descriptor :=
  { marker := byteAt b 0
    code := byteAt b 1
    object := numberAt b 4
    paramA := numberAt b 6
    paramB := (byteAt b 8).toNat
    length := (byteAt b 9).toNat
    buffer := numberAt b 10
    tag := BitVec.ofNat 16 (numberAt b 14) }

/-- Marker: submitted by the host (R153). -/
def markerSubmitted : Byte := 0x01

/-- Marker: completed by the part (R153). -/
def markerDone : Byte := 0x02

/-- The code of every command (Table 9.2). -/
def commandCodes : List Byte :=
  [0x01, 0x02, 0x03, 0x04, 0x05, 0x06, 0x07, 0x08, 0x09, 0x0A, 0x0B, 0x0C, 0x0D]

/-! ## Notice -/

/-- Offsets 1 to 15 of a notice (Table 11.8); offset 0, the serial, is written last (R170). -/
def Notice.bytes (n : Notice) : List Byte :=
  [n.kind.code] ++ twoBytes n.object ++
    [byteOf n.station, n.seq, byteOf n.detail, byteOf n.length] ++
    twoBytes n.tag.toNat ++ twoBytes n.stamp.toNat ++ padTo 4 n.first

/-! ## Trunk frame -/

/-- Frame kind codes (Table 11.3). -/
def kindData : Nat := 1

/-- The kind code of a control frame (Table 11.3). -/
def CtlFrame.kind : CtlFrame → Nat
  | .claim _ => 2
  | .dispute _ => 3
  | .relinquish _ => 4
  | .pull _ => 5
  | .hold _ => 6

/-- The body field of a control frame (R38). -/
def CtlFrame.value : CtlFrame → Nat
  | .claim n | .dispute n | .relinquish n | .pull n | .hold n => n

/-- A record header and its payload (Table 11.5). -/
def TxRecord.bytes (r : TxRecord) : List Byte :=
  [byteOf (r.object / 16), byteOf (r.object % 16 * 16 + (if r.rep then 8 else 0)), r.seq,
    byteOf r.payload.length] ++ r.payload

/-- The kind code of the frame in hand. -/
def InHand.kind : InHand → Nat
  | .control f _ => f.kind
  | .data _ => kindData

/-- The body of the frame in hand (Tables 11.4 and 11.5, R88). -/
def InHand.body : InHand → List Byte
  | .control f _ => twoBytes f.value
  | .data records => records.flatMap TxRecord.bytes

/-- Header and body: the bytes that the CRC covers (R40). -/
def InHand.covered (f : InHand) (source : Nat) : List Byte :=
  [byteOf (f.kind * 32 + source), byteOf f.body.length] ++ f.body

/-- The frame as it is driven, opener first, CRC last (R35, R88, Table 11.3). -/
def InHand.bytes (f : InHand) (source : Nat) : List Byte :=
  Config.opener :: (f.covered source ++ twoBytes (crcOf (f.covered source)).toNat)

/-- The kind code in the first header byte (Table 11.3). -/
def headerKind (byte1 : Byte) : Nat := byte1.toNat / 32

/-- The source in the first header byte (Table 11.3). -/
def headerSource (byte1 : Byte) : Nat := byte1.toNat % 32

/-- A header that discards the frame when it is complete (Table 3.5, R42). -/
def headerBad (byte1 byte2 : Byte) : Bool :=
  headerKind byte1 == 0 || headerKind byte1 == 7 || Config.maxBody < byte2.toNat
  || (headerKind byte1 == kindData && byte2.toNat == 0)
  || (headerKind byte1 != kindData && byte2.toNat != 2)

/-- The records of a DATA body from source `source`, at most `fuel` of them, or none where the body is
malformed (R39, Table 3.5): a spare bit set, a payload above 64, a record past the last body byte, or
more than `fuel` records. -/
def parseRecords (source : Nat) : Nat → List Byte → Option (List Item)
  | _, [] => some []
  | 0, _ :: _ => none
  | fuel + 1, b0 :: b1 :: seq :: len :: rest =>
    if b1.toNat % 8 = 0 ∧ len.toNat ≤ Config.lineBytes ∧ len.toNat ≤ rest.length then
      (parseRecords source fuel (rest.drop len.toNat)).map
        (.record source (b0.toNat * 16 + b1.toNat / 16) (b1.toNat / 8 % 2 == 1) seq
          (rest.take len.toNat) :: ·)
    else none
  | _ + 1, _ => none

/-- The item of a control frame's body field, or none where it is out of range (R38, Table 3.5). -/
def parseControl (kind source value : Nat) : Option Item :=
  if kind = 6 then (if value < 1024 then some (.hold source value) else none)
  else if value < Config.objectCount then
    match kind with
    | 2 => some (.claim source value)
    | 3 => some (.dispute source value)
    | 4 => some (.relinquish source value)
    | 5 => some (.pull source value)
    | _ => none
  else none

/-- The items of a body, by the frame's kind (R38, R39). -/
def parseBody (kind source : Nat) (body : List Byte) : Option (List Item) :=
  if kind = kindData then parseRecords source Config.maxRecords body
  else (parseControl kind source (numberAt body 0)).map ([·])

/-- The judgement of a frame whose header passed R42, at its frame end: its items where it is valid,
none where it is malformed (R41). `rest` holds the bytes still expected, the two CRC bytes last. -/
def judgeFrame (f : RxFrame) (rest : List Byte) : Option (List Item) :=
  match f.header with
  | none => none
  | some (byte1, byte2) =>
    if crcRun f.crc rest = 0 then
      parseBody (headerKind byte1) (headerSource byte1) ((f.body ++ rest).take byte2.toNat)
    else none

end Sys2Proof.Machine
end

