-- ==== Sys2Proof/Machine/Flags.lean ====
section
/-! DEFINITION. The flags of the block: the interrupt line and INT_STATUS (R173, Table 11.2), the
descriptor's flags (Table 9.1), the flags of a snapshot summary (Tables 1.8 and 11.9), and the pins that
show a flag (Table 11.10). -/

namespace Sys2Proof.Machine

/-- The start record copy, or all zeros while none is held (R142, log 19). -/
def State.cfg (s : State) : StartRecord :=
  s.station.copy.getD .blank

/-- The station's own number (Table 0.3). -/
def State.own (s : State) : Nat := s.cfg.station

/-- INT_STATUS bit 1: the unread count is at or above the trigger; 0 while no copy is held (R179). -/
def State.atTrigger (s : State) : Bool :=
  s.station.copy.isSome && s.cfg.trigger ≤ s.notice.unread

/-- The condition that asserts the interrupt line (R173). -/
def State.intCondition (s : State) : Bool :=
  s.atTrigger || (1 ≤ s.notice.unread && s.notice.timer == .expired)

/-- The level of the line is decided anew (R173). -/
def State.updateInt (s : State) : State :=
  s.setNotice { s.notice with intLine := s.intCondition }

/-- One flag as a bit at a place. -/
def flagBit (b : Bool) (place : Nat) : Nat := if b then 2 ^ place else 0

/-- INT_STATUS (Table 11.2). -/
def State.intStatus (s : State) : Byte :=
  byteOf (flagBit s.notice.intLine 0 + flagBit s.atTrigger 1 + flagBit (s.notice.timer == .expired) 2)

/-- The pin INT_N: low while the line is asserted (Table 11.10). -/
def State.intN (s : State) : Bool := !s.notice.intLine

/-- The pin TXEN: high while the part drives the trunk (Table 11.10). -/
def State.txen (s : State) : Bool := s.contention.state == .sending

/-- The descriptor's flags byte: bit 0 "unpublished" (Table 11.7). -/
def descriptorFlags (unpublished : Bool) : Byte := byteOf (flagBit unpublished 0)

/-- The flags of a PRODUCE entry's summary (Tables 1.8 and 11.9). -/
def Produce.summaryFlags (p : Produce) : Byte :=
  byteOf (flagBit p.staged 0 + flagBit p.pending 1 + flagBit (p.queued != .no) 2
    + flagBit (p.queued == .yes true || p.inFlight == .repeating) 3 + flagBit (p.inFlight != .no) 4)

/-- The flags of a CONSUME entry's summary (Tables 1.8 and 11.9). -/
def Consume.summaryFlags (c : Consume) (locked : Bool) : Byte :=
  byteOf (flagBit locked 5 + flagBit (!c.ageRunning) 6)

end Sys2Proof.Machine
end

