-- ==== Sys2Proof/Machine/Memory.lean ====
section
/-! DEFINITION. Shared RAM (R177): 16 KiB, held as its non-zero bytes in rising address order. An
unlisted address reads 0, the value every byte has after a hard reset. -/

namespace Sys2Proof.Machine

/-- Shared RAM as the list of its non-zero bytes. -/
abbrev Memory := List Host.Cell

/-- The byte at an address; 0 where none is listed (R177). -/
def Memory.read : Memory → Nat → Byte
  | [], _ => 0
  | (k, v) :: rest, a => if k = a then v else Memory.read rest a

/-- Put a byte before the first higher address. -/
def Memory.insert : Memory → Nat → Byte → Memory
  | [], a, b => [(a, b)]
  | (k, v) :: rest, a, b => if a < k then (a, b) :: (k, v) :: rest else (k, v) :: Memory.insert rest a b

/-- A byte access that writes (R178). An address outside shared RAM is not stored (R177); a byte 0 is
not listed, so that equal memories are equal lists. -/
def Memory.write (m : Memory) (a : Nat) (b : Byte) : Memory :=
  if a < Config.ramEnd then
    let others := m.filter (fun c => c.1 != a)
    if b = 0 then others else Memory.insert others a b
  else m

/-- The canonical form: addresses strictly rising and in shared RAM, no byte 0 listed. -/
def Memory.wf (m : Memory) : Bool :=
  decide (m.Pairwise (fun c d => c.1 < d.1)) && m.all (fun c => c.1 < Config.ramEnd && c.2 != 0)

end Sys2Proof.Machine
end

