-- ==== Sys2Proof/Machine/Ops.lean ====
section
/-! DEFINITION. The named operations over the blocks' state: the RAM arbiter and the SPI byte, the
directory, the Replica Store, the random draw, the control queue, own-hold requests, notices, and the
handover of ownership frames. -/

namespace Sys2Proof.Machine

/-! ## RAM arbiter and SPI bytes (R176, R178) -/

/-- The arbiter takes one SPI access: a write stores its byte, a read puts the stored byte on MISO (R176,
R178). -/
def HostPort.take (p : HostPort) (w : WaitingAccess) : HostPort :=
  match w.value with
  | some b => { p with ram := Memory.write p.ram w.addr b }
  | none => { p with readByte := Memory.read p.ram w.addr }

/-- The waiting SPI accesses whose turn has come are taken; the one after them comes one engine access
nearer (R178, log 12). -/
def HostPort.landDue (p : HostPort) : List WaitingAccess → HostPort
  | [] => { p with waiting := [] }
  | w :: rest =>
    match w.turn with
    | 0 => (p.take w).landDue rest
    | t + 1 => { p with waiting := { w with turn := t } :: rest }

/-- The arbiter before one engine access. -/
def HostPort.yield (p : HostPort) : HostPort := p.landDue p.waiting

/-- Every waiting SPI access is taken: none is lost (R178). -/
def HostPort.drain (p : HostPort) : HostPort := { p.waiting.foldl HostPort.take p with waiting := [] }

/-- One engine read of a byte (R178). -/
def HostPort.engineRead (p : HostPort) (a : Nat) : Byte × HostPort := (Memory.read p.yield.ram a, p.yield)

/-- One engine write of a byte (R178). -/
def HostPort.engineWrite (p : HostPort) (a : Nat) (b : Byte) : HostPort :=
  { p.yield with ram := Memory.write p.yield.ram a b }

/-- Engine reads of `n` bytes in ascending order (log 12). -/
def HostPort.engineReads (p : HostPort) (a : Nat) : Nat → List Byte × HostPort
  | 0 => ([], p)
  | n + 1 =>
    let one := p.engineRead a
    let more := one.2.engineReads (a + 1) n
    (one.1 :: more.1, more.2)

/-- Engine writes of bytes, in ascending address order. That order is the model's own choice (DESIGN CHOICE,
log 12): R158 and R170 put the marker and the serial last, and say nothing of the bytes before them. -/
def HostPort.engineWrites (p : HostPort) (a : Nat) : List Byte → HostPort
  | [] => p
  | b :: rest => (p.engineWrite a b).engineWrites (a + 1) rest

/-- A data byte at `addr` is the next one of a write transaction in progress, at its counter (R176). -/
def HostPort.continuesWrite (p : HostPort) (addr : Nat) : Bool :=
  match p.spi with
  | some t => t.isWrite && t.counter.toNat == addr
  | none => false

/-- Whether the port serves a data byte at `addr` (R176): while RESET_N is released, and as the next byte
of a write only where the write in progress stands at that address. A read may come to any address by its
earlier bytes, which have no command (log 13). -/
def HostPort.serves (p : HostPort) (via : SpiVia) (isWrite : Bool) (addr : Nat) : Bool :=
  !p.resetHeld && (via.begins || !isWrite || p.continuesWrite addr)

/-- The transaction after a data byte at `addr`: the counter goes on by one, from 0xFFFF to 0, and a rise of
SSN ends it (R176). -/
def spiAfter (via : SpiVia) (isWrite : Bool) (addr : Nat) : Option SpiTransaction :=
  if via.ends then none else some { isWrite := isWrite, counter := BitVec.ofNat 16 addr + 1 }

/-- One data byte of an SPI transaction at address `addr`: the part's port after it, or none where no
such byte is served (R176). -/
def HostPort.spiByte (p : HostPort) (via : SpiVia) (isWrite : Bool) (addr : Nat) : Option HostPort :=
  if p.serves via isWrite addr then some { p with spi := spiAfter via isWrite addr } else none

/-- The address of a data byte of a transaction, counted from 0: the counter starts at the given address
and goes from 0xFFFF to 0 (R176). -/
def spiAddress (start : Word16) (place : Nat) : Nat := (start + BitVec.ofNat 16 place).toNat

/-- An SPI byte that accesses a register: every earlier SPI byte has been taken before it exists (R176, R178). -/
def State.registerByte (s : State) (via : SpiVia) (isWrite : Bool) (addr : Nat) : Option State :=
  (s.port.spiByte via isWrite addr).map (fun p => s.setPort p.drain)

/-- What a read of an address returns (R177, R179, Table 11.2). -/
def State.portRead (s : State) (addr : Nat) : Byte :=
  if addr < Config.ramEnd then Memory.read s.port.drain.ram addr
  else
    match addr with
    | 0x4000 => 0x4C
    | 0x4001 => 0x4A
    | 0x4002 => 0x04
    | 0x4003 => 0x40
    | 0x4004 => byteOf s.station.life.code
    | 0x4005 => byteOf s.station.startError
    | 0x4006 | 0x4007 | 0x4008 => 0
    | 0x4009 => s.intStatus
    | 0x400A => byteOf s.notice.unread
    | 0x400B => byteOf s.notice.backlog.length
    | 0x400C => highByte s.station.tickCount
    | 0x400D => s.port.tickLatch
    | 0x400E | 0x400F => 0
    | _ => 0xFF

/-- What MISO carries for the data byte at place `place` of a transaction with an instruction byte and an
address (R176): the byte read, 0xFF for an instruction that is no instruction, and nothing that the spec
gives for a write or while RESET_N is asserted. Neither a read of another register than 0x400C nor an
unknown instruction changes state. -/
def State.miso (s : State) (instruction : Byte) (start : Word16) (place : Nat) : Option Byte :=
  if s.port.resetHeld || instruction == 0x01 then none
  else if instruction == 0x02 then some (s.portRead (spiAddress start place))
  else some 0xFF

/-! ## Object Directory (R1, R8, R11, R13) -/

/-- The entry for an object number (R8). -/
def lookup (d : List Entry) (n : Nat) : Option Entry := d.find? (fun e => e.object == n)

/-- Insertion at the place that the object number determines (R11). -/
def insertEntry : List Entry → Entry → List Entry
  | [], e => [e]
  | f :: rest, e => if e.object < f.object then e :: f :: rest else f :: insertEntry rest e

/-- Removal: the entries around close up (R13). -/
def eraseEntry (d : List Entry) (n : Nat) : List Entry := d.filter (fun e => e.object != n)

/-- One request at one entry, applied whole (R7). -/
def updateEntry (d : List Entry) (n : Nat) (f : Entry → Entry) : List Entry :=
  d.map (fun e => if e.object = n then f e else e)

/-- The entry for an object number. -/
def State.entry (s : State) (n : Nat) : Option Entry := lookup s.directory n

/-- The PRODUCE part of an entry. -/
def Entry.produce (e : Entry) : Option Produce :=
  match e.role with
  | .produce p => some p
  | .consume _ => none

/-- The CONSUME part of an entry. -/
def Entry.consume (e : Entry) : Option Consume :=
  match e.role with
  | .produce _ => none
  | .consume c => some c

/-- The PRODUCE entry for an object number, if there is one. -/
def State.produce (s : State) (n : Nat) : Option Produce := (s.entry n).bind Entry.produce

/-- The CONSUME entry for an object number, if there is one. -/
def State.consume (s : State) (n : Nat) : Option Consume := (s.entry n).bind Entry.consume

/-- A change of a PRODUCE part. -/
def Entry.mapProduce (f : Produce → Produce) (e : Entry) : Entry :=
  match e.role with
  | .produce p => { e with role := .produce (f p) }
  | .consume _ => e

/-- A change of a CONSUME part. -/
def Entry.mapConsume (f : Consume → Consume) (e : Entry) : Entry :=
  match e.role with
  | .produce _ => e
  | .consume c => { e with role := .consume (f c) }

/-- One request at the PRODUCE entry of `n` (R7). -/
def State.updProduce (s : State) (n : Nat) (f : Produce → Produce) : State :=
  s.setDirectory (updateEntry s.directory n (Entry.mapProduce f))

/-- One request at the CONSUME entry of `n` (R7). -/
def State.updConsume (s : State) (n : Nat) (f : Consume → Consume) : State :=
  s.setDirectory (updateEntry s.directory n (Entry.mapConsume f))

/-- The object numbers of the PRODUCE entries, ascending (R145, R148). -/
def State.producedObjects (s : State) : List Nat :=
  (s.directory.filter (fun e => e.produce.isSome)).map Entry.object

/-! ## Replica Store (Chapter 2) -/

/-- The other way of a set. -/
def Way.other : Way → Way
  | .way0 => .way1
  | .way1 => .way0

/-- The set of an object (R19). -/
def setIndex (n : Nat) : Fin 64 := ⟨n % 64, Nat.mod_lt n (by decide)⟩

/-- The set of an object, as it stands. -/
def State.setOf (s : State) (n : Nat) : ReplicaSet := s.store.get (setIndex n)

/-- Replace the set of an object. -/
def State.putSet (s : State) (n : Nat) (x : ReplicaSet) : State :=
  s.setStore (s.store.set (setIndex n) x)

/-- The line of a way. -/
def ReplicaSet.line (x : ReplicaSet) : Way → Line
  | .way0 => x.way0
  | .way1 => x.way1

/-- Replace the line of a way. -/
def ReplicaSet.putLine (x : ReplicaSet) (w : Way) (l : Line) : ReplicaSet :=
  match w with
  | .way0 => { x with way0 := l }
  | .way1 => { x with way1 := l }

/-- A touch of a way: the other way becomes the older one (R23). -/
def ReplicaSet.touch (x : ReplicaSet) (w : Way) : ReplicaSet := { x with older := w.other }

/-- A line that an allocation may take (R24). -/
def Line.eligible (l : Line) : Bool := !l.pinned && !l.locked

/-- The choice of a way for a new holder, none where the allocation fails (R24). -/
def ReplicaSet.choose (x : ReplicaSet) : Option Way :=
  if !x.way0.valid then some .way0
  else if !x.way1.valid then some .way1
  else
    match x.way0.eligible, x.way1.eligible with
    | true, true => some x.older
    | true, false => some .way0
    | false, true => some .way1
    | false, false => none

/-- The number of locked ways of a set (Table 2.5). -/
def ReplicaSet.lockedWays (x : ReplicaSet) : Nat :=
  (if x.way0.locked then 1 else 0) + (if x.way1.locked then 1 else 0)

/-- A newly allocated line: length 0 and zero bytes (R25). -/
def Line.allocated (n : Nat) (pinned : Bool) : Line :=
  { valid := true, object := n, length := 0, payload := linePayload [], pinned := pinned,
    locked := false }

/-- A payload written into a line (R18, R29, R30). -/
def Line.store (l : Line) (payload : List Byte) : Line :=
  { l with length := payload.length, payload := linePayload payload }

/-- A freed line: invalid, marks clear (R33). -/
def Line.freed (l : Line) : Line := { l with valid := false, pinned := false, locked := false }

/-- The line that an entry holds (R2). -/
def State.lineOf (s : State) (e : Entry) : Option Line :=
  e.line.map (fun w => (s.setOf e.object).line w)

/-- The line that the entry of an object holds. -/
def State.objectLine (s : State) (n : Nat) : Option Line := (s.entry n).bind s.lineOf

/-- Write a payload into the line of an object's entry and touch its way (R29, R30). -/
def State.storePayload (s : State) (n : Nat) (payload : List Byte) : State :=
  match (s.entry n).bind Entry.line with
  | none => s
  | some w =>
    s.putSet n (((s.setOf n).putLine w (((s.setOf n).line w).store payload)).touch w)

/-- Touch the way of an object's entry (R23, R31). -/
def State.touchLine (s : State) (n : Nat) : State :=
  match (s.entry n).bind Entry.line with
  | none => s
  | some w => s.putSet n ((s.setOf n).touch w)

/-- Set or clear the locked mark of the line of an object's entry (R32). -/
def State.markLocked (s : State) (n : Nat) (locked : Bool) : State :=
  match (s.entry n).bind Entry.line with
  | none => s
  | some w =>
    s.putSet n ((s.setOf n).putLine w { (s.setOf n).line w with locked := locked })

/-- Removal of an entry, with its line freed (R13, R33). -/
def State.removeEntry (s : State) (n : Nat) : State :=
  let freed :=
    match (s.entry n).bind Entry.line with
    | none => s
    | some w => s.putSet n ((s.setOf n).putLine w ((s.setOf n).line w).freed)
  freed.setDirectory (eraseEntry freed.directory n)

/-! ## Random draws (R121, R122) -/

/-- One advance of the generator: the new top bit is the exclusive OR of bits 0, 2, 3 and 5 (R122). -/
def rngAdvance (r : Word16) : Word16 :=
  let bit := ((r.getLsbD 0 ^^ r.getLsbD 2) ^^ r.getLsbD 3) ^^ r.getLsbD 5
  (r >>> 1) ||| (if bit then 0x8000 else 0)

/-- The value of a draw from 0 to 2^k − 1: the low k bits after the advance (R122). -/
def drawValue (r : Word16) (k : Nat) : Nat := r.toNat % 2 ^ k

/-- Exponent of a DATA deferral (R121, Table 7.3). -/
def dataExponent (attempts : Nat) : Nat := min 7 (2 + attempts)

/-- Whether a new draw is in the CONTROL class (R121). -/
def Contention.controlClass (c : Contention) : Bool :=
  (match c.inHand with
   | some (.control _ _) => true
   | _ => false)
  || !c.queue.isEmpty

/-- The deferral of a new draw; the generator has just advanced to `r` (R121). -/
def Contention.deferralOf (c : Contention) (r : Word16) : Nat :=
  if c.controlClass then drawValue r 2 else 4 + drawValue r (dataExponent c.attempts)

/-! ## Control queue (R129, R130, R131) -/

/-- Command-originated frames are CLAIM, RELINQUISH and PULL (R129). -/
def CtlFrame.fromCommand : CtlFrame → Bool
  | .claim _ | .relinquish _ | .pull _ => true
  | .dispute _ | .hold _ => false

/-- A HOLD frame. -/
def CtlFrame.isHold : CtlFrame → Bool
  | .hold _ => true
  | _ => false

/-- A command place is free (R129). -/
def commandPlaceFree (queue : List CtlFrame) : Bool :=
  (queue.filter CtlFrame.fromCommand).length < Config.commandPlaces

/-- An automatic place is free (R129). -/
def automaticPlaceFree (queue : List CtlFrame) : Bool :=
  (queue.filter (fun f => !f.fromCommand)).length < Config.automaticPlaces

/-- The frame in hand is a DISPUTE for `n` that is not being sent (R130). -/
def Contention.disputeInHand (c : Contention) (n : Nat) : Bool :=
  c.state != .sending &&
  (match c.inHand with
   | some (.control f _) => f == .dispute n
   | _ => false)

/-- A DISPUTE request (R130). -/
def Contention.requestDispute (c : Contention) (n : Nat) : Contention :=
  if c.queue.contains (.dispute n) || c.disputeInHand n || !automaticPlaceFree c.queue then c
  else { c with queue := c.queue ++ [.dispute n] }

/-- The frame in hand is a HOLD that is not being sent (R130). -/
def Contention.holdInHand (c : Contention) : Bool :=
  c.state != .sending &&
  (match c.inHand with
   | some (.control f _) => f.isHold
   | _ => false)

/-- A HOLD request of length `n`, by the cases of R130 in their order. -/
def Contention.requestHold (c : Contention) (n : Nat) : Contention :=
  if c.queue.any CtlFrame.isHold then
    { c with queue := c.queue.map (fun f => if f.isHold then .hold n else f) }
  else if c.holdInHand then { c with inHand := some (.control (.hold n) false) }
  else if c.pendingHold.isSome then { c with pendingHold := some n }
  else if automaticPlaceFree c.queue then { c with queue := c.queue ++ [.hold n] }
  else { c with pendingHold := some n }

/-- An automatic place has become free: the pending HOLD is placed (R131). -/
def Contention.placePendingHold (c : Contention) : Contention :=
  match c.pendingHold with
  | none => c
  | some n => { c with queue := c.queue ++ [.hold n], pendingHold := none }

/-- The frame in hand is discarded and the unit goes to IDLE (R128). -/
def Contention.dropInHand (c : Contention) : Contention :=
  { c with inHand := none, attempts := 0, state := .idle }

/-! ## Notices and the own hold (R134, R168, R169) -/

/-- States in which the high-mark test is made and the part has work (R119, R134). -/
def Life.transmits : Life → Bool
  | .active | .leaving => true
  | _ => false

/-- The high-mark test (R134). -/
def State.highMarkTest (s : State) : State :=
  if s.contention.ownHold = .off ∧ s.station.life.transmits = true
      ∧ s.cfg.highMark ≤ s.notice.backlog.length then
    s.setContention { s.contention.requestHold s.cfg.holdLength with ownHold := .starting }
  else s

/-- The low 16 bits of the tick count (R167). -/
def State.stamp (s : State) : Word16 := BitVec.ofNat 16 s.station.tickCount

/-- A posted notice joins the tail of the backlog, or is discarded and counted (R168); a rise of B is
reported (R169). -/
def State.post (s : State) (n : Notice) : State :=
  if s.notice.backlog.length < Config.backlogCapacity then
    (s.setNotice { s.notice with backlog := s.notice.backlog ++ [n] }).highMarkTest
  else s.setNotice { s.notice with lost := min Config.maxLost (s.notice.lost + 1) }

/-- A notice of a kind that concerns the station: no object, no payload (Tables 7.7, 8.5, R168). -/
def State.stationNotice (s : State) (kind : NoticeKind) (station detail : Nat) (tag : Word16) : Notice :=
  { kind := kind, object := 0, station := station, seq := 0, detail := detail, length := 0, tag := tag,
    stamp := s.stamp, first := firstFour [] }

/-- HOLD_ENDED with its detail (Table 7.7). -/
def State.postHoldEnded (s : State) (detail : Nat) : State :=
  s.post (s.stationNotice .holdEnded s.own detail 0)

/-- A fall of B to `b` is reported: at the low mark it ends a hold in effect (R134). -/
def State.reportFall (s : State) (b : Nat) : State :=
  if (s.contention.ownHold = .on ∨ s.contention.ownHold = .renewing) ∧ b ≤ s.cfg.lowMark then
    (s.setContention
      { s.contention.requestHold 0 with ownHold := .stopping, ownExpiry := 0, expiryOwed := false }).postHoldEnded 0
  else s

/-- The station's binding as a notice shows it: 0xFF when UNBOUND (Tables 2.4, 1.8). -/
def Binding.station : Binding → Nat
  | .unbound => noStation
  | .bound t | .orphaned t => t

/-- An ownership notice for the entry of `n`, with the committed sequence and the line as they stand
(R74, Table 4.3). -/
def State.ownershipNotice (s : State) (n : Nat) (kind : NoticeKind) (station : Nat) (cause : Cause)
    (tag : Word16) : Notice :=
  { kind := kind, object := n, station := station
    seq := ((s.produce n).bind Produce.committed).getD 0
    detail := cause.code
    length := ((s.objectLine n).map Line.length).getD 0
    tag := tag, stamp := s.stamp
    first := firstFour (((s.objectLine n).map Line.payload).getD []) }

/-- Post an ownership notice (R74). -/
def State.postOwnership (s : State) (n : Nat) (kind : NoticeKind) (station : Nat) (cause : Cause)
    (tag : Word16) : State :=
  s.post (s.ownershipNotice n kind station cause tag)

/-! ## Allocation and eviction (R24 to R26) -/

/-- The EVICTED notice for the holder of a line (Table 2.4). -/
def State.evictedNotice (s : State) (l : Line) (c : Consume) (detail : Nat) (tag : Word16) : Notice :=
  { kind := .evicted, object := l.object, station := c.binding.station, seq := c.lastSeq.getD 0
    detail := detail, length := l.length, tag := tag, stamp := s.stamp, first := firstFour l.payload }

/-- Eviction of the holder of line `l` (R26). -/
def State.evict (s : State) (l : Line) (detail : Nat) (tag : Word16) : State :=
  match s.consume l.object with
  | none => s
  | some c =>
    let cut := s.setDirectory (updateEntry s.directory l.object (fun e =>
      { (e.mapConsume (fun c => { c with replica := .absent, lastSeq := none })) with line := none }))
    if c.notify = .none then cut else cut.post (s.evictedNotice l c detail tag)

/-- Allocation of a line in the set of `n` for a new holder: the way and the state after it, none where
it fails (R24, R25). The caller sets the holder's line field in the same happening. -/
def State.allocate (s : State) (n : Nat) (pinned : Bool) (detail : Nat) (tag : Word16) :
    Option (Way × State) :=
  match (s.setOf n).choose with
  | none => none
  | some w =>
    let old := (s.setOf n).line w
    let cleared := if old.valid then s.evict old detail tag else s
    some (w, cleared.putSet n (((cleared.setOf n).putLine w (Line.allocated n pinned)).touch w))

/-! ## Claim slots and handing on (R52, R54, R55, R72) -/

/-- The lowest-numbered free claim slot (R52). -/
def freeSlot (slots : Vector (Option ClaimSlot) 4) : Option (Fin 4) :=
  [0, 1, 2, 3].find? (fun k => (slots.get k).isNone)

/-- Fill or free a claim slot (R52). -/
def State.putSlot (s : State) (k : Fin 4) (x : Option ClaimSlot) : State :=
  s.setOwnership { s.ownership with slots := s.ownership.slots.set k x }

/-- The claim slot of a PRODUCE entry, as it stands. -/
def State.slotOf (s : State) (p : Produce) : Option ClaimSlot :=
  p.claimSlot.bind (fun k => s.ownership.slots.get k)

/-- The tag that a claim's slot holds (R52). -/
def State.slotTag (s : State) (p : Produce) : Word16 := ((s.slotOf p).map ClaimSlot.tag).getD 0

/-- Free the claim slot of an entry; its claim slot field becomes absent (R52). -/
def State.releaseSlot (s : State) (n : Nat) : State :=
  match (s.produce n).bind Produce.claimSlot with
  | none => s
  | some k => (s.putSlot k none).updProduce n (fun p => { p with claimSlot := none })

/-- A RELINQUISH frame that enters the control queue sets its entry's field (R55, R72). -/
def State.noteQueued (s : State) (f : CtlFrame) : State :=
  match f with
  | .relinquish n => s.updProduce n (fun p => { p with releaseQueued := true })
  | _ => s

/-- Place a command-originated frame at the tail of the control queue (R129). -/
def State.placeCommand (s : State) (f : CtlFrame) : State :=
  (s.setContention { s.contention with queue := s.contention.queue ++ [f] }).noteQueued f

/-- A CLAIM or RELINQUISH frame is handed on: to the control queue if a command place is free, and to
the wait list otherwise (R54, R55, R72). -/
def State.handOn (s : State) (f : CtlFrame) : State :=
  if commandPlaceFree s.contention.queue then s.placeCommand f
  else s.setOwnership { s.ownership with waitList := s.ownership.waitList ++ [f] }

/-- A command place has become free: the head of the wait list moves into it (R55, R131). -/
def State.moveWaiting (s : State) : State :=
  match s.ownership.waitList with
  | [] => s
  | f :: rest => (s.setOwnership { s.ownership with waitList := rest }).placeCommand f

/-- What follows when frame `f` has left the control queue and freed its place (R131). -/
def State.placeFreed (s : State) (f : CtlFrame) : State :=
  if f.fromCommand then s.moveWaiting else s.setContention s.contention.placePendingHold

/-! ## Publication queue (R76 to R78) -/

/-- Append with REPEAT clear: a queued item keeps its place and loses its REPEAT flag (R77). -/
def State.appendNew (s : State) (n : Nat) : State :=
  let queue :=
    if s.pubQueue.any (fun it => it.object == n) then
      s.pubQueue.map (fun it => if it.object = n then { it with rep := false } else it)
    else s.pubQueue ++ [{ object := n, rep := false }]
  (s.setPubQueue queue).updProduce n (fun p => { p with queued := .yes false })

/-- Append with REPEAT set, for a refresh or a pull answer, where the value is committed and the object
neither queued nor in flight (R84, R85). -/
def State.appendRepeat (s : State) (n : Nat) : State :=
  match s.produce n with
  | none => s
  | some p =>
    if p.committed.isSome && p.queued == .no && p.inFlight == .no then
      (s.setPubQueue (s.pubQueue ++ [{ object := n, rep := true }])).updProduce n
        (fun p => { p with queued := .yes true })
    else s

/-- Removal of the object's item from wherever it stands (R78). -/
def State.dequeue (s : State) (n : Nat) : State :=
  (s.setPubQueue (s.pubQueue.filter (fun it => it.object != n))).updProduce n
    (fun p => { p with queued := .no })

end Sys2Proof.Machine
end

