-- ==== Sys2Proof/Machine/Protocol.lean ====
section
/-! DEFINITION. The shared operations of the protocols: withdrawal and stripping, the end of claims,
deposition and release, bundles and the outcomes of a DATA frame, acceptance of a record, entry to MUTED
and to DETACHED, and the end of a happening at the Contention Unit. -/

namespace Sys2Proof.Machine

/-! ## Work and draws (R119, R121) -/

/-- Every hold-table entry is 0 (R119). -/
def Contention.holdsClear (c : Contention) : Bool := c.holdTable.toList.all (· == 0)

/-- The unit has work (R119). -/
def State.hasWork (s : State) : Bool :=
  (!s.contention.queue.isEmpty && s.station.life.transmits)
  || (!s.pubQueue.isEmpty && s.station.life == .active && s.contention.holdsClear)

/-- A new draw (R121, R122): the deferral, and the unit with the generator advanced. -/
def Contention.draw (c : Contention) : Nat × Contention :=
  (c.deferralOf (rngAdvance c.rng), { c with rng := rngAdvance c.rng })

/-- A unit that is IDLE and has work leaves IDLE with a new draw (R119). -/
def State.leaveIdle (s : State) : State :=
  if s.contention.state = .idle ∧ s.hasWork = true then
    let drawn := s.contention.draw
    s.setContention { drawn.2 with
      state := if s.contention.quiet then .deferring drawn.1 false else .waitQuiet drawn.1 }
  else s

/-! ## Withdrawal (R128, R131) -/

/-- Withdrawal of a control frame from the control queue (R131). -/
def State.withdrawQueued (s : State) (f : CtlFrame) : State :=
  if s.contention.queue.contains f then
    (s.setContention { s.contention with queue := s.contention.queue.erase f }).placeFreed f
  else s

/-- The frame in hand is discarded; the unit goes to IDLE, and at once on with a new draw if it has work
(R128, R119). -/
def State.discardInHand (s : State) : State := (s.setContention s.contention.dropInHand).leaveIdle

/-- Withdrawal of a control frame in hand: marked while it is being sent, discarded otherwise (R128). -/
def State.withdrawInHand (s : State) (f : CtlFrame) : State :=
  match s.contention.inHand with
  | some (.control g _) =>
    if g = f then
      (if s.contention.state = .sending then
        s.setContention { s.contention with inHand := some (.control g true) }
       else s.discardInHand)
    else s
  | some (.data _) | none => s

/-- Withdrawal of a frame from wherever it stands: the wait list, the control queue, or in hand (R64,
R65, R69, R128, R131). Where a DISPUTE stands in the queue and unsent in hand at once, no rule says which is withdrawn
first: that the queue comes first, so that the discard finds what is left of the queue as its work, is the model's own
choice (DESIGN CHOICE, log 34). -/
def State.withdraw (s : State) (f : CtlFrame) : State :=
  ((s.setOwnership
    { s.ownership with waitList := s.ownership.waitList.filter (· != f) }).withdrawQueued
      f).withdrawInHand f

/-! ## The frame in hand (R86 to R94) -/

/-- The frame in hand as the part drives it: its source is the station's own number (R88, R129). -/
def State.drivenFrame (s : State) : Option (List Byte) := s.contention.inHand.map (InHand.bytes · s.own)

/-- Whether a record reaches an entry: the entry's in-flight field marks this record (05 section 5.6). -/
def Produce.marks (p : Produce) (r : TxRecord) : Bool :=
  p.inFlight == (if r.rep then .repeating else .tentative r.seq)

/-- The record's entry, if the record reaches it. -/
def State.reached (s : State) (r : TxRecord) : Option Produce :=
  (s.produce r.object).bind (fun p => if p.marks r then some p else none)

/-- A record leaves the frame without success: mark and tentative sequence dropped, and pending set again
for REPEAT clear (R90, R92, R93, R94). -/
def Produce.unsent (r : TxRecord) (p : Produce) : Produce :=
  { p with inFlight := .no, pending := p.pending || !r.rep }

/-- Stripping of one object's record from a DATA frame in hand that is not being sent; an emptied frame
is discarded (R93, R128). -/
def State.stripRecord (s : State) (n : Nat) : State :=
  match s.contention.inHand with
  | some (.data records) =>
    match s.contention.state, records.find? (fun r => r.object == n) with
    | .sending, _ => s
    | _, none => s
    | _, some r =>
      let left := records.filter (fun r => r.object != n)
      (if left.isEmpty then s.discardInHand
       else s.setContention { s.contention with inHand := some (.data left) }).updProduce n
        (Produce.unsent r)
  | _ => s

/-- The record's entry is OWNED and the record reaches it (R94). -/
def State.keeps (s : State) (r : TxRecord) : Bool :=
  match s.reached r with
  | some p => p.ownership == .owned
  | none => false

/-- A record that stripping removes changes its entry if it reaches it (R94). -/
def State.unsend (s : State) (r : TxRecord) : State :=
  match s.reached r with
  | some _ => s.updProduce r.object (Produce.unsent r)
  | none => s

/-- Stripping at a collision that is followed by a further attempt: the records that stay, and the state
after the removed ones (R94). -/
def State.stripAll (s : State) (records : List TxRecord) : List TxRecord × State :=
  (records.filter s.keeps, (records.filter (fun r => !s.keeps r)).foldl State.unsend s)

/-- The staged payload of an object: the value in its line (R87). -/
def State.stagedPayload (s : State) (n : Nat) : List Byte :=
  match s.objectLine n with
  | some l => l.payload.take l.length
  | none => []

/-- The record that an item becomes (R87). -/
def State.bundleRecord (s : State) (it : PubItem) : TxRecord :=
  let committed := (s.produce it.object).bind Produce.committed
  { object := it.object, rep := it.rep
    seq := if it.rep then committed.getD 0 else (committed.map (· + 1)).getD 0
    payload := s.stagedPayload it.object }

/-- Bundle building from the head of the queue: the records taken and the items left (R86). `body` and
`count` are the body and the records so far. -/
def State.takeBundle (s : State) : List PubItem → (body count : Nat) → List TxRecord × List PubItem
  | [], _, _ => ([], [])
  | it :: rest, body, count =>
    if body + 4 + (s.bundleRecord it).payload.length ≤ Config.maxBody ∧ count < Config.maxRecords then
      let more := s.takeBundle rest (body + 4 + (s.bundleRecord it).payload.length) (count + 1)
      (s.bundleRecord it :: more.1, more.2)
    else ([], it :: rest)

/-- The entry of a bundled record (R87). -/
def Produce.bundled (r : TxRecord) (p : Produce) : Produce :=
  { p with queued := .no, pending := false
           inFlight := if r.rep then .repeating else .tentative r.seq }

/-- The bundle becomes the frame in hand and is sent (R86 to R88, R123). -/
def State.buildBundle (s : State) : State :=
  let bundle := s.takeBundle s.pubQueue 0 0
  let marked := bundle.1.foldl (fun t r => t.updProduce r.object (Produce.bundled r))
    (s.setPubQueue bundle.2)
  marked.setContention
    { marked.contention with
      inHand := some (.data bundle.1), attempts := 0, state := .sending, quiet := false }

/-- The entry of a record that ended successfully (R89). -/
def Produce.commit (r : TxRecord) (p : Produce) : Produce :=
  { p with inFlight := .no
           committed := if r.rep then p.committed else some r.seq
           refreshCounter := if p.ownership = .owned then 0 else p.refreshCounter }

/-- Success of a DATA frame at one record (R89). -/
def State.commitRecord (s : State) (r : TxRecord) : State :=
  match s.reached r with
  | some _ => s.updProduce r.object (Produce.commit r)
  | none => s

/-- The record returns to the queue: it reaches an OWNED entry whose object is not queued (R90). -/
def State.returns (s : State) (r : TxRecord) : Bool :=
  match s.reached r with
  | some p => p.ownership == .owned && p.queued == .no
  | none => false

/-- Abandonment or set-aside at one record's entry (R90, R92). -/
def State.returnRecord (s : State) (r : TxRecord) : State :=
  match s.reached r with
  | some p =>
    s.updProduce r.object (fun q =>
      { q.unsent r with
        queued := if p.ownership = .owned ∧ p.queued = .no then .yes r.rep else q.queued })
  | none => s

/-- Abandonment or set-aside of the records of a DATA frame: the returning ones go to the head of the
queue in frame order (R90, R92). -/
def State.returnRecords (s : State) (records : List TxRecord) : State :=
  let back := (records.filter s.returns).map (fun r => { object := r.object, rep := r.rep : PubItem })
  records.foldl State.returnRecord (s.setPubQueue (back ++ s.pubQueue))

/-- TX_ABANDONED for a DATA frame, with its cause 1 RETRY_LIMIT or 2 LATE (R91). -/
def State.postAbandoned (s : State) (records : List TxRecord) (cause : Nat) : State :=
  match records with
  | [] => s
  | r :: _ =>
    s.post { kind := .txAbandoned, object := r.object, station := s.own, seq := r.seq, detail := cause
             length := r.payload.length, tag := 0, stamp := s.stamp, first := firstFour r.payload }

/-! ## Claims, deposition and release (R56, R65 to R73) -/

/-- A claim is lost to `source` (R65). -/
def State.loseClaim (s : State) (n source : Nat) (cause : Cause) : State :=
  let tag := ((s.produce n).map s.slotTag).getD 0
  let quiet := (s.withdraw (.claim n)).withdraw (.dispute n)
  ((quiet.releaseSlot n).postOwnership n .claimLost source cause tag).removeEntry n

/-- The object leaves the queue and an unsent frame in hand, and its unsent DISPUTE is withdrawn, when an
entry stops being OWNED (R66, R70), in the order in which those rules list the steps (DESIGN CHOICE, log 34). -/
def State.stopPublishing (s : State) (n : Nat) : State :=
  ((s.dequeue n).stripRecord n).withdraw (.dispute n)

/-- An OWNED entry is deposed by `source` (R66). That its DISPUTE is withdrawn before OWNERSHIP_LOST is posted is the
model's own choice (DESIGN CHOICE, log 34). -/
def State.depose (s : State) (n source : Nat) (cause : Cause) : State :=
  ((s.stopPublishing n).updProduce n (fun p => { p with ownership := .deposed })).postOwnership
    n .ownershipLost source cause 0

/-- A DISPUTE request of the Ownership Unit (R64). -/
def State.requestDispute (s : State) (n : Nat) : State :=
  s.setContention (s.contention.requestDispute n)

/-- The entry becomes RELINQUISHING and hands on its RELINQUISH frame (R69, R70, R72). -/
def State.beginRelease (s : State) (n : Nat) (tag : Word16) : State :=
  (s.updProduce n (fun p =>
    { p with ownership := .relinquishing, releaseTag := some tag, releaseQueued := false })).handOn
      (.relinquish n)

/-- The CLAIM frame of the claim is being sent: in hand, SENDING, not marked withdrawn (R69, R128). -/
def State.claimOnLine (s : State) (n : Nat) : Bool :=
  s.contention.state == .sending && s.contention.inHand == some (.control (.claim n) false)

/-- The claim has reached the line: its frame is being sent or its window is running (R69). -/
def State.claimHeardByPeers (s : State) (n : Nat) (p : Produce) : Bool :=
  match (s.slotOf p).map ClaimSlot.phase with
  | some (.window _) => true
  | _ => s.claimOnLine n

/-- RELINQUISH of a CLAIMING entry (R69). That the RELINQUISH frame of a claim that has
reached the line is handed on before the DISPUTE is withdrawn, so that a pending HOLD which that withdrawal places
stands behind it, and that the CLAIM of any other claim is withdrawn before the DISPUTE, is the model's own choice
(DESIGN CHOICE, log 34). -/
def State.releaseClaim (s : State) (n : Nat) (p : Produce) (tag : Word16) : State :=
  let failed := (s.releaseSlot n).postOwnership n .claimFailed noStation .released (s.slotTag p)
  if s.claimHeardByPeers n p then
    ((failed.beginRelease n tag).withdraw (.dispute n)).withdraw (.claim n)
  else
    (((failed.withdraw (.claim n)).withdraw (.dispute n)).postOwnership
      n .relinquished noStation .ok tag).removeEntry n

/-- The effect of a RELINQUISH command with its tag, and of LEAVE at one entry (R68 to R71, R145). That the DISPUTE of
an OWNED entry is withdrawn before its RELINQUISH frame is handed on, so that a pending HOLD which that withdrawal
places stands ahead of it, is the model's own choice (R70; DESIGN CHOICE, log 34). -/
def State.release (s : State) (n : Nat) (tag : Word16) : State :=
  match s.produce n with
  | none => s
  | some p =>
    match p.ownership with
    | .claiming => s.releaseClaim n p tag
    | .owned => (s.stopPublishing n).beginRelease n tag
    | .relinquishing => s
    | .deposed => (s.postOwnership n .relinquished noStation .ok tag).removeEntry n

/-- The end of an unmarked CLAIM frame with success: the window begins (R56). -/
def State.beginWindow (s : State) (n : Nat) : State :=
  match s.produce n with
  | none => s
  | some p =>
    match p.ownership, p.claimSlot, s.slotOf p with
    | .claiming, some k, some slot =>
      if slot.phase = .awaitSend then
        s.putSlot k (some { slot with phase := .window s.cfg.claimWindow })
      else s
    | _, _, _ => s

/-- The abandonment of an unmarked CLAIM frame: trunk failure (R56). That the DISPUTE is withdrawn before CLAIM_FAILED
is posted is the model's own choice (DESIGN CHOICE, log 34). -/
def State.failClaim (s : State) (n : Nat) : State :=
  match s.produce n with
  | none => s
  | some p =>
    if p.ownership = .claiming then
      (((s.releaseSlot n).withdraw (.dispute n)).postOwnership n .claimFailed noStation .trunkFail
        (s.slotTag p)).removeEntry n
    else s

/-- The end of a RELINQUISH frame (R73). -/
def State.endRelease (s : State) (n : Nat) (cause : Cause) : State :=
  match s.produce n with
  | none => s
  | some p =>
    if p.ownership = .relinquishing ∧ p.releaseQueued = true then
      (s.postOwnership n .relinquished noStation cause (p.releaseTag.getD 0)).removeEntry n
    else s

/-! ## Outcomes of the own HOLD frames (R135) -/

/-- The own hold becomes `h`, with expiry `e`. -/
def State.setOwnHold (s : State) (h : OwnHold) (e : Nat) : State :=
  s.setContention { s.contention with ownHold := h, ownExpiry := e, expiryOwed := false }

/-- A HOLD frame of length `n` ends successfully (Table 7.6). -/
def State.holdSucceeded (s : State) (n : Nat) : State :=
  match s.contention.ownHold with
  | .starting =>
    (s.setOwnHold .on s.cfg.holdLength).post (s.stationNotice .holdStarted s.own 0 0)
  | .renewing => s.setOwnHold .on s.cfg.holdLength
  | .stopping => if n = 0 then (s.setOwnHold .off 0).highMarkTest else s
  | _ => s

/-- A HOLD frame of length `n` is abandoned (Table 7.6). -/
def State.holdAbandoned (s : State) (n : Nat) : State :=
  match s.contention.ownHold with
  | .starting => (s.setOwnHold .off 0).highMarkTest
  | .renewing => ((s.setOwnHold .off 0).postHoldEnded 2).highMarkTest
  | .stopping => if n = 0 then (s.setOwnHold .off 0).highMarkTest else s
  | _ => s

/-! ## Outcome of the frame in hand (R127, Table 7.4) -/

/-- Success of the frame in hand, reported to the block that owns its kind. -/
def State.reportSuccess (s : State) : State :=
  match s.contention.inHand with
  | none => s
  | some (.data records) => records.foldl State.commitRecord s
  | some (.control (.claim n) withdrawn) => if withdrawn then s else s.beginWindow n
  | some (.control (.relinquish n) _) => s.endRelease n .ok
  | some (.control (.hold n) _) => s.holdSucceeded n
  | some (.control (.dispute _) _) => s
  | some (.control (.pull _) _) => s

/-- Abandonment of the frame in hand with its cause, reported to the block that owns its kind. -/
def State.reportAbandonment (s : State) (cause : Nat) : State :=
  match s.contention.inHand with
  | none => s
  | some (.data records) => (s.returnRecords records).postAbandoned records cause
  | some (.control (.claim n) withdrawn) => if withdrawn then s else s.failClaim n
  | some (.control (.relinquish n) _) => s.endRelease n .trunkFail
  | some (.control (.hold n) _) => s.holdAbandoned n
  | some (.control (.dispute _) _) => s
  | some (.control (.pull _) _) => s

/-- The frame in hand becomes none, the attempt count 0, and the unit IDLE (R127, R128). -/
def State.dropFrame (s : State) : State := s.setContention s.contention.dropInHand

/-! ## The end of a happening (R119, R146) -/

/-- The three conditions that end LEAVING (R146). -/
def State.leaveDone (s : State) : Bool :=
  s.station.life == .leaving && s.producedObjects.isEmpty && s.contention.queue.isEmpty
    && s.contention.inHand.isNone

/-- Entry to DETACHED: LEFT, then HOLD_ENDED if a hold was ON (R137, R146). -/
def State.enterDetached (s : State) : State :=
  let left := (s.setStation { s.station with life := .detached }).post
    (s.stationNotice .left s.own 0 s.station.keptTag)
  let idle := left.setContention
    { left.contention with
      state := .idle, attempts := 0, ownHold := .off, ownExpiry := 0, expiryOwed := false }
  if left.contention.ownHold = .on then idle.postHoldEnded 3 else idle

/-- What stands at the end of every happening that can give the unit work or end LEAVING (R119, R146). -/
def State.settle (s : State) : State :=
  if s.leaveDone then s.enterDetached.leaveIdle else s.leaveIdle

/-! ## Entry to MUTED (R148) -/

/-- The content of the notice that the teardown posts for one entry, and its removal (R148 step 5). -/
def State.muteEntry (s : State) (n : Nat) : State :=
  match s.produce n with
  | none => s
  | some p =>
    if p.ownership = .claiming then
      ((s.releaseSlot n).postOwnership n .claimFailed noStation .muted (s.slotTag p)).removeEntry n
    else (s.postOwnership n .ownershipLost noStation .muted 0).removeEntry n

/-- The teardown at the Contention Unit (R148 step 3, R137). -/
def State.muteContention (s : State) : State :=
  let cleared := s.setContention
    { s.contention.dropInHand with
      queue := [], pendingHold := none, ownHold := .off, ownExpiry := 0, expiryOwed := false }
  if s.contention.ownHold = .on ∨ s.contention.ownHold = .renewing then cleared.postHoldEnded 3
  else cleared

/-- Entry to MUTED from the life-cycle state in force (R148). -/
def State.enterMuted (s : State) : State :=
  let muted := (s.setStation { s.station with life := .muted, joinRunning := false, joinOwed := false }).post
    (s.stationNotice .numberClash s.own s.station.life.code 0)
  let silent := muted.muteContention
  let emptied := (silent.setOwnership { silent.ownership with waitList := [] }).setPubQueue []
  emptied.producedObjects.foldl State.muteEntry emptied

/-! ## Acceptance of a record (R105 to R108) -/

/-- A consumption notice about a record from `source` with sequence `q` (Table 6.3, Table 2.5). -/
def State.recordNotice (s : State) (kind : NoticeKind) (n source : Nat) (q : Byte) (detail : Nat)
    (payload : List Byte) : Notice :=
  { kind := kind, object := n, station := source, seq := q, detail := detail, length := payload.length
    tag := 0, stamp := s.stamp, first := firstFour payload }

/-- The line for an accepted record: the one the entry holds, or a newly allocated one (R105 step 1). -/
def State.recordLine (s : State) (n : Nat) : Option State :=
  match (s.entry n).bind Entry.line with
  | some _ => some s
  | none =>
    (s.allocate n false 1 0).map (fun a =>
      a.2.setDirectory (updateEntry a.2.directory n (fun e => { e with line := some a.1 })))

/-- The binding notice that an acceptance from `source` posts (R105 step 2, Table 6.3). -/
def State.postBinding (s : State) (n source : Nat) (q : Byte) (payload : List Byte) :
    Binding → State
  | .unbound => s.post (s.recordNotice .bound n source q noStation payload)
  | .orphaned t => s.post (s.recordNotice .bound n source q t payload)
  | .bound t =>
    if t = source then s else s.post (s.recordNotice .ownerChanged n source q t payload)

/-- The Replica Store's comparison of a record with the replica (R29, R106). -/
def State.differs (s : State) (n : Nat) (replica : Replica) (payload : List Byte) : Bool :=
  replica == .absent ||
  (match s.objectLine n with
   | some l => l.length != payload.length || l.payload.take l.length != payload
   | none => true)

/-- Whether an accepted record posts UPDATED (R106). -/
def NotifyMode.wants (m : NotifyMode) (differs : Bool) : Bool :=
  match m with
  | .none => false
  | .change => differs
  | .all => true

/-- The detail of UPDATED (Table 6.3). -/
def updatedDetail (rep rebound : Bool) : Nat := (if rep then 1 else 0) + (if rebound then 2 else 0)

/-- The acceptance of a record at its CONSUME entry, by the steps of R105. `c` is the entry's CONSUME part
as the record found it. -/
def State.accept (s : State) (n : Nat) (c : Consume) (source : Nat) (rep : Bool) (q : Byte)
    (payload : List Byte) : State :=
  match s.recordLine n with
  | none => s.post (s.recordNotice .noLine n source q (s.setOf n).lockedWays payload)
  | some lined =>
    let bound := (lined.updConsume n (fun c => { c with binding := .bound source })).postBinding
      n source q payload c.binding
    let changed := bound.differs n c.replica payload
    let written := (bound.storePayload n payload).updConsume n (fun c =>
      { c with replica := .fresh, lastSeq := some q, age := 0, ageRunning := true })
    if c.notify.wants changed then
      written.post (written.recordNotice .updated n source q
        (updatedDetail rep (c.binding != .bound source)) payload)
    else written

/-- The age counter restarts (R104, R105 step 5). -/
def Consume.restartAge (c : Consume) : Consume := { c with age := 0, ageRunning := true }

/-- A record from the bound owner, by its sequence (R103, Table 6.2). -/
def State.checkSequence (s : State) (n : Nat) (c : Consume) (source : Nat) (rep : Bool) (q : Byte)
    (payload : List Byte) : State :=
  match c.replica, c.lastSeq with
  | .absent, _ | _, none => s.accept n c source rep q payload
  | _, some last =>
    if q = last then s.updConsume n Consume.restartAge
    else if q = last + 1 then s.accept n c source rep q payload
    else
      (s.post (s.recordNotice .gap n source q (q - last - 1).toNat payload)).accept
        n c source rep q payload

/-- A record judged by the binding of its CONSUME entry (R100, R101, Table 6.1). -/
def State.judgeRecord (s : State) (n : Nat) (c : Consume) (source : Nat) (rep : Bool) (q : Byte)
    (payload : List Byte) : State :=
  match c.binding with
  | .unbound | .orphaned _ => s.accept n c source rep q payload
  | .bound t =>
    if source = t then s.checkSequence n c source rep q payload
    else if source < t then s.accept n c source rep q payload
    else s.post (s.recordNotice .sourceConflict n source q t payload)

/-! ## The dispatch list (R9, R45, R46) -/

/-- Whether an item is handed to a block, by its kind and the lookup answer (Table 1.5). -/
def State.handsOn (s : State) : Item → Bool
  | .record _ n _ _ _ | .relinquish _ n => (s.entry n).isSome
  | .claim _ n | .dispute _ n | .pull _ n => (s.produce n).isSome
  | .hold _ _ => true

/-- The items from the first that is handed to a block on: the ones before it are ignored (R9). -/
def State.nextItems (s : State) : List Item := s.dispatch.dropWhile (fun it => !s.handsOn it)

/-- The first of some items has its turn: it is dropped if it is ignored (R9). -/
def State.meetFirst (s : State) : List Item → List Item
  | [] => []
  | it :: rest => if s.handsOn it then it :: rest else rest

/-- The turn of an ignored item at the front of the dispatch list: it is dropped (R9, R45, R46, log 6). -/
def State.dropIgnored (s : State) : State := s.setDispatch (s.meetFirst s.dispatch)

/-- The items of a frame arrive (R45, R46). The turn of every ignored item of an earlier frame that stands at the
front has come, because those go before any item of this frame. Where none waits before them, the first item has
its turn at the frame end; each later one has its own turn, after other happenings if any fall between (log 6). -/
def State.arrive (s : State) (items : List Item) : State :=
  s.setDispatch (match s.nextItems with
    | [] => s.meetFirst items
    | it :: rest => it :: rest ++ items)

end Sys2Proof.Machine
end

