-- ==== Sys2Proof/Machine/CommandRing.lean ====
section
/-! DEFINITION. The command ring (Chapter 9): examining a slot, taking a descriptor, its checks and its
completion, and the thirteen commands. -/

namespace Sys2Proof.Machine

/-! ## Examination and taking (R153 to R157) -/

/-- The address of the slot at the next-command index (R154). -/
def State.slotAddress (s : State) : Nat := s.cfg.cmdBase + 16 * s.command.index

/-- The taking of the descriptor at the index, while SCANNING and if the host has submitted it: the
descriptor and the state after its sixteen reads (R156, R157). -/
def State.taking (s : State) : Option (Descriptor × State) :=
  if s.command.scanning then
    let slot := s.port.engineReads s.slotAddress 16
    if (Descriptor.ofBytes slot.1).marker = markerSubmitted then
      some (Descriptor.ofBytes slot.1, s.setPort slot.2)
    else none
  else none

/-- The taking of a descriptor whose command code is `code` (R152). -/
def State.takingCode (s : State) (code : Byte) : Option (Descriptor × State) :=
  s.taking.bind (fun t => if t.1.code = code then some t else none)

/-- The index after this one, from the last slot back to slot 0 (R156). -/
def State.nextIndex (s : State) : Nat :=
  if s.command.index + 1 < s.cfg.cmdLength then s.command.index + 1 else 0

/-- The completion writes of a descriptor, the marker last, and the advance of the index (R156, R158). That
status, flags, length and detail are written in the order in which R158 names them is the model's own choice
(DESIGN CHOICE, log 12). -/
def State.complete (s : State) (status : Status) (flags : Byte) (length detail : Nat) : State :=
  let a := s.slotAddress
  let written :=
    ((((s.port.engineWrite (a + 2) status.code).engineWrite (a + 3) flags).engineWrite
      (a + 9) (byteOf length)).engineWrite (a + 12) (byteOf detail)).engineWrite a markerDone
  (s.setPort written.drain).setCommand { s.command with index := s.nextIndex }

/-- Completion with the length as given, detail 0 and no flags: every refusal, and most successes (R158,
Table 9.3). -/
def State.finish (s : State) (d : Descriptor) (status : Status) : State :=
  s.complete status (descriptorFlags false) d.length 0

/-- The status of the first check that fails (R157). Each check is paired with its status. -/
def firstFailure : List (Bool × Status) → Option Status
  | [] => none
  | (failed, status) :: rest => if failed then some status else firstFailure rest

/-- A command: refused with the first failing check, or carried out (R157, R160). -/
def State.perform (s : State) (d : Descriptor) (checks : List (Bool × Status))
    (carryOut : State → State) : State :=
  match firstFailure checks with
  | some status => s.finish d status
  | none => carryOut s

/-- EXAMINATION (R156): the slot at the index holds no submitted descriptor. -/
def execExamination (s : State) : Host.Outcome State Fault Refusal :=
  if s.command.scanning then
    let marker := s.port.engineRead s.slotAddress
    if marker.1 = markerSubmitted then .next s
    else
      .next ((s.setPort marker.2.drain).setCommand
        (if s.command.rescan then { s.command with rescan := false }
         else { s.command with scanning := false }))
  else .next s

/-- BAD_COMMAND (R152). -/
def execBadCommand (s : State) : Host.Outcome State Fault Refusal :=
  match s.taking with
  | none => .next s
  | some (d, t) => if commandCodes.contains d.code then .next s else .next (t.finish d .badCommand)

/-! ## Checks (R160, R161) -/

/-- BAD_OBJECT (Table 9.5). -/
def Descriptor.badObject (d : Descriptor) : Bool := Config.objectCount ≤ d.object

/-- The life-cycle check of CLAIM, WRITE and PULL (Table 8.2). -/
def State.producing (s : State) : Bool := s.station.life == .joining || s.station.life == .active

/-- The bytes from `b` to `b + n − 1` share none with a ring (R161). -/
def outsideRing (b n base length : Nat) : Bool :=
  length == 0 || b + n ≤ base || base + 16 * length ≤ b

/-- The buffer check for a byte count (R161). -/
def State.bufferPasses (s : State) (b n : Nat) : Bool :=
  n == 0 ||
  (Config.startRecordEnd ≤ b && b + n - 1 < Config.ramEnd
    && outsideRing b n s.cfg.cmdBase s.cfg.cmdLength
    && outsideRing b n s.cfg.noticeBase s.cfg.noticeLength)

/-- The checks of the commands that act on a CONSUME entry (Table 9.6). -/
def State.consumeChecks (s : State) (d : Descriptor) : List (Bool × Status) :=
  [ (d.badObject, .badObject),
    ((s.entry d.object).isNone, .noEntry),
    ((s.produce d.object).isSome, .roleConflict) ]

/-! ## Subscriber commands (Chapter 6) -/

/-- The checks of SUBSCRIBE (R98). -/
def State.subscribeChecks (s : State) (d : Descriptor) : List (Bool × Status) :=
  [ (d.badObject, .badObject),
    (2 < d.paramB, .badParameter),
    ((s.produce d.object).isSome, .roleConflict),
    ((s.consume d.object).isSome, .exists),
    (Config.directoryCapacity ≤ s.directory.length, .directoryFull) ]

/-- The notify mode that param B selects (R98). -/
def notifyOf (b : Nat) : NotifyMode :=
  match b with
  | 0 => .none
  | 1 => .change
  | _ => .all

/-- A new CONSUME entry (Table 1.7). A TICK that has come before the entry was created does not come to it, whatever it
still owes to other entries: the spec is silent there (DESIGN CHOICE, log 32). -/
def Descriptor.newConsume (d : Descriptor) : Entry :=
  { object := d.object, line := none, tickOwed := false
    role := .consume
      { binding := .unbound, replica := .absent, lastSeq := none, ageLimit := d.paramA, age := 0
        ageRunning := true, notify := notifyOf d.paramB } }

/-- SUBSCRIBE (R98). -/
def execSubscribe (s : State) : Host.Outcome State Fault Refusal :=
  match s.takingCode 0x01 with
  | none => .next s
  | some (d, t) =>
    .next (t.perform d (t.subscribeChecks d) (fun t =>
      (t.setDirectory (insertEntry t.directory d.newConsume)).finish d .ok))

/-- UNSUBSCRIBE (R99). -/
def execUnsubscribe (s : State) : Host.Outcome State Fault Refusal :=
  match s.takingCode 0x02 with
  | none => .next s
  | some (d, t) =>
    .next (t.perform d (t.consumeChecks d) (fun t => (t.removeEntry d.object).finish d .ok))

/-- UNBIND (R102). -/
def execUnbind (s : State) : Host.Outcome State Fault Refusal :=
  match s.takingCode 0x0A with
  | none => .next s
  | some (d, t) =>
    .next (t.perform d (t.consumeChecks d) (fun t =>
      (t.updConsume d.object (fun c => { c with binding := .unbound })).finish d .ok))

/-- LOCK (R32, R114): NOT_RESIDENT where the entry holds no line. -/
def execLock (s : State) : Host.Outcome State Fault Refusal :=
  match s.takingCode 0x08 with
  | none => .next s
  | some (d, t) =>
    .next (t.perform d (t.consumeChecks d ++ [((t.objectLine d.object).isNone, .notResident)])
      (fun t => (t.markLocked d.object true).finish d .ok))

/-- UNLOCK (R32, R114). -/
def execUnlock (s : State) : Host.Outcome State Fault Refusal :=
  match s.takingCode 0x09 with
  | none => .next s
  | some (d, t) =>
    .next (t.perform d (t.consumeChecks d) (fun t => (t.markLocked d.object false).finish d .ok))

/-- The checks of PULL (R115). -/
def State.pullChecks (s : State) (d : Descriptor) : List (Bool × Status) :=
  [ (!s.producing, .badState),
    (d.badObject, .badObject),
    ((s.entry d.object).isNone, .noEntry),
    ((s.produce d.object).isSome, .roleConflict),
    (!commandPlaceFree s.contention.queue, .queueFull) ]

/-- PULL (R115). -/
def execPull (s : State) : Host.Outcome State Fault Refusal :=
  match s.takingCode 0x07 with
  | none => .next s
  | some (d, t) =>
    .next (t.perform d (t.pullChecks d) (fun t =>
      ((t.placeCommand (.pull d.object)).finish d .ok).settle))

/-! ## Producer commands (Chapters 4 and 5) -/

/-- The checks of CLAIM (R53). -/
def State.claimChecks (s : State) (d : Descriptor) : List (Bool × Status) :=
  [ (!s.producing, .badState),
    (d.badObject, .badObject),
    ((s.consume d.object).isSome, .roleConflict),
    (((s.produce d.object).map (fun p => p.ownership != .deposed)).getD false, .exists),
    ((freeSlot s.ownership.slots).isNone, .noClaimSlot),
    ((s.entry d.object).isNone && Config.directoryCapacity ≤ s.directory.length, .directoryFull),
    ((s.entry d.object).isNone && (s.setOf d.object).choose.isNone, .noLine) ]

/-- A new PRODUCE entry (Table 1.7). A TICK that has come before the entry was created does not come to it, whatever it
still owes to other entries: the spec is silent there (DESIGN CHOICE, log 32). -/
def Descriptor.newProduce (d : Descriptor) (way : Way) (slot : Fin 4) : Entry :=
  { object := d.object, line := some way, tickOwed := false
    role := .produce
      { ownership := .claiming, committed := none, staged := false, pending := false, queued := .no
        inFlight := .no, refreshPeriod := d.paramA, refreshCounter := 0, claimSlot := some slot
        releaseQueued := false, releaseTag := none } }

/-- A DEPOSED entry reused by a CLAIM (R12, R54). -/
def Produce.reclaimed (period : Nat) (slot : Fin 4) (p : Produce) : Produce :=
  { p with
    ownership := .claiming, inFlight := .no, refreshPeriod := period, refreshCounter := 0
    claimSlot := some slot, releaseQueued := false, releaseTag := none }

/-- The entry of a claim comes into being: a DEPOSED entry reused, or a new one with its pinned line
(R11, R12, R54). -/
def State.claimEntry (s : State) (d : Descriptor) (slot : Fin 4) : State :=
  match s.entry d.object with
  | some _ => s.updProduce d.object (Produce.reclaimed d.paramA slot)
  | none =>
    match s.allocate d.object true 0 d.tag with
    | none => s
    | some (way, t) => t.setDirectory (insertEntry t.directory (d.newProduce way slot))

/-- A CLAIM that passes its checks (R54). R54 gives its effects no order: that EVICTED is posted before the CLAIM frame
is handed on, so that a HOLD which the high-mark test then requests stands ahead of it, is the model's own choice
(DESIGN CHOICE, log 34). -/
def State.takeClaim (s : State) (d : Descriptor) : State :=
  match freeSlot s.ownership.slots with
  | none => s
  | some slot =>
    ((s.claimEntry d slot).putSlot slot
      (some { object := d.object, phase := .awaitSend, tag := d.tag })).handOn (.claim d.object)

/-- CLAIM (R53, R54). -/
def execClaim (s : State) : Host.Outcome State Fault Refusal :=
  match s.takingCode 0x03 with
  | none => .next s
  | some (d, t) =>
    .next (t.perform d (t.claimChecks d) (fun t => ((t.takeClaim d).finish d .ok).settle))

/-- The checks of RELINQUISH (R68). -/
def State.relinquishChecks (s : State) (d : Descriptor) : List (Bool × Status) :=
  [ (d.badObject, .badObject),
    ((s.entry d.object).isNone, .noEntry),
    ((s.consume d.object).isSome, .roleConflict) ]

/-- RELINQUISH (R68 to R71). -/
def execRelinquish (s : State) : Host.Outcome State Fault Refusal :=
  match s.takingCode 0x04 with
  | none => .next s
  | some (d, t) =>
    .next (t.perform d (t.relinquishChecks d) (fun t =>
      ((t.release d.object d.tag).finish d .ok).settle))

/-- The checks of WRITE (R79). -/
def State.writeChecks (s : State) (d : Descriptor) : List (Bool × Status) :=
  [ (!s.producing, .badState),
    (d.badObject, .badObject),
    (Config.lineBytes < d.length, .badParameter),
    (!s.bufferPasses d.buffer d.length, .badBuffer),
    ((s.entry d.object).isNone, .noEntry),
    ((s.consume d.object).isSome, .roleConflict),
    (((s.produce d.object).map (fun p =>
      p.ownership == .relinquishing || p.ownership == .deposed)).getD false, .notOwner) ]

/-- A WRITE that is carried out: the payload is staged, and an OWNED object queued (R30, R80, R81). -/
def State.stage (s : State) (n : Nat) (payload : List Byte) : State :=
  let staged := (s.storePayload n payload).updProduce n
    (fun p => { p with staged := true, pending := true })
  if (s.produce n).map Produce.ownership = some .owned then staged.appendNew n else staged

/-- WRITE (R79 to R81). -/
def execWrite (s : State) : Host.Outcome State Fault Refusal :=
  match s.takingCode 0x05 with
  | none => .next s
  | some (d, t) =>
    .next (t.perform d (t.writeChecks d) (fun t =>
      let payload := t.port.engineReads d.buffer d.length
      ((((t.setPort payload.2).stage d.object payload.1)).finish d .ok).settle))

/-- The checks of READ (R82). -/
def State.readChecks (s : State) (d : Descriptor) : List (Bool × Status) :=
  [ (d.badObject, .badObject),
    (!s.bufferPasses d.buffer Config.lineBytes, .badBuffer),
    ((s.entry d.object).isNone, .noEntry) ]

/-- What a READ that finds a line reports (R82, R113): status, flags and detail. -/
def Entry.readReport (e : Entry) : Status × Byte × Nat :=
  match e.role with
  | .produce p => (.ok, descriptorFlags p.committed.isNone, ((p.committed.map BitVec.toNat).getD 0))
  | .consume c =>
    (if c.replica = .stale then .stale else .ok, descriptorFlags false,
      ((c.lastSeq.map BitVec.toNat).getD 0))

/-- A READ that passes its checks (R82, R113, R31). -/
def State.readLine (s : State) (d : Descriptor) : State :=
  match s.entry d.object, s.objectLine d.object with
  | some e, some l =>
    let buffered := s.setPort (s.port.engineWrites d.buffer l.payload)
    (buffered.touchLine d.object).complete e.readReport.1 e.readReport.2.1 l.length e.readReport.2.2
  | _, _ => s.complete .notResident (descriptorFlags false) 0 0

/-- READ (R82, R113). -/
def execRead (s : State) : Host.Outcome State Fault Refusal :=
  match s.takingCode 0x06 with
  | none => .next s
  | some (d, t) => .next (t.perform d (t.readChecks d) (fun t => t.readLine d))

/-! ## SNAPSHOT (R17, R162, R163) -/

/-- The line field of a summary (Table 11.9). -/
def lineCode : Option Way → Nat
  | none => 0
  | some .way0 => 1
  | some .way1 => 2

/-- The state field of a PRODUCE summary (Table 1.8). -/
def Ownership.code : Ownership → Nat
  | .claiming => 0
  | .owned => 1
  | .relinquishing => 2
  | .deposed => 3

/-- The state field of a CONSUME summary (Table 1.8). -/
def Replica.code : Replica → Nat
  | .absent => 0
  | .fresh => 1
  | .stale => 2

/-- The binding field of a summary (Table 1.8). -/
def Binding.code : Binding → Nat
  | .unbound => 0
  | .bound _ => 1
  | .orphaned _ => 2

/-- The notify mode field of a summary (Table 1.8). -/
def NotifyMode.code : NotifyMode → Nat
  | .none => 0
  | .change => 1
  | .all => 2

/-- The summary of an entry whose line is `l` (Tables 1.8 and 11.9). -/
def Entry.summary (e : Entry) (l : Option Line) : List Byte :=
  let low (role : Nat) (seq : Option Byte) : Byte :=
    byteOf (e.object % 16 * 16 + role * 8 + lineCode e.line * 2 + flagBit seq.isSome 0)
  let length := byteOf ((l.map Line.length).getD 0)
  match e.role with
  | .produce p =>
    [byteOf (e.object / 16), low 0 p.committed, byteOf (p.ownership.code * 64), byteOf noStation,
      p.committed.getD 0, length, p.summaryFlags, 0]
  | .consume c =>
    [byteOf (e.object / 16), low 1 c.lastSeq,
      byteOf (c.replica.code * 64 + c.binding.code * 16 + c.notify.code * 4), byteOf c.binding.station,
      c.lastSeq.getD 0, length, c.summaryFlags ((l.map Line.locked).getD false), 0]

/-- The entries that a walk from `first` meets, in ascending order (R17). -/
def State.walk (s : State) (first : Nat) : List Entry :=
  s.directory.filter (fun e => first ≤ e.object)

/-- The bytes of the summaries of some entries (R163). -/
def State.summaries (s : State) (entries : List Entry) : List Byte :=
  entries.flatMap (fun e => e.summary (s.lineOf e))

/-- The checks of SNAPSHOT (R162). -/
def State.snapshotChecks (s : State) (d : Descriptor) : List (Bool × Status) :=
  [ (d.length == 0 || 32 < d.length, .badParameter),
    (4095 < d.paramA, .badParameter),
    (!s.bufferPasses d.buffer (8 * d.length), .badBuffer) ]

/-- SNAPSHOT (R162, R163). -/
def execSnapshot (s : State) : Host.Outcome State Fault Refusal :=
  match s.takingCode 0x0B with
  | none => .next s
  | some (d, t) =>
    .next (t.perform d (t.snapshotChecks d) (fun t =>
      let met := t.walk d.paramA
      let written := met.take d.length
      (t.setPort (t.port.engineWrites d.buffer (t.summaries written))).complete .ok
        (descriptorFlags false) written.length (if d.length < met.length then 1 else 0)))

/-! ## LEAVE and REJOIN (R145 to R147, R164) -/

/-- A LEAVE that is taken: LEAVING, and the release of every PRODUCE entry in ascending order (R145). -/
def State.beginLeave (s : State) (tag : Word16) : State :=
  let leaving := s.setStation { s.station with life := .leaving, keptTag := tag }
  leaving.producedObjects.foldl (fun t n => t.release n tag) leaving

/-- LEAVE (R145, R146). -/
def execLeave (s : State) : Host.Outcome State Fault Refusal :=
  match s.takingCode 0x0C with
  | none => .next s
  | some (d, t) =>
    .next (t.perform d [(t.station.life != .active, .badState)] (fun t =>
      ((t.beginLeave d.tag).finish d .ok).settle))

/-- REJOIN (R147). -/
def execRejoin (s : State) : Host.Outcome State Fault Refusal :=
  match s.takingCode 0x0D with
  | none => .next s
  | some (d, t) =>
    .next (t.perform d [(t.station.life != .detached, .badState)] (fun t =>
      (t.setStation { t.station with
        life := .joining, joinTimer := 0, joinRunning := true, joinOwed := false, keptTag := d.tag
        rejoined := true }).finish d .ok))

end Sys2Proof.Machine
end

