-- ==== Sys2Proof/Machine/Contend.lean ====
section
/-! DEFINITION. The Contention Unit's own happenings (Chapter 7): quiet, deferral, the choice of a frame,
collisions and the successful end. -/

namespace Sys2Proof.Machine

/-- QUIET_REACHED (R120): one whole carrier-free slot. A remaining deferral of 0 ends at this boundary. -/
def execQuietReached (s : State) : Host.Outcome State Fault Refusal :=
  if s.contention.carrier = false ∧ s.contention.quiet = false ∧ s.contention.state ≠ .sending
      ∧ s.station.life ≠ .awaitStart then
    .next (s.setContention { s.contention with
      quiet := true
      state :=
        match s.contention.state with
        | .waitQuiet remaining => .deferring remaining (remaining == 0)
        | other => other })
  else .next s

/-- DEFERRAL_SLOT (R120): a boundary that ends a carrier-free slot of the deferral. -/
def execDeferralSlot (s : State) : Host.Outcome State Fault Refusal :=
  match s.contention.state with
  | .deferring remaining false =>
    if s.contention.carrier = false ∧ s.contention.quiet = true then
      .next (s.setContention { s.contention with
        state := .deferring (remaining - 1) (remaining ≤ 1) })
    else .next s
  | _ => .next s

/-- The part begins to drive its frame: SENDING (R123). The line is no longer quiet. -/
def Contention.send (c : Contention) : Contention := { c with state := .sending, quiet := false }

/-- The head of the control queue becomes the frame in hand and is sent (R123 step 3, R131). -/
def State.sendHead (s : State) (f : CtlFrame) (rest : List CtlFrame) : State :=
  (s.setContention ({ s.contention with
    inHand := some (.control f false), attempts := 0, queue := rest }).send).placeFreed f

/-- What a unit whose deferral has ended sends, by the steps of R123. -/
def State.chooseFrame (s : State) : State :=
  match s.contention.inHand with
  | some (.data records) =>
    if s.contention.holdsClear then s.setContention s.contention.send
    else (s.returnRecords records).dropFrame
  | some (.control _ _) => s.setContention s.contention.send
  | none =>
    match s.contention.queue with
    | f :: rest => s.sendHead f rest
    | [] =>
      if s.station.life = .active ∧ s.contention.holdsClear = true ∧ s.pubQueue ≠ [] then s.buildBundle
      else s.setContention { s.contention with state := .idle, attempts := 0 }

/-- DEFERRAL_END (R123). -/
def execDeferralEnd (s : State) : Host.Outcome State Fault Refusal :=
  match s.contention.state with
  | .deferring _ true => .next s.chooseFrame.settle
  | _ => .next s

/-- The frame stays in hand for a further attempt: a new draw, and WAIT_QUIET (R125). -/
def State.retry (s : State) : State :=
  let drawn := s.contention.draw
  s.setContention { drawn.2 with state := .waitQuiet drawn.1 }

/-- A collision within the retry limit (R125, R94, R128). -/
def State.collideAgain (s : State) : State :=
  match s.contention.inHand with
  | some (.control _ true) => s.dropFrame
  | some (.data records) =>
    let stripped := s.stripAll records
    if stripped.1.isEmpty then stripped.2.dropFrame
    else
      (stripped.2.setContention
        { stripped.2.contention with inHand := some (.data stripped.1) }).retry
  | _ => s.retry

/-- A mismatch within the collision window (R125). -/
def State.collide (s : State) : State :=
  let counted := s.setContention { s.contention with attempts := s.contention.attempts + 1 }
  if s.cfg.retryLimit < s.contention.attempts + 1 then (counted.reportAbandonment 1).dropFrame
  else counted.collideAgain

/-- COLLISION (R125). -/
def execCollision (s : State) : Host.Outcome State Fault Refusal :=
  if s.contention.state = .sending then .next s.collide.settle else .next s

/-- The frame that the part drives is longer than the collision window (R124, R126). -/
def State.pastWindow (s : State) : Bool :=
  match s.drivenFrame with
  | some bytes => Config.collisionWindow < bytes.length
  | none => false

/-- LATE_COLLISION (R126): only a frame longer than the collision window can meet one. -/
def execLateCollision (s : State) : Host.Outcome State Fault Refusal :=
  if s.contention.state = .sending ∧ s.pastWindow = true then
    .next (s.reportAbandonment 2).dropFrame.settle
  else .next s

/-- The Receive Path at the end of the part's own frame: the frame heard is discarded (R44). -/
def Rx.ownEnd : Rx → Rx
  | .frame _ => .skip
  | .off => .off
  | .skip => .skip
  | .listen collecting => .listen collecting

/-- SUCCESSFUL_END (R127, R44). -/
def execSuccessfulEnd (s : State) : Host.Outcome State Fault Refusal :=
  if s.contention.state = .sending then
    .next ((s.setRx s.rx.ownEnd).reportSuccess.dropFrame).settle
  else .next s

end Sys2Proof.Machine
end

