-- ==== Sys2Proof/WellFormed.lean ====
section
/-! DEFINITION. Which commands are well formed: the operands that a row of the table can carry. -/

namespace Sys2Proof

/-- A write that R180 says has no effect: a read-only register (R179), a CONTROL value other than 0x01
and 0x0F, or an address above 0x400F. -/
def ignoredWrite (addr : Nat) (value : Byte) : Bool :=
  (0x4000 ≤ addr && addr ≤ 0x4005)
  || (addr == Config.addrControl && value != 0x01 && value != 0x0F)
  || (0x4009 ≤ addr && addr < Config.spaceEnd)

/-- The operands are within their ranges. -/
def Instr.wellFormed : Instr → Bool
  | .registerWriteIgnored _ addr value => ignoredWrite addr value
  | .sharedRamWrite _ addr _ _ => addr < Config.ramEnd
  | .start _ during => during.all (fun b => b.addr < Config.ramEnd)
  | .tick late _ => late.all (fun n => n < Config.objectCount)
  | .frameEnd bytes => 2 ≤ bytes.length && bytes.length ≤ Config.maxBody + 2
  | .grant slot => slot < 4
  | .refreshExpiry object => object < Config.objectCount
  | .ageExpiry object => object < Config.objectCount
  | .hardReset | .softReset _ | .cmdAdvance _ _ | .noticeTaken _ _ | .tickHighByteRead _
  | .examination | .badCommand | .subscribe | .unsubscribe | .claim | .relinquish | .write | .read
  | .pull | .lock | .unlock | .unbind | .snapshot | .leave | .rejoin | .carrierBegins
  | .carrierAbsent | .dataRecordAtConsume | .dataRecordAtProduce | .claimHeard | .disputeHeard
  | .relinquishHeardAtProduce | .relinquishHeardAtConsume | .pullHeard | .holdHeard | .slotBoundary
  | .holdEntryRunsOut | .ownHoldExpires | .joinPeriodEnd | .coalescingExpiry | .quietReached
  | .deferralSlot | .deferralEnd | .collision | .lateCollision | .successfulEnd | .placement
  | .firstByteCollected _ | .headerFieldsComplete _ _ | .resetNReleased => true

end Sys2Proof
end

