-- ==== Sys2Proof/Machine/HostPort.lean ====
section
/-! DEFINITION. The commands of the host port: the two resets, START, the write registers, the TICK read
and the write of one byte of shared RAM (Chapters 8 and 11). -/

namespace Sys2Proof.Machine

/-- An SPI access comes to the arbiter (R178): taken at once if no other access waits before it. -/
def HostPort.request (p : HostPort) (w : WaitingAccess) : HostPort :=
  if p.waiting = [] ∧ w.turn = 0 then p.take w else { p with waiting := p.waiting ++ [w] }

/-- An SPI write at the arbiter (R178). -/
def HostPort.ramWrite (p : HostPort) (addr : Nat) (value : Byte) (turn : Nat) : HostPort :=
  p.request { turn := turn, addr := addr, value := some value }

/-- An SPI read of shared RAM at the arbiter, taken after `turn` engine accesses (R176, R178): it may fall
between two of them. The table has no row for it, so no command makes one; `readByte` holds what it
returned (log 13, log 14). -/
def HostPort.ramRead (p : HostPort) (addr turn : Nat) : HostPort :=
  p.request { turn := turn, addr := addr, value := none }

/-- One data byte of an SPI write to shared RAM (R176, R178); none is served at another address. -/
def HostPort.acceptByte (p : HostPort) (b : RamByte) : HostPort :=
  if b.addr < Config.ramEnd then
    match p.spiByte b.via true b.addr with
    | none => p
    | some q => q.ramWrite b.addr b.value b.turn
  else p

/-- Such bytes, one after another. -/
def HostPort.acceptBytes (p : HostPort) (bytes : List RamByte) : HostPort :=
  bytes.foldl HostPort.acceptByte p

/-- A hard reset (R139): every block takes its reset values, shared RAM is zeroed, any SPI transaction
ends and RESET_N is held (R176). The CRS input and the queue of commands are not the part's to reset. -/
def State.hardReset (s : State) : State :=
  { State.reset with
    contention := { Contention.reset with carrier := s.contention.carrier }
    port := { HostPort.reset with resetHeld := true }
    pending := s.pending }

/-- A soft reset (R139): as a hard reset, but shared RAM and the SPI transaction go on (R176, Table 8.3). -/
def State.softReset (s : State) : State :=
  { State.reset with
    contention := { Contention.reset with carrier := s.contention.carrier }
    port := { s.port with tickLatch := 0 }
    pending := s.pending }

/-- The effects of a START that passes every check (R142; R50, R122, R154, R155). -/
def State.started (s : State) (r : StartRecord) : State :=
  { s with
    station :=
      { s.station with
        life := .joining, startError := 0, copy := some r, keptTag := 0, joinTimer := 0
        joinRunning := true, joinOwed := false, rejoined := false, slotCount := 0, tickCount := 0 }
    rx := .skip
    contention :=
      { s.contention with
        rng := Config.generatorSeed ^^^ BitVec.ofNat 16 r.station, quiet := false }
    command := { index := 0, scanning := true, rescan := false } }

/-- A START request in AWAIT_START (R140, R141). -/
def State.startRequest (s : State) : State :=
  let record := s.port.engineReads 0 Config.startRecordEnd
  let read := s.setPort record.2.drain
  match firstError (startChecks record.1) with
  | some code => read.setStation { read.station with startError := code }
  | none => read.started (StartRecord.ofBytes record.1)

/-- HARD_RESET (R139). -/
def execHardReset (s : State) : Host.Outcome State Fault Refusal := .next s.hardReset

/-- RESET_N_RELEASED (R176). -/
def execResetNReleased (s : State) : Host.Outcome State Fault Refusal :=
  .next (s.setPort { s.port with resetHeld := false })

/-- SOFT_RESET (R139, R180). -/
def execSoftReset (via : SpiVia) (s : State) : Host.Outcome State Fault Refusal :=
  match s.registerByte via true Config.addrControl with
  | none => .next s
  | some t => .next t.softReset

/-- START (R140): taken in AWAIT_START, ignored in every other state. The SPI bytes of `during` follow it and may
come between the reads of the start record, each at its turn (R178). -/
def execStart (via : SpiVia) (s : State) (during : List RamByte := []) :
    Host.Outcome State Fault Refusal :=
  match s.registerByte via true Config.addrControl with
  | none => .next s
  | some t =>
    let met := t.setPort (t.port.acceptBytes during)
    if met.station.life = .awaitStart then .next met.startRequest else .next met

/-- A request to scan (R155). -/
def State.scanRequest (s : State) : State :=
  if s.station.life = .awaitStart then s
  else if s.command.scanning then s.setCommand { s.command with rescan := true }
  else s.setCommand { s.command with scanning := true }

/-- CMD_ADVANCE (R155): the value plays no part. -/
def execCmdAdvance (via : SpiVia) (_value : Byte) (s : State) : Host.Outcome State Fault Refusal :=
  match s.registerByte via true Config.addrCmdAdvance with
  | none => .next s
  | some t => .next t.scanRequest

/-- A release of `k` notices (R171, R172, R173). -/
def State.releaseNotices (s : State) (k : Nat) : State :=
  if k = 0 then s
  else
    (s.setNotice { s.notice with
      unread := s.notice.unread - k
      timer := if s.notice.unread - k = 0 then .stopped else s.notice.timer }).updateInt

/-- NOTICE_TAKEN (R171). -/
def execNoticeTaken (via : SpiVia) (k : Byte) (s : State) : Host.Outcome State Fault Refusal :=
  match s.registerByte via true Config.addrNoticeTaken with
  | none => .next s
  | some t => .next (t.releaseNotices k.toNat)

/-- TICK_HIGH_BYTE_READ (R179): the high byte is returned and the low byte latched in one access. -/
def execTickHighByteRead (via : SpiVia) (s : State) : Host.Outcome State Fault Refusal :=
  match s.registerByte via false Config.addrTickHigh with
  | none => .next s
  | some t =>
    .next (t.setPort { t.port with
      readByte := t.portRead Config.addrTickHigh, tickLatch := byteOf t.station.tickCount })

/-- REGISTER_WRITE_IGNORED (R179, R180, R177): only the SPI transaction goes on. -/
def execRegisterWriteIgnored (via : SpiVia) (addr : Nat) (value : Byte) (s : State) :
    Host.Outcome State Fault Refusal :=
  if ignoredWrite addr value then
    match s.registerByte via true addr with
    | none => .next s
    | some t => .next t
  else .next s

/-- SHARED_RAM_WRITE (R176, R178). -/
def execSharedRamWrite (via : SpiVia) (addr : Nat) (value : Byte) (turn : Nat) (s : State) :
    Host.Outcome State Fault Refusal :=
  .next (s.setPort (s.port.acceptByte { via := via, addr := addr, value := value, turn := turn }))

end Sys2Proof.Machine
end

