-- ==== Sys2Proof/Machine/Placement.lean ====
section
/-! DEFINITION. The placement of a notice in the notice ring (R170). -/

namespace Sys2Proof.Machine

/-- The serial after this one, from 255 to 1 (R170). -/
def nextSerial (serial : Nat) : Nat := if 255 ≤ serial then 1 else serial + 1

/-- The address of the ring slot at the write index (R170). -/
def State.noticeAddress (s : State) : Nat := s.cfg.noticeBase + 16 * s.notice.writeIndex

/-- The notice's bytes are written into the ring, the serial last (R170 steps 1 and 2). That the fifteen
bytes before it go in ascending order is the model's own choice (DESIGN CHOICE, log 12). -/
def State.writeNotice (s : State) (n : Notice) : State :=
  let serial := nextSerial s.notice.serial
  (s.setPort ((s.port.engineWrites (s.noticeAddress + 1) n.bytes).engineWrite
    s.noticeAddress (byteOf serial)).drain).setNotice { s.notice with serial := serial }

/-- The head leaves the backlog; NOTICES_LOST takes the freed place, and the fall and then the rise of B
are reported (R168, R169, R170 step 3; log 17). -/
def State.leaveBacklog (s : State) (rest : List Notice) : State :=
  if s.notice.lost = 0 then
    (s.setNotice { s.notice with backlog := rest }).reportFall rest.length
  else
    ((s.setNotice { s.notice with
      backlog := rest ++ [s.stationNotice .noticesLost noStation s.notice.lost 0]
      lost := 0 }).reportFall rest.length).highMarkTest

/-- The coalescing timer as the unread count rises from 0 to 1 (R172). -/
def State.startedTimer (s : State) : Coalescing :=
  if s.cfg.coalescing = 0 then .expired else .running 0

/-- The write index and the unread count advance, and the timer may start (R170 step 4). -/
def State.countUnread (s : State) : State :=
  s.setNotice { s.notice with
    writeIndex := if s.notice.writeIndex + 1 < s.cfg.noticeLength then s.notice.writeIndex + 1 else 0
    unread := s.notice.unread + 1
    timer := if s.notice.unread = 0 then s.startedTimer else s.notice.timer }

/-- PLACEMENT (R170). -/
def execPlacement (s : State) : Host.Outcome State Fault Refusal :=
  match s.notice.backlog with
  | [] => .next s
  | n :: rest =>
    if s.notice.unread < s.cfg.noticeLength then
      .next ((s.writeNotice n).leaveBacklog rest).countUnread.updateInt.settle
    else .next s

end Sys2Proof.Machine
end

