-- ==== Sys2Proof/Machine/Receive.lean ====
section
/-! DEFINITION. The line and the Receive Path (Chapter 3): carrier, the bytes of a frame and its end. -/

namespace Sys2Proof.Machine

/-- The receive state when carrier begins (Table 3.2). SKIP under absent carrier has already given way to
LISTEN (R36, log 24). -/
def Rx.carrierBegins : Rx → Rx
  | .skip | .listen _ => .listen true
  | .off => .off
  | .frame f => .frame f

/-- The receive state when carrier is absent (Table 3.2). -/
def Rx.carrierAbsent : Rx → Rx
  | .off => .off
  | .skip | .listen _ | .frame _ => .listen false

/-- Carrier sends a DEFERRING unit back to WAIT_QUIET, its remaining deferral kept (R120). -/
def CState.carrierBegins : CState → CState
  | .deferring remaining _ => .waitQuiet remaining
  | .idle => .idle
  | .waitQuiet remaining => .waitQuiet remaining
  | .sending => .sending

/-- CARRIER_BEGINS (R36, R120). -/
def execCarrierBegins (s : State) : Host.Outcome State Fault Refusal :=
  if s.contention.carrier then .next s
  else
    .next ((s.setRx s.rx.carrierBegins).setContention
      { s.contention with
        carrier := true, quiet := false, state := s.contention.state.carrierBegins })

/-- CARRIER_ABSENT (R36, R42, R120): quiet is measured from the moment carrier ends. -/
def execCarrierAbsent (s : State) : Host.Outcome State Fault Refusal :=
  .next ((s.setRx s.rx.carrierAbsent).setContention
    { s.contention with carrier := false, quiet := s.contention.quiet && !s.contention.carrier })

/-- The frame being received when its opener has been collected (R36, R40). The body length is not known yet, and R36
gives the bytes still expected no value before the header is complete: that they count as the two header bytes is the
model's own choice (DESIGN CHOICE, log 7). -/
def RxFrame.opened : RxFrame := { header := none, body := [], crc := crcStart, expected := 2 }

/-- FIRST_BYTE_COLLECTED (R36). -/
def execFirstByteCollected (byte : Byte) (s : State) : Host.Outcome State Fault Refusal :=
  match s.rx with
  | .listen true =>
    .next (s.setRx (if byte = Config.opener then .frame RxFrame.opened else .skip))
  | _ => .next s

/-- HEADER_FIELDS_COMPLETE (R36, R42). -/
def execHeaderFieldsComplete (byte1 byte2 : Byte) (s : State) : Host.Outcome State Fault Refusal :=
  match s.rx with
  | .frame f =>
    match f.header with
    | some _ => .next s
    | none =>
      .next (s.setRx
        (if headerBad byte1 byte2 then .skip
         else
          .frame { f with
            header := some (byte1, byte2), crc := crcRun f.crc [byte1, byte2]
            expected := byte2.toNat + 2 }))
  | _ => .next s

/-- A number clash at Station Control (R47, R148). -/
def State.clash (s : State) : State :=
  match s.station.life with
  | .joining | .active | .leaving | .detached => s.enterMuted
  | .awaitStart | .muted => s

/-- The source of the frame being received. -/
def RxFrame.source (f : RxFrame) : Nat :=
  match f.header with
  | some (byte1, _) => headerSource byte1
  | none => 0

/-- A frame at its frame end, with the bytes that were still expected (R41, R43 to R47): discarded as
malformed, the part's own, a number clash, or dispatched. -/
def State.frameEnd (s : State) (f : RxFrame) (rest : List Byte) : State :=
  match judgeFrame f rest with
  | none => s
  | some items =>
    if s.contention.state = .sending then s
    else if f.source = s.own then s.clash
    else s.arrive items

/-- FRAME_END (R43). In each case the Receive Path goes to SKIP. -/
def execFrameEnd (bytes : List Byte) (s : State) : Host.Outcome State Fault Refusal :=
  match s.rx with
  | .frame f =>
    if f.header.isSome ∧ bytes.length = f.expected then .next ((s.setRx .skip).frameEnd f bytes)
    else .next s
  | _ => .next s

end Sys2Proof.Machine
end

