-- ==== Sys2Proof/Machine/Heard.lean ====
section
/-! DEFINITION. The dispatched items at their entries (Chapters 4, 5, 6 and the hold table of Chapter 7).
Each command takes the first item of the dispatch list that is handed to a block, if it is of the
command's kind and its entry of the command's role. Otherwise the command is the turn of an ignored item at
the front of the list, which is dropped (log 6). -/

namespace Sys2Proof.Machine

/-- A DATA record at a PRODUCE entry (R60). -/
def State.dataAtProduce (s : State) (n source : Nat) (p : Produce) : State :=
  match p.ownership with
  | .claiming => s.loseClaim n source .data
  | .owned => if source < s.own then s.depose n source .data else s.requestDispute n
  | .relinquishing | .deposed => s

/-- A CLAIM at a PRODUCE entry (R61). -/
def State.claimAtProduce (s : State) (n source : Nat) (p : Produce) : State :=
  match p.ownership with
  | .claiming => if s.own < source then s.requestDispute n else s.loseClaim n source .claim
  | .owned => s.requestDispute n
  | .relinquishing | .deposed => s

/-- A DISPUTE at a PRODUCE entry (R62). -/
def State.disputeAtProduce (s : State) (n source : Nat) (p : Produce) : State :=
  match p.ownership with
  | .claiming => s.loseClaim n source .dispute
  | .owned => if source < s.own then s.depose n source .dispute else s.requestDispute n
  | .relinquishing | .deposed => s

/-- A notice about the replica of a CONSUME entry as it stands (Table 6.3). -/
def State.replicaNotice (s : State) (kind : NoticeKind) (n station detail : Nat) : Notice :=
  { kind := kind, object := n, station := station
    seq := ((s.consume n).bind Consume.lastSeq).getD 0
    detail := detail
    length := ((s.objectLine n).map Line.length).getD 0
    tag := 0, stamp := s.stamp
    first := firstFour (((s.objectLine n).map Line.payload).getD []) }

/-- A FRESH replica becomes STALE (R109, R111). -/
def Replica.aged : Replica → Replica
  | .fresh => .stale
  | .stale => .stale
  | .absent => .absent

/-- A RELINQUISH at a CONSUME entry (R109). -/
def State.relinquishAtConsume (s : State) (n source : Nat) (c : Consume) : State :=
  if c.binding = .bound source then
    let cut := s.updConsume n (fun c =>
      { c with binding := .orphaned source, replica := c.replica.aged })
    cut.post (cut.replicaNotice .orphaned n source 0)
  else s

/-- A PULL at a PRODUCE entry (R63, R85). -/
def State.pullAtProduce (s : State) (n : Nat) (p : Produce) : State :=
  if p.ownership = .owned then s.appendRepeat n else s

/-- A HOLD of a peer (R132): the entry takes the length. A fall of the last slot boundary that is still to come to it
comes to that length (log 5). -/
def Contention.hear (c : Contention) (source : Fin 32) (length : Nat) : Contention :=
  { c with holdTable := c.holdTable.set source length }

/-- DATA_RECORD_AT_CONSUME (R100). -/
def execDataRecordAtConsume (s : State) : Host.Outcome State Fault Refusal :=
  match s.nextItems with
  | .record source n rep q payload :: rest =>
    match s.consume n with
    | some c => .next ((s.setDispatch rest).judgeRecord n c source rep q payload).settle
    | none => .next s.dropIgnored
  | _ => .next s.dropIgnored

/-- DATA_RECORD_AT_PRODUCE (R60): sequence, REPEAT flag and payload play no part. -/
def execDataRecordAtProduce (s : State) : Host.Outcome State Fault Refusal :=
  match s.nextItems with
  | .record source n _ _ _ :: rest =>
    match s.produce n with
    | some p => .next ((s.setDispatch rest).dataAtProduce n source p).settle
    | none => .next s.dropIgnored
  | _ => .next s.dropIgnored

/-- CLAIM_HEARD (R61). -/
def execClaimHeard (s : State) : Host.Outcome State Fault Refusal :=
  match s.nextItems with
  | .claim source n :: rest =>
    match s.produce n with
    | some p => .next ((s.setDispatch rest).claimAtProduce n source p).settle
    | none => .next s.dropIgnored
  | _ => .next s.dropIgnored

/-- DISPUTE_HEARD (R62). -/
def execDisputeHeard (s : State) : Host.Outcome State Fault Refusal :=
  match s.nextItems with
  | .dispute source n :: rest =>
    match s.produce n with
    | some p => .next ((s.setDispatch rest).disputeAtProduce n source p).settle
    | none => .next s.dropIgnored
  | _ => .next s.dropIgnored

/-- RELINQUISH_HEARD_AT_PRODUCE (R63): ignored in every ownership state. -/
def execRelinquishHeardAtProduce (s : State) : Host.Outcome State Fault Refusal :=
  match s.nextItems with
  | .relinquish _ n :: rest =>
    match s.produce n with
    | some _ => .next (s.setDispatch rest)
    | none => .next s.dropIgnored
  | _ => .next s.dropIgnored

/-- RELINQUISH_HEARD_AT_CONSUME (R109). -/
def execRelinquishHeardAtConsume (s : State) : Host.Outcome State Fault Refusal :=
  match s.nextItems with
  | .relinquish source n :: rest =>
    match s.consume n with
    | some c => .next ((s.setDispatch rest).relinquishAtConsume n source c).settle
    | none => .next s.dropIgnored
  | _ => .next s.dropIgnored

/-- PULL_HEARD (R63, R85). -/
def execPullHeard (s : State) : Host.Outcome State Fault Refusal :=
  match s.nextItems with
  | .pull _ n :: rest =>
    match s.produce n with
    | some p => .next ((s.setDispatch rest).pullAtProduce n p).settle
    | none => .next s.dropIgnored
  | _ => .next s.dropIgnored

/-- HOLD_HEARD (R132): a table that has become all zero may give the unit work (R119, log 27). -/
def execHoldHeard (s : State) : Host.Outcome State Fault Refusal :=
  match s.nextItems with
  | .hold source length :: rest =>
    if h : source < 32 then
      .next ((s.setDispatch rest).setContention (s.contention.hear ⟨source, h⟩ length)).settle
    else .next (s.setDispatch rest)
  | _ => .next s.dropIgnored

end Sys2Proof.Machine
end

