-- ==== Sys2Proof/Machine/Timers.lean ====
section
/-! DEFINITION. The slot timer and the tick timer (R143), and what happens when a counter reaches its end.
A boundary or a tick that would bring a counter to its end is owed to that counter: the command of the
expiry carries it out together with what it brings about, and the next SLOT_BOUNDARY or TICK carries out
first whatever is still owed (log 4). A tick may come later to any other counter of ticks as well, as a happening
of its own (log 32). -/

namespace Sys2Proof.Machine

/-- A table of like things, each changed alike. -/
def mapTable {α : Type} {n : Nat} (f : α → α) (v : Vector α n) : Vector α n :=
  ⟨⟨v.toArray.toList.map f⟩, by simp⟩

/-! ## Slot timer -/

/-- A slot boundary at a claim slot (R57). -/
def ClaimSlot.slot (c : ClaimSlot) : ClaimSlot :=
  match c.phase with
  | .awaitSend => c
  | .window n => { c with phase := .window (n - 1) }

/-- The highest-numbered station whose hold-table entry is not 0. -/
def lastNonZero (t : Vector Nat 32) : Option (Fin 32) :=
  (List.finRange 32).reverse.find? (fun k => t.get k != 0)

/-- A slot boundary at the hold table (R132). Where the table would become all zero, the last fall is left
to HOLD_ENTRY_RUNS_OUT (log 5). -/
def Contention.slotTable (c : Contention) : Contention :=
  let fallen := mapTable (· - 1) c.holdTable
  if fallen.toList.all (· == 0) then
    match lastNonZero c.holdTable with
    | some k => { c with holdTable := fallen.set k 1, holdFall := some k }
    | none => { c with holdFall := none }
  else { c with holdTable := fallen, holdFall := none }

/-- A slot boundary at the own-hold expiry, which counts while ON (R135), or its mark where it would end the hold
(log 4). -/
def Contention.slotExpiry (c : Contention) : Contention :=
  if c.ownHold = .on then
    if c.ownExpiry ≤ 1 then { c with expiryOwed := true } else { c with ownExpiry := c.ownExpiry - 1 }
  else c

/-- A slot boundary at the join timer, which counts in JOINING, or its mark where it would end the join period
(R144, log 4). -/
def Station.slot (t : Station) (period : Nat) : Station :=
  let counted := { t with slotCount := t.slotCount + 1 }
  if t.joinRunning then
    if period ≤ t.joinTimer + 1 then { counted with joinOwed := true }
    else { counted with joinTimer := t.joinTimer + 1 }
  else counted

/-- A claim that is granted (R58). -/
def State.grantClaim (s : State) (k : Fin 4) (slot : ClaimSlot) (p : Produce) : State :=
  let owned := (s.putSlot k none).updProduce slot.object (fun p =>
    { p with ownership := .owned, claimSlot := none, refreshCounter := 0 })
  let posted := owned.postOwnership slot.object .claimGranted s.own .ok slot.tag
  if p.staged then posted.appendNew slot.object else posted

/-- The window of claim slot `k` has run out while its entry is CLAIMING (R57, R58). -/
def State.windowEnds (s : State) (k : Fin 4) : State :=
  match s.ownership.slots.get k with
  | none => s
  | some c =>
    match s.produce c.object with
    | none => s
    | some p =>
      if c.phase = .window 0 ∧ p.ownership = .claiming ∧ p.claimSlot = some k then
        (s.grantClaim k c p).settle
      else s

/-- GRANT (R58). -/
def execGrant (slot : Nat) (s : State) : Host.Outcome State Fault Refusal :=
  if h : slot < 4 then .next (s.windowEnds ⟨slot, h⟩) else .next s

/-- The fall that the last slot boundary still owes to a hold-table entry: to 0, or, where a HOLD has been heard from
that station in between, by one from the length heard (R119, R132, log 5). -/
def State.lastFall (s : State) : State :=
  match s.contention.holdFall with
  | none => s
  | some k =>
    (s.setContention
      { s.contention with
        holdTable := s.contention.holdTable.set k (s.contention.holdTable.get k - 1), holdFall := none }).settle

/-- HOLD_ENTRY_RUNS_OUT (R119, R132). -/
def execHoldEntryRunsOut (s : State) : Host.Outcome State Fault Refusal := .next s.lastFall

/-- The own hold expires (Table 7.6). That it is OFF before HOLD_ENDED is posted, so that the post makes the high-mark
test, is the model's own choice (DESIGN CHOICE, log 34). -/
def State.expireOwnHold (s : State) : State :=
  if s.cfg.lowMark < s.notice.backlog.length then
    s.setContention { s.contention.requestHold s.cfg.holdLength with
      ownHold := .renewing, ownExpiry := 0, expiryOwed := false }
  else (s.setOwnHold .off 0).postHoldEnded 1

/-- The boundary that is owed to the own hold takes its expiry to 0 while ON, and the hold expires (R135). -/
def State.ownHoldEnds (s : State) : State :=
  if s.contention.ownHold = .on ∧ s.contention.expiryOwed = true then s.expireOwnHold.settle else s

/-- OWN_HOLD_EXPIRES (R135). -/
def execOwnHoldExpires (s : State) : Host.Outcome State Fault Refusal := .next s.ownHoldEnds

/-- Entry to ACTIVE as the boundary that is owed to the join timer brings it to the join period: it counts and
stops (R144, R150). -/
def State.enterActive (s : State) : State :=
  let active := s.setStation { s.station with
    life := .active, joinTimer := s.station.joinTimer + 1, joinRunning := false, joinOwed := false }
  (active.post (s.stationNotice .joined s.own (if s.station.rejoined then 1 else 0)
    s.station.keptTag)).highMarkTest

/-- The boundary that ends the join period comes to the join timer (R144). -/
def State.joinEnds (s : State) : State :=
  if s.station.life = .joining ∧ s.station.joinOwed = true then s.enterActive.settle else s

/-- JOIN_PERIOD_END (R144). -/
def execJoinPeriodEnd (s : State) : Host.Outcome State Fault Refusal := .next s.joinEnds

/-- What the last slot boundary still owes, carried out: the windows that have run out, in slot order, the
fall of the last hold-table entry, the own hold and the join period (the order is a DESIGN CHOICE, log 4). -/
def State.carryOutSlots (s : State) : State :=
  ([0, 1, 2, 3].foldl State.windowEnds s).lastFall.ownHoldEnds.joinEnds

/-- A slot boundary at every block that counts slots (R143): the claim windows, the hold table, the own-hold
expiry and the join timer. -/
def State.slotBoundary (s : State) : State :=
  ((s.setStation (s.station.slot s.cfg.joinPeriod)).setOwnership
    { s.ownership with slots := mapTable (Option.map ClaimSlot.slot) s.ownership.slots }).setContention
      s.contention.slotTable.slotExpiry

/-- SLOT_BOUNDARY (R143). -/
def execSlotBoundary (s : State) : Host.Outcome State Fault Refusal :=
  if s.station.life = .awaitStart then .next s else .next s.carryOutSlots.slotBoundary

/-! ## Tick timer -/

/-- A refresh counter counts (R83). -/
def Produce.counts (p : Produce) : Bool :=
  p.ownership == .owned && decide (p.refreshCounter < p.refreshPeriod)

/-- A tick that does not bring a refresh counter to its period (R83). -/
def Produce.tick (p : Produce) : Produce :=
  if p.counts then { p with refreshCounter := p.refreshCounter + 1 } else p

/-- A tick that does not bring an age counter to its limit (R110): under a limit of 0 it stays at 65535. -/
def Consume.tick (c : Consume) : Consume :=
  if c.ageRunning = true ∧ (c.ageLimit ≠ 0 ∨ c.age < 65535) then { c with age := c.age + 1 } else c

/-- A tick at the entry would bring its counter to its end: the refresh period (R83) or a non-zero age limit
(R110). -/
def Entry.endsAtTick (e : Entry) : Bool :=
  match e.role with
  | .produce p => p.counts && p.refreshCounter + 1 == p.refreshPeriod
  | .consume c => c.ageRunning && c.ageLimit != 0 && decide (c.ageLimit ≤ c.age + 1)

/-- A tick at the counter of an entry that it does not bring to its end (R83, R110). -/
def Entry.count (e : Entry) : Entry := (e.mapProduce Produce.tick).mapConsume Consume.tick

/-- A tick at an entry, or its mark where the tick comes to it later: it is among `late`, or the tick would bring
its counter to its end (R83, R110, log 4, log 32). -/
def Entry.tick (late : List Nat) (e : Entry) : Entry :=
  if late.contains e.object || e.endsAtTick then { e with tickOwed := true } else e.count

/-- A tick at the coalescing timer would expire it (R172). -/
def Coalescing.endsAtTick (t : Coalescing) (limit : Nat) : Bool :=
  match t with
  | .running n => limit ≤ n + 1
  | .stopped | .expired => false

/-- A tick at the coalescing timer that does not expire it (R172). -/
def Coalescing.count (t : Coalescing) : Coalescing :=
  match t with
  | .running n => .running (n + 1)
  | .stopped => .stopped
  | .expired => .expired

/-- A tick at the coalescing timer, or its mark where the tick comes to it later (R172, log 4, log 32). -/
def NoticeUnit.tick (u : NoticeUnit) (limit : Nat) (late : Bool) : NoticeUnit :=
  if late || u.timer.endsAtTick limit then { u with tickOwed := true }
  else { u with timer := u.timer.count }

/-- Refresh expiry (R84). -/
def State.expireRefresh (s : State) (n : Nat) : State :=
  (s.appendRepeat n).updProduce n (fun p => { p with refreshCounter := 0 })

/-- Age expiry by replica and binding, the counter stopped at its limit (R110, R111, Table 6.4). -/
def State.expireAge (s : State) (n : Nat) (c : Consume) : State :=
  let stopped := s.updConsume n (fun c => { c with age := c.ageLimit, ageRunning := false })
  match c.replica, c.binding with
  | .fresh, .bound t =>
    let aged := stopped.updConsume n (fun c => { c with replica := .stale, binding := .orphaned t })
    aged.post (aged.replicaNotice .stale n t 0)
  | .fresh, .unbound | .fresh, .orphaned _ =>
    let aged := stopped.updConsume n (fun c => { c with replica := .stale })
    aged.post (aged.replicaNotice .stale n c.binding.station 0)
  | .absent, .bound t =>
    let aged := stopped.updConsume n (fun c => { c with binding := .orphaned t })
    aged.post (aged.replicaNotice .orphaned n t 1)
  | .absent, .unbound | .absent, .orphaned _ | .stale, _ => stopped

/-- The tick that is owed to the entry of `n`: it counts, and where it brings the counter to its end the
expiry is part of the same happening (R83, R84, R110, R111). Under an age limit of 1 it expires the entry also where
a record was applied just before it: R112 says of that order that the entry does not expire at that tick, while R110
lets the tick take the count from 0 to the limit; that R110 decides is the model's own choice (DESIGN CHOICE,
log 33). -/
def State.tickEntry (s : State) (n : Nat) : State :=
  match s.entry n with
  | none => s
  | some e =>
    if e.tickOwed then
      let met := s.setDirectory (updateEntry s.directory n (fun e => { e with tickOwed := false }))
      if e.endsAtTick then
        match e.role with
        | .produce _ => (met.expireRefresh n).settle
        | .consume c => (met.expireAge n c).settle
      else met.setDirectory (updateEntry met.directory n Entry.count)
    else s

/-- REFRESH_EXPIRY (R83, R84): the tick that is owed to a PRODUCE entry. -/
def execRefreshExpiry (object : Nat) (s : State) : Host.Outcome State Fault Refusal :=
  match s.produce object with
  | none => .next s
  | some _ => .next (s.tickEntry object)

/-- AGE_EXPIRY (R110, R111): the tick that is owed to a CONSUME entry. -/
def execAgeExpiry (object : Nat) (s : State) : Host.Outcome State Fault Refusal :=
  match s.consume object with
  | none => .next s
  | some _ => .next (s.tickEntry object)

/-- The tick that is owed to the coalescing timer: it counts, and where it brings the timer to the coalescing time
the timer expires in the same happening (R172, R173). -/
def State.tickTimer (s : State) : State :=
  if s.notice.tickOwed then
    if s.notice.timer.endsAtTick s.cfg.coalescing then
      (s.setNotice { s.notice with timer := .expired, tickOwed := false }).updateInt
    else s.setNotice { s.notice with timer := s.notice.timer.count, tickOwed := false }
  else s

/-- COALESCING_EXPIRY (R172, R173). -/
def execCoalescingExpiry (s : State) : Host.Outcome State Fault Refusal := .next s.tickTimer

/-- What the last tick still owes, carried out: the entries in ascending order, then the coalescing timer
(the order is a DESIGN CHOICE, log 4). -/
def State.carryOutTicks (s : State) : State :=
  ((s.directory.map Entry.object).foldl State.tickEntry s).tickTimer

/-- A tick at every block that counts ticks (R143). To the entries of `late`, and to the coalescing timer where
`timerLate` says so, it comes later (log 32). R110, R143 and R167 do not say whether the tick count rises before or
after the tick comes to the entries: that it rises first, so that the time stamp of a notice which an expiring tick
posts counts that tick, is the model's own choice (DESIGN CHOICE, log 35). -/
def State.tickAll (late : List Nat) (timerLate : Bool) (s : State) : State :=
  ((s.setStation { s.station with tickCount := s.station.tickCount + 1 }).setDirectory
    (s.directory.map (Entry.tick late))).setNotice (s.notice.tick s.cfg.coalescing timerLate)

/-- TICK (R143): the tick count, the refresh and age counters, and the coalescing timer. -/
def execTick (s : State) (late : List Nat := []) (timerLate : Bool := false) :
    Host.Outcome State Fault Refusal :=
  if s.station.life = .awaitStart then .next s else .next (s.carryOutTicks.tickAll late timerLate)

end Sys2Proof.Machine
end

