-- ==== Sys2Proof/Machine/Dispatch.lean ====
section
/-! DEFINITION. The meaning of every command, one arm per row of the table, in the table's order. -/

namespace Sys2Proof.Machine

/-- What a command does to everything but the queue of commands. -/
def exec (i : Instr) (s : State) : Host.Outcome State Fault Refusal :=
  match i with
  | .hardReset => Sys2Proof.Machine.execHardReset s
  | .softReset via => Sys2Proof.Machine.execSoftReset via s
  | .start via during => Sys2Proof.Machine.execStart via s during
  | .cmdAdvance via value => Sys2Proof.Machine.execCmdAdvance via value s
  | .noticeTaken via k => Sys2Proof.Machine.execNoticeTaken via k s
  | .tickHighByteRead via => Sys2Proof.Machine.execTickHighByteRead via s
  | .registerWriteIgnored via addr value => Sys2Proof.Machine.execRegisterWriteIgnored via addr value s
  | .sharedRamWrite via addr value turn => Sys2Proof.Machine.execSharedRamWrite via addr value turn s
  | .examination => Sys2Proof.Machine.execExamination s
  | .badCommand => Sys2Proof.Machine.execBadCommand s
  | .subscribe => Sys2Proof.Machine.execSubscribe s
  | .unsubscribe => Sys2Proof.Machine.execUnsubscribe s
  | .claim => Sys2Proof.Machine.execClaim s
  | .relinquish => Sys2Proof.Machine.execRelinquish s
  | .write => Sys2Proof.Machine.execWrite s
  | .read => Sys2Proof.Machine.execRead s
  | .pull => Sys2Proof.Machine.execPull s
  | .lock => Sys2Proof.Machine.execLock s
  | .unlock => Sys2Proof.Machine.execUnlock s
  | .unbind => Sys2Proof.Machine.execUnbind s
  | .snapshot => Sys2Proof.Machine.execSnapshot s
  | .leave => Sys2Proof.Machine.execLeave s
  | .rejoin => Sys2Proof.Machine.execRejoin s
  | .carrierBegins => Sys2Proof.Machine.execCarrierBegins s
  | .carrierAbsent => Sys2Proof.Machine.execCarrierAbsent s
  | .frameEnd bytes => Sys2Proof.Machine.execFrameEnd bytes s
  | .dataRecordAtConsume => Sys2Proof.Machine.execDataRecordAtConsume s
  | .dataRecordAtProduce => Sys2Proof.Machine.execDataRecordAtProduce s
  | .claimHeard => Sys2Proof.Machine.execClaimHeard s
  | .disputeHeard => Sys2Proof.Machine.execDisputeHeard s
  | .relinquishHeardAtProduce => Sys2Proof.Machine.execRelinquishHeardAtProduce s
  | .relinquishHeardAtConsume => Sys2Proof.Machine.execRelinquishHeardAtConsume s
  | .pullHeard => Sys2Proof.Machine.execPullHeard s
  | .holdHeard => Sys2Proof.Machine.execHoldHeard s
  | .slotBoundary => Sys2Proof.Machine.execSlotBoundary s
  | .grant slot => Sys2Proof.Machine.execGrant slot s
  | .holdEntryRunsOut => Sys2Proof.Machine.execHoldEntryRunsOut s
  | .ownHoldExpires => Sys2Proof.Machine.execOwnHoldExpires s
  | .joinPeriodEnd => Sys2Proof.Machine.execJoinPeriodEnd s
  | .tick late timerLate => Sys2Proof.Machine.execTick s late timerLate
  | .refreshExpiry object => Sys2Proof.Machine.execRefreshExpiry object s
  | .ageExpiry object => Sys2Proof.Machine.execAgeExpiry object s
  | .coalescingExpiry => Sys2Proof.Machine.execCoalescingExpiry s
  | .quietReached => Sys2Proof.Machine.execQuietReached s
  | .deferralSlot => Sys2Proof.Machine.execDeferralSlot s
  | .deferralEnd => Sys2Proof.Machine.execDeferralEnd s
  | .collision => Sys2Proof.Machine.execCollision s
  | .lateCollision => Sys2Proof.Machine.execLateCollision s
  | .successfulEnd => Sys2Proof.Machine.execSuccessfulEnd s
  | .placement => Sys2Proof.Machine.execPlacement s
  | .firstByteCollected byte => Sys2Proof.Machine.execFirstByteCollected byte s
  | .headerFieldsComplete byte1 byte2 => Sys2Proof.Machine.execHeaderFieldsComplete byte1 byte2 s
  | .resetNReleased => Sys2Proof.Machine.execResetNReleased s

end Sys2Proof.Machine
end

