-- ==== Sys2Proof/Safety.lean ====
section
/-! DEFINITION. What a safe state is, and the words in which the statements speak of a step: the blocks a
happening changes, what a ring command's completion leaves, what a post leaves, and the invariants. -/

namespace Sys2Proof.Machine

/-! ## Frames -/

/-- The blocks of Table 0.1, as the fields of the state. -/
inductive Block where
  | station | directory | store | ownership | pubQueue | rx | dispatch | contention | command
  | notice | port | pending
  deriving DecidableEq, Repr

/-- Two states agree on a block. -/
def State.Agrees (s t : State) : Block → Prop
  | .station => t.station = s.station
  | .directory => t.directory = s.directory
  | .store => t.store = s.store
  | .ownership => t.ownership = s.ownership
  | .pubQueue => t.pubQueue = s.pubQueue
  | .rx => t.rx = s.rx
  | .dispatch => t.dispatch = s.dispatch
  | .contention => t.contention = s.contention
  | .command => t.command = s.command
  | .notice => t.notice = s.notice
  | .port => t.port = s.port
  | .pending => t.pending = s.pending

/-- Every block but the listed ones is as it was. -/
def State.ChangesOnly (s t : State) (blocks : List Block) : Prop :=
  ∀ b, b ∉ blocks → s.Agrees t b

/-- The Contention Unit is as it was, but for its state and the random generator: a new draw at most
(R119, R121). -/
def Contention.SameButDraw (c d : Contention) : Prop :=
  d = { c with state := d.state, rng := d.rng }

/-- The line of a way of a set, by the set's number. -/
def State.lineAt (s : State) (k : Fin 64) (w : Way) : Line := (s.store.get k).line w

/-- In the store, only the line of one way of one set and that set's indicator may differ. -/
def State.StoreSameBut (s t : State) (k : Fin 64) (w : Way) : Prop :=
  t.lineAt k w.other = s.lineAt k w.other ∧ ∀ j, j ≠ k → t.store.get j = s.store.get j

/-! ## Shared RAM and SPI bytes -/

/-- A byte of shared RAM, once every SPI write that waits at the arbiter has been taken (R178). -/
def State.ramByte (s : State) (a : Nat) : Byte := Memory.read s.port.drain.ram a

/-- Bytes of shared RAM from an address on. -/
def State.ramBytes (s : State) (a n : Nat) : List Byte := (List.range n).map (fun i => s.ramByte (a + i))

/-- The port serves a data byte at an address: RESET_N is released, and the byte is the first of a
transaction, or a byte of a read, or the next one of the write transaction in progress (R176). -/
def HostPort.Serves (p : HostPort) (via : SpiVia) (isWrite : Bool) (addr : Nat) : Prop :=
  p.resetHeld = false ∧
    (via.begins = true ∨ isWrite = false
      ∨ ∃ t, p.spi = some t ∧ t.isWrite = true ∧ t.counter.toNat = addr)

/-- The transaction after a data byte at an address: it goes on at the next address, or SSN has risen
(R176). -/
def transactionAfter (via : SpiVia) (isWrite : Bool) (addr : Nat) : Option SpiTransaction :=
  if via.ends then none else some { isWrite := isWrite, counter := BitVec.ofNat 16 (addr + 1) }

/-- The port after an SPI byte at a register: earlier SPI accesses taken, the counter advanced (R176,
R178). -/
def HostPort.afterRegisterByte (p : HostPort) (via : SpiVia) (isWrite : Bool) (addr : Nat) : HostPort :=
  { p.drain with spi := transactionAfter via isWrite addr }

/-- The start record as the engine reads it at a START, among whose reads the SPI bytes of `during` come at their
turns (R140, R178). -/
def State.startRecord (s : State) (via : SpiVia) (during : List RamByte) : List Byte :=
  (((s.port.afterRegisterByte via true 0x4006).acceptBytes during).engineReads 0 32).1

/-- The port after a START in AWAIT_START: every SPI byte that came has been taken. -/
def State.startPort (s : State) (via : SpiVia) (during : List RamByte) : HostPort :=
  ((s.port.afterRegisterByte via true 0x4006).acceptBytes during).drain

/-- STATE (Table 8.1). -/
def stateCode (l : Life) : Nat :=
  match l with
  | .awaitStart => 0
  | .joining => 1
  | .active => 2
  | .leaving => 3
  | .detached => 4
  | .muted => 5

/-- A byte of shared RAM after the engine writes of a happening, each given as its place among the engine's
accesses, its address and its byte, while one SPI access `w` waited (R178): an SPI write that comes after the
engine's write to its address stands, and one that comes before it is overwritten. -/
def HostPort.byteAfter (p : HostPort) (w : WaitingAccess) (writes : List (Nat × Nat × Byte)) (x : Nat) : Byte :=
  match writes.find? (fun k => k.2.1 == x), w.value with
  | some k, some v => if x = w.addr ∧ k.1 < w.turn then v else k.2.2
  | some k, none => k.2.2
  | none, some v => if x = w.addr then v else Memory.read p.ram x
  | none, none => Memory.read p.ram x

/-- What an SPI read `w` that waited finds (R178): an engine's byte that was written before its turn, and else
the byte as it stood. -/
def HostPort.byteFound (p : HostPort) (w : WaitingAccess) (writes : List (Nat × Nat × Byte)) : Byte :=
  match writes.find? (fun k => k.2.1 == w.addr) with
  | some k => if k.1 < w.turn then k.2.2 else Memory.read p.ram w.addr
  | none => Memory.read p.ram w.addr

/-- The port after such a happening: nothing waits any more, and a read has put what it found on MISO. -/
def HostPort.Met (p q : HostPort) (w : WaitingAccess) (writes : List (Nat × Nat × Byte)) : Prop :=
  (∀ x, Memory.read q.ram x = p.byteAfter w writes x)
    ∧ q = { p with
        ram := q.ram, waiting := []
        readByte := if w.value = none then p.byteFound w writes else p.readByte }

/-- What the `i`-th engine access of a happening reads at an address, while `w` waits. -/
def HostPort.byteRead (p : HostPort) (w : WaitingAccess) (i a : Nat) : Byte :=
  match w.value with
  | some v => if a = w.addr ∧ w.turn ≤ i then v else Memory.read p.ram a
  | none => Memory.read p.ram a

/-! ## Start and reset -/

/-- Every block at its reset values (R139; R16, R34, R51, R52, R55, R96, R117, R154, R175, R179). Shared
RAM, the SPI transaction and the CRS input are not among them. -/
def State.HasResetValues (t : State) : Prop :=
  t.station = { life := .awaitStart, startError := 0, copy := none, keptTag := 0, joinTimer := 0
                joinRunning := false, joinOwed := false, rejoined := false, slotCount := 0, tickCount := 0 }
    ∧ t.directory = []
    ∧ (∀ k w, (t.lineAt k w).valid = false ∧ (t.lineAt k w).pinned = false
        ∧ (t.lineAt k w).locked = false)
    ∧ (∀ k, (t.store.get k).older = .way0)
    ∧ (∀ k, t.ownership.slots.get k = none) ∧ t.ownership.waitList = []
    ∧ t.pubQueue = [] ∧ t.rx = .off ∧ t.dispatch = []
    ∧ t.contention.state = .idle ∧ t.contention.inHand = none ∧ t.contention.attempts = 0
    ∧ t.contention.queue = [] ∧ t.contention.pendingHold = none
    ∧ (∀ k, t.contention.holdTable.get k = 0) ∧ t.contention.rng = 0xACE1
    ∧ t.contention.ownHold = .off ∧ t.contention.ownExpiry = 0 ∧ t.contention.expiryOwed = false
    ∧ t.command = { index := 0, scanning := false, rescan := false }
    ∧ t.notice = { backlog := [], lost := 0, writeIndex := 0, unread := 0, serial := 0
                   timer := .stopped, tickOwed := false, intLine := false }
    ∧ t.port.tickLatch = 0

/-- A ring of `length` slots at `base` lies in 0x0020 to 0x3FFF, from a multiple of 16 on. -/
def RingGood (length base : Nat) : Prop :=
  base % 16 = 0 ∧ 0x0020 ≤ base ∧ base + 16 * length ≤ 0x4000

/-- Table 8.4 for the 32 bytes: what each check refuses, with its field code. -/
def startTable (b : List Byte) : List (Prop × Nat) :=
  let r := StartRecord.ofBytes b
  [ (31 < r.station, 1), (3 < r.bitRate, 2), (r.retryLimit < 1 ∨ 15 < r.retryLimit, 3),
    (r.claimWindow < 8, 4), (r.joinPeriod < 16 ∨ 1023 < r.joinPeriod, 5),
    (r.tickLength < 1 ∨ 100 < r.tickLength, 6),
    (r.cmdLength < 4 ∨ 64 < r.cmdLength ∨ ¬ RingGood r.cmdLength r.cmdBase, 7),
    (r.noticeLength < 8 ∨ 128 < r.noticeLength ∨ ¬ RingGood r.noticeLength r.noticeBase, 8),
    (∃ a, (r.cmdBase ≤ a ∧ a < r.cmdBase + 16 * r.cmdLength)
        ∧ r.noticeBase ≤ a ∧ a < r.noticeBase + 16 * r.noticeLength, 9),
    (r.holdLength < 16 ∨ 1023 < r.holdLength, 10), (r.highMark < 4 ∨ 32 < r.highMark, 11),
    (r.highMark ≤ r.lowMark, 12), (r.trigger < 1 ∨ r.noticeLength < r.trigger, 13),
    (∃ i, 19 ≤ i ∧ i < 32 ∧ byteAt b i ≠ 0, 14) ]

/-! ## The command ring -/

/-- The unit is SCANNING, no SPI write waits, and the slot at the index holds the submitted descriptor
`d` (R156, R157). -/
def State.Submits (s : State) (d : Descriptor) : Prop :=
  s.command.scanning = true ∧ s.port.waiting = [] ∧
    Descriptor.ofBytes (s.ramBytes s.slotAddress 16) = d ∧ d.marker = markerSubmitted

/-- A completed descriptor (R156, R158): the five bytes written, the index advanced, and no other byte of
shared RAM changed but the `n` buffer bytes from `b` on. -/
def State.Completed (s t : State) (status : Status) (flags : Byte) (length detail b n : Nat) : Prop :=
  t.command = { s.command with index := s.nextIndex }
    ∧ t.ramByte s.slotAddress = markerDone
    ∧ t.ramByte (s.slotAddress + 2) = status.code
    ∧ t.ramByte (s.slotAddress + 3) = flags
    ∧ t.ramByte (s.slotAddress + 9) = byteOf length
    ∧ t.ramByte (s.slotAddress + 12) = byteOf detail
    ∧ (∀ a, a ∉ [s.slotAddress, s.slotAddress + 2, s.slotAddress + 3, s.slotAddress + 9,
          s.slotAddress + 12] → ¬(b ≤ a ∧ a < b + n) → t.ramByte a = s.ramByte a)
    ∧ t.port = { s.port with ram := t.port.ram }

/-- The command of the table that a command code selects (Table 9.2). -/
def commandOf (code : Byte) : Option Instr :=
  match code.toNat with
  | 1 => some .subscribe
  | 2 => some .unsubscribe
  | 3 => some .claim
  | 4 => some .relinquish
  | 5 => some .write
  | 6 => some .read
  | 7 => some .pull
  | 8 => some .lock
  | 9 => some .unlock
  | 10 => some .unbind
  | 11 => some .snapshot
  | 12 => some .leave
  | 13 => some .rejoin
  | _ => none

/-- The life-cycle states that CLAIM, WRITE and PULL are refused in (Table 8.2). -/
def Life.stopsProducing : Life → Bool
  | .leaving | .detached | .muted => true
  | .awaitStart | .joining | .active => false

/-- The buffer check of R161: `n` is 0, or the bytes from `b` to `b + n − 1` lie in 0x0020 to 0x3FFF and
share none with a ring. -/
def State.BufferGood (s : State) (b n : Nat) : Prop :=
  n = 0 ∨
  (0x0020 ≤ b ∧ b + n - 1 ≤ 0x3FFF ∧
    ∀ a, b ≤ a → a < b + n →
      ¬(s.cfg.cmdBase ≤ a ∧ a < s.cfg.cmdBase + 16 * s.cfg.cmdLength)
        ∧ ¬(s.cfg.noticeBase ≤ a ∧ a < s.cfg.noticeBase + 16 * s.cfg.noticeLength))

/-- The checks of each ring command in their order, each with its status, as Table 9.6 and the command's
rule give them; the last of LOCK is the Replica Store's (R32). -/
def State.tableChecks (s : State) (d : Descriptor) : Instr → List (Prop × Status)
  | .subscribe =>
    [ (4096 ≤ d.object, .badObject), (2 < d.paramB, .badParameter),
      ((s.produce d.object).isSome = true, .roleConflict), ((s.consume d.object).isSome = true, .exists),
      (256 ≤ s.directory.length, .directoryFull) ]
  | .unsubscribe | .unlock | .unbind =>
    [ (4096 ≤ d.object, .badObject), (s.entry d.object = none, .noEntry),
      ((s.produce d.object).isSome = true, .roleConflict) ]
  | .lock =>
    [ (4096 ≤ d.object, .badObject), (s.entry d.object = none, .noEntry),
      ((s.produce d.object).isSome = true, .roleConflict), (s.objectLine d.object = none, .notResident) ]
  | .claim =>
    [ (s.station.life.stopsProducing = true, .badState), (4096 ≤ d.object, .badObject),
      ((s.consume d.object).isSome = true, .roleConflict),
      (∃ p, s.produce d.object = some p ∧ p.ownership ≠ .deposed, .exists),
      (∀ k, s.ownership.slots.get k ≠ none, .noClaimSlot),
      (s.entry d.object = none ∧ 256 ≤ s.directory.length, .directoryFull),
      (s.entry d.object = none ∧ (s.setOf d.object).choose = none, .noLine) ]
  | .relinquish =>
    [ (4096 ≤ d.object, .badObject), (s.entry d.object = none, .noEntry),
      ((s.consume d.object).isSome = true, .roleConflict) ]
  | .write =>
    [ (s.station.life.stopsProducing = true, .badState), (4096 ≤ d.object, .badObject),
      (64 < d.length, .badParameter), (¬ s.BufferGood d.buffer d.length, .badBuffer),
      (s.entry d.object = none, .noEntry), ((s.consume d.object).isSome = true, .roleConflict),
      (∃ p, s.produce d.object = some p ∧ (p.ownership = .relinquishing ∨ p.ownership = .deposed),
        .notOwner) ]
  | .read =>
    [ (4096 ≤ d.object, .badObject), (¬ s.BufferGood d.buffer 64, .badBuffer),
      (s.entry d.object = none, .noEntry) ]
  | .pull =>
    [ (s.station.life.stopsProducing = true, .badState), (4096 ≤ d.object, .badObject),
      (s.entry d.object = none, .noEntry), ((s.produce d.object).isSome = true, .roleConflict),
      (6 ≤ (s.contention.queue.filter CtlFrame.fromCommand).length, .queueFull) ]
  | .snapshot =>
    [ (d.length = 0 ∨ 32 < d.length, .badParameter), (4095 < d.paramA, .badParameter),
      (¬ s.BufferGood d.buffer (8 * d.length), .badBuffer) ]
  | .leave => [ (s.station.life ≠ .active, .badState) ]
  | .rejoin => [ (s.station.life ≠ .detached, .badState) ]
  | _ => []

/-- `result` is that of the first check that fails (R141, R157, R160). -/
def FirstToFail {α : Type} (checks : List (Prop × α)) (result : α) : Prop :=
  ∃ before after p, checks = before ++ (p, result) :: after ∧ p ∧ ∀ c ∈ before, ¬ c.1

/-- The slot at the index holds a submitted descriptor for ring command `c` that passes every check of
Table 9.6. -/
def State.Takes (s : State) (c : Instr) (d : Descriptor) : Prop :=
  s.Submits d ∧ commandOf d.code = some c ∧ ∀ k ∈ s.tableChecks d c, ¬ k.1

/-- The 8 bytes of a snapshot summary (Tables 1.8 and 11.9) of an entry whose line is `l`. -/
def Entry.SummaryReads (e : Entry) (l : Option Line) : List Byte → Prop
  | [b0, b1, b2, b3, b4, b5, b6, b7] =>
    (e.object < 4096 → (b0.toNat * 256 + b1.toNat) / 16 = e.object)
      ∧ (b1.getLsbD 3 = true ↔ e.produce = none)
      ∧ b1.toNat / 2 % 4 = (match e.line with | none => 0 | some .way0 => 1 | some .way1 => 2)
      ∧ b5 = BitVec.ofNat 8 ((l.map Line.length).getD 0) ∧ b7 = 0 ∧
      match e.role with
      | .produce p =>
        (b1.getLsbD 0 = true ↔ p.committed ≠ none)
          ∧ b2.toNat = 64 * (match p.ownership with
              | .claiming => 0 | .owned => 1 | .relinquishing => 2 | .deposed => 3)
          ∧ b3 = 0xFF ∧ b4 = p.committed.getD 0
          ∧ (b6.getLsbD 0 = true ↔ p.staged = true) ∧ (b6.getLsbD 1 = true ↔ p.pending = true)
          ∧ (b6.getLsbD 2 = true ↔ p.queued ≠ .no)
          ∧ (b6.getLsbD 3 = true ↔ p.queued = .yes true ∨ p.inFlight = .repeating)
          ∧ (b6.getLsbD 4 = true ↔ p.inFlight ≠ .no) ∧ b6.toNat < 32
      | .consume c =>
        (b1.getLsbD 0 = true ↔ c.lastSeq ≠ none)
          ∧ b2.toNat = 64 * (match c.replica with | .absent => 0 | .fresh => 1 | .stale => 2)
              + 16 * (match c.binding with | .unbound => 0 | .bound _ => 1 | .orphaned _ => 2)
              + 4 * (match c.notify with | .none => 0 | .change => 1 | .all => 2)
          ∧ b3 = BitVec.ofNat 8
              (match c.binding with | .unbound => 0xFF | .bound station | .orphaned station => station)
          ∧ b4 = c.lastSeq.getD 0
          ∧ b6.toNat = (if l.map Line.locked = some true then 32 else 0)
              + (if c.ageRunning = true then 0 else 64)
  | _ => False

/-! ## Notices -/

/-- The kind codes of Table 10.2. -/
def kindCode (k : NoticeKind) : Byte :=
  match k with
  | .updated => 0x01
  | .gap => 0x02
  | .bound => 0x03
  | .ownerChanged => 0x04
  | .sourceConflict => 0x05
  | .orphaned => 0x06
  | .stale => 0x07
  | .evicted => 0x08
  | .noLine => 0x09
  | .claimGranted => 0x10
  | .claimLost => 0x11
  | .claimFailed => 0x12
  | .ownershipLost => 0x13
  | .relinquished => 0x14
  | .txAbandoned => 0x15
  | .joined => 0x20
  | .left => 0x21
  | .numberClash => 0x22
  | .holdStarted => 0x23
  | .holdEnded => 0x24
  | .noticesLost => 0x25

/-- The 16 bytes of a notice with its serial (Table 11.8), high bytes first (R181). -/
def Notice.Reads (n : Notice) (serial : Nat) : List Byte → Prop
  | [b0, b1, b2, b3, b4, b5, b6, b7, b8, b9, b10, b11, b12, b13, b14, b15] =>
    b0 = BitVec.ofNat 8 serial ∧ b1 = kindCode n.kind
      ∧ b2.toNat * 256 + b3.toNat = n.object % 65536
      ∧ b4 = BitVec.ofNat 8 n.station ∧ b5 = n.seq ∧ b6 = BitVec.ofNat 8 n.detail
      ∧ b7 = BitVec.ofNat 8 n.length ∧ b8.toNat * 256 + b9.toNat = n.tag.toNat
      ∧ b10.toNat * 256 + b11.toNat = n.stamp.toNat
      ∧ [b12, b13, b14, b15] = (n.first ++ [0, 0, 0, 0]).take 4
  | _ => False

/-- The Notice Unit after one post (R168): at the tail, or discarded and counted. -/
def NoticeUnit.posted (u : NoticeUnit) (n : Notice) : NoticeUnit :=
  if u.backlog.length < 32 then { u with backlog := u.backlog ++ [n] }
  else { u with lost := min 255 (u.lost + 1) }

/-- The Notice Unit after some posts, in order. -/
def NoticeUnit.postedAll (u : NoticeUnit) (ns : List Notice) : NoticeUnit := ns.foldl NoticeUnit.posted u

/-- The Notice Unit `v` is `u` after further posts at most. -/
def NoticeUnit.GoesOnTo (u v : NoticeUnit) : Prop := ∃ ns, v = u.postedAll ns

/-- A notice about a value: its first four bytes, zero beyond (R167). -/
def State.valueNotice (s : State) (kind : NoticeKind) (object station : Nat) (seq : Byte) (detail : Nat)
    (value : List Byte) (tag : Word16) : Notice :=
  { kind := kind, object := object, station := station, seq := seq, detail := detail
    length := value.length, tag := tag, stamp := BitVec.ofNat 16 s.station.tickCount
    first := (value ++ [0, 0, 0, 0]).take 4 }

/-- The value in the line of an object, or no bytes where it holds none. -/
def State.value (s : State) (n : Nat) : List Byte :=
  match s.objectLine n with
  | some l => l.payload.take l.length
  | none => []

/-! ## Contention, entries and queue after a happening -/

/-- What a HOLD request of length `n` leaves, by the five cases of R130 in their order. -/
def Contention.HoldRequested (c t : Contention) (n : Nat) : Prop :=
  let queued := ∃ m, CtlFrame.hold m ∈ c.queue
  let unsent := c.state ≠ .sending ∧ ∃ m w, c.inHand = some (.control (.hold m) w)
  let automatic :=
    (c.queue.filter (fun f => match f with | .dispute _ | .hold _ => true | _ => false)).length
  (queued → t = { c with
    queue := c.queue.map (fun f => match f with | .hold _ => .hold n | other => other) }) ∧
  (¬ queued → unsent → t = { c with inHand := some (.control (.hold n) false) }) ∧
  (¬ queued → ¬ unsent → c.pendingHold ≠ none → t = { c with pendingHold := some n }) ∧
  (¬ queued → ¬ unsent → c.pendingHold = none → automatic < 2 →
    t = { c with queue := c.queue ++ [.hold n] }) ∧
  (¬ queued → ¬ unsent → c.pendingHold = none → 2 ≤ automatic → t = { c with pendingHold := some n })

/-- The division register `r` takes one bit and becomes `t` (R40): it moves up by one place, and the bit that leaves
it, added to the bit taken, returns at places 0, 5 and 12, the powers of x^16 + x^12 + x^5 + 1 below 16. -/
def CrcTakesBit (r : Word16) (bit : Bool) (t : Word16) : Prop :=
  let fed := r.getLsbD 15 ^^ bit
  ∀ i, i < 16 → t.getLsbD i =
    if i = 0 then fed else if i = 5 ∨ i = 12 then r.getLsbD (i - 1) ^^ fed else r.getLsbD (i - 1)

/-- The Contention Unit after one high-mark test at a backlog count of `b` in a life-cycle state (R134): in
ACTIVE and LEAVING an own hold that is OFF starts, with a HOLD(H), exactly when `b` is at or above the high
mark. -/
def Contention.tested (c : Contention) (life : Life) (r : StartRecord) (b : Nat) : Contention :=
  if c.ownHold = .off ∧ (life = .active ∨ life = .leaving) ∧ r.highMark ≤ b then
    { c.requestHold r.holdLength with ownHold := .starting }
  else c

/-- The Contention Unit `c` after posts that have taken the backlog from that of `s` to that of `t`: a post
that raises B makes the high-mark test, and one that is discarded does not (R134, R168, R169). The test at
the last rise decides, since B only rises. -/
def State.testedAfter (s t : State) (c : Contention) : Contention :=
  if s.notice.backlog.length < t.notice.backlog.length then
    c.tested s.station.life s.cfg t.notice.backlog.length
  else c

/-- The Contention Unit after posts that do nothing else there. -/
def State.AfterPosts (s t : State) : Prop := t.contention = s.testedAfter t s.contention

/-- Nothing but posts has come between two states: the Notice Unit holds them, and the own hold has met each
rise of B (R134, R168, R169). -/
def State.Posts (s t : State) (ns : List Notice) : Prop :=
  t.notice = s.notice.postedAll ns ∧ s.AfterPosts t ∧ s.ChangesOnly t [.notice, .contention]

/-- Every entry but that of `n` is as it was, but that its RELINQUISH frame may have moved from the wait
list into the control queue (R55). -/
def State.OthersKept (s t : State) (n : Nat) : Prop :=
  ∀ m, m ≠ n → t.entry m = s.entry m ∨
    t.entry m = (s.entry m).map (Entry.mapProduce (fun p => { p with releaseQueued := true }))

/-- The line that the entry of `n` holds is freed (R33): invalid, marks clear, and nothing else in the
store changed. That a freed line keeps its object number, length and bytes is the model's own choice (log 15):
R18 gives them no meaning. -/
def State.LineFreed (s t : State) (n : Nat) : Prop :=
  match (s.entry n).bind Entry.line with
  | none => t.store = s.store
  | some w =>
    t.lineAt (setIndex n) w =
        { s.lineAt (setIndex n) w with valid := false, pinned := false, locked := false }
      ∧ (t.store.get (setIndex n)).older = (s.store.get (setIndex n)).older
      ∧ s.StoreSameBut t (setIndex n) w

/-- The Contention Unit, but for its state with the generator of its draws, its frame in hand with the
attempts, its queue, its pending HOLD and its own-hold state, is as it was. -/
def Contention.SameButFrames (c d : Contention) : Prop :=
  d = { c with
    state := d.state, inHand := d.inHand, attempts := d.attempts, queue := d.queue, rng := d.rng
    pendingHold := d.pendingHold, ownHold := d.ownHold }

/-- The Contention Unit once its frame in hand has ended or has been discarded (R127, R128). -/
def Contention.ended (c : Contention) : Contention :=
  { c with inHand := none, attempts := 0, state := .idle }

/-- The unit has work (R119). -/
def State.Works (s : State) : Prop :=
  (s.contention.queue ≠ [] ∧ (s.station.life = .active ∨ s.station.life = .leaving))
    ∨ (s.pubQueue ≠ [] ∧ s.station.life = .active ∧ ∀ k, s.contention.holdTable.get k = 0)

/-- The deferral of a new draw (R121, R122, Table 7.3): CONTROL class, 0 to 3, with a control frame in hand or
waiting; else DATA class, 4 and a draw of 2 plus the attempt count bits, at most 7. -/
def Contention.newDeferral (c : Contention) : Nat :=
  let r := (rngAdvance c.rng).toNat
  match c.inHand with
  | some (.control _ _) => r % 4
  | some (.data _) | none => if c.queue ≠ [] then r % 4 else 4 + r % 2 ^ min 7 (2 + c.attempts)

/-- The unit after a new draw that leaves IDLE (R119, R121). -/
def Contention.drawn (c : Contention) : Contention :=
  { c with
    rng := rngAdvance c.rng
    state := if c.quiet then .deferring c.newDeferral false else .waitQuiet c.newDeferral }

/-- An unsent frame in hand is discarded (R128): the unit goes to IDLE with attempt count 0, and at once on
with a new draw if it has work. -/
def State.Discards (s t : State) : Prop :=
  s.ChangesOnly t [.contention] ∧
    (s.Works → t.contention = s.contention.ended.drawn) ∧ (¬ s.Works → t.contention = s.contention.ended)

/-- One change at the PRODUCE entry of `n`, every other entry kept (R7). -/
def State.EntryBecomes (s t : State) (n : Nat) (f : Produce → Produce) : Prop :=
  (∀ m, t.entry m = if m = n then (s.entry m).map (Entry.mapProduce f) else s.entry m)
    ∧ s.ChangesOnly t [.directory]

/-- A CLAIM or RELINQUISH frame is handed on (R54, R55, R72): to the tail of the control queue where a command
place is free, else to the tail of the wait list. A RELINQUISH in the queue marks its entry. -/
def State.HandsOn (s t : State) (f : CtlFrame) : Prop :=
  if (s.contention.queue.filter CtlFrame.fromCommand).length < 6 then
    t.contention = { s.contention with queue := s.contention.queue ++ [f] }
      ∧ (∀ m, t.entry m = if f = .relinquish m then
            (s.entry m).map (Entry.mapProduce (fun p => { p with releaseQueued := true }))
          else s.entry m)
      ∧ s.ChangesOnly t [.directory, .contention]
  else
    t.ownership = { s.ownership with waitList := s.ownership.waitList ++ [f] }
      ∧ s.ChangesOnly t [.ownership]

/-- What follows when frame `f` has left the control queue (R55, R131): a command place takes the head of the
wait list, whose RELINQUISH marks its entry, and an automatic place takes a pending HOLD. -/
def State.PlaceFreed (s t : State) (f : CtlFrame) : Prop :=
  if f.fromCommand then
    t.contention = { s.contention with queue := s.contention.queue ++ s.ownership.waitList.take 1 }
      ∧ t.ownership = { s.ownership with waitList := s.ownership.waitList.drop 1 }
      ∧ (∀ m, t.entry m = if s.ownership.waitList.head? = some (.relinquish m) then
            (s.entry m).map (Entry.mapProduce (fun p => { p with releaseQueued := true }))
          else s.entry m)
      ∧ s.ChangesOnly t [.directory, .ownership, .contention]
  else
    t.contention = { s.contention with
        queue := s.contention.queue ++ (s.contention.pendingHold.map CtlFrame.hold).toList
        pendingHold := none }
      ∧ s.ChangesOnly t [.contention]

/-- Frame `f` leaves the control queue by withdrawal, if it stands there (R131). -/
def State.LeavesQueue (s t : State) (f : CtlFrame) : Prop :=
  if f ∈ s.contention.queue then
    { s with contention := { s.contention with queue := s.contention.queue.erase f } }.PlaceFreed t f
  else t = s

/-- Frame `f` is withdrawn from the hand, if it is in hand (R128): marked while it is being sent, discarded
otherwise. -/
def State.LeavesHand (s t : State) (f : CtlFrame) : Prop :=
  match s.contention.inHand with
  | some (.control g _) =>
    if g = f then
      if s.contention.state = .sending then
        t = { s with contention := { s.contention with inHand := some (.control f true) } }
      else s.Discards t
    else t = s
  | some (.data _) | none => t = s

/-- Frame `f` is withdrawn from wherever it stands, in this order: wait list, control queue, hand (R64, R65,
R69, R128, R131). -/
def State.Withdraws (s t : State) (f : CtlFrame) : Prop :=
  ∃ a, { s with ownership := { s.ownership with
      waitList := s.ownership.waitList.filter (fun g => g ≠ f) } }.LeavesQueue a f ∧ a.LeavesHand t f

/-- The record of `n` in a DATA frame in hand that is not being sent (R93). -/
def State.unsentRecord (s : State) (n : Nat) : Option TxRecord :=
  if s.contention.state = .sending then none
  else
    match s.contention.inHand with
    | some (.data records) => records.find? (fun r => r.object == n)
    | _ => none

/-- The record of `n` is stripped from an unsent DATA frame in hand (R93, R128): its entry's mark is cleared and
pending set again for REPEAT clear, the other records stay in order, and an emptied frame is discarded. -/
def State.StripsRecord (s t : State) (n : Nat) : Prop :=
  match s.unsentRecord n, s.contention.inHand with
  | some r, some (.data records) =>
    ∃ a, (if records.filter (fun r => r.object ≠ n) = [] then s.Discards a
        else a = { s with contention := { s.contention with
          inHand := some (.data (records.filter (fun r => r.object ≠ n))) } })
      ∧ a.EntryBecomes t n (fun p => { p with inFlight := .no, pending := p.pending || !r.rep })
  | _, _ => t = s

/-- The publication of `n` stops as its entry stops being OWNED, in the order of R66: its item leaves the
queue, its record an unsent frame in hand, and its DISPUTE is withdrawn (R66, R70, R78, R93, R64). -/
def State.StopsPublishing (s t : State) (n : Nat) : Prop :=
  ∃ a b, { s with pubQueue := s.pubQueue.filter (fun it => it.object ≠ n) }.EntryBecomes a n
      (fun p => { p with queued := .no })
    ∧ a.StripsRecord b n ∧ b.Withdraws t (.dispute n)

/-- A withdrawn frame in hand: marked while it is being sent, discarded otherwise (R128). -/
def State.WithdrawnInHand (s t : State) (f : CtlFrame) : Prop :=
  ∀ w, s.contention.inHand = some (.control f w) →
    t.contention.inHand = if s.contention.state = .sending then some (.control f true) else none

/-- The publication of `n` stops as its entry `p` stops being OWNED and becomes `q` (R66, R70, R78, R93,
R128): its item leaves the queue, its record leaves a frame that is not being sent, and its DISPUTE is
withdrawn. -/
def State.PublicationStops (s t : State) (n : Nat) (p q : Produce) : Prop :=
  q.queued = .no ∧ t.pubQueue = s.pubQueue.filter (fun it => it.object ≠ n)
    ∧ (match s.unsentRecord n with
       | none => q.inFlight = p.inFlight ∧ q.pending = p.pending
       | some r => q.inFlight = .no ∧ q.pending = (p.pending || !r.rep))
    ∧ (∀ records, s.contention.inHand = some (.data records) →
        t.contention.inHand =
          if s.unsentRecord n = none then some (.data records)
          else if records.filter (fun r => r.object ≠ n) = [] then none
          else some (.data (records.filter (fun r => r.object ≠ n))))
    ∧ t.contention.queue.count (.dispute n) = s.contention.queue.count (.dispute n) - 1
    ∧ s.WithdrawnInHand t (.dispute n)
    ∧ s.contention.SameButFrames t.contention
    ∧ (s.unsentRecord n = none → (∀ w, s.contention.inHand ≠ some (.control (.dispute n) w)) →
        t.contention.state = s.contention.state ∧ t.contention.attempts = s.contention.attempts
          ∧ t.contention.rng = s.contention.rng)

/-- The claim slot of the entry of `n` is freed, and the entry names it no more (R52). -/
def State.FreesSlot (s t : State) (n : Nat) : Prop :=
  match (s.produce n).bind Produce.claimSlot with
  | none => t = s
  | some k =>
    { s with ownership := { s.ownership with slots := s.ownership.slots.set k none } }.EntryBecomes t n
      (fun p => { p with claimSlot := none })

/-- The entry of `n` is removed and its line freed (R13, R33). -/
def State.Removes (s t : State) (n : Nat) : Prop :=
  t.entry n = none ∧ (∀ m, m ≠ n → t.entry m = s.entry m) ∧ s.LineFreed t n
    ∧ s.ChangesOnly t [.directory, .store]

/-- The entry of `n` becomes RELINQUISHING with a release tag and hands on its frame (R69, R70, R72). -/
def State.BeginsRelease (s t : State) (n : Nat) (tag : Word16) : Prop :=
  ∃ a, s.EntryBecomes a n (fun p => { p with
      ownership := .relinquishing, releaseTag := some tag, releaseQueued := false })
    ∧ a.HandsOn t (.relinquish n)

/-- Peers have heard the claim of `n` or may be hearing it (R69): its window runs, or its frame, not withdrawn,
is being sent (log 25). -/
def State.ClaimReachedLine (s : State) (n : Nat) (p : Produce) : Prop :=
  (∃ k slot w, p.claimSlot = some k ∧ s.ownership.slots.get k = some slot ∧ slot.phase = .window w)
    ∨ (s.contention.state = .sending ∧ s.contention.inHand = some (.control (.claim n) false))

/-- The tag that the claim slot of an entry holds (R52). -/
def State.claimTag (s : State) (p : Produce) : Word16 :=
  match p.claimSlot with
  | some k =>
    match s.ownership.slots.get k with
    | some slot => slot.tag
    | none => 0
  | none => 0

/-- An ownership notice about `n` as its entry `p` and its line stand (R74, Table 4.3). -/
def State.ownershipReport (s : State) (kind : NoticeKind) (n station : Nat) (p : Produce) (cause : Nat)
    (tag : Word16) : Notice :=
  s.valueNotice kind n station (p.committed.getD 0) cause (s.value n) tag

/-- A RELINQUISH command with a tag, or LEAVE, at the PRODUCE entry of `n` (R68 to R71, R145). -/
def State.Releases (s t : State) (n : Nat) (tag : Word16) : Prop :=
  match s.produce n with
  | none => t = s
  | some p =>
    match p.ownership with
    | .relinquishing => t = s
    | .deposed =>
      ∃ a, s.Posts a [s.ownershipReport .relinquished n 0xFF p 0 tag] ∧ a.Removes t n
    | .owned => ∃ a, s.StopsPublishing a n ∧ a.BeginsRelease t n tag
    | .claiming =>
      ∃ a b, s.FreesSlot a n ∧ a.Posts b [s.ownershipReport .claimFailed n 0xFF p 4 (s.claimTag p)] ∧
        (s.ClaimReachedLine n p →
          ∃ c d, b.BeginsRelease c n tag ∧ c.Withdraws d (.dispute n) ∧ d.Withdraws t (.claim n)) ∧
        (¬ s.ClaimReachedLine n p →
          ∃ c d e, b.Withdraws c (.claim n) ∧ c.Withdraws d (.dispute n)
            ∧ d.Posts e [s.ownershipReport .relinquished n 0xFF p 0 tag] ∧ e.Removes t n)

/-- The releases of several objects, one after the other (R145). -/
def State.ReleasesAll (s t : State) (tag : Word16) : List Nat → Prop
  | [] => t = s
  | n :: rest => ∃ a, s.Releases a n tag ∧ a.ReleasesAll t tag rest

/-- The objects of the PRODUCE entries, in the directory's order. -/
def State.produces (s : State) : List Nat :=
  (s.directory.filter (fun e => e.produce.isSome)).map Entry.object

/-- A state after some commands, one after the other. -/
def State.After (s t : State) : List Instr → Prop
  | [] => t = s
  | c :: rest => ∃ a, exec c s = .next a ∧ a.After t rest

/-- The publication queue after an append of `n` with REPEAT clear (R77): at the tail, or in its place with
REPEAT cleared where it stands in the queue already. -/
def State.queueWith (s : State) (n : Nat) : List PubItem :=
  if n ∈ s.pubQueue.map PubItem.object then
    s.pubQueue.map (fun it => if it.object = n then { it with rep := false } else it)
  else s.pubQueue ++ [{ object := n, rep := false }]

/-- The Contention Unit after its frame in hand has ended (R127). -/
def Contention.FrameEnded (c : Contention) : Prop :=
  c.inHand = none ∧ c.attempts = 0 ∧ c.state = .idle

/-! ## Frames heard at a PRODUCE entry -/

/-- The kinds of item that a PRODUCE entry answers (R60 to R62). -/
inductive HeardKind where
  | data | claim | dispute
  deriving DecidableEq, Repr

/-- The command that dispatches an item of a kind to a PRODUCE entry. -/
def HeardKind.command : HeardKind → Instr
  | .data => .dataRecordAtProduce
  | .claim => .claimHeard
  | .dispute => .disputeHeard

/-- The cause code of a kind (Table 4.4). -/
def HeardKind.cause : HeardKind → Nat
  | .data => 1
  | .claim => 2
  | .dispute => 3

/-- An item of a kind from a source for an object. -/
def HeardKind.Matches (k : HeardKind) (source n : Nat) : Item → Prop
  | .record s m _ _ _ => k = .data ∧ s = source ∧ m = n
  | .claim s m => k = .claim ∧ s = source ∧ m = n
  | .dispute s m => k = .dispute ∧ s = source ∧ m = n
  | .relinquish _ _ | .pull _ _ | .hold _ _ => False

/-- What Table 4.2 says an item does. -/
inductive Heard where
  | lost | deposed | disputes | ignored
  deriving DecidableEq, Repr

/-- Table 4.2: the outcome of an item of a kind from `source` at an entry of an ownership state. -/
def heardOutcome (own source : Nat) (k : HeardKind) (o : Ownership) : Heard :=
  match o, k with
  | .claiming, .claim => if own < source then .disputes else .lost
  | .claiming, .data | .claiming, .dispute => .lost
  | .owned, .claim => .disputes
  | .owned, .data | .owned, .dispute => if source < own then .deposed else .disputes
  | .relinquishing, _ | .deposed, _ => .ignored

/-- The next item that is handed to a block is one of the kind, and its object has PRODUCE entry `p`; the
items after it are `rest` (R9, R46). -/
def State.Hears (s : State) (k : HeardKind) (source n : Nat) (p : Produce) (rest : List Item) : Prop :=
  ∃ it, s.nextItems = it :: rest ∧ k.Matches source n it ∧ s.produce n = some p

/-- An item that no block is handed (Table 1.5): ignored for want of an entry, or for its entry's role. -/
def State.ignores (s : State) (it : Item) : Bool :=
  match it with
  | .record _ n _ _ _ | .relinquish _ n => (s.entry n).isNone
  | .claim _ n | .dispute _ n | .pull _ n => (s.produce n).isNone
  | .hold _ _ => false

/-- Items of which the first has had its turn: it is gone if no block is handed it (R9, R46). -/
def State.afterFirstTurn (s : State) : List Item → List Item
  | [] => []
  | it :: rest => if s.ignores it then rest else it :: rest

/-- The command that dispatches an item, by its kind and its entry's role (Table 1.5). -/
def State.dispatchedBy (s : State) (it : Item) : Instr :=
  match it with
  | .record _ n _ _ _ => if (s.produce n).isSome then .dataRecordAtProduce else .dataRecordAtConsume
  | .claim _ _ => .claimHeard
  | .dispute _ _ => .disputeHeard
  | .relinquish _ n =>
    if (s.produce n).isSome then .relinquishHeardAtProduce else .relinquishHeardAtConsume
  | .pull _ _ => .pullHeard
  | .hold _ _ => .holdHeard

/-- The commands that dispatch items. -/
def dispatchCommands : List Instr :=
  [.dataRecordAtConsume, .dataRecordAtProduce, .claimHeard, .disputeHeard, .relinquishHeardAtProduce,
    .relinquishHeardAtConsume, .pullHeard, .holdHeard]

/-! ## Trunk frames -/

/-- What a frame carries to its hearers, with its source (Table 3.6). -/
def InHand.items (source : Nat) : InHand → List Item
  | .control (.claim n) _ => [.claim source n]
  | .control (.dispute n) _ => [.dispute source n]
  | .control (.relinquish n) _ => [.relinquish source n]
  | .control (.pull n) _ => [.pull source n]
  | .control (.hold n) _ => [.hold source n]
  | .data records => records.map (fun r => .record source r.object r.rep r.seq r.payload)

/-- A frame that the spec admits (R38, R39): object numbers below 4096, hold lengths below 1024, one to
eight records of at most 64 payload bytes, at most 128 body bytes. -/
def InHand.wellFormed : InHand → Bool
  | .control (.hold n) _ => n < 1024
  | .control (.claim n) _ | .control (.dispute n) _ | .control (.relinquish n) _
  | .control (.pull n) _ => n < 4096
  | .data records =>
    !records.isEmpty && records.length ≤ 8
      && records.all (fun r => r.object < 4096 && r.payload.length ≤ 64)
      && (records.map (fun r => 4 + r.payload.length)).sum ≤ 128

/-- The frame being received once the header of `f` from `source` is complete (R36). -/
def InHand.received (f : InHand) (source : Nat) : RxFrame :=
  { header := some (byteAt (f.bytes source) 1, byteAt (f.bytes source) 2), body := []
    crc := crcRun crcStart [byteAt (f.bytes source) 1, byteAt (f.bytes source) 2]
    expected := f.body.length + 2 }

/-! ## Invariants -/

/-- `inv` holds after every step from a state in which it holds. -/
def KeptByStep (inv : State → Prop) : Prop := ∀ s t, inv s → step s = .next t → inv t

/-- Shared RAM is in canonical form; every line of the store has a length of at most 64 and 64 payload bytes
that are zero from its length on (R18); no record that waits for its dispatch is longer (R39). -/
def State.StorageCanonical (s : State) : Prop :=
  Memory.wf s.port.ram = true
    ∧ (∀ k w, (s.lineAt k w).length ≤ 64 ∧ (s.lineAt k w).payload.length = 64 ∧
        ∀ i, (s.lineAt k w).length ≤ i → (s.lineAt k w).payload.getD i 0 = 0)
    ∧ ∀ source n rep q payload, Item.record source n rep q payload ∈ s.dispatch → payload.length ≤ 64

/-- The directory is in strictly ascending object-number order, holds at most 256 entries, and every object
number is below 4096 (R1, R2). -/
def State.DirectoryOrdered (s : State) : Prop :=
  s.directory.Pairwise (fun e f => e.object < f.object) ∧ s.directory.length ≤ 256
    ∧ ∀ e ∈ s.directory, e.object < 4096

/-- The start record copy is held outside AWAIT_START alone, and it has passed START's checks; the ring
indices stay inside the rings; the unread count, the backlog and the lost count stay within their bounds;
the random generator is never 0 (Table 8.3, R141, R154, R168, R170, R175, R122). -/
def State.RingsKept (s : State) : Prop :=
  (s.station.life = .awaitStart →
    s.station.copy = none ∧ s.command.scanning = false ∧ s.notice.writeIndex = 0) ∧
  (s.station.life ≠ .awaitStart →
    s.station.copy.map StartRecord.valid = some true ∧ s.command.index < s.cfg.cmdLength
      ∧ s.notice.writeIndex < s.cfg.noticeLength) ∧
  s.notice.unread ≤ s.cfg.noticeLength ∧ s.notice.backlog.length ≤ 32 ∧ s.notice.lost ≤ 255
    ∧ s.contention.rng ≠ 0

/-- The control queue: at most 6 command-originated frames and at most 2 automatic ones, at most one of
them a HOLD (R129, R130). The wait list holds command-originated frames, and only while all command places
are full (R55); a pending HOLD waits only while all automatic places are full and none of them holds a
HOLD (R130, R131). -/
def State.QueuePlacesKept (s : State) : Prop :=
  (s.contention.queue.filter CtlFrame.fromCommand).length ≤ 6
    ∧ (s.contention.queue.filter (fun f => !f.fromCommand)).length ≤ 2
    ∧ (s.contention.queue.filter CtlFrame.isHold).length ≤ 1
    ∧ (∀ f ∈ s.ownership.waitList, f.fromCommand = true)
    ∧ (s.ownership.waitList ≠ [] → (s.contention.queue.filter CtlFrame.fromCommand).length = 6)
    ∧ (s.contention.pendingHold ≠ none →
        (s.contention.queue.filter (fun f => !f.fromCommand)).length = 2
          ∧ s.contention.queue.any CtlFrame.isHold = false)

/-- A unit that is IDLE has no work (R119), and a LEAVING station has something left to end (R146). -/
def State.Settled (s : State) : Prop :=
  (s.contention.state = .idle → s.hasWork = false) ∧ s.leaveDone = false

/-- The interrupt line is asserted exactly under the condition of R173. -/
def State.LineFollowsCondition (s : State) : Prop :=
  s.notice.intLine = true ↔
    (∃ r, s.station.copy = some r ∧ r.trigger ≤ s.notice.unread)
      ∨ (1 ≤ s.notice.unread ∧ s.notice.timer = .expired)

/-- No object stands twice in the publication queue or in a DATA frame in hand, and the entry for every
queued object is OWNED and shows the item in its queued field (R76). -/
def State.QueuedAreOwned (s : State) : Prop :=
  (s.pubQueue.map PubItem.object).Nodup ∧
  (∀ records, s.contention.inHand = some (.data records) → (records.map TxRecord.object).Nodup) ∧
    ∀ it ∈ s.pubQueue, ∃ p, s.produce it.object = some p ∧ p.ownership = .owned
      ∧ p.queued = .yes it.rep

/-- An entry's line is valid, names the object and is pinned exactly for a PRODUCE entry, and a pinned line
is not locked; a PRODUCE entry always holds one (R2, R19, R20, R21). -/
def State.HoldsItsLine (s : State) (e : Entry) : Prop :=
  match s.lineOf e with
  | some l => l.valid = true ∧ l.object = e.object ∧ l.pinned = e.produce.isSome
      ∧ (l.locked = true → l.pinned = false)
  | none => e.produce = none

/-- Every entry holds its line, and every valid line is held by the entry whose object it names (R19 to
R21). -/
def State.LinesHeld (s : State) : Prop :=
  s.DirectoryOrdered ∧ (∀ e ∈ s.directory, s.HoldsItsLine e) ∧
  ∀ (k : Fin 64) (w : Way), (s.lineAt k w).valid = true →
    ∃ e ∈ s.directory, e.object = (s.lineAt k w).object ∧ setIndex e.object = k ∧ e.line = some w

/-- The fields of a CONSUME entry hold together (R6): the last sequence is present exactly when the replica
is not ABSENT, that is exactly when the entry holds a line, and no ORPHANED entry is FRESH. -/
def State.ReplicasCoherent (s : State) : Prop :=
  s.DirectoryOrdered ∧ ∀ e ∈ s.directory, ∀ c, e.consume = some c →
    (c.replica = .absent ↔ e.line = none) ∧ (c.replica = .absent ↔ c.lastSeq = none)
      ∧ ∀ t, c.binding = .orphaned t → c.replica ≠ .fresh

/-- The PRODUCE fields by ownership state (R4, Table 1.2), with the in-flight marks. -/
def State.FieldsFit (s : State) (n : Nat) (p : Produce) : Prop :=
  (p.ownership = .claiming → p.queued = .no ∧ p.inFlight = .no
      ∧ ∃ k slot, p.claimSlot = some k ∧ s.ownership.slots.get k = some slot ∧ slot.object = n)
    ∧ (p.ownership ≠ .claiming → p.claimSlot = none)
    ∧ (p.ownership = .relinquishing → p.releaseTag ≠ none)
    ∧ (p.ownership ≠ .relinquishing → p.releaseTag = none ∧ p.releaseQueued = false)
    ∧ (p.ownership ≠ .owned → p.queued = .no)
    ∧ (p.inFlight ≠ .no →
        (p.ownership = .owned ∨ s.contention.state = .sending)
          ∧ ∃ records r, s.contention.inHand = some (.data records) ∧ r ∈ records ∧ r.object = n
              ∧ p.marks r = true)

/-- Every PRODUCE entry's optional fields fit its ownership state, every claim slot in use names the CLAIMING
entry that names it, every in-flight mark has its record in the frame in hand, and a RELINQUISH that waits on the
wait list waits there once, for a RELINQUISHING entry that does not show it as queued (R4, Table 1.2, R52, R55,
R72, 05 section 5.6). -/
def State.ClaimsHold (s : State) : Prop :=
  (∀ n p, s.produce n = some p → s.FieldsFit n p) ∧
  (∀ k slot, s.ownership.slots.get k = some slot →
    ∃ p, s.produce slot.object = some p ∧ p.ownership = .claiming ∧ p.claimSlot = some k) ∧
  ∀ n, s.ownership.waitList.count (.relinquish n) ≤ 1 ∧
    (.relinquish n ∈ s.ownership.waitList →
      ∃ p, s.produce n = some p ∧ p.ownership = .relinquishing ∧ p.releaseQueued = false)

/-- In AWAIT_START, DETACHED and MUTED there is no PRODUCE entry and nothing to send, and in AWAIT_START
the directory is empty (R15, R137, R147, R149). -/
def State.RestsEmpty (s : State) : Prop :=
  (s.station.life = .awaitStart ∨ s.station.life = .detached ∨ s.station.life = .muted →
    s.producedObjects = [] ∧ s.contention.queue = [] ∧ s.contention.inHand = none
      ∧ s.contention.ownHold = .off ∧ s.contention.state = .idle) ∧
  (s.station.life = .awaitStart → s.directory = [] ∧ s.command.scanning = false)

end Sys2Proof.Machine
end

