-- ==== Sys2Proof/Certificates/Slice0/Obligations.lean ====
section
/-! DEFINITION. The statements for the provers, by the chapters of the spec. A statement about a command whose
happening can give the Contention Unit work or end LEAVING names the state `u` before the end of the happening and
says that the command answers `u.settle`; what `settle` does is stated by `EndOfHappeningDrawsOrDetaches`. -/

section

open Sys2Proof Sys2Proof.Machine

/-! ## The step -/

/-- The queue of commands is first in, first out; an empty queue idles, which is the model's own choice
(log 2). -/
def Obligations.StepRunsTheFrontCommand : Prop :=
  ∀ s : State,
    (∀ c rest, s.pending = c :: rest → step s = exec c { s with pending := rest }) ∧
    (s.pending = [] → step s = .next s)

/-- Every command answers a next state and leaves the queue of commands alone: no fault, no refusal. That a command
whose happening cannot take place in the state changes nothing is the model's own choice (log 1). -/
def Obligations.EveryCommandAnswersNext : Prop :=
  ∀ (c : Instr) (s : State), ∃ t, exec c s = .next t ∧ t.pending = s.pending

/-! ## Invariants -/

/-- R18, R39, R177: the storage keeps its form under every step. That a freed line keeps its length and bytes, so
that INVALID lines keep the form too, is the model's own choice (log 15). -/
def Obligations.StorageStaysCanonical : Prop := KeptByStep State.StorageCanonical

/-- R1, R2: the directory stays ordered, without repeats and within its capacity. -/
def Obligations.DirectoryStaysOrdered : Prop := KeptByStep State.DirectoryOrdered

/-- Table 8.3, R141, R154, R168, R170, R175, R122: copy, indices, counts and generator keep their bounds. -/
def Obligations.RingsStayKept : Prop := KeptByStep State.RingsKept

/-- R55, R129 to R131: the places of the control queue, the wait list and the pending HOLD. -/
def Obligations.QueuePlacesStayKept : Prop := KeptByStep State.QueuePlacesKept

/-- R119, R146: an IDLE unit never has work, and LEAVING never outlasts its three conditions. -/
def Obligations.StepLeavesAStateSettled : Prop :=
  KeptByStep (fun s => s.DirectoryOrdered ∧ s.Settled)

/-- R173: the interrupt line follows its condition. -/
def Obligations.InterruptLineFollowsItsCondition : Prop :=
  KeptByStep (fun s => s.RingsKept ∧ s.LineFollowsCondition)

/-- R76: what is queued is OWNED, once. R4, Table 1.2, R52, R55, R72: the optional fields of a PRODUCE entry, the
claim slots, the in-flight marks and the wait list keep to each other. -/
def Obligations.QueuedObjectsStayOwned : Prop :=
  KeptByStep State.QueuedAreOwned ∧
    KeptByStep (fun s => s.DirectoryOrdered ∧ s.QueuedAreOwned ∧ s.ClaimsHold)

/-- R19 to R21: every line has its holder and every holder its line. -/
def Obligations.LinesStayHeld : Prop := KeptByStep State.LinesHeld

/-- R6: the fields of a CONSUME entry hold together. -/
def Obligations.ReplicasStayCoherent : Prop := KeptByStep State.ReplicasCoherent

/-- R15, R137, R147, R149: a station at rest has nothing to send. -/
def Obligations.RestingStationsStayEmpty : Prop :=
  KeptByStep (fun s => s.DirectoryOrdered ∧ s.RestsEmpty)

/-- The state after reset meets every invariant. What `State.reset` holds where the spec gives no reset value, and
the zeros of its INVALID lines, are the model's own choice (log 3, log 15). -/
def Obligations.ResetMeetsEveryInvariant : Prop :=
  State.reset.StorageCanonical ∧ State.reset.DirectoryOrdered ∧ State.reset.RingsKept
    ∧ State.reset.QueuePlacesKept ∧ State.reset.Settled ∧ State.reset.LineFollowsCondition
    ∧ State.reset.QueuedAreOwned ∧ State.reset.ClaimsHold ∧ State.reset.LinesHeld
    ∧ State.reset.ReplicasCoherent ∧ State.reset.RestsEmpty

/-! ## Host port (Chapters 8, 10 and 11) -/

/-- R139, R34, R176, R177: what the two resets leave, and the release of RESET_N. -/
def Obligations.ResetsGiveTheResetValues : Prop :=
  ∀ s : State,
    (∃ t, exec .hardReset s = .next t ∧ t.HasResetValues ∧ (∀ a, t.ramByte a = 0)
      ∧ t.port.waiting = [] ∧ t.port.spi = none ∧ t.port.resetHeld = true
      ∧ t.contention.carrier = s.contention.carrier) ∧
    (∀ via, s.port.Serves via true 0x4006 →
      ∃ t, exec (.softReset via) s = .next t ∧ t.HasResetValues
        ∧ t.port = { s.port.afterRegisterByte via true 0x4006 with tickLatch := 0 }
        ∧ t.contention.carrier = s.contention.carrier) ∧
    (∃ t, exec .resetNReleased s = .next t ∧ t.port = { s.port with resetHeld := false }
      ∧ s.ChangesOnly t [.port])

/-- R140 to R142, Table 8.4, R178: START in AWAIT_START takes a good record, and names the first bad field of
another. Every SPI byte before START has been taken by then. The SPI bytes that follow it may come among the reads of
the record, each at its turn, and none is lost. That the line is not quiet after it and that the REJOIN flag is cleared
are the model's own (log 10, log 16); so is the order of the 32 reads (log 12). -/
def Obligations.StartChecksTheRecord : Prop :=
  ∀ (s : State) (via : SpiVia) (during : List RamByte), s.port.Serves via true 0x4006 →
    s.station.life = .awaitStart →
    let record := s.startRecord via during
    (during = [] → record = s.ramBytes 0 32) ∧
    (∀ b, during = [b] → b.addr < 0x4000 →
      (s.port.afterRegisterByte via true 0x4006).Serves b.via true b.addr →
      record = (List.range 32).map (fun i => if i = b.addr ∧ b.turn ≤ i then b.value else s.ramByte i)
        ∧ Memory.read (s.startPort via during).ram b.addr = b.value
        ∧ (∀ a, a ≠ b.addr → Memory.read (s.startPort via during).ram a = s.ramByte a)) ∧
    (s.startPort via during).waiting = [] ∧
    ((∀ k ∈ startTable record, ¬ k.1) →
      ∃ t, exec (.start via during) s = .next t
        ∧ t.station =
          { life := .joining, startError := 0, copy := some (StartRecord.ofBytes record)
            keptTag := 0, joinTimer := 0, joinRunning := true, joinOwed := false, rejoined := false
            slotCount := 0, tickCount := 0 }
        ∧ t.rx = .skip
        ∧ t.contention = { s.contention with
            rng := 0xACE1 ^^^ BitVec.ofNat 16 (StartRecord.ofBytes record).station
            quiet := false }
        ∧ t.command = { index := 0, scanning := true, rescan := false }
        ∧ t.port = s.startPort via during
        ∧ s.ChangesOnly t [.station, .rx, .contention, .command, .port]) ∧
    (∀ code, FirstToFail (startTable record) code →
      ∃ t, exec (.start via during) s = .next t ∧ t.station = { s.station with startError := code }
        ∧ t.port = s.startPort via during ∧ s.ChangesOnly t [.station, .port])

/-- R140, R155, R171, R177, R179, R180, R176: register accesses that change no block, what every address returns to
a read, the TICK read, and RESET_N held. How the SPI bytes that follow a START come to the arbiter is the model's own
choice (log 12). That the bytes before the high TICK byte need no command, so that it is served whatever transaction
stands, and how the bytes of a READ transaction and of another instruction are written down, is its own too (log 13). -/
def Obligations.RegisterAccessesWithoutEffect : Prop :=
  ∀ (s : State) (via : SpiVia) (value : Byte),
    (∀ addr, s.port.Serves via true addr →
      (0x4000 ≤ addr ∧ addr ≤ 0x4005 ∨ addr = 0x4006 ∧ value ≠ 0x01 ∧ value ≠ 0x0F
        ∨ 0x4009 ≤ addr ∧ addr ≤ 0xFFFF) →
      ∃ t, exec (.registerWriteIgnored via addr value) s = .next t
        ∧ t.port = s.port.afterRegisterByte via true addr ∧ s.ChangesOnly t [.port]) ∧
    (s.port.Serves via true 0x4006 → s.station.life ≠ .awaitStart → ∀ during,
      ∃ t, exec (.start via during) s = .next t
        ∧ t.port = (s.port.afterRegisterByte via true 0x4006).acceptBytes during
        ∧ s.ChangesOnly t [.port]) ∧
    (s.port.Serves via true 0x4007 → s.station.life = .awaitStart →
      ∃ t, exec (.cmdAdvance via value) s = .next t
        ∧ t.port = s.port.afterRegisterByte via true 0x4007 ∧ s.ChangesOnly t [.port]) ∧
    (s.port.Serves via true 0x4008 →
      ∃ t, exec (.noticeTaken via 0) s = .next t ∧ t.port = s.port.afterRegisterByte via true 0x4008
        ∧ s.ChangesOnly t [.port]) ∧
    (s.port.Serves via false 0x400C →
      ∃ t, exec (.tickHighByteRead via) s = .next t
        ∧ t.port.readByte.toNat * 256 + t.port.tickLatch.toNat = s.station.tickCount % 65536
        ∧ t.portRead 0x400D = t.port.tickLatch
        ∧ t.port = { s.port.afterRegisterByte via false 0x400C with
            readByte := t.port.readByte, tickLatch := t.port.tickLatch }
        ∧ s.ChangesOnly t [.port]) ∧
    (s.port.resetHeld = true →
      exec (.softReset via) s = .next s ∧ (∀ during, exec (.start via during) s = .next s)
        ∧ exec (.cmdAdvance via value) s = .next s ∧ exec (.noticeTaken via value) s = .next s
        ∧ exec (.tickHighByteRead via) s = .next s
        ∧ ∀ addr turn, exec (.registerWriteIgnored via addr value) s = .next s
            ∧ exec (.sharedRamWrite via addr value turn) s = .next s) ∧
    (s.portRead 0x4000 = 0x4C ∧ s.portRead 0x4001 = 0x4A ∧ s.portRead 0x4002 = 0x04
      ∧ s.portRead 0x4003 = 0x40
      ∧ (s.portRead 0x4004).toNat = stateCode s.station.life
      ∧ (s.portRead 0x4005).toNat = s.station.startError % 256
      ∧ (∀ addr, 0x4006 ≤ addr → addr ≤ 0x4008 → s.portRead addr = 0)
      ∧ ((s.portRead 0x4009).getLsbD 0 = true ↔ s.notice.intLine = true)
      ∧ ((s.portRead 0x4009).getLsbD 1 = true ↔
          ∃ r, s.station.copy = some r ∧ r.trigger ≤ s.notice.unread)
      ∧ ((s.portRead 0x4009).getLsbD 2 = true ↔ s.notice.timer = .expired)
      ∧ (∀ i, 3 ≤ i → (s.portRead 0x4009).getLsbD i = false)
      ∧ (s.portRead 0x400A).toNat = s.notice.unread % 256
      ∧ (s.portRead 0x400B).toNat = s.notice.backlog.length % 256
      ∧ (s.portRead 0x400C).toNat = s.station.tickCount / 256 % 256
      ∧ s.portRead 0x400D = s.port.tickLatch
      ∧ s.portRead 0x400E = 0 ∧ s.portRead 0x400F = 0
      ∧ (∀ addr, addr < 0x4000 → s.portRead addr = s.ramByte addr)
      ∧ (∀ addr, 0x4010 ≤ addr → s.portRead addr = 0xFF)) ∧
    (s.port.resetHeld = false → ∀ (start : Word16) (place : Nat),
      s.miso 0x02 start place = some (s.portRead ((start.toNat + place) % 65536))
        ∧ (value ≠ 0x01 → value ≠ 0x02 → s.miso value start place = some 0xFF))

/-- R155, R156: a request to scan, and an examination that finds no submitted descriptor. -/
def Obligations.ScansBeginAndStop : Prop :=
  ∀ s : State, s.station.life ≠ .awaitStart →
    (∀ via value, s.port.Serves via true 0x4007 →
      ∃ t, exec (.cmdAdvance via value) s = .next t
        ∧ t.command = { s.command with
            scanning := true, rescan := s.command.rescan || s.command.scanning }
        ∧ t.port = s.port.afterRegisterByte via true 0x4007 ∧ s.ChangesOnly t [.command, .port]) ∧
    (s.command.scanning = true → s.port.waiting = [] → s.ramByte s.slotAddress ≠ 0x01 →
      ∃ t, exec .examination s = .next t
        ∧ t.command = { s.command with scanning := s.command.rescan, rescan := false }
        ∧ s.ChangesOnly t [.command])

/-- R171 to R173: a release of notices. -/
def Obligations.NoticeTakenReleasesNotices : Prop :=
  ∀ (s : State) (via : SpiVia) (k : Byte), k ≠ 0 → s.port.Serves via true 0x4008 →
    ∃ t, exec (.noticeTaken via k) s = .next t
      ∧ t.notice = { s.notice with
          unread := s.notice.unread - k.toNat
          timer := if s.notice.unread ≤ k.toNat then .stopped else s.notice.timer
          intLine := t.notice.intLine }
      ∧ t.LineFollowsCondition
      ∧ t.port = s.port.afterRegisterByte via true 0x4008 ∧ s.ChangesOnly t [.notice, .port]

/-- R176, R178, R166: an SPI access is taken at its turn among the engine accesses, and is never lost, be it among
engine reads, among engine writes, or in a command's taking and completion. The turn is the model's own way to say
the arbiter's order, and so is the order of the engine's accesses where the spec gives none (log 12). That
the taking is sixteen reads, offset 13 among them, before the completion writes is its reading (log 29). -/
def Obligations.SharedRamWriteLandsAtItsTurn : Prop :=
  (∀ (s : State) (via : SpiVia) (addr : Nat) (value : Byte) (turn : Nat),
    addr < 0x4000 → s.port.Serves via true addr →
      ∃ t, exec (.sharedRamWrite via addr value turn) s = .next t
        ∧ t.ramByte addr = value ∧ (∀ a, a ≠ addr → t.ramByte a = s.ramByte a)
        ∧ (s.port.waiting = [] → ∀ a n i, i < n →
            (t.port.engineReads a n).1.getD i 0 =
              if a + i = addr ∧ turn ≤ i then value else s.ramByte (a + i))
        ∧ t.port = { s.port with
            spi := transactionAfter via true addr, ram := t.port.ram, waiting := t.port.waiting }
        ∧ s.ChangesOnly t [.port]) ∧
  (∀ (p : HostPort) (a n : Nat), (p.engineReads a n).2.drain = p.drain) ∧
  (∀ (p : HostPort) (w : WaitingAccess) (a : Nat) (bs : List Byte), p.waiting = [w] → w.addr < 0x4000 →
    a + bs.length ≤ 0x4000 →
    p.Met (p.engineWrites a bs).drain w ((List.range bs.length).map (fun i => (i, a + i, bs.getD i 0)))) ∧
  (∀ (s : State) (w : WaitingAccess), s.RingsKept → s.command.scanning = true → s.port.waiting = [w] →
    w.addr < 0x4000 →
    let slot := s.slotAddress
    let d := Descriptor.ofBytes ((List.range 16).map (fun i => s.port.byteRead w i (slot + i)))
    d.marker = 0x01 → commandOf d.code = none →
    ∃ t, exec .badCommand s = .next t ∧ t.command = { s.command with index := s.nextIndex }
      ∧ s.port.Met t.port w [(16, slot + 2, Status.badCommand.code), (17, slot + 3, 0),
          (18, slot + 9, byteOf d.length), (19, slot + 12, 0), (20, slot, 0x02)]
      ∧ s.ChangesOnly t [.command, .port])

/-! ## Command ring (Chapter 9) -/

/-- R152, R157, R160, Table 9.6: a refused command completes with the status of the first check that fails,
and does nothing else. -/
def Obligations.RefusedCommandsOnlyComplete : Prop :=
  ∀ (s : State) (d : Descriptor), s.RingsKept → s.Submits d →
    (∀ c status, commandOf d.code = some c → FirstToFail (s.tableChecks d c) status →
      ∃ t, exec c s = .next t ∧ s.Completed t status 0 d.length 0 0 0
        ∧ s.ChangesOnly t [.command, .port]) ∧
    (commandOf d.code = none →
      ∃ t, exec .badCommand s = .next t ∧ s.Completed t .badCommand 0 d.length 0 0 0
        ∧ s.ChangesOnly t [.command, .port])

/-- R98, Table 1.7: SUBSCRIBE inserts an UNBOUND entry without a line, its age counter running. That no tick is owed
to it is the model's own choice (log 32). -/
def Obligations.SubscribeInsertsAnEntry : Prop :=
  ∀ (s : State) (d : Descriptor), s.RingsKept → s.Takes .subscribe d →
    ∃ t, exec .subscribe s = .next t ∧ s.Completed t .ok 0 d.length 0 0 0
      ∧ t.entry d.object = some
          { object := d.object, line := none, tickOwed := false
            role := .consume
              { binding := .unbound, replica := .absent, lastSeq := none, ageLimit := d.paramA, age := 0
                ageRunning := true
                notify := if d.paramB = 0 then .none else if d.paramB = 1 then .change else .all } }
      ∧ (∀ m, m ≠ d.object → t.entry m = s.entry m)
      ∧ t.directory.length = s.directory.length + 1
      ∧ s.ChangesOnly t [.directory, .command, .port]

/-- R99, R13, R33, R102: UNSUBSCRIBE removes the entry and frees its line; UNBIND forgets the owner alone. That a
freed line keeps its object number, length and bytes is the model's own choice (log 15). -/
def Obligations.UnsubscribeAndUnbindActOnTheEntry : Prop :=
  ∀ (s : State) (d : Descriptor), s.RingsKept →
    (s.Takes .unsubscribe d →
      ∃ t, exec .unsubscribe s = .next t ∧ s.Completed t .ok 0 d.length 0 0 0
        ∧ t.entry d.object = none ∧ (∀ m, m ≠ d.object → t.entry m = s.entry m)
        ∧ s.LineFreed t d.object ∧ s.ChangesOnly t [.directory, .store, .command, .port]) ∧
    (s.Takes .unbind d →
      ∃ t, exec .unbind s = .next t ∧ s.Completed t .ok 0 d.length 0 0 0
        ∧ (∀ e c, s.entry d.object = some e → e.role = .consume c →
            t.entry d.object = some { e with role := .consume { c with binding := .unbound } })
        ∧ (∀ m, m ≠ d.object → t.entry m = s.entry m)
        ∧ s.ChangesOnly t [.directory, .command, .port])

/-- R32, R114: LOCK and UNLOCK set and clear the locked mark of the entry's line; UNLOCK of an entry without a
line changes nothing. -/
def Obligations.LockAndUnlockMarkTheLine : Prop :=
  ∀ (s : State) (d : Descriptor), s.RingsKept →
    (s.Takes .lock d →
      ∃ t l, exec .lock s = .next t ∧ s.Completed t .ok 0 d.length 0 0 0
        ∧ s.objectLine d.object = some l ∧ t.objectLine d.object = some { l with locked := true }
        ∧ (∀ w, (s.entry d.object).bind Entry.line = some w →
            s.StoreSameBut t (setIndex d.object) w
              ∧ (t.store.get (setIndex d.object)).older = (s.store.get (setIndex d.object)).older)
        ∧ s.ChangesOnly t [.store, .command, .port]) ∧
    (s.Takes .unlock d →
      ∃ t, exec .unlock s = .next t ∧ s.Completed t .ok 0 d.length 0 0 0
        ∧ t.objectLine d.object = (s.objectLine d.object).map (fun l => { l with locked := false })
        ∧ (s.objectLine d.object = none → t.store = s.store)
        ∧ (∀ w, (s.entry d.object).bind Entry.line = some w →
            s.StoreSameBut t (setIndex d.object) w
              ∧ (t.store.get (setIndex d.object)).older = (s.store.get (setIndex d.object)).older)
        ∧ s.ChangesOnly t [.store, .command, .port])

/-- R115, R129: PULL places its frame at the tail of the control queue. -/
def Obligations.PullPlacesItsFrame : Prop :=
  ∀ (s : State) (d : Descriptor), s.RingsKept → s.Takes .pull d →
    ∃ u, exec .pull s = .next u.settle ∧ s.Completed u .ok 0 d.length 0 0 0
      ∧ u.contention = { s.contention with queue := s.contention.queue ++ [.pull d.object] }
      ∧ s.ChangesOnly u [.contention, .command, .port]

/-- R24 to R26, R23: an allocation fails exactly where both ways are valid and marked; otherwise it takes an
invalid way, or the eligible one, or the older of two eligible ones, and evicts its CONSUME holder. -/
def Obligations.AllocationChoosesAWay : Prop :=
  ∀ (s : State) (n : Nat) (pinned : Bool) (detail : Nat) (tag : Word16), s.StorageCanonical →
    (s.allocate n pinned detail tag = none ↔
      ∀ w, (s.lineAt (setIndex n) w).valid = true
        ∧ ((s.lineAt (setIndex n) w).pinned = true ∨ (s.lineAt (setIndex n) w).locked = true)) ∧
    ∀ w t, s.allocate n pinned detail tag = some (w, t) →
      ((s.lineAt (setIndex n) .way0).valid = false → w = .way0)
      ∧ ((s.lineAt (setIndex n) .way0).valid = true → (s.lineAt (setIndex n) .way1).valid = false →
          w = .way1)
      ∧ ((s.lineAt (setIndex n) w).valid = true →
          (s.lineAt (setIndex n) w).pinned = false ∧ (s.lineAt (setIndex n) w).locked = false
          ∧ ((s.lineAt (setIndex n) w.other).pinned = false →
              (s.lineAt (setIndex n) w.other).locked = false → w = (s.store.get (setIndex n)).older))
      ∧ t.lineAt (setIndex n) w =
          { valid := true, object := n, length := 0, payload := List.replicate 64 0, pinned := pinned
            locked := false }
      ∧ (t.store.get (setIndex n)).older = w.other ∧ s.StoreSameBut t (setIndex n) w
      ∧ (∀ m e c, (s.lineAt (setIndex n) w).valid = true → (s.lineAt (setIndex n) w).object = m →
          s.entry m = some e → e.role = .consume c →
            t.entry m = some
              { e with line := none, role := .consume { c with replica := .absent, lastSeq := none } }
            ∧ (∀ j, j ≠ m → t.entry j = s.entry j)
            ∧ t.notice =
                (if c.notify = .none then s.notice
                 else s.notice.posted (s.valueNotice .evicted m c.binding.station (c.lastSeq.getD 0)
                  detail ((s.lineAt (setIndex n) w).payload.take (s.lineAt (setIndex n) w).length) tag))
            ∧ s.AfterPosts t)
      ∧ ((s.lineAt (setIndex n) w).valid = false → s.ChangesOnly t [.store])
      ∧ s.ChangesOnly t [.directory, .store, .notice, .contention]

/-- R52 to R55, R11, R12: CLAIM takes the lowest free slot, hands on a CLAIM frame, and makes a CLAIMING entry
with a newly allocated pinned line, or reuses a DEPOSED one. That no tick is owed to a new entry (log 32) and
that EVICTED is posted before the CLAIM frame is handed on (log 34) is the model's own choice. -/
def Obligations.ClaimOpensAClaim : Prop :=
  ∀ (s : State) (d : Descriptor), s.RingsKept → s.Takes .claim d →
    ∃ (k : Fin 4) (c : Contention) (u : State), exec .claim s = .next u.settle
      ∧ s.Completed u .ok 0 d.length 0 0 0
      ∧ (s.ownership.slots.get k = none ∧ ∀ j, j < k → s.ownership.slots.get j ≠ none)
      ∧ u.ownership.slots.get k = some { object := d.object, phase := .awaitSend, tag := d.tag }
      ∧ (∀ j, j ≠ k → u.ownership.slots.get j = s.ownership.slots.get j)
      ∧ (if (s.contention.queue.filter CtlFrame.fromCommand).length < 6 then
          u.contention = { c with queue := c.queue ++ [.claim d.object] }
            ∧ u.ownership.waitList = s.ownership.waitList
         else u.contention = c
            ∧ u.ownership.waitList = s.ownership.waitList ++ [.claim d.object])
      ∧ (∀ e p, s.entry d.object = some e → e.role = .produce p →
          c = s.contention ∧ u.entry d.object = some { e with role := .produce { p with
            ownership := .claiming, inFlight := .no, refreshPeriod := d.paramA, refreshCounter := 0
            claimSlot := some k, releaseQueued := false, releaseTag := none } }
          ∧ (∀ m, m ≠ d.object → u.entry m = s.entry m)
          ∧ s.ChangesOnly u [.directory, .ownership, .contention, .command, .port])
      ∧ (s.entry d.object = none →
          ∃ w a, s.allocate d.object true 0 d.tag = some (w, a) ∧ c = a.contention
            ∧ u.entry d.object = some
                { object := d.object, line := some w, tickOwed := false
                  role := .produce
                    { ownership := .claiming, committed := none, staged := false, pending := false
                      queued := .no, inFlight := .no, refreshPeriod := d.paramA, refreshCounter := 0
                      claimSlot := some k, releaseQueued := false, releaseTag := none } }
            ∧ (∀ m, m ≠ d.object → u.entry m = a.entry m)
            ∧ u.directory.length = s.directory.length + 1
            ∧ a.ChangesOnly u [.directory, .ownership, .contention, .command, .port])

/-- R79 to R81, R30, R77: WRITE stages the value in the entry's line, and queues an OWNED object. -/
def Obligations.WriteStagesTheValue : Prop :=
  ∀ (s : State) (d : Descriptor) (p : Produce), s.RingsKept → s.LinesHeld → s.Takes .write d →
    s.produce d.object = some p →
    ∃ u w, exec .write s = .next u.settle ∧ s.Completed u .ok 0 d.length 0 0 0
      ∧ u.produce d.object = some { p with
          staged := true, pending := true
          queued := if p.ownership = .owned then .yes false else p.queued }
      ∧ (∀ m, m ≠ d.object → u.entry m = s.entry m)
      ∧ u.pubQueue = (if p.ownership = .owned then s.queueWith d.object else s.pubQueue)
      ∧ (s.entry d.object).bind Entry.line = some w ∧ (u.entry d.object).bind Entry.line = some w
      ∧ u.lineAt (setIndex d.object) w = { s.lineAt (setIndex d.object) w with
          length := d.length
          payload := s.ramBytes d.buffer d.length ++ List.replicate (64 - d.length) 0 }
      ∧ (u.store.get (setIndex d.object)).older = w.other
      ∧ s.StoreSameBut u (setIndex d.object) w
      ∧ s.ChangesOnly u [.directory, .store, .pubQueue, .command, .port]

/-- R82, R113, R31: READ copies the 64 payload bytes of the entry's line to the buffer and touches its way;
an entry without a line is NOT_RESIDENT. -/
def Obligations.ReadCopiesTheLine : Prop :=
  ∀ (s : State) (d : Descriptor) (e : Entry), s.RingsKept → s.StorageCanonical → s.Takes .read d →
    s.entry d.object = some e →
    ∃ t, exec .read s = .next t ∧ t.command = { s.command with index := s.nextIndex } ∧
      match e.line with
      | none => s.Completed t .notResident 0 0 0 0 0 ∧ s.ChangesOnly t [.command, .port]
      | some w =>
        (match e.role with
         | .produce p =>
           s.Completed t .ok (if p.committed = none then 1 else 0)
             (s.lineAt (setIndex d.object) w).length ((p.committed.map BitVec.toNat).getD 0) d.buffer 64
         | .consume c =>
           s.Completed t (if c.replica = .stale then .stale else .ok) 0
             (s.lineAt (setIndex d.object) w).length ((c.lastSeq.map BitVec.toNat).getD 0) d.buffer 64)
        ∧ t.ramBytes d.buffer 64 = (s.lineAt (setIndex d.object) w).payload
        ∧ (∀ k v, t.lineAt k v = s.lineAt k v)
        ∧ (t.store.get (setIndex d.object)).older = w.other
        ∧ s.StoreSameBut t (setIndex d.object) w
        ∧ s.ChangesOnly t [.store, .command, .port]

/-- R17, R162, R163, Tables 1.8 and 11.9: SNAPSHOT writes the summaries of the first entries from param A on, in
ascending order, and says whether there are more. -/
def Obligations.SnapshotWritesSummaries : Prop :=
  ∀ (s : State) (d : Descriptor), s.RingsKept → s.Takes .snapshot d →
    let met := s.directory.filter (fun e => d.paramA ≤ e.object)
    let shown := met.take d.length
    ∃ t, exec .snapshot s = .next t
      ∧ s.Completed t .ok 0 shown.length (if d.length < met.length then 1 else 0) d.buffer
          (8 * shown.length)
      ∧ t.ramBytes d.buffer (8 * shown.length) = shown.flatMap (fun e => e.summary (s.lineOf e))
      ∧ (∀ e ∈ shown, e.SummaryReads (s.lineOf e) (e.summary (s.lineOf e)))
      ∧ s.ChangesOnly t [.command, .port]

/-- R70, R72: RELINQUISH of an OWNED entry stops its publication, in the order of R70 (a discard draws at once, R119,
log 11), and hands on its RELINQUISH frame. That the DISPUTE is withdrawn before that frame is handed on, where R70
states no order, is the model's own choice (log 34). -/
def Obligations.RelinquishOfAnOwnedEntry : Prop :=
  ∀ (s : State) (d : Descriptor) (p : Produce), s.RingsKept → s.QueuePlacesKept →
    s.Takes .relinquish d → s.produce d.object = some p → p.ownership = .owned →
    ∃ u q, exec .relinquish s = .next u.settle ∧ s.Completed u .ok 0 d.length 0 0 0
      ∧ u.produce d.object = some q ∧ s.PublicationStops u d.object p q
      ∧ q = { p with
          ownership := .relinquishing, queued := q.queued, inFlight := q.inFlight, pending := q.pending
          releaseTag := some d.tag, releaseQueued := q.releaseQueued }
      ∧ (if (s.contention.queue.filter CtlFrame.fromCommand).length < 6 then
          q.releaseQueued = true ∧ u.contention.queue.getLast? = some (.relinquish d.object)
            ∧ u.ownership = s.ownership
         else q.releaseQueued = false
            ∧ u.ownership = { s.ownership with
                waitList := s.ownership.waitList ++ [.relinquish d.object] })
      ∧ (∀ m, m ≠ d.object → u.entry m = s.entry m)
      ∧ (∃ a b, s.StopsPublishing a d.object ∧ a.BeginsRelease b d.object d.tag
          ∧ b.ChangesOnly u [.command, .port])
      ∧ s.ChangesOnly u [.directory, .ownership, .pubQueue, .contention, .command, .port]

/-- R69: RELINQUISH of a CLAIMING entry ends the claim; a claim that has reached the line is released there,
and one that has not is removed at once; the claim's frames are withdrawn in both cases. That a discard draws at its
own step (R119, R128), where R69 gives the steps no order, is the model's reading (log 11), and the order of the steps
is its own choice (log 34). That a claim has reached
the line when its window runs or its frame, not withdrawn, is being sent is the model's reading (log 25); that a
freed line keeps its object number, length and bytes is its own choice (log 15). -/
def Obligations.RelinquishOfAClaimingEntry : Prop :=
  ∀ (s : State) (d : Descriptor) (p : Produce) (k : Fin 4) (slot : ClaimSlot), s.RingsKept →
    s.StorageCanonical → s.Takes .relinquish d → s.produce d.object = some p →
    p.ownership = .claiming → p.claimSlot = some k → s.ownership.slots.get k = some slot →
    let heard := slot.phase ≠ .awaitSend ∨
      s.contention.state = .sending ∧ s.contention.inHand = some (.control (.claim d.object) false)
    let failed := s.valueNotice .claimFailed d.object 0xFF (p.committed.getD 0) 4 (s.value d.object)
      slot.tag
    ∃ v u, exec .relinquish s = .next u.settle ∧ s.Completed u .ok 0 d.length 0 0 0
      ∧ s.Releases v d.object d.tag ∧ v.ChangesOnly u [.command, .port]
      ∧ u.ownership.slots.get k = none
      ∧ (∀ j, j ≠ k → u.ownership.slots.get j = s.ownership.slots.get j)
      ∧ .claim d.object ∉ u.ownership.waitList ∧ s.WithdrawnInHand u (.claim d.object)
      ∧ (s.QueuePlacesKept →
          u.contention.queue.count (.claim d.object) = s.contention.queue.count (.claim d.object) - 1
          ∧ u.contention.queue.count (.dispute d.object) =
              s.contention.queue.count (.dispute d.object) - 1)
      ∧ s.OthersKept u d.object
      ∧ (heard → u.notice = s.notice.posted failed
          ∧ (∃ q, u.produce d.object = some q ∧ q.ownership = .relinquishing
              ∧ q.releaseTag = some d.tag ∧ q.claimSlot = none)
          ∧ (.relinquish d.object ∈ u.contention.queue ∨ .relinquish d.object ∈ u.ownership.waitList)
          ∧ s.ChangesOnly u [.directory, .ownership, .contention, .notice, .command, .port])
      ∧ (¬ heard → u.entry d.object = none ∧ s.LineFreed u d.object
          ∧ u.notice = s.notice.postedAll [failed,
              s.valueNotice .relinquished d.object 0xFF (p.committed.getD 0) 0 (s.value d.object) d.tag]
          ∧ s.ChangesOnly u [.directory, .store, .ownership, .contention, .notice, .command, .port])

/-- R71. That a freed line keeps its object number, length and bytes is the model's own choice (log 15). -/
def Obligations.RelinquishOfADeposedOrReleasingEntry : Prop :=
  ∀ (s : State) (d : Descriptor) (p : Produce), s.RingsKept → s.StorageCanonical →
    s.Takes .relinquish d → s.produce d.object = some p →
    (p.ownership = .deposed →
      ∃ u, exec .relinquish s = .next u.settle ∧ s.Completed u .ok 0 d.length 0 0 0
        ∧ u.entry d.object = none ∧ (∀ m, m ≠ d.object → u.entry m = s.entry m)
        ∧ s.LineFreed u d.object
        ∧ u.notice = s.notice.posted
            (s.valueNotice .relinquished d.object 0xFF (p.committed.getD 0) 0 (s.value d.object) d.tag)
        ∧ s.AfterPosts u
        ∧ s.ChangesOnly u [.directory, .store, .contention, .notice, .command, .port]) ∧
    (p.ownership = .relinquishing →
      ∃ u, exec .relinquish s = .next u.settle ∧ (s.Settled → u.settle = u)
        ∧ s.Completed u .ok 0 d.length 0 0 0 ∧ s.ChangesOnly u [.command, .port])

/-- R145, R69 to R72: LEAVE keeps its tag and releases every PRODUCE entry, one after the other in ascending order,
each as a RELINQUISH with LEAVE's tag releases it, so that each entry that stays is RELINQUISHING, every claim has
ended and nothing is queued for publication. That a discard draws at its own step among the releases (R119, R128) is
the model's reading (log 11), and the order of the steps of one release is its own choice (log 34). That a claim has
reached the line when its window runs or its frame is being sent is the model's reading (log 25); that a freed line
keeps its object number, length and bytes is its own choice (log 15). -/
def Obligations.LeaveReleasesEveryProduceEntry : Prop :=
  ∀ (s : State) (d : Descriptor), s.RingsKept → s.DirectoryOrdered → s.StorageCanonical →
    s.Takes .leave d →
    ∃ v u, exec .leave s = .next u.settle ∧ s.Completed u .ok 0 d.length 0 0 0
      ∧ u.station = { s.station with life := .leaving, keptTag := d.tag }
      ∧ { s with station := { s.station with life := .leaving, keptTag := d.tag } }.ReleasesAll
          v d.tag s.produces
      ∧ v.ChangesOnly u [.command, .port]
      ∧ (∀ n p, u.produce n = some p → p.ownership = .relinquishing ∧ (s.produce n).isSome = true)
      ∧ (∀ n p, s.produce n = some p → p.ownership = .owned →
          ∃ q, u.produce n = some q ∧ q.releaseTag = some d.tag)
      ∧ (∀ n p, s.produce n = some p → p.ownership = .relinquishing →
          ∃ q, u.produce n = some q ∧ q.releaseTag = p.releaseTag)
      ∧ (∀ n p, s.produce n = some p → p.ownership = .deposed → u.entry n = none)
      ∧ (∀ n p k, s.produce n = some p → p.ownership = .claiming → p.claimSlot = some k →
          u.ownership.slots.get k = none)
      ∧ (∀ n, (u.entry n).bind Entry.consume = (s.entry n).bind Entry.consume)
      ∧ (s.QueuedAreOwned → u.pubQueue = [])
      ∧ s.notice.GoesOnTo u.notice
      ∧ s.ChangesOnly u [.station, .directory, .store, .ownership, .pubQueue, .contention, .notice,
          .command, .port]

/-- R147, R144, R150, R134: REJOIN enters JOINING with the join timer at 0. The boundary that brings the join timer to
the join period enters ACTIVE in the same happening, posts JOINED and makes the high-mark test. The mark of a boundary
that is still to come to the join timer is the model's own (log 4). That the join timer keeps its count as it stops is
its reading (log 20), and the flag that a REJOIN began the join period is its own (log 16). -/
def Obligations.JoiningBeginsAndEnds : Prop :=
  ∀ s : State, s.RingsKept →
    (∀ d, s.Takes .rejoin d →
      ∃ t, exec .rejoin s = .next t ∧ s.Completed t .ok 0 d.length 0 0 0
        ∧ t.station = { s.station with
            life := .joining, joinTimer := 0, joinRunning := true, joinOwed := false, keptTag := d.tag
            rejoined := true }
        ∧ s.ChangesOnly t [.station, .command, .port]) ∧
    (s.station.life = .joining → s.station.joinOwed = true →
      ∃ u, exec .joinPeriodEnd s = .next u.settle
        ∧ u.station = { s.station with
            life := .active, joinTimer := s.station.joinTimer + 1, joinRunning := false, joinOwed := false }
        ∧ u.notice = s.notice.posted
            (s.valueNotice .joined 0 s.own 0 (if s.station.rejoined then 1 else 0) [] s.station.keptTag)
        ∧ u.contention = s.contention.tested .active s.cfg u.notice.backlog.length
        ∧ s.ChangesOnly u [.station, .notice, .contention])

/-! ## Trunk frames and the Receive Path (Chapter 3) -/

/-- R36, R42, R120: the receive states, and what carrier does to a deferral. That SKIP gives way to LISTEN before new
carrier is the model's reading (log 24); the flag of a quiet line (log 10) and the count of 2 bytes expected before the
header is complete (log 7) are its own choice. -/
def Obligations.ReceiveStatesFollowTheLine : Prop :=
  ∀ s : State,
    (s.contention.carrier = false →
      ∃ t, exec .carrierBegins s = .next t
        ∧ t.rx = (match s.rx with | .skip | .listen _ => .listen true | other => other)
        ∧ t.contention = { s.contention with
            carrier := true, quiet := false
            state := match s.contention.state with | .deferring r _ => .waitQuiet r | other => other }
        ∧ s.ChangesOnly t [.rx, .contention]) ∧
    (∃ t, exec .carrierAbsent s = .next t
      ∧ t.rx = (if s.rx = .off then .off else .listen false)
      ∧ t.contention = { s.contention with carrier := false, quiet := t.contention.quiet }
      ∧ (s.contention.carrier = true → t.contention.quiet = false)
      ∧ s.ChangesOnly t [.rx, .contention]) ∧
    (∀ b, s.rx = .listen true →
      ∃ t, exec (.firstByteCollected b) s = .next t
        ∧ t.rx = (if b = 0xC3 then .frame { header := none, body := [], crc := 0xFFFF, expected := 2 }
                  else .skip)
        ∧ s.ChangesOnly t [.rx]) ∧
    (∀ f b1 b2, s.rx = .frame f → f.header = none →
      ∃ t, exec (.headerFieldsComplete b1 b2) s = .next t
        ∧ t.rx = (if b1.toNat / 32 = 0 ∨ b1.toNat / 32 = 7 ∨ 128 < b2.toNat
                    ∨ (b1.toNat / 32 = 1 ∧ b2 = 0) ∨ (b1.toNat / 32 ≠ 1 ∧ b2 ≠ 2) then .skip
                  else .frame { f with
                    header := some (b1, b2), crc := crcRun f.crc [b1, b2], expected := b2.toNat + 2 })
        ∧ s.ChangesOnly t [.rx])

/-- R41, R43 to R47: the frame end disposes of a frame in one of three ways, and only a peer's valid frame
reaches the dispatch list, with items in their ranges. R9, R45, R46: an ignored item is dropped at its turn. As a frame
ends, the turn of every ignored item of an earlier frame that stands at the front has come, and, where none waits, that
of the first item of the frame; each later item has a turn of its own, which comes where a dispatch command finds no
item of its own or hands on an item behind it. That these are the turns is the model's reading (log 6); that the
frame end carries the body and the CRC is its own choice (log 7). -/
def Obligations.FrameEndDisposesOfAFrame : Prop :=
  (∀ (s : State) (f : RxFrame) (rest : List Byte), s.rx = .frame f → f.header.isSome = true →
    rest.length = f.expected →
    ((judgeFrame f rest = none ∨ s.contention.state = .sending
        ∨ (f.source = s.own ∧ (s.station.life = .awaitStart ∨ s.station.life = .muted))) →
      ∃ t, exec (.frameEnd rest) s = .next t ∧ t.rx = .skip ∧ s.ChangesOnly t [.rx]) ∧
    (∀ items, judgeFrame f rest = some items →
      (items.length ≤ 8 ∧ ∀ it ∈ items,
        match it with
        | .record m n _ _ payload => m = f.source ∧ n < 4096 ∧ payload.length ≤ 64
        | .claim m n | .dispute m n | .relinquish m n | .pull m n => m = f.source ∧ n < 4096
        | .hold m n => m = f.source ∧ n < 1024) ∧
      (s.contention.state ≠ .sending → f.source ≠ s.own →
        ∃ t, exec (.frameEnd rest) s = .next t ∧ t.rx = .skip
          ∧ t.dispatch = (if s.dispatch.dropWhile s.ignores = [] then s.afterFirstTurn items
              else s.dispatch.dropWhile s.ignores ++ items)
          ∧ s.ChangesOnly t [.rx, .dispatch]))) ∧
  (∀ (s : State) (c : Instr), c ∈ dispatchCommands →
    (∀ it rest, s.nextItems = it :: rest → s.dispatchedBy it ≠ c) →
    ∃ t, exec c s = .next t
      ∧ t.dispatch = s.afterFirstTurn s.dispatch
      ∧ s.ChangesOnly t [.dispatch])

/-- R47, R148, R137, R74: a clash outside AWAIT_START and MUTED tears the station down: everything to be sent is
discarded, every claim slot is freed, every PRODUCE entry is removed and its line freed, and NUMBER_CLASH, HOLD_ENDED
and the entries' notices are posted in this order. That the join timer keeps its count as it stops is the model's
reading (log 20); that a freed line keeps its object number, length and bytes (log 15) and that the frame end carries
the body and the CRC (log 7) is its own choice. -/
def Obligations.NumberClashMutesTheStation : Prop :=
  ∀ (s : State) (f : RxFrame) (rest : List Byte) (items : List Item), s.DirectoryOrdered →
    s.StorageCanonical → s.ClaimsHold →
    s.rx = .frame f → rest.length = f.expected → judgeFrame f rest = some items →
    s.contention.state ≠ .sending → f.source = s.own →
    s.station.life ≠ .awaitStart → s.station.life ≠ .muted →
    let held := if s.contention.ownHold = .on ∨ s.contention.ownHold = .renewing then
      [s.valueNotice .holdEnded 0 s.own 0 3 [] 0] else []
    let removed := s.directory.filterMap (fun e =>
      match e.role with
      | .produce p => some
        (if p.ownership = .claiming then
          s.valueNotice .claimFailed e.object 0xFF (p.committed.getD 0) 6 (s.value e.object) (s.claimTag p)
         else s.valueNotice .ownershipLost e.object 0xFF (p.committed.getD 0) 6 (s.value e.object) 0)
      | .consume _ => none)
    ∃ t, exec (.frameEnd rest) s = .next t ∧ t.rx = .skip
      ∧ t.station = { s.station with life := .muted, joinRunning := false, joinOwed := false }
      ∧ t.contention = { s.contention with
          inHand := none, attempts := 0, state := .idle, queue := [], pendingHold := none
          ownHold := .off, ownExpiry := 0, expiryOwed := false }
      ∧ t.ownership.waitList = [] ∧ (∀ k, t.ownership.slots.get k = none)
      ∧ t.pubQueue = [] ∧ t.producedObjects = []
      ∧ (∀ n, t.entry n = if (s.produce n).isSome then none else s.entry n)
      ∧ (∀ k w,
          ((∃ e ∈ s.directory, e.produce.isSome = true ∧ setIndex e.object = k ∧ e.line = some w) →
            t.lineAt k w = { s.lineAt k w with valid := false, pinned := false, locked := false }) ∧
          ((∀ e ∈ s.directory, e.produce.isSome = true → setIndex e.object = k → e.line ≠ some w) →
            t.lineAt k w = s.lineAt k w))
      ∧ (∀ k, (t.store.get k).older = (s.store.get k).older)
      ∧ t.notice = s.notice.postedAll
          (s.valueNotice .numberClash 0 s.own 0 s.station.life.code [] 0 :: (held ++ removed))
      ∧ s.ChangesOnly t [.station, .directory, .store, .ownership, .pubQueue, .rx, .contention, .notice]

/-- R35 to R41, Tables 11.3 to 11.5: a frame as it is driven is received as its items, and with any other two
CRC bytes it is malformed. R88, R129: the frame in hand is driven with the station's own number as its source, and the
length and CRC of the records that it then holds. R40: the division register starts with all bits one and takes each
byte, most significant bit first, by the generator x^16 + x^12 + x^5 + 1; over a frame's bytes and two CRC bytes it
ends at 0 exactly when those are its value after the bytes, high byte first. -/
def Obligations.SentFramesAreReceived : Prop :=
  (∀ (s : State) (f : InHand), s.contention.inHand = some f → f.wellFormed = true → s.own < 32 →
    ∃ bytes, s.drivenFrame = some bytes
      ∧ (byteAt bytes 1).toNat = 32 * f.kind + s.own
      ∧ (byteAt bytes 2).toNat = f.body.length
      ∧ bytes.length = f.body.length + 5
      ∧ (bytes.drop 3).take f.body.length = f.body
      ∧ bytes.drop (f.body.length + 3) =
          [highByte (crcOf ((bytes.drop 1).take (f.body.length + 2))).toNat,
            byteOf (crcOf ((bytes.drop 1).take (f.body.length + 2))).toNat]
      ∧ (∀ records, f = .data records →
          f.kind = 1 ∧ f.body.length = (records.map (fun r => 4 + r.payload.length)).sum
            ∧ f.body = records.flatMap TxRecord.bytes)) ∧
  (∀ (r : Word16) (b : Byte), ∃ taken : Nat → Word16, taken 0 = r ∧ taken 8 = crcByte r b
    ∧ ∀ k, k < 8 → CrcTakesBit (taken k) (b.getLsbD (7 - k)) (taken (k + 1))) ∧
  (∀ (r : Word16) (bytes : List Byte) (b : Byte),
    crcRun r [] = r ∧ crcRun r (bytes ++ [b]) = crcByte (crcRun r bytes) b) ∧
  (∀ (bytes : List Byte) (high low : Byte), crcOf bytes = crcRun 0xFFFF bytes
    ∧ (crcRun 0xFFFF (bytes ++ [high, low]) = 0 ↔
        [high, low] = [highByte (crcOf bytes).toNat, byteOf (crcOf bytes).toNat])) ∧
  ∀ (f : InHand) (source : Nat), f.wellFormed = true → source < 32 →
    (f.bytes source).head? = some 0xC3
      ∧ headerBad (byteAt (f.bytes source) 1) (byteAt (f.bytes source) 2) = false
      ∧ ((f.bytes source).drop 3).length = (f.received source).expected
      ∧ judgeFrame (f.received source) ((f.bytes source).drop 3) = some (f.items source)
      ∧ ∀ high low, [high, low] ≠ (f.bytes source).drop ((f.bytes source).length - 2) →
          judgeFrame (f.received source) (f.body ++ [high, low]) = none

/-! ## Dispatched items at CONSUME entries (Chapter 6) -/

/-- R104: a duplicate restarts the age counter and does nothing more. -/
def Obligations.DuplicateRestartsTheAgeCounter : Prop :=
  ∀ (s : State) (source n : Nat) (rep : Bool) (q : Byte) (payload : List Byte) (rest : List Item)
    (c : Consume), s.Settled → s.nextItems = .record source n rep q payload :: rest →
    s.consume n = some c → c.binding = .bound source → c.replica ≠ .absent → c.lastSeq = some q →
    ∃ t, exec .dataRecordAtConsume s = .next t ∧ t.dispatch = rest
      ∧ t.consume n = some { c with age := 0, ageRunning := true }
      ∧ (t.entry n).bind Entry.line = (s.entry n).bind Entry.line
      ∧ (∀ m, m ≠ n → t.entry m = s.entry m) ∧ s.ChangesOnly t [.dispatch, .directory]

/-- R101, R105, Table 2.5: a record from a higher station than the bound owner is a SOURCE_CONFLICT, and a
record for an entry that can get no line is dropped with NO_LINE; neither changes the entry. -/
def Obligations.RejectedRecordsChangeNoEntry : Prop :=
  ∀ (s : State) (source n : Nat) (rep : Bool) (q : Byte) (payload : List Byte) (rest : List Item)
    (c : Consume), s.ReplicasCoherent →
    s.nextItems = .record source n rep q payload :: rest → s.consume n = some c →
    (∀ owner, c.binding = .bound owner → owner < source →
      ∃ u, exec .dataRecordAtConsume s = .next u.settle ∧ u.dispatch = rest
        ∧ u.notice = s.notice.posted (s.valueNotice .sourceConflict n source q owner payload 0)
        ∧ s.AfterPosts u
        ∧ s.ChangesOnly u [.dispatch, .notice, .contention]) ∧
    ((∀ owner, c.binding = .bound owner → source ≤ owner) →
      (s.entry n).bind Entry.line = none → (s.setOf n).choose = none →
      ∃ u, exec .dataRecordAtConsume s = .next u.settle ∧ u.dispatch = rest
        ∧ u.notice = s.notice.posted
            (s.valueNotice .noLine n source q (s.setOf n).lockedWays payload 0)
        ∧ s.AfterPosts u
        ∧ s.ChangesOnly u [.dispatch, .notice, .contention])

/-- R100 to R108: an accepted record binds the entry to its source, writes the payload into the entry's line or
a newly allocated one, and posts, in this order, GAP, BOUND or OWNER_CHANGED, and UPDATED as the notify mode
asks. -/
def Obligations.AcceptedRecordsUpdateTheReplica : Prop :=
  ∀ (s : State) (source n : Nat) (rep : Bool) (q : Byte) (payload : List Byte) (rest : List Item)
    (e : Entry) (c : Consume) (a : State) (w : Way), s.ReplicasCoherent → s.StorageCanonical →
    s.nextItems = .record source n rep q payload :: rest → s.entry n = some e → e.role = .consume c →
    (∀ owner, c.binding = .bound owner →
      source < owner ∨ (source = owner ∧ (c.replica = .absent ∨ c.lastSeq ≠ some q))) →
    (e.line = some w ∧ a = s ∨ e.line = none ∧ s.allocate n false 1 0 = some (w, a)) →
    let gap := match c.lastSeq with
      | some last =>
        if c.binding = .bound source ∧ c.replica ≠ .absent ∧ q ≠ last + 1 then
          [s.valueNotice .gap n source q (q - last - 1).toNat payload 0] else []
      | none => []
    let bound := match c.binding with
      | .unbound => [s.valueNotice .bound n source q 0xFF payload 0]
      | .orphaned owner => [s.valueNotice .bound n source q owner payload 0]
      | .bound owner =>
        if owner = source then [] else [s.valueNotice .ownerChanged n source q owner payload 0]
    let updated :=
      if c.notify = .all ∨ c.notify = .change ∧ (c.replica = .absent ∨ s.value n ≠ payload) then
        [s.valueNotice .updated n source q
          ((if rep then 1 else 0) + (if c.binding = .bound source then 0 else 2)) payload 0]
      else []
    ∃ u, exec .dataRecordAtConsume s = .next u.settle ∧ u.dispatch = rest
      ∧ u.entry n = some
          { e with
            line := some w
            role := .consume { c with
              binding := .bound source, replica := .fresh, lastSeq := some q, age := 0
              ageRunning := true } }
      ∧ (∀ m, m ≠ n → u.entry m = a.entry m)
      ∧ u.lineAt (setIndex n) w = { a.lineAt (setIndex n) w with
          length := payload.length, payload := payload ++ List.replicate (64 - payload.length) 0 }
      ∧ (u.store.get (setIndex n)).older = w.other ∧ a.StoreSameBut u (setIndex n) w
      ∧ u.notice = a.notice.postedAll (gap ++ bound ++ updated)
      ∧ s.AfterPosts u
      ∧ s.ChangesOnly u [.dispatch, .directory, .store, .notice, .contention]

/-- R109: a RELINQUISH from the bound owner leaves the entry ORPHANED and its FRESH replica STALE; one from any
other station is ignored. -/
def Obligations.RelinquishHeardOrphansTheReplica : Prop :=
  ∀ (s : State) (source n : Nat) (rest : List Item) (e : Entry) (c : Consume), s.StorageCanonical →
    s.nextItems = .relinquish source n :: rest → s.entry n = some e → e.role = .consume c →
    (c.binding = .bound source →
      ∃ u, exec .relinquishHeardAtConsume s = .next u.settle ∧ u.dispatch = rest
        ∧ u.entry n = some { e with role := .consume { c with
            binding := .orphaned source
            replica := if c.replica = .fresh then .stale else c.replica } }
        ∧ (∀ m, m ≠ n → u.entry m = s.entry m)
        ∧ u.notice = s.notice.posted
            (s.valueNotice .orphaned n source (c.lastSeq.getD 0) 0 (s.value n) 0)
        ∧ s.AfterPosts u
        ∧ s.ChangesOnly u [.dispatch, .directory, .notice, .contention]) ∧
    (c.binding ≠ .bound source →
      ∃ u, exec .relinquishHeardAtConsume s = .next u.settle ∧ u.dispatch = rest
        ∧ s.ChangesOnly u [.dispatch])

/-! ## Dispatched items at PRODUCE entries (Chapters 4 and 5) -/

/-- Table 4.2, R60 to R62, R64, R130: an item that does not end ownership is ignored or answered with a DISPUTE
request, which is dropped where an unsent DISPUTE waits or no automatic place is free. -/
def Obligations.HeardItemsAreIgnoredOrDisputed : Prop :=
  ∀ (s : State) (k : HeardKind) (source n : Nat) (p : Produce) (rest : List Item),
    s.Hears k source n p rest →
    (heardOutcome s.own source k p.ownership = .ignored →
      ∃ u, exec k.command s = .next u.settle ∧ u.dispatch = rest ∧ s.ChangesOnly u [.dispatch]) ∧
    (heardOutcome s.own source k p.ownership = .disputes →
      ∃ u, exec k.command s = .next u.settle ∧ u.dispatch = rest
        ∧ u.contention.queue =
            (if .dispute n ∈ s.contention.queue
                ∨ (s.contention.state ≠ .sending
                    ∧ ∃ w, s.contention.inHand = some (.control (.dispute n) w))
                ∨ 2 ≤ (s.contention.queue.filter (fun f => !f.fromCommand)).length
             then s.contention.queue else s.contention.queue ++ [.dispute n])
        ∧ u.contention = { s.contention with queue := u.contention.queue }
        ∧ s.ChangesOnly u [.dispatch, .contention])

/-- R60 to R62, R65: a claim is lost. Its CLAIM and then its DISPUTE are withdrawn, its slot is freed, CLAIM_LOST is
posted with the slot's tag, and the entry is removed with its line. That a discard draws at its own step (R119, R128)
is the model's reading (log 11), and that a DISPUTE in the queue is withdrawn before one in hand its own choice (log
34). That a freed line keeps its object number, length and bytes is the model's own choice (log 15). -/
def Obligations.HeardItemsEndAClaim : Prop :=
  ∀ (s : State) (h : HeardKind) (source n : Nat) (p : Produce) (rest : List Item) (k : Fin 4)
    (slot : ClaimSlot), s.StorageCanonical → s.QueuePlacesKept → s.Hears h source n p rest →
    heardOutcome s.own source h p.ownership = .lost →
    p.claimSlot = some k → s.ownership.slots.get k = some slot →
    let lost := s.valueNotice .claimLost n source (p.committed.getD 0) h.cause (s.value n) slot.tag
    ∃ u, exec h.command s = .next u.settle ∧ u.dispatch = rest
      ∧ u.entry n = none ∧ s.OthersKept u n ∧ s.LineFreed u n
      ∧ u.ownership.slots.get k = none
      ∧ (∀ j, j ≠ k → u.ownership.slots.get j = s.ownership.slots.get j)
      ∧ .claim n ∉ u.ownership.waitList
      ∧ u.contention.queue.count (.claim n) = s.contention.queue.count (.claim n) - 1
      ∧ u.contention.queue.count (.dispute n) = s.contention.queue.count (.dispute n) - 1
      ∧ s.WithdrawnInHand u (.claim n) ∧ s.contention.SameButFrames u.contention
      ∧ u.notice = s.notice.posted lost
      ∧ (∃ a b c d, { s with dispatch := rest }.Withdraws a (.claim n) ∧ a.Withdraws b (.dispute n)
          ∧ b.FreesSlot c n ∧ c.Posts d [lost] ∧ d.Removes u n)
      ∧ s.ChangesOnly u [.dispatch, .directory, .store, .ownership, .contention, .notice]

/-- R60, R62, R66, R93: an OWNED entry is deposed by a lower station. Its publication stops, in the order of R66 (a
discard draws at once, R119, log 11; that the text's order is the order of the steps is the model's own choice, log
34), and OWNERSHIP_LOST is posted; the entry keeps its line and its committed
value. -/
def Obligations.HeardItemsDeposeAnOwner : Prop :=
  ∀ (s : State) (k : HeardKind) (source n : Nat) (p : Produce) (rest : List Item),
    s.StorageCanonical → s.QueuePlacesKept → s.Hears k source n p rest →
    heardOutcome s.own source k p.ownership = .deposed →
    let lost := s.valueNotice .ownershipLost n source (p.committed.getD 0) k.cause (s.value n) 0
    ∃ u q, exec k.command s = .next u.settle ∧ u.dispatch = rest
      ∧ u.produce n = some q ∧ s.PublicationStops u n p q
      ∧ q = { p with
          ownership := .deposed, queued := q.queued, inFlight := q.inFlight, pending := q.pending }
      ∧ (∀ m, m ≠ n → u.entry m = s.entry m)
      ∧ u.notice = s.notice.posted lost
      ∧ (∃ a b, { s with dispatch := rest }.StopsPublishing a n
          ∧ a.EntryBecomes b n (fun p => { p with ownership := .deposed }) ∧ b.Posts u [lost])
      ∧ s.ChangesOnly u [.dispatch, .directory, .pubQueue, .contention, .notice]

/-- R63, R85. -/
def Obligations.RelinquishAndPullHeardAtAProduceEntry : Prop :=
  ∀ (s : State) (source n : Nat) (rest : List Item) (p : Produce), s.produce n = some p →
    (s.nextItems = .relinquish source n :: rest →
      ∃ t, exec .relinquishHeardAtProduce s = .next t ∧ t.dispatch = rest
        ∧ s.ChangesOnly t [.dispatch]) ∧
    (s.nextItems = .pull source n :: rest →
      ∃ u, exec .pullHeard s = .next u.settle ∧ u.dispatch = rest ∧
        if p.ownership = .owned ∧ p.committed ≠ none ∧ p.queued = .no ∧ p.inFlight = .no then
          u.pubQueue = s.pubQueue ++ [{ object := n, rep := true }]
            ∧ u.produce n = some { p with queued := .yes true }
            ∧ (∀ m, m ≠ n → u.entry m = s.entry m)
            ∧ s.ChangesOnly u [.dispatch, .directory, .pubQueue]
        else (s.Settled → u.settle = u) ∧ s.ChangesOnly u [.dispatch])

/-! ## Timers (Chapters 4, 5, 6, 7 and 10) -/

/-- R143, R57, R132, R135, R144: a slot boundary. It carries out first what the last one still owes, in an order that
is the model's own choice, as the expiry commands themselves would (log 4); where nothing is owed it does nothing but
count. A boundary that would end the join period or the own hold is owed to it, and its command carries it out
together with what it brings about. That the last hold entry stands at 1, marked, until its fall is the model's own
choice (log 5). -/
def Obligations.SlotBoundaryAdvancesTheSlotCounters : Prop :=
  ∀ s : State, s.station.life ≠ .awaitStart →
    ∃ u t, s.After u [.grant 0, .grant 1, .grant 2, .grant 3, .holdEntryRunsOut, .ownHoldExpires,
        .joinPeriodEnd]
      ∧ ((∀ k c, s.ownership.slots.get k = some c → c.phase ≠ .window 0) → s.contention.holdFall = none →
          (s.contention.ownHold = .on → s.contention.expiryOwed = false) →
          (s.station.life = .joining → s.station.joinOwed = false) → u = s)
      ∧ exec .slotBoundary s = .next t
      ∧ t.station = { u.station with
          slotCount := u.station.slotCount + 1
          joinTimer := if u.station.joinRunning = true ∧ u.station.joinTimer + 1 < u.cfg.joinPeriod then
            u.station.joinTimer + 1 else u.station.joinTimer
          joinOwed := if u.station.joinRunning = true ∧ u.cfg.joinPeriod ≤ u.station.joinTimer + 1 then true
            else u.station.joinOwed }
      ∧ (∀ k, t.ownership.slots.get k = (u.ownership.slots.get k).map (fun c => { c with
          phase := match c.phase with | .awaitSend => .awaitSend | .window n => .window (n - 1) }))
      ∧ t.ownership.waitList = u.ownership.waitList
      ∧ (∀ k, t.contention.holdTable.get k =
          if t.contention.holdFall = some k then 1 else u.contention.holdTable.get k - 1)
      ∧ (∀ k, t.contention.holdFall = some k ↔
          (∀ j, u.contention.holdTable.get j ≤ 1) ∧ u.contention.holdTable.get k = 1
            ∧ ∀ j, k < j → u.contention.holdTable.get j = 0)
      ∧ t.contention = { u.contention with
          holdTable := t.contention.holdTable, holdFall := t.contention.holdFall
          ownExpiry := if u.contention.ownHold = .on ∧ 1 < u.contention.ownExpiry then
            u.contention.ownExpiry - 1 else u.contention.ownExpiry
          expiryOwed := if u.contention.ownHold = .on ∧ u.contention.ownExpiry ≤ 1 then true
            else u.contention.expiryOwed }
      ∧ u.ChangesOnly t [.station, .ownership, .contention]

/-- R58, R77: a window that has run out gives the claim. That the boundary leaves the window at 0 and a command of its
own grants it is the model's own choice (log 4). -/
def Obligations.GrantMakesTheEntryOwned : Prop :=
  ∀ (s : State) (k : Fin 4) (slot : ClaimSlot) (p : Produce), s.StorageCanonical →
    s.ownership.slots.get k = some slot → slot.phase = .window 0 → s.produce slot.object = some p →
    p.ownership = .claiming → p.claimSlot = some k →
    ∃ u, exec (.grant k) s = .next u.settle
      ∧ u.produce slot.object = some { p with
          ownership := .owned, claimSlot := none, refreshCounter := 0
          queued := if p.staged then .yes false else p.queued }
      ∧ (∀ m, m ≠ slot.object → u.entry m = s.entry m)
      ∧ u.ownership.slots.get k = none
      ∧ (∀ j, j ≠ k → u.ownership.slots.get j = s.ownership.slots.get j)
      ∧ u.ownership.waitList = s.ownership.waitList
      ∧ u.pubQueue = (if p.staged then s.queueWith slot.object else s.pubQueue)
      ∧ u.notice = s.notice.posted (s.valueNotice .claimGranted slot.object s.own
          (p.committed.getD 0) 0 (s.value slot.object) slot.tag)
      ∧ s.AfterPosts u
      ∧ s.ChangesOnly u [.directory, .ownership, .pubQueue, .contention, .notice]

/-- R132, R119: a HOLD heard sets its station's entry, and the fall of the last entry takes that entry one lower: to 0,
or from the length of a HOLD heard from that station in between. The mark of the entry whose fall is still to come is
the model's own (log 5). -/
def Obligations.HoldTableFollowsThePeers : Prop :=
  ∀ s : State,
    (∀ (source : Fin 32) (length : Nat) (rest : List Item),
      s.nextItems = .hold source length :: rest →
      ∃ u, exec .holdHeard s = .next u.settle ∧ u.dispatch = rest
        ∧ u.contention.holdTable.get source = length
        ∧ (∀ j, j ≠ source → u.contention.holdTable.get j = s.contention.holdTable.get j)
        ∧ u.contention = { s.contention with holdTable := u.contention.holdTable }
        ∧ s.ChangesOnly u [.dispatch, .contention]) ∧
    (∀ k : Fin 32, s.contention.holdFall = some k →
      ∃ u, exec .holdEntryRunsOut s = .next u.settle
        ∧ u.contention.holdTable.get k = s.contention.holdTable.get k - 1
        ∧ (∀ j, j ≠ k → u.contention.holdTable.get j = s.contention.holdTable.get j)
        ∧ u.contention = { s.contention with
            holdTable := u.contention.holdTable, holdFall := none }
        ∧ s.ChangesOnly u [.contention])

/-- R135, Table 7.6, R134: the boundary that takes the expiry to 0 comes to an own hold that is ON, and it expires: it
is renewed above the low mark, and ended at or below it, where the post of HOLD_ENDED makes the high-mark test as any
post does. The mark of that boundary is the model's own (log 4), and so is that the hold is OFF before that post
(log 34). R130: a HOLD request, there and wherever the model makes one, changes the HOLD in the control queue, the
unsent one in hand or the pending one, or joins the tail where an automatic place is free, or waits. No request
withdraws a HOLD, so that the one in hand carries no withdrawn mark. -/
def Obligations.OwnHoldIsRenewedOrEnds : Prop :=
  (∀ (c : Contention) (n : Nat), c.HoldRequested (c.requestHold n) n) ∧
  ∀ s : State, s.contention.ownHold = .on → s.contention.expiryOwed = true →
    ∃ u, exec .ownHoldExpires s = .next u.settle ∧
      if s.cfg.lowMark < s.notice.backlog.length then
        u.contention = { s.contention.requestHold s.cfg.holdLength with
            ownHold := .renewing, ownExpiry := 0, expiryOwed := false }
          ∧ s.ChangesOnly u [.contention]
      else
        u.notice = s.notice.posted (s.valueNotice .holdEnded 0 s.own 0 1 [] 0)
          ∧ u.contention = s.testedAfter u { s.contention with
              ownHold := .off, ownExpiry := 0, expiryOwed := false }
          ∧ s.ChangesOnly u [.contention, .notice]

/-- R143, R83, R110, R172, R173: a tick, and what it does at the coalescing timer. It carries out first what the last
one still owes, in an order that is the model's own choice, as the expiry commands themselves would. To the entries and
the timer that its operands name it comes later, as a happening of its own (log 32), and so does a tick that would
bring a counter to its end: its command carries it out together with what it brings about (log 4). That the tick count
rises before the tick comes to them is the model's own choice too (log 35). -/
def Obligations.TickAdvancesTheTickCounters : Prop :=
  ∀ s : State,
    (s.station.life ≠ .awaitStart → ∀ (late : List Nat) (timerLate : Bool),
      ∃ u t, s.After u ((s.directory.map Entry.object).flatMap
          (fun n => [.refreshExpiry n, .ageExpiry n]) ++ [.coalescingExpiry])
        ∧ ((∀ e ∈ s.directory, e.tickOwed = false) → s.notice.tickOwed = false → u = s)
        ∧ exec (.tick late timerLate) s = .next t
        ∧ t.station = { u.station with tickCount := u.station.tickCount + 1 }
        ∧ (∀ n, t.entry n = (u.entry n).map (fun e =>
            if e.object ∈ late then { e with tickOwed := true }
            else match e.role with
            | .produce p =>
              if p.ownership = .owned ∧ p.refreshCounter + 1 = p.refreshPeriod then
                { e with tickOwed := true }
              else { e with role := .produce { p with
                refreshCounter :=
                  if p.ownership = .owned ∧ p.refreshCounter < p.refreshPeriod then p.refreshCounter + 1
                  else p.refreshCounter } }
            | .consume c =>
              if c.ageRunning = true ∧ c.ageLimit ≠ 0 ∧ c.ageLimit ≤ c.age + 1 then
                { e with tickOwed := true }
              else { e with role := .consume { c with
                age := if c.ageRunning = true ∧ (c.ageLimit ≠ 0 ∨ c.age < 65535) then c.age + 1
                  else c.age } }))
        ∧ t.notice = (match u.notice.timer with
            | .running n =>
              if timerLate = true ∨ u.cfg.coalescing ≤ n + 1 then { u.notice with tickOwed := true }
              else { u.notice with timer := .running (n + 1) }
            | .stopped | .expired =>
              if timerLate = true then { u.notice with tickOwed := true } else u.notice)
        ∧ u.ChangesOnly t [.station, .directory, .notice]) ∧
    (s.notice.tickOwed = true →
      ∃ t, exec .coalescingExpiry s = .next t ∧ s.ChangesOnly t [.notice] ∧
        match s.notice.timer with
        | .running n =>
          if s.cfg.coalescing ≤ n + 1 then
            t.notice = { s.notice with timer := .expired, tickOwed := false, intLine := t.notice.intLine }
              ∧ t.LineFollowsCondition
          else t.notice = { s.notice with timer := .running (n + 1), tickOwed := false }
        | .stopped | .expired => t.notice = { s.notice with tickOwed := false }) ∧
    (s.notice.tickOwed = false → exec .coalescingExpiry s = .next s)

/-- R83, R84, R110, R111, R112, Table 6.4: the tick that brings a refresh counter to its period queues a REPEAT, and
the one that brings an age counter to its limit stops it there and ages the replica, each in the same happening. Where
another happening has set the counter back before its tick, the tick counts. The mark of a tick that is still to come
is the model's own (log 4). That the tick expires an entry of age limit 1 also where a record has just been applied
there, where R112 says otherwise (log 33), and that the time stamp of the notices counts the tick (log 35) is its own
choice. That a FRESH replica of an ORPHANED entry, which no step leads to, would post STALE is its reading, for Table
6.4 has no row for it (log 18). -/
def Obligations.ExpiredEntryTimersAct : Prop :=
  ∀ (s : State) (n : Nat) (e : Entry), s.StorageCanonical → s.entry n = some e →
    (∀ p, e.role = .produce p → e.tickOwed = true → p.ownership = .owned →
      p.refreshCounter + 1 = p.refreshPeriod →
      ∃ u, exec (.refreshExpiry n) s = .next u.settle ∧ (∀ m, m ≠ n → u.entry m = s.entry m) ∧
        if p.committed ≠ none ∧ p.queued = .no ∧ p.inFlight = .no then
          u.pubQueue = s.pubQueue ++ [{ object := n, rep := true }]
            ∧ u.entry n = some { e with tickOwed := false, role := .produce { p with
                queued := .yes true, refreshCounter := 0 } }
            ∧ s.ChangesOnly u [.directory, .pubQueue]
        else u.entry n = some { e with tickOwed := false, role := .produce { p with
                refreshCounter := 0 } }
            ∧ s.ChangesOnly u [.directory]) ∧
    (∀ c, e.role = .consume c → e.tickOwed = true → c.ageRunning = true → c.ageLimit ≠ 0 →
      c.ageLimit ≤ c.age + 1 →
      ∃ u, exec (.ageExpiry n) s = .next u.settle ∧ (∀ m, m ≠ n → u.entry m = s.entry m)
        ∧ u.entry n = some { e with tickOwed := false, role := .consume { c with
            age := c.ageLimit, ageRunning := false
            replica := if c.replica = .fresh then .stale else c.replica
            binding := match c.replica, c.binding with
              | .stale, b => b
              | _, .bound owner => .orphaned owner
              | _, b => b } }
        ∧ u.notice = (match c.replica, c.binding with
            | .fresh, b => s.notice.posted
                (s.valueNotice .stale n b.station (c.lastSeq.getD 0) 0 (s.value n) 0)
            | .absent, .bound owner => s.notice.posted
                (s.valueNotice .orphaned n owner (c.lastSeq.getD 0) 1 (s.value n) 0)
            | _, _ => s.notice)
        ∧ s.AfterPosts u
        ∧ s.ChangesOnly u [.directory, .notice, .contention]) ∧
    (e.tickOwed = true →
      (∀ p, e.role = .produce p → ¬ (p.ownership = .owned ∧ p.refreshCounter + 1 = p.refreshPeriod) →
        ∃ t, exec (.refreshExpiry n) s = .next t ∧ (∀ m, m ≠ n → t.entry m = s.entry m)
          ∧ t.entry n = some { e with tickOwed := false, role := .produce { p with
              refreshCounter :=
                if p.ownership = .owned ∧ p.refreshCounter < p.refreshPeriod then p.refreshCounter + 1
                else p.refreshCounter } }
          ∧ s.ChangesOnly t [.directory]) ∧
      (∀ c, e.role = .consume c → ¬ (c.ageRunning = true ∧ c.ageLimit ≠ 0 ∧ c.ageLimit ≤ c.age + 1) →
        ∃ t, exec (.ageExpiry n) s = .next t ∧ (∀ m, m ≠ n → t.entry m = s.entry m)
          ∧ t.entry n = some { e with tickOwed := false, role := .consume { c with
              age := if c.ageRunning = true ∧ (c.ageLimit ≠ 0 ∨ c.age < 65535) then c.age + 1
                else c.age } }
          ∧ s.ChangesOnly t [.directory])) ∧
    (e.tickOwed = false →
      exec (.refreshExpiry n) s = .next s ∧ exec (.ageExpiry n) s = .next s)

/-! ## Contention (Chapter 7) and the outcomes of a frame -/

/-- R120: quiet, and the slots of a deferral. The mark of a DEFERRING unit whose deferral is at its end is the
model's own (log 10). -/
def Obligations.DeferralCountsQuietSlots : Prop :=
  ∀ s : State, s.contention.carrier = false →
    (s.contention.quiet = false → s.contention.state ≠ .sending → s.station.life ≠ .awaitStart →
      ∃ t, exec .quietReached s = .next t
        ∧ t.contention = { s.contention with
            quiet := true
            state := match s.contention.state with
              | .waitQuiet r => .deferring r (r == 0)
              | other => other }
        ∧ s.ChangesOnly t [.contention]) ∧
    (∀ r, s.contention.quiet = true → s.contention.state = .deferring r false →
      ∃ t, exec .deferralSlot s = .next t
        ∧ t.contention = { s.contention with state := .deferring (r - 1) (r ≤ 1) }
        ∧ s.ChangesOnly t [.contention])

/-- R123, R86 to R88, R92, R131, R55: what a unit sends when its deferral ends: its frame in hand (a DATA frame only
while no hold stands; else it is set aside and its records return), else the head of the control queue, whose place is
filled, else a bundle, else nothing. That the line is not quiet once the part drives it is the model's own (log 10). -/
def Obligations.DeferralEndChoosesAFrame : Prop :=
  ∀ (s : State) (r : Nat), s.QueuedAreOwned → s.contention.state = .deferring r true →
    ∃ u, exec .deferralEnd s = .next u.settle ∧
      let clear := ∀ k, s.contention.holdTable.get k = 0
      let sends := { s.contention with state := .sending, quiet := false }
      (∀ f w, s.contention.inHand = some (.control f w) →
        u.contention = sends ∧ s.ChangesOnly u [.contention]) ∧
      (∀ records, s.contention.inHand = some (.data records) →
        (clear → u.contention = sends ∧ s.ChangesOnly u [.contention]) ∧
        (¬ clear → u.contention = s.contention.ended ∧ u.notice = s.notice
          ∧ (∀ x ∈ records, ∀ p, s.reached x = some p → u.produce x.object = some { p with
              inFlight := .no, pending := p.pending || !x.rep
              queued := if p.ownership = .owned ∧ p.queued = .no then .yes x.rep else p.queued })
          ∧ (∀ x ∈ records, s.reached x = none → u.entry x.object = s.entry x.object)
          ∧ (∀ m, m ∉ records.map TxRecord.object → u.entry m = s.entry m)
          ∧ u.pubQueue = (records.filter s.returns).map
              (fun r => { object := r.object, rep := r.rep : PubItem }) ++ s.pubQueue
          ∧ s.ChangesOnly u [.directory, .pubQueue, .contention])) ∧
      (∀ f rest, s.contention.inHand = none → s.contention.queue = f :: rest →
        { s with contention := { sends with
            inHand := some (.control f false), attempts := 0, queue := rest } }.PlaceFreed u f
        ∧ u.contention = { sends with
            inHand := some (.control f false), attempts := 0, queue := u.contention.queue
            pendingHold := u.contention.pendingHold }
        ∧ (f.fromCommand = true →
            u.contention.queue = rest ++ s.ownership.waitList.take 1
              ∧ u.ownership = { s.ownership with waitList := s.ownership.waitList.drop 1 }
              ∧ u.contention.pendingHold = s.contention.pendingHold)
        ∧ (f.fromCommand = false →
            u.contention.queue = rest ++ (s.contention.pendingHold.map CtlFrame.hold).toList
              ∧ u.contention.pendingHold = none ∧ u.ownership = s.ownership)
        ∧ s.ChangesOnly u [.directory, .ownership, .contention]) ∧
      (s.contention.inHand = none → s.contention.queue = [] →
        (s.station.life = .active → clear → s.pubQueue ≠ [] →
          ∃ taken left, s.pubQueue = taken ++ left
            ∧ taken.length ≤ 8 ∧ (taken.map (fun it => 4 + (s.value it.object).length)).sum ≤ 128
            ∧ (∀ it more, left = it :: more → taken.length = 8 ∨
                128 < ((taken ++ [it]).map (fun it => 4 + (s.value it.object).length)).sum)
            ∧ u.pubQueue = left
            ∧ u.contention = { sends with attempts := 0, inHand := some (.data (taken.map (fun it =>
                { object := it.object, rep := it.rep, payload := s.value it.object
                  seq := match (s.produce it.object).bind Produce.committed with
                    | some last => if it.rep then last else last + 1
                    | none => 0 }))) }
            ∧ (∀ it p, it ∈ taken → s.produce it.object = some p →
                u.produce it.object = some { p with
                  queued := .no, pending := false
                  inFlight := if it.rep then .repeating else .tentative
                    (match p.committed with | some last => last + 1 | none => 0) })
            ∧ (∀ m, m ∉ taken.map PubItem.object → u.entry m = s.entry m)
            ∧ s.ChangesOnly u [.directory, .pubQueue, .contention]) ∧
        (¬ (s.station.life = .active ∧ clear ∧ s.pubQueue ≠ []) →
          u.contention = { s.contention with state := .idle, attempts := 0 }
            ∧ s.ChangesOnly u [.contention]))

/-- R121, R122, R125, R94, R128: a collision within the retry limit. The frame stays in hand for a further attempt
with a new draw; a withdrawn frame is discarded, and a DATA frame loses the records whose entries are no longer
OWNED, whose marks are cleared. -/
def Obligations.CollisionDrawsAgain : Prop :=
  ∀ s : State, s.contention.state = .sending → s.contention.attempts + 1 ≤ s.cfg.retryLimit →
    ∃ u, exec .collision s = .next u.settle ∧
      let r := rngAdvance s.contention.rng
      (∀ f, s.contention.inHand = some (.control f false) →
        u.contention = { s.contention with
            rng := r, attempts := s.contention.attempts + 1, state := .waitQuiet (r.toNat % 4) }
          ∧ s.ChangesOnly u [.contention]) ∧
      (∀ f, s.contention.inHand = some (.control f true) →
        u.contention = s.contention.ended ∧ s.ChangesOnly u [.contention]) ∧
      (∀ records, s.contention.inHand = some (.data records) → records.filter s.keeps = [] →
        u.contention = s.contention.ended ∧ s.ChangesOnly u [.directory, .contention]) ∧
      (∀ records, s.contention.inHand = some (.data records) → records.filter s.keeps ≠ [] →
        u.contention = { s.contention with
            rng := r, attempts := s.contention.attempts + 1
            inHand := some (.data (records.filter s.keeps))
            state := .waitQuiet (if s.contention.queue ≠ [] then r.toNat % 4
              else 4 + r.toNat % 2 ^ (min 7 (3 + s.contention.attempts))) }
          ∧ s.ChangesOnly u [.directory, .contention]) ∧
      (∀ records, s.contention.inHand = some (.data records) →
        (∀ m, m ∉ records.map TxRecord.object → u.entry m = s.entry m) ∧
        ((records.map TxRecord.object).Nodup → ∀ x ∈ records,
          (s.keeps x = true ∨ s.reached x = none → u.entry x.object = s.entry x.object) ∧
          (s.keeps x = false → ∀ p, s.reached x = some p → u.produce x.object = some { p with
            inFlight := .no, pending := p.pending || !x.rep })))

/-- R89 to R91, R125 to R127, R44: the ends of a DATA frame. Success commits each record that reaches its entry;
abandonment after the retry limit or at a late collision returns the records of OWNED entries to the head of the
queue and posts TX_ABANDONED. That the frame heard back is discarded at the latest as the own frame ends is the
model's reading (log 8). -/
def Obligations.DataFramesCommitOrReturn : Prop :=
  ∀ (s : State) (records : List TxRecord), s.QueuedAreOwned → s.contention.state = .sending →
    s.contention.inHand = some (.data records) →
    (∃ u, exec .successfulEnd s = .next u.settle
      ∧ u.contention = s.contention.ended
      ∧ u.rx = (match s.rx with | .frame _ => .skip | other => other)
      ∧ (∀ x ∈ records, ∀ p, s.reached x = some p → u.produce x.object = some { p with
          inFlight := .no, committed := if x.rep then p.committed else some x.seq
          refreshCounter := if p.ownership = .owned then 0 else p.refreshCounter })
      ∧ (∀ x ∈ records, s.reached x = none → u.entry x.object = s.entry x.object)
      ∧ (∀ m, m ∉ records.map TxRecord.object → u.entry m = s.entry m)
      ∧ s.ChangesOnly u [.rx, .directory, .contention]) ∧
    (∀ cmd cause first more, records = first :: more →
      (cmd = .collision ∧ s.cfg.retryLimit < s.contention.attempts + 1 ∧ cause = 1
        ∨ cmd = .lateCollision ∧ 17 < (InHand.data records).body.length + 5 ∧ cause = 2) →
      ∃ u, exec cmd s = .next u.settle
        ∧ u.contention = (s.testedAfter u s.contention).ended
        ∧ (∀ x ∈ records, ∀ p, s.reached x = some p → u.produce x.object = some { p with
            inFlight := .no, pending := p.pending || !x.rep
            queued := if p.ownership = .owned ∧ p.queued = .no then .yes x.rep else p.queued })
        ∧ (∀ x ∈ records, s.reached x = none → u.entry x.object = s.entry x.object)
        ∧ (∀ m, m ∉ records.map TxRecord.object → u.entry m = s.entry m)
        ∧ u.pubQueue = (records.filter s.returns).map
            (fun x => { object := x.object, rep := x.rep : PubItem }) ++ s.pubQueue
        ∧ u.notice = s.notice.posted
            (s.valueNotice .txAbandoned first.object s.own first.seq cause first.payload 0)
        ∧ s.ChangesOnly u [.directory, .pubQueue, .contention, .notice])

/-- R56, R64, R73, R115, R127, R128, R44, Table 7.4: the ends of the control frames but HOLD. A CLAIM that ends opens
its window, and one that is abandoned fails the claim, with its DISPUTE withdrawn; a RELINQUISH that ends, either way,
removes its entry; a DISPUTE, a PULL and a CLAIM that is marked withdrawn end without an effect. That the frame heard
back is discarded at the latest as the own frame ends is the model's reading (log 8); that a freed line keeps its
object number, length and bytes (log 15) and that the DISPUTE is withdrawn before CLAIM_FAILED is posted (log 34) is its
own choice. -/
def Obligations.ClaimAndReleaseFramesEnd : Prop :=
  ∀ s : State, s.StorageCanonical → s.contention.state = .sending →
    let heard := match s.rx with | .frame _ => Rx.skip | other => other
    let counted :=
      { s with contention := { s.contention with attempts := s.contention.attempts + 1 } }
    (∀ n p k slot, s.produce n = some p →
      s.contention.inHand = some (.control (.claim n) false) → p.ownership = .claiming →
      p.claimSlot = some k → s.ownership.slots.get k = some slot → slot.phase = .awaitSend →
      (∃ u, exec .successfulEnd s = .next u.settle
        ∧ u.contention = s.contention.ended ∧ u.rx = heard
        ∧ u.ownership.slots.get k = some { slot with phase := .window s.cfg.claimWindow }
        ∧ (∀ j, j ≠ k → u.ownership.slots.get j = s.ownership.slots.get j)
        ∧ u.ownership.waitList = s.ownership.waitList
        ∧ s.ChangesOnly u [.rx, .ownership, .contention]) ∧
      (s.cfg.retryLimit < s.contention.attempts + 1 →
        let failed := s.valueNotice .claimFailed n 0xFF (p.committed.getD 0) 5 (s.value n) slot.tag
        ∃ a b c d u, exec .collision s = .next u.settle
          ∧ counted.FreesSlot a n ∧ a.Withdraws b (.dispute n) ∧ b.Posts c [failed] ∧ c.Removes d n
          ∧ u = { d with contention := d.contention.ended }
          ∧ u.contention.FrameEnded
          ∧ u.entry n = none ∧ s.LineFreed u n ∧ s.OthersKept u n
          ∧ u.ownership.slots.get k = none
          ∧ (s.QueuePlacesKept → u.contention.queue.count (.dispute n) =
              s.contention.queue.count (.dispute n) - 1)
          ∧ u.notice = s.notice.posted failed
          ∧ s.ChangesOnly u [.directory, .store, .ownership, .contention, .notice])) ∧
    (∀ n p tag w, s.produce n = some p → s.contention.inHand = some (.control (.relinquish n) w) →
      p.ownership = .relinquishing → p.releaseQueued = true → p.releaseTag = some tag →
      ∀ cmd cause, (cmd = .successfulEnd ∧ cause = 0
          ∨ cmd = .collision ∧ s.cfg.retryLimit < s.contention.attempts + 1 ∧ cause = 5) →
        ∃ u, exec cmd s = .next u.settle
          ∧ u.contention = (s.testedAfter u s.contention).ended
          ∧ u.rx = (if cmd = .successfulEnd then heard else s.rx)
          ∧ u.entry n = none ∧ s.LineFreed u n ∧ (∀ m, m ≠ n → u.entry m = s.entry m)
          ∧ u.notice = s.notice.posted
              (s.valueNotice .relinquished n 0xFF (p.committed.getD 0) cause (s.value n) tag)
          ∧ s.ChangesOnly u [.rx, .directory, .store, .contention, .notice]) ∧
    (∀ f w, s.contention.inHand = some (.control f w) →
      ((∃ n, f = .dispute n ∨ f = .pull n ∨ f = .claim n ∧ w = true)) →
      (∃ u, exec .successfulEnd s = .next u.settle
        ∧ u.contention = s.contention.ended ∧ u.rx = heard ∧ s.ChangesOnly u [.rx, .contention]) ∧
      (s.cfg.retryLimit < s.contention.attempts + 1 →
        ∃ u, exec .collision s = .next u.settle
          ∧ u.contention = s.contention.ended ∧ s.ChangesOnly u [.contention]))

/-- R135, R134, R127, R44, Table 7.6: the ends of the station's own HOLD frames. Where the own hold becomes OFF, the
high-mark test is made: in ACTIVE and LEAVING a HOLD of the hold length is requested and the own hold is STARTING
where the backlog is at or above the high mark, and else it stays OFF. That the frame heard back is discarded at the
latest as the own frame ends is the model's reading (log 8). -/
def Obligations.OwnHoldFollowsItsFrames : Prop :=
  ∀ (s : State) (n : Nat) (w : Bool), s.contention.state = .sending →
    s.contention.inHand = some (.control (.hold n) w) →
    let on := { s.contention with ownHold := .on, ownExpiry := s.cfg.holdLength, expiryOwed := false }
    let off := { s.contention with ownHold := .off, ownExpiry := 0, expiryOwed := false }
    (∃ u, exec .successfulEnd s = .next u.settle
      ∧ u.rx = (match s.rx with | .frame _ => .skip | other => other) ∧
      match s.contention.ownHold with
      | .starting => u.contention = on.ended
          ∧ u.notice = s.notice.posted (s.valueNotice .holdStarted 0 s.own 0 0 [] 0)
          ∧ s.ChangesOnly u [.rx, .contention, .notice]
      | .renewing => u.contention = on.ended ∧ s.ChangesOnly u [.rx, .contention]
      | .stopping =>
          u.contention =
            (if n = 0 then (off.tested s.station.life s.cfg s.notice.backlog.length).ended
             else s.contention.ended)
          ∧ s.ChangesOnly u [.rx, .contention]
      | .off | .on => u.contention = s.contention.ended ∧ s.ChangesOnly u [.rx, .contention]) ∧
    (s.cfg.retryLimit < s.contention.attempts + 1 →
      ∃ u, exec .collision s = .next u.settle ∧
        match s.contention.ownHold with
        | .starting =>
            u.contention = (off.tested s.station.life s.cfg s.notice.backlog.length).ended
            ∧ s.ChangesOnly u [.contention]
        | .renewing =>
            u.contention = (off.tested s.station.life s.cfg u.notice.backlog.length).ended
            ∧ u.notice = s.notice.posted (s.valueNotice .holdEnded 0 s.own 0 2 [] 0)
            ∧ s.ChangesOnly u [.contention, .notice]
        | .stopping =>
            u.contention =
              (if n = 0 then (off.tested s.station.life s.cfg s.notice.backlog.length).ended
               else s.contention.ended)
            ∧ s.ChangesOnly u [.contention]
        | .off | .on => u.contention = s.contention.ended ∧ s.ChangesOnly u [.contention])

/-- R119, R121, R122, R146, R137: what every happening that can give the unit work ends with: a new draw for an
IDLE unit that has work, the entry to DETACHED of a LEAVING station with nothing left, or nothing. -/
def Obligations.EndOfHappeningDrawsOrDetaches : Prop :=
  ∀ s : State,
    let r := rngAdvance s.contention.rng
    let work := (s.contention.queue ≠ [] ∧ (s.station.life = .active ∨ s.station.life = .leaving))
      ∨ (s.pubQueue ≠ [] ∧ s.station.life = .active ∧ ∀ k, s.contention.holdTable.get k = 0)
    let done := s.station.life = .leaving ∧ s.producedObjects = [] ∧ s.contention.queue = []
      ∧ s.contention.inHand = none
    (∀ i, i < 15 → r.getLsbD i = s.contention.rng.getLsbD (i + 1)) ∧
    r.getLsbD 15 = (s.contention.rng.getLsbD 0 ^^ s.contention.rng.getLsbD 2
      ^^ s.contention.rng.getLsbD 3 ^^ s.contention.rng.getLsbD 5) ∧
    (¬ done → s.contention.state = .idle → work →
      ∃ d, s.settle.contention = { s.contention with
          rng := r, state := if s.contention.quiet then .deferring d false else .waitQuiet d }
        ∧ ((s.contention.queue ≠ [] ∨ ∃ f w, s.contention.inHand = some (.control f w)) →
            d = r.toNat % 4)
        ∧ (s.contention.queue = [] → (∀ f w, s.contention.inHand ≠ some (.control f w)) →
            d = 4 + r.toNat % 2 ^ (min 7 (2 + s.contention.attempts)))
        ∧ s.ChangesOnly s.settle [.contention]) ∧
    (¬ done → ¬ (s.contention.state = .idle ∧ work) → s.settle = s) ∧
    (done →
      s.settle.station = { s.station with life := .detached }
        ∧ s.settle.contention = { s.contention with
            state := .idle, attempts := 0, ownHold := .off, ownExpiry := 0, expiryOwed := false }
        ∧ s.settle.notice = s.notice.postedAll
            (s.valueNotice .left 0 s.own 0 0 [] s.station.keptTag ::
              if s.contention.ownHold = .on then [s.valueNotice .holdEnded 0 s.own 0 3 [] 0] else [])
        ∧ s.ChangesOnly s.settle [.station, .contention, .notice])

/-! ## Notices (Chapter 10) -/

/-- R170, R168, R172, R173, R134, Table 11.8: a placement writes the head of the backlog into the ring under the next
serial, the serial after every other byte, lets NOTICES_LOST into the freed place, ends an own hold at the low mark
or makes the high-mark test at a rise of the backlog, and decides the interrupt line anew. That NOTICES_LOST joins the
backlog before the HOLD_ENDED of the fall is the model's reading (log 17), and the order of the fifteen bytes before
the serial is its own choice (log 12). -/
def Obligations.PlacementMovesTheHead : Prop :=
  ∀ (s : State) (n : Notice) (rest : List Notice), s.RingsKept → s.station.life ≠ .awaitStart →
    s.notice.backlog = n :: rest → s.notice.unread < s.cfg.noticeLength →
    let slot := s.cfg.noticeBase + 16 * s.notice.writeIndex
    let serial := if s.notice.serial < 255 then s.notice.serial + 1 else 1
    let moved : NoticeUnit :=
      if s.notice.lost = 0 then { s.notice with backlog := rest }
      else { s.notice with
        backlog := rest ++ [s.valueNotice .noticesLost 0 0xFF 0 s.notice.lost [] 0], lost := 0 }
    let falls := (s.contention.ownHold = .on ∨ s.contention.ownHold = .renewing)
      ∧ rest.length ≤ s.cfg.lowMark
    ∃ u, exec .placement s = .next u.settle
      ∧ n.Reads serial (byteOf serial :: n.bytes)
      ∧ (s.port.waiting = [] →
          u.ramBytes slot 16 = byteOf serial :: n.bytes
          ∧ (∀ a, ¬ (slot ≤ a ∧ a < slot + 16) → u.ramByte a = s.ramByte a)
          ∧ u.port = { s.port with ram := u.port.ram })
      ∧ (∀ w, s.port.waiting = [w] → w.addr < 0x4000 →
          s.port.Met u.port w ((List.range 15).map (fun i => (i, slot + 1 + i, n.bytes.getD i 0))
            ++ [(15, slot, byteOf serial)]))
      ∧ (¬ falls → u.notice.backlog = moved.backlog ∧ u.notice.lost = moved.lost
          ∧ u.contention =
            (if s.notice.lost = 0 then s.contention
             else s.contention.tested s.station.life s.cfg (rest.length + 1)))
      ∧ (falls →
          u.notice.backlog = (moved.posted (s.valueNotice .holdEnded 0 s.own 0 0 [] 0)).backlog
          ∧ u.notice.lost = (moved.posted (s.valueNotice .holdEnded 0 s.own 0 0 [] 0)).lost
          ∧ u.contention = { s.contention.requestHold 0 with
              ownHold := .stopping, ownExpiry := 0, expiryOwed := false })
      ∧ u.notice.serial = serial
      ∧ u.notice.writeIndex =
          (if s.notice.writeIndex + 1 < s.cfg.noticeLength then s.notice.writeIndex + 1 else 0)
      ∧ u.notice.unread = s.notice.unread + 1
      ∧ u.notice.timer = (if s.notice.unread ≠ 0 then s.notice.timer
          else if s.cfg.coalescing = 0 then .expired else .running 0)
      ∧ u.LineFollowsCondition
      ∧ s.ChangesOnly u [.port, .notice, .contention]

end
end

