-- ==== Sys2Proof/Laws/State.lean ====
section
/-! SUPPORT. One lemma for each field of the state under each update of one block, all true by unfolding. -/

namespace Sys2Proof.Machine

variable (s : State)

section StationUpdate
variable (x : Station)
@[simp] theorem setStation_station : (s.setStation x).station = x := rfl
@[simp] theorem setStation_directory : (s.setStation x).directory = s.directory := rfl
@[simp] theorem setStation_store : (s.setStation x).store = s.store := rfl
@[simp] theorem setStation_ownership : (s.setStation x).ownership = s.ownership := rfl
@[simp] theorem setStation_pubQueue : (s.setStation x).pubQueue = s.pubQueue := rfl
@[simp] theorem setStation_rx : (s.setStation x).rx = s.rx := rfl
@[simp] theorem setStation_dispatch : (s.setStation x).dispatch = s.dispatch := rfl
@[simp] theorem setStation_contention : (s.setStation x).contention = s.contention := rfl
@[simp] theorem setStation_command : (s.setStation x).command = s.command := rfl
@[simp] theorem setStation_notice : (s.setStation x).notice = s.notice := rfl
@[simp] theorem setStation_port : (s.setStation x).port = s.port := rfl
@[simp] theorem setStation_pending : (s.setStation x).pending = s.pending := rfl
@[simp] theorem setStation_self : s.setStation s.station = s := rfl
@[simp] theorem setStation_setStation (y : Station) : (s.setStation x).setStation y = s.setStation y := rfl
end StationUpdate

section DirectoryUpdate
variable (x : List Entry)
@[simp] theorem setDirectory_station : (s.setDirectory x).station = s.station := rfl
@[simp] theorem setDirectory_directory : (s.setDirectory x).directory = x := rfl
@[simp] theorem setDirectory_store : (s.setDirectory x).store = s.store := rfl
@[simp] theorem setDirectory_ownership : (s.setDirectory x).ownership = s.ownership := rfl
@[simp] theorem setDirectory_pubQueue : (s.setDirectory x).pubQueue = s.pubQueue := rfl
@[simp] theorem setDirectory_rx : (s.setDirectory x).rx = s.rx := rfl
@[simp] theorem setDirectory_dispatch : (s.setDirectory x).dispatch = s.dispatch := rfl
@[simp] theorem setDirectory_contention : (s.setDirectory x).contention = s.contention := rfl
@[simp] theorem setDirectory_command : (s.setDirectory x).command = s.command := rfl
@[simp] theorem setDirectory_notice : (s.setDirectory x).notice = s.notice := rfl
@[simp] theorem setDirectory_port : (s.setDirectory x).port = s.port := rfl
@[simp] theorem setDirectory_pending : (s.setDirectory x).pending = s.pending := rfl
@[simp] theorem setDirectory_self : s.setDirectory s.directory = s := rfl
@[simp] theorem setDirectory_setDirectory (y : List Entry) : (s.setDirectory x).setDirectory y = s.setDirectory y := rfl
end DirectoryUpdate

section StoreUpdate
variable (x : Vector ReplicaSet 64)
@[simp] theorem setStore_station : (s.setStore x).station = s.station := rfl
@[simp] theorem setStore_directory : (s.setStore x).directory = s.directory := rfl
@[simp] theorem setStore_store : (s.setStore x).store = x := rfl
@[simp] theorem setStore_ownership : (s.setStore x).ownership = s.ownership := rfl
@[simp] theorem setStore_pubQueue : (s.setStore x).pubQueue = s.pubQueue := rfl
@[simp] theorem setStore_rx : (s.setStore x).rx = s.rx := rfl
@[simp] theorem setStore_dispatch : (s.setStore x).dispatch = s.dispatch := rfl
@[simp] theorem setStore_contention : (s.setStore x).contention = s.contention := rfl
@[simp] theorem setStore_command : (s.setStore x).command = s.command := rfl
@[simp] theorem setStore_notice : (s.setStore x).notice = s.notice := rfl
@[simp] theorem setStore_port : (s.setStore x).port = s.port := rfl
@[simp] theorem setStore_pending : (s.setStore x).pending = s.pending := rfl
@[simp] theorem setStore_self : s.setStore s.store = s := rfl
@[simp] theorem setStore_setStore (y : Vector ReplicaSet 64) : (s.setStore x).setStore y = s.setStore y := rfl
end StoreUpdate

section OwnershipUpdate
variable (x : OwnershipUnit)
@[simp] theorem setOwnership_station : (s.setOwnership x).station = s.station := rfl
@[simp] theorem setOwnership_directory : (s.setOwnership x).directory = s.directory := rfl
@[simp] theorem setOwnership_store : (s.setOwnership x).store = s.store := rfl
@[simp] theorem setOwnership_ownership : (s.setOwnership x).ownership = x := rfl
@[simp] theorem setOwnership_pubQueue : (s.setOwnership x).pubQueue = s.pubQueue := rfl
@[simp] theorem setOwnership_rx : (s.setOwnership x).rx = s.rx := rfl
@[simp] theorem setOwnership_dispatch : (s.setOwnership x).dispatch = s.dispatch := rfl
@[simp] theorem setOwnership_contention : (s.setOwnership x).contention = s.contention := rfl
@[simp] theorem setOwnership_command : (s.setOwnership x).command = s.command := rfl
@[simp] theorem setOwnership_notice : (s.setOwnership x).notice = s.notice := rfl
@[simp] theorem setOwnership_port : (s.setOwnership x).port = s.port := rfl
@[simp] theorem setOwnership_pending : (s.setOwnership x).pending = s.pending := rfl
@[simp] theorem setOwnership_self : s.setOwnership s.ownership = s := rfl
@[simp] theorem setOwnership_setOwnership (y : OwnershipUnit) : (s.setOwnership x).setOwnership y = s.setOwnership y := rfl
end OwnershipUpdate

section PubQueueUpdate
variable (x : List PubItem)
@[simp] theorem setPubQueue_station : (s.setPubQueue x).station = s.station := rfl
@[simp] theorem setPubQueue_directory : (s.setPubQueue x).directory = s.directory := rfl
@[simp] theorem setPubQueue_store : (s.setPubQueue x).store = s.store := rfl
@[simp] theorem setPubQueue_ownership : (s.setPubQueue x).ownership = s.ownership := rfl
@[simp] theorem setPubQueue_pubQueue : (s.setPubQueue x).pubQueue = x := rfl
@[simp] theorem setPubQueue_rx : (s.setPubQueue x).rx = s.rx := rfl
@[simp] theorem setPubQueue_dispatch : (s.setPubQueue x).dispatch = s.dispatch := rfl
@[simp] theorem setPubQueue_contention : (s.setPubQueue x).contention = s.contention := rfl
@[simp] theorem setPubQueue_command : (s.setPubQueue x).command = s.command := rfl
@[simp] theorem setPubQueue_notice : (s.setPubQueue x).notice = s.notice := rfl
@[simp] theorem setPubQueue_port : (s.setPubQueue x).port = s.port := rfl
@[simp] theorem setPubQueue_pending : (s.setPubQueue x).pending = s.pending := rfl
@[simp] theorem setPubQueue_self : s.setPubQueue s.pubQueue = s := rfl
@[simp] theorem setPubQueue_setPubQueue (y : List PubItem) : (s.setPubQueue x).setPubQueue y = s.setPubQueue y := rfl
end PubQueueUpdate

section RxUpdate
variable (x : Rx)
@[simp] theorem setRx_station : (s.setRx x).station = s.station := rfl
@[simp] theorem setRx_directory : (s.setRx x).directory = s.directory := rfl
@[simp] theorem setRx_store : (s.setRx x).store = s.store := rfl
@[simp] theorem setRx_ownership : (s.setRx x).ownership = s.ownership := rfl
@[simp] theorem setRx_pubQueue : (s.setRx x).pubQueue = s.pubQueue := rfl
@[simp] theorem setRx_rx : (s.setRx x).rx = x := rfl
@[simp] theorem setRx_dispatch : (s.setRx x).dispatch = s.dispatch := rfl
@[simp] theorem setRx_contention : (s.setRx x).contention = s.contention := rfl
@[simp] theorem setRx_command : (s.setRx x).command = s.command := rfl
@[simp] theorem setRx_notice : (s.setRx x).notice = s.notice := rfl
@[simp] theorem setRx_port : (s.setRx x).port = s.port := rfl
@[simp] theorem setRx_pending : (s.setRx x).pending = s.pending := rfl
@[simp] theorem setRx_self : s.setRx s.rx = s := rfl
@[simp] theorem setRx_setRx (y : Rx) : (s.setRx x).setRx y = s.setRx y := rfl
end RxUpdate

section DispatchUpdate
variable (x : List Item)
@[simp] theorem setDispatch_station : (s.setDispatch x).station = s.station := rfl
@[simp] theorem setDispatch_directory : (s.setDispatch x).directory = s.directory := rfl
@[simp] theorem setDispatch_store : (s.setDispatch x).store = s.store := rfl
@[simp] theorem setDispatch_ownership : (s.setDispatch x).ownership = s.ownership := rfl
@[simp] theorem setDispatch_pubQueue : (s.setDispatch x).pubQueue = s.pubQueue := rfl
@[simp] theorem setDispatch_rx : (s.setDispatch x).rx = s.rx := rfl
@[simp] theorem setDispatch_dispatch : (s.setDispatch x).dispatch = x := rfl
@[simp] theorem setDispatch_contention : (s.setDispatch x).contention = s.contention := rfl
@[simp] theorem setDispatch_command : (s.setDispatch x).command = s.command := rfl
@[simp] theorem setDispatch_notice : (s.setDispatch x).notice = s.notice := rfl
@[simp] theorem setDispatch_port : (s.setDispatch x).port = s.port := rfl
@[simp] theorem setDispatch_pending : (s.setDispatch x).pending = s.pending := rfl
@[simp] theorem setDispatch_self : s.setDispatch s.dispatch = s := rfl
@[simp] theorem setDispatch_setDispatch (y : List Item) : (s.setDispatch x).setDispatch y = s.setDispatch y := rfl
end DispatchUpdate

section ContentionUpdate
variable (x : Contention)
@[simp] theorem setContention_station : (s.setContention x).station = s.station := rfl
@[simp] theorem setContention_directory : (s.setContention x).directory = s.directory := rfl
@[simp] theorem setContention_store : (s.setContention x).store = s.store := rfl
@[simp] theorem setContention_ownership : (s.setContention x).ownership = s.ownership := rfl
@[simp] theorem setContention_pubQueue : (s.setContention x).pubQueue = s.pubQueue := rfl
@[simp] theorem setContention_rx : (s.setContention x).rx = s.rx := rfl
@[simp] theorem setContention_dispatch : (s.setContention x).dispatch = s.dispatch := rfl
@[simp] theorem setContention_contention : (s.setContention x).contention = x := rfl
@[simp] theorem setContention_command : (s.setContention x).command = s.command := rfl
@[simp] theorem setContention_notice : (s.setContention x).notice = s.notice := rfl
@[simp] theorem setContention_port : (s.setContention x).port = s.port := rfl
@[simp] theorem setContention_pending : (s.setContention x).pending = s.pending := rfl
@[simp] theorem setContention_self : s.setContention s.contention = s := rfl
@[simp] theorem setContention_setContention (y : Contention) : (s.setContention x).setContention y = s.setContention y := rfl
end ContentionUpdate

section CommandUpdate
variable (x : CommandUnit)
@[simp] theorem setCommand_station : (s.setCommand x).station = s.station := rfl
@[simp] theorem setCommand_directory : (s.setCommand x).directory = s.directory := rfl
@[simp] theorem setCommand_store : (s.setCommand x).store = s.store := rfl
@[simp] theorem setCommand_ownership : (s.setCommand x).ownership = s.ownership := rfl
@[simp] theorem setCommand_pubQueue : (s.setCommand x).pubQueue = s.pubQueue := rfl
@[simp] theorem setCommand_rx : (s.setCommand x).rx = s.rx := rfl
@[simp] theorem setCommand_dispatch : (s.setCommand x).dispatch = s.dispatch := rfl
@[simp] theorem setCommand_contention : (s.setCommand x).contention = s.contention := rfl
@[simp] theorem setCommand_command : (s.setCommand x).command = x := rfl
@[simp] theorem setCommand_notice : (s.setCommand x).notice = s.notice := rfl
@[simp] theorem setCommand_port : (s.setCommand x).port = s.port := rfl
@[simp] theorem setCommand_pending : (s.setCommand x).pending = s.pending := rfl
@[simp] theorem setCommand_self : s.setCommand s.command = s := rfl
@[simp] theorem setCommand_setCommand (y : CommandUnit) : (s.setCommand x).setCommand y = s.setCommand y := rfl
end CommandUpdate

section NoticeUpdate
variable (x : NoticeUnit)
@[simp] theorem setNotice_station : (s.setNotice x).station = s.station := rfl
@[simp] theorem setNotice_directory : (s.setNotice x).directory = s.directory := rfl
@[simp] theorem setNotice_store : (s.setNotice x).store = s.store := rfl
@[simp] theorem setNotice_ownership : (s.setNotice x).ownership = s.ownership := rfl
@[simp] theorem setNotice_pubQueue : (s.setNotice x).pubQueue = s.pubQueue := rfl
@[simp] theorem setNotice_rx : (s.setNotice x).rx = s.rx := rfl
@[simp] theorem setNotice_dispatch : (s.setNotice x).dispatch = s.dispatch := rfl
@[simp] theorem setNotice_contention : (s.setNotice x).contention = s.contention := rfl
@[simp] theorem setNotice_command : (s.setNotice x).command = s.command := rfl
@[simp] theorem setNotice_notice : (s.setNotice x).notice = x := rfl
@[simp] theorem setNotice_port : (s.setNotice x).port = s.port := rfl
@[simp] theorem setNotice_pending : (s.setNotice x).pending = s.pending := rfl
@[simp] theorem setNotice_self : s.setNotice s.notice = s := rfl
@[simp] theorem setNotice_setNotice (y : NoticeUnit) : (s.setNotice x).setNotice y = s.setNotice y := rfl
end NoticeUpdate

section PortUpdate
variable (x : HostPort)
@[simp] theorem setPort_station : (s.setPort x).station = s.station := rfl
@[simp] theorem setPort_directory : (s.setPort x).directory = s.directory := rfl
@[simp] theorem setPort_store : (s.setPort x).store = s.store := rfl
@[simp] theorem setPort_ownership : (s.setPort x).ownership = s.ownership := rfl
@[simp] theorem setPort_pubQueue : (s.setPort x).pubQueue = s.pubQueue := rfl
@[simp] theorem setPort_rx : (s.setPort x).rx = s.rx := rfl
@[simp] theorem setPort_dispatch : (s.setPort x).dispatch = s.dispatch := rfl
@[simp] theorem setPort_contention : (s.setPort x).contention = s.contention := rfl
@[simp] theorem setPort_command : (s.setPort x).command = s.command := rfl
@[simp] theorem setPort_notice : (s.setPort x).notice = s.notice := rfl
@[simp] theorem setPort_port : (s.setPort x).port = x := rfl
@[simp] theorem setPort_pending : (s.setPort x).pending = s.pending := rfl
@[simp] theorem setPort_self : s.setPort s.port = s := rfl
@[simp] theorem setPort_setPort (y : HostPort) : (s.setPort x).setPort y = s.setPort y := rfl
end PortUpdate

section PendingUpdate
variable (x : List Instr)
@[simp] theorem setPending_station : (s.setPending x).station = s.station := rfl
@[simp] theorem setPending_directory : (s.setPending x).directory = s.directory := rfl
@[simp] theorem setPending_store : (s.setPending x).store = s.store := rfl
@[simp] theorem setPending_ownership : (s.setPending x).ownership = s.ownership := rfl
@[simp] theorem setPending_pubQueue : (s.setPending x).pubQueue = s.pubQueue := rfl
@[simp] theorem setPending_rx : (s.setPending x).rx = s.rx := rfl
@[simp] theorem setPending_dispatch : (s.setPending x).dispatch = s.dispatch := rfl
@[simp] theorem setPending_contention : (s.setPending x).contention = s.contention := rfl
@[simp] theorem setPending_command : (s.setPending x).command = s.command := rfl
@[simp] theorem setPending_notice : (s.setPending x).notice = s.notice := rfl
@[simp] theorem setPending_port : (s.setPending x).port = s.port := rfl
@[simp] theorem setPending_pending : (s.setPending x).pending = x := rfl
@[simp] theorem setPending_self : s.setPending s.pending = s := rfl
@[simp] theorem setPending_setPending (y : List Instr) : (s.setPending x).setPending y = s.setPending y := rfl
end PendingUpdate

end Sys2Proof.Machine
end

