-- ==== Sys2Proof/Laws/Directory.lean ====
section
/-! SUPPORT. What a lookup gives after an insertion, a removal or a change of an entry, and what those do to
the order of the directory. -/

namespace Sys2Proof.Machine

variable (d : List Entry) (n m : Nat)

theorem lookup_object (e : Entry) (h : lookup d n = some e) : e.object = n := by
  have := List.find?_some h
  simpa using this

theorem lookup_mem (e : Entry) (h : lookup d n = some e) : e ∈ d := List.mem_of_find?_eq_some h

theorem lookup_none_iff : lookup d n = none ↔ ∀ e ∈ d, e.object ≠ n := by
  simp [lookup]

/-- In an ordered directory an entry is what a lookup of its object number gives. -/
theorem lookup_of_mem (h : d.Pairwise (fun e f => e.object < f.object)) (e : Entry) (he : e ∈ d) :
    lookup d e.object = some e := by
  induction d with
  | nil => cases he
  | cons f rest ih =>
    rw [List.pairwise_cons] at h
    simp only [lookup, List.find?_cons]
    rcases List.mem_cons.mp he with rfl | he
    · simp
    · have : f.object ≠ e.object := Nat.ne_of_lt (h.1 e he)
      simp only [beq_eq_false_iff_ne.mpr this]
      exact ih h.2 he

/-- A new entry is what a lookup of its number gives, and no other lookup changes (R11). -/
theorem lookup_insertEntry (e : Entry) (h : lookup d e.object = none) :
    lookup (insertEntry d e) n = if n = e.object then some e else lookup d n := by
  induction d with
  | nil =>
    simp only [insertEntry, lookup, List.find?_cons, List.find?_nil]
    by_cases hn : n = e.object
    · simp [hn]
    · simp [hn, beq_eq_false_iff_ne.mpr (Ne.symm hn)]
  | cons f rest ih =>
    rw [lookup_none_iff] at h
    have hf : f.object ≠ e.object := h f (by simp)
    have hr : lookup rest e.object = none := (lookup_none_iff _ _).mpr (fun g hg => h g (by simp [hg]))
    simp only [insertEntry]
    split
    · simp only [lookup, List.find?_cons]
      by_cases hn : n = e.object
      · simp [hn]
      · simp [hn, beq_eq_false_iff_ne.mpr (Ne.symm hn)]
    · simp only [lookup, List.find?_cons]
      have := ih hr
      simp only [lookup] at this
      rw [this]
      by_cases hn : n = e.object
      · subst hn; simp [beq_eq_false_iff_ne.mpr hf]
      · simp [hn]

theorem insertEntry_mem (e f : Entry) : f ∈ insertEntry d e ↔ f = e ∨ f ∈ d := by
  induction d with
  | nil => simp [insertEntry]
  | cons g rest ih =>
    simp only [insertEntry]
    split
    · simp
    · simp only [List.mem_cons, ih]; tauto

theorem insertEntry_length (e : Entry) : (insertEntry d e).length = d.length + 1 := by
  induction d with
  | nil => rfl
  | cons g rest ih =>
    simp only [insertEntry]
    split <;> simp [*]

theorem insertEntry_rises (e : Entry) (h : d.Pairwise (fun e f => e.object < f.object))
    (he : lookup d e.object = none) : (insertEntry d e).Pairwise (fun e f => e.object < f.object) := by
  induction d with
  | nil => simp [insertEntry]
  | cons g rest ih =>
    rw [List.pairwise_cons] at h
    rw [lookup_none_iff] at he
    simp only [insertEntry]
    split
    · next hlt =>
      refine List.pairwise_cons.mpr ⟨fun f hf => ?_, List.pairwise_cons.mpr h⟩
      rcases List.mem_cons.mp hf with rfl | hf
      · exact hlt
      · exact Nat.lt_trans hlt (h.1 f hf)
    · next hlt =>
      refine List.pairwise_cons.mpr ⟨fun f hf => ?_, ih h.2 ?_⟩
      · rcases (insertEntry_mem _ _ _).mp hf with rfl | hf
        · exact Nat.lt_of_le_of_ne (Nat.le_of_not_lt hlt) (he g (by simp))
        · exact h.1 f hf
      · exact (lookup_none_iff _ _).mpr (fun f hf => he f (by simp [hf]))

/-- After a removal the number has no entry, and no other lookup changes (R13). -/
theorem lookup_eraseEntry : lookup (eraseEntry d n) m = if m = n then none else lookup d m := by
  induction d with
  | nil => simp [lookup, eraseEntry]
  | cons f rest ih =>
    simp only [lookup, eraseEntry] at ih ⊢
    by_cases hf : f.object = n
    · simp only [List.filter_cons, hf, bne_self_eq_false, Bool.false_eq_true, if_false, ih]
      by_cases hm : m = n
      · simp [hm]
      · simp [hm, hf, Ne.symm hm]
    · simp only [List.filter_cons, bne_iff_ne.mpr hf, if_true, List.find?_cons, ih]
      by_cases hm : m = n
      · subst hm; simp [beq_eq_false_iff_ne.mpr hf]
      · simp [hm]

theorem eraseEntry_mem (e : Entry) : e ∈ eraseEntry d n ↔ e ∈ d ∧ e.object ≠ n := by
  simp [eraseEntry]

/-- A change of one entry that keeps its object number is what its own lookup gives, and no other lookup
changes (R7). -/
theorem lookup_updateEntry (f : Entry → Entry) (hf : ∀ e, (f e).object = e.object) :
    lookup (updateEntry d n f) m = if m = n then (lookup d n).map f else lookup d m := by
  induction d with
  | nil => simp [lookup, updateEntry]
  | cons g rest ih =>
    simp only [lookup, updateEntry] at ih ⊢
    simp only [List.map_cons, List.find?_cons]
    by_cases hg : g.object = n
    · simp only [hg, if_true, hf]
      by_cases hm : m = n
      · simp [hm]
      · simp [hm, beq_eq_false_iff_ne.mpr (Ne.symm hm), ih]
    · simp only [hg, if_false]
      by_cases hm : m = n
      · subst hm; simp [beq_eq_false_iff_ne.mpr hg, ih]
      · by_cases hgm : g.object = m
        · simp [hgm, hm]
        · simp [beq_eq_false_iff_ne.mpr hgm, ih, hm]

@[simp] theorem Entry.mapProduce_object (f : Produce → Produce) (e : Entry) :
    (e.mapProduce f).object = e.object := by unfold Entry.mapProduce; split <;> rfl

@[simp] theorem Entry.mapProduce_line (f : Produce → Produce) (e : Entry) :
    (e.mapProduce f).line = e.line := by unfold Entry.mapProduce; split <;> rfl

@[simp] theorem Entry.mapProduce_produce (f : Produce → Produce) (e : Entry) :
    (e.mapProduce f).produce = e.produce.map f := by
  unfold Entry.mapProduce Entry.produce; cases h : e.role <;> simp [h]

@[simp] theorem Entry.mapProduce_consume (f : Produce → Produce) (e : Entry) :
    (e.mapProduce f).consume = e.consume := by
  unfold Entry.mapProduce Entry.consume; cases h : e.role <;> simp [h]

@[simp] theorem Entry.mapConsume_object (f : Consume → Consume) (e : Entry) :
    (e.mapConsume f).object = e.object := by unfold Entry.mapConsume; split <;> rfl

@[simp] theorem Entry.mapConsume_line (f : Consume → Consume) (e : Entry) :
    (e.mapConsume f).line = e.line := by unfold Entry.mapConsume; split <;> rfl

@[simp] theorem Entry.mapConsume_consume (f : Consume → Consume) (e : Entry) :
    (e.mapConsume f).consume = e.consume.map f := by
  unfold Entry.mapConsume Entry.consume; cases h : e.role <;> simp [h]

@[simp] theorem Entry.mapConsume_produce (f : Consume → Consume) (e : Entry) :
    (e.mapConsume f).produce = e.produce := by
  unfold Entry.mapConsume Entry.produce; cases h : e.role <;> simp [h]

/-- An entry has one of the two parts, never both (R2). -/
theorem Entry.consume_none_of_produce (e : Entry) (p : Produce) (h : e.produce = some p) :
    e.consume = none := by
  unfold Entry.produce at h; unfold Entry.consume; cases hr : e.role <;> simp [hr] at h ⊢

theorem Entry.produce_none_of_consume (e : Entry) (c : Consume) (h : e.consume = some c) :
    e.produce = none := by
  unfold Entry.consume at h; unfold Entry.produce; cases hr : e.role <;> simp [hr] at h ⊢

theorem updateEntry_mem (f : Entry → Entry) (e : Entry) :
    e ∈ updateEntry d n f ↔ ∃ g ∈ d, e = if g.object = n then f g else g := by
  simp [updateEntry, eq_comm]

theorem updateEntry_objects (f : Entry → Entry) (hf : ∀ e, (f e).object = e.object) :
    (updateEntry d n f).map Entry.object = d.map Entry.object := by
  simp only [updateEntry, List.map_map]
  refine List.map_congr_left (fun e _ => ?_)
  simp only [Function.comp]
  split
  · exact hf e
  · rfl

/-! ## Requests at one entry -/

variable (s : State)

theorem State.updProduce_entry (f : Produce → Produce) :
    (s.updProduce n f).entry m = if m = n then (s.entry n).map (Entry.mapProduce f) else s.entry m :=
  lookup_updateEntry _ _ _ _ (by simp)

theorem State.updConsume_entry (f : Consume → Consume) :
    (s.updConsume n f).entry m = if m = n then (s.entry n).map (Entry.mapConsume f) else s.entry m :=
  lookup_updateEntry _ _ _ _ (by simp)

theorem State.updProduce_produce (f : Produce → Produce) :
    (s.updProduce n f).produce m = if m = n then (s.produce n).map f else s.produce m := by
  simp only [State.produce, State.updProduce_entry]
  split
  · cases s.entry n <;> simp
  · rfl

theorem State.updProduce_consume (f : Produce → Produce) :
    (s.updProduce n f).consume m = s.consume m := by
  simp only [State.consume, State.updProduce_entry]
  split
  · next h => subst h; cases s.entry m <;> simp
  · rfl

theorem State.updConsume_consume (f : Consume → Consume) :
    (s.updConsume n f).consume m = if m = n then (s.consume n).map f else s.consume m := by
  simp only [State.consume, State.updConsume_entry]
  split
  · cases s.entry n <;> simp
  · rfl

theorem State.updConsume_produce (f : Consume → Consume) :
    (s.updConsume n f).produce m = s.produce m := by
  simp only [State.produce, State.updConsume_entry]
  split
  · next h => subst h; cases s.entry m <;> simp
  · rfl

end Sys2Proof.Machine
end

