-- ==== Sys2Proof/Laws/Counters.lean ====
section
/-! SUPPORT. The slot and tick timers: the hold table and the counters of the entries. -/

namespace Sys2Proof.Machine

theorem mapTable_get {α : Type} {n : Nat} (f : α → α) (v : Vector α n) (k : Fin n) :
    (mapTable f v).get k = f (v.get k) := by
  simp [mapTable, Vector.get]; rfl

theorem toList_all (v : Vector Nat 32) (P : Nat → Bool) : v.toList.all P = true ↔ ∀ k,
    P (v.get k) = true := by
  rw [List.all_eq_true]
  constructor
  · intro h k
    exact h _ (by rw [Vector.mem_toList_iff]; exact Vector.getElem_mem k.isLt)
  · intro h x hx
    rw [Vector.mem_toList_iff, Vector.mem_iff_getElem] at hx
    obtain ⟨i, hi, rfl⟩ := hx
    exact h ⟨i, hi⟩

theorem holdsClear_iff (c : Contention) : c.holdsClear = true ↔ ∀ k, c.holdTable.get k = 0 := by
  unfold Contention.holdsClear
  rw [toList_all]; simp

theorem lastNonZero_none (t : Vector Nat 32) (h : lastNonZero t = none) : ∀ k, t.get k = 0 := by
  intro k
  unfold lastNonZero at h
  rw [List.find?_eq_none] at h
  have := h k (by simp)
  simpa using this

theorem lastNonZero_some (t : Vector Nat 32) (k) (h : lastNonZero t = some k) : t.get k ≠ 0 ∧ ∀ j, k < j
    → t.get j = 0 := by
  unfold lastNonZero at h
  rw [List.find?_eq_some_iff_append] at h
  obtain ⟨h1, as, bs, h2, h3⟩ := h
  refine ⟨by simpa using h1, fun j hj => ?_⟩
  have hm : j ∈ (List.finRange 32).reverse := by simp
  have hso : (List.finRange 32).reverse.Pairwise (fun a b => b < a) := by
    rw [List.pairwise_reverse]; exact List.pairwise_lt_finRange 32
  rw [h2] at hm hso
  rcases List.mem_append.mp hm with h | h
  · simpa using h3 j h
  · rcases List.mem_cons.mp h with rfl | h
    · exact absurd hj (lt_irrefl _)
    · rw [List.pairwise_append] at hso
      have := List.rel_of_pairwise_cons hso.2.1 h
      exact absurd hj (not_lt_of_gt this)

theorem set_get {α : Type} {n : Nat} (v : Vector α n) (k j : Fin n) (x : α) :
    (v.set k x).get j = if j = k then x else v.get j := by
  simp only [Vector.get_eq_getElem, Vector.getElem_set]
  by_cases h : j = k
  · subst h; simp
  · rw [if_neg h, if_neg]; intro hh; exact h (Fin.ext hh.symm)

/-- What a slot boundary does to the hold table (R132): every entry one less,
    but the last one to fall. -/
theorem slotTable_spec (c : Contention) : 
   (∀ k, c.slotTable.holdTable.get k = if c.slotTable.holdFall = some k then 1
       else c.holdTable.get k - 1) ∧
   (∀ k, c.slotTable.holdFall = some k ↔ (∀ j, c.holdTable.get j ≤ 1) ∧ c.holdTable.get k = 1 ∧ ∀ j,
       k < j → c.holdTable.get j = 0) ∧
   c.slotTable = { c with holdTable := c.slotTable.holdTable, holdFall := c.slotTable.holdFall } := by
  unfold Contention.slotTable
  dsimp only
  have hall : ((mapTable (· - 1) c.holdTable).toList.all (· == 0)) = true ↔ ∀ j,
      c.holdTable.get j ≤ 1 := by
    rw [toList_all]
    simp only [mapTable_get, beq_iff_eq]
    exact forall_congr' (fun j => by omega)
  split
  · next ha =>
    have ha' := hall.mp ha
    split
    · next k hk =>
      obtain ⟨h1, h2⟩ := lastNonZero_some _ _ hk
      refine ⟨?_, ?_, rfl⟩
      · intro j
        rw [set_get, mapTable_get]
        simp only [Option.some.injEq, eq_comm]
      · intro j
        simp only [Option.some.injEq]
        constructor
        · rintro rfl
          exact ⟨ha', by have := ha' k; omega, h2⟩
        · rintro ⟨-, h3, h4⟩
          rcases lt_trichotomy k j with h | h | h
          · have := h2 j h; omega
          · exact h
          · have := h4 k h; omega
    · next hk =>
      have h0 := lastNonZero_none _ hk
      refine ⟨fun k => by show c.holdTable.get k = if (none : Option (Fin 32)) = some k then 1
          else c.holdTable.get k - 1; rw [if_neg (by simp), h0], fun k => ?_, rfl⟩
      simp only [reduceCtorEq, false_iff]
      rintro ⟨-, h, -⟩
      have := h0 k; omega
  · next ha =>
    refine ⟨fun k => by rw [mapTable_get]; simp, fun k => ?_, rfl⟩
    simp only [reduceCtorEq, false_iff]
    rintro ⟨h, -⟩
    exact ha (hall.mpr h)

theorem lookup_map (d : List Entry) (f : Entry → Entry) (hf : ∀ e,
    (f e).object = e.object) (n) : lookup (d.map f) n = (lookup d n).map f := by
  induction d with
  | nil => rfl
  | cons e d ih =>
    simp only [lookup, List.map_cons, List.find?_cons, hf] at *
    cases (e.object == n) <;> simp [ih]

/-- When a tick would bring the counter of an entry to its end (R83, R110). -/
theorem endsAtTick_iff (e : Entry) : e.endsAtTick = true ↔
    (match e.role with
     | .produce p => p.ownership = .owned ∧ p.refreshCounter + 1 = p.refreshPeriod
     | .consume c => c.ageRunning = true ∧ c.ageLimit ≠ 0 ∧ c.ageLimit ≤ c.age + 1) := by
  obtain ⟨o, l, r, w⟩ := e
  cases r with
  | produce p =>
    simp only [Entry.endsAtTick, Produce.counts, Bool.and_eq_true, beq_iff_eq, decide_eq_true_eq]
    constructor
    · rintro ⟨⟨h1, -⟩, h2⟩; exact ⟨h1, h2⟩
    · rintro ⟨h1, h2⟩; exact ⟨⟨h1, by omega⟩, h2⟩
  | consume c => simp [Entry.endsAtTick, and_assoc]

/-- A tick at a counter that it does not bring to its end (R83, R110). -/
theorem count_eq (e : Entry) : e.count =
    (match e.role with
     | .produce p => { e with role := .produce { p with
         refreshCounter :=
           if p.ownership = .owned ∧ p.refreshCounter < p.refreshPeriod then p.refreshCounter + 1
           else p.refreshCounter } }
     | .consume c => { e with role := .consume { c with
         age := if c.ageRunning = true ∧ (c.ageLimit ≠ 0 ∨ c.age < 65535) then c.age + 1 else c.age } }) := by
  obtain ⟨o, l, r, w⟩ := e
  cases r with
  | produce p =>
    have hc : p.counts = true ↔ (p.ownership = .owned ∧ p.refreshCounter < p.refreshPeriod) := by
      simp [Produce.counts]
    simp only [Entry.count, Entry.mapProduce, Entry.mapConsume, Produce.tick, hc]
    split <;> rfl
  | consume c =>
    simp only [Entry.count, Entry.mapProduce, Entry.mapConsume, Consume.tick]
    split <;> rfl

/-- A tick at an entry marks it where it comes later or would bring the counter to its end, and changes its counter
alone elsewhere (R83, R110, log 4, log 32). -/
theorem tick_eq (late : List Nat) (e : Entry) : e.tick late =
    if e.object ∈ late then { e with tickOwed := true }
    else match e.role with
     | .produce p =>
       if p.ownership = .owned ∧ p.refreshCounter + 1 = p.refreshPeriod then { e with tickOwed := true }
       else { e with role := .produce { p with
         refreshCounter :=
           if p.ownership = .owned ∧ p.refreshCounter < p.refreshPeriod then p.refreshCounter + 1
           else p.refreshCounter } }
     | .consume c =>
       if c.ageRunning = true ∧ c.ageLimit ≠ 0 ∧ c.ageLimit ≤ c.age + 1 then { e with tickOwed := true }
       else { e with role := .consume { c with
         age := if c.ageRunning = true ∧ (c.ageLimit ≠ 0 ∨ c.age < 65535) then c.age + 1 else c.age } } := by
  unfold Entry.tick
  rw [count_eq]
  by_cases hl : e.object ∈ late
  · rw [if_pos hl, if_pos (by simp [hl])]
  · rw [if_neg hl, show (late.contains e.object || e.endsAtTick) = e.endsAtTick by simp [hl]]
    have h := endsAtTick_iff e
    obtain ⟨o, l, r, w⟩ := e
    cases r <;> exact if_congr h rfl rfl

@[simp] theorem tick_object (late : List Nat) (e : Entry) : (e.tick late).object = e.object := by
  unfold Entry.tick Entry.count; split <;> simp

/-- A slot boundary at the own-hold expiry (R135, log 4). -/
theorem slotExpiry_eq (c : Contention) : c.slotExpiry = { c with
    ownExpiry := if c.ownHold = .on ∧ 1 < c.ownExpiry then c.ownExpiry - 1 else c.ownExpiry
    expiryOwed := if c.ownHold = .on ∧ c.ownExpiry ≤ 1 then true else c.expiryOwed } := by
  unfold Contention.slotExpiry
  by_cases h : c.ownHold = .on
  · by_cases h1 : c.ownExpiry ≤ 1
    · have : ¬ 1 < c.ownExpiry := by omega
      simp [h, h1, this]
    · have : 1 < c.ownExpiry := by omega
      simp [h, h1, this]
  · simp [h]

/-- A slot boundary at Station Control (R143, R144, log 4). -/
theorem Station.slot_eq (t : Station) (period : Nat) : t.slot period = { t with
    slotCount := t.slotCount + 1
    joinTimer := if t.joinRunning = true ∧ t.joinTimer + 1 < period then t.joinTimer + 1 else t.joinTimer
    joinOwed := if t.joinRunning = true ∧ period ≤ t.joinTimer + 1 then true else t.joinOwed } := by
  unfold Station.slot
  by_cases h : t.joinRunning = true
  · by_cases h1 : period ≤ t.joinTimer + 1
    · have : ¬ t.joinTimer + 1 < period := by omega
      simp [h, h1, this]
    · have : t.joinTimer + 1 < period := by omega
      simp [h, h1, this]
  · simp [h]

/-- A tick at the coalescing timer (R172, log 4, log 32). -/
theorem NoticeUnit.tick_eq (u : NoticeUnit) (limit : Nat) (late : Bool) : u.tick limit late =
    match u.timer with
    | .running n =>
      if late = true ∨ limit ≤ n + 1 then { u with tickOwed := true }
      else { u with timer := .running (n + 1) }
    | .stopped | .expired => if late = true then { u with tickOwed := true } else u := by
  obtain ⟨b, l, w, x, y, timer, o, i⟩ := u
  unfold NoticeUnit.tick Coalescing.endsAtTick Coalescing.count
  cases late <;> cases timer <;> simp

end Sys2Proof.Machine
end

