-- ==== Sys2Proof/Laws/Posts.lean ====
section
/-! SUPPORT. What a post, the two tests that follow the backlog, and the end of a happening can change. -/

namespace Sys2Proof.Machine

/-! ## HOLD requests and draws -/

/-- A HOLD request changes the control queue, the frame in hand or the pending HOLD, and nothing else of
the unit. -/
theorem Contention.requestHold_frame (c : Contention) (n : Nat) :
    c.requestHold n = { c with
      queue := (c.requestHold n).queue, inHand := (c.requestHold n).inHand
      pendingHold := (c.requestHold n).pendingHold } := by
  unfold Contention.requestHold
  split_ifs <;> rfl

/-- Command-originated frames of the queue stay as they are at a HOLD request. -/
theorem Contention.requestHold_commands (c : Contention) (n : Nat) :
    (c.requestHold n).queue.filter CtlFrame.fromCommand = c.queue.filter CtlFrame.fromCommand := by
  have kept : ∀ q : List CtlFrame,
      (q.map (fun f => if f.isHold then .hold n else f)).filter CtlFrame.fromCommand
        = q.filter CtlFrame.fromCommand := by
    intro q
    induction q with
    | nil => rfl
    | cons f rest ih =>
      cases f <;> simpa [CtlFrame.isHold, CtlFrame.fromCommand, List.filter_cons] using ih
  unfold Contention.requestHold
  split_ifs
  · exact kept _
  all_goals simp [CtlFrame.fromCommand]

section HighMark
variable (s : State)

theorem highMarkTest_cases :
    s.highMarkTest = s ∨
      (s.contention.ownHold = .off ∧ s.station.life.transmits = true
        ∧ s.cfg.highMark ≤ s.notice.backlog.length
        ∧ s.highMarkTest =
          s.setContention { s.contention.requestHold s.cfg.holdLength with ownHold := .starting }) := by
  unfold State.highMarkTest
  split
  · next h => exact .inr ⟨h.1, h.2.1, h.2.2, rfl⟩
  · exact .inl rfl

@[simp] theorem highMarkTest_station : s.highMarkTest.station = s.station := by
  unfold State.highMarkTest; split <;> rfl
@[simp] theorem highMarkTest_directory : s.highMarkTest.directory = s.directory := by
  unfold State.highMarkTest; split <;> rfl
@[simp] theorem highMarkTest_store : s.highMarkTest.store = s.store := by
  unfold State.highMarkTest; split <;> rfl
@[simp] theorem highMarkTest_ownership : s.highMarkTest.ownership = s.ownership := by
  unfold State.highMarkTest; split <;> rfl
@[simp] theorem highMarkTest_pubQueue : s.highMarkTest.pubQueue = s.pubQueue := by
  unfold State.highMarkTest; split <;> rfl
@[simp] theorem highMarkTest_rx : s.highMarkTest.rx = s.rx := by
  unfold State.highMarkTest; split <;> rfl
@[simp] theorem highMarkTest_dispatch : s.highMarkTest.dispatch = s.dispatch := by
  unfold State.highMarkTest; split <;> rfl
@[simp] theorem highMarkTest_command : s.highMarkTest.command = s.command := by
  unfold State.highMarkTest; split <;> rfl
@[simp] theorem highMarkTest_notice : s.highMarkTest.notice = s.notice := by
  unfold State.highMarkTest; split <;> rfl
@[simp] theorem highMarkTest_port : s.highMarkTest.port = s.port := by
  unfold State.highMarkTest; split <;> rfl
@[simp] theorem highMarkTest_pending : s.highMarkTest.pending = s.pending := by
  unfold State.highMarkTest; split <;> rfl

/-- The high-mark test, as the Contention Unit sees it (R134). -/
theorem highMarkTest_contention : s.highMarkTest.contention =
    s.contention.tested s.station.life s.cfg s.notice.backlog.length := by
  have live : s.station.life.transmits = true ↔ (s.station.life = .active ∨ s.station.life = .leaving) := by
    cases s.station.life <;> simp [Life.transmits]
  unfold State.highMarkTest Contention.tested
  simp only [live]
  split <;> rfl
end HighMark

/-! ## Posts -/

section Post
variable (s : State) (n : Notice)

/-- A post, as the Notice Unit sees it (R168). -/
@[simp] theorem post_notice : (s.post n).notice = s.notice.posted n := by
  unfold State.post NoticeUnit.posted
  by_cases h : s.notice.backlog.length < 32
  · rw [if_pos (show s.notice.backlog.length < Config.backlogCapacity from h), if_pos h]
    simp
  · rw [if_neg (show ¬ s.notice.backlog.length < Config.backlogCapacity from h), if_neg h]
    rfl

@[simp] theorem post_station : (s.post n).station = s.station := by
  unfold State.post; split <;> simp
@[simp] theorem post_directory : (s.post n).directory = s.directory := by
  unfold State.post; split <;> simp
@[simp] theorem post_store : (s.post n).store = s.store := by
  unfold State.post; split <;> simp
@[simp] theorem post_ownership : (s.post n).ownership = s.ownership := by
  unfold State.post; split <;> simp
@[simp] theorem post_pubQueue : (s.post n).pubQueue = s.pubQueue := by
  unfold State.post; split <;> simp
@[simp] theorem post_rx : (s.post n).rx = s.rx := by
  unfold State.post; split <;> simp
@[simp] theorem post_dispatch : (s.post n).dispatch = s.dispatch := by
  unfold State.post; split <;> simp
@[simp] theorem post_command : (s.post n).command = s.command := by
  unfold State.post; split <;> simp
@[simp] theorem post_port : (s.post n).port = s.port := by
  unfold State.post; split <;> simp
@[simp] theorem post_pending : (s.post n).pending = s.pending := by
  unfold State.post; split <;> simp

/-- A post outside ACTIVE and LEAVING, or while an own hold is under way, leaves the Contention Unit as it
is (R134). -/
theorem post_contention_quiet
    (h : s.contention.ownHold ≠ .off ∨ s.station.life.transmits = false) :
    (s.post n).contention = s.contention := by
  unfold State.post
  split
  · unfold State.highMarkTest
    split
    · next hc =>
      simp only [setNotice_contention, setNotice_station] at hc
      rcases h with h | h
      · exact absurd hc.1 h
      · rw [h] at hc; exact absurd hc.2.1 (by simp)
    · rfl
  · rfl

/-- A post changes the Contention Unit by a HOLD request at most, which starts an own hold (R134). -/
theorem post_contention_cases :
    (s.post n).contention = s.contention ∨
      (s.contention.ownHold = .off ∧ s.station.life.transmits = true
        ∧ s.cfg.highMark ≤ s.notice.backlog.length + 1
        ∧ (s.post n).contention =
          { s.contention.requestHold s.cfg.holdLength with ownHold := .starting }) := by
  unfold State.post
  split
  · rcases highMarkTest_cases (s.setNotice { s.notice with backlog := s.notice.backlog ++ [n] }) with h | h
    · exact .inl (by rw [h]; rfl)
    · refine .inr ⟨h.1, h.2.1, ?_, by rw [h.2.2.2]; rfl⟩
      have := h.2.2.1
      simpa [State.cfg] using this
  · exact .inl rfl

/-- The Contention Unit after a post that raised the backlog or not (R134, R168, R169). -/
theorem post_afterPosts : s.AfterPosts (s.post n) := by
  unfold State.AfterPosts State.testedAfter
  rw [post_notice]
  unfold State.post NoticeUnit.posted
  by_cases h : s.notice.backlog.length < 32
  · rw [if_pos (show s.notice.backlog.length < Config.backlogCapacity from h), if_pos h,
      highMarkTest_contention, if_pos (by simp)]
    rfl
  · rw [if_neg (show ¬ s.notice.backlog.length < Config.backlogCapacity from h), if_neg h]
    simp

theorem post_changesOnly : s.ChangesOnly (s.post n) [.notice, .contention] := by
  intro b hb; cases b <;> simp_all [State.Agrees]

@[simp] theorem post_entry (m : Nat) : (s.post n).entry m = s.entry m := by simp [State.entry]
@[simp] theorem post_produce (m : Nat) : (s.post n).produce m = s.produce m := by simp [State.produce]
@[simp] theorem post_consume (m : Nat) : (s.post n).consume m = s.consume m := by simp [State.consume]
@[simp] theorem post_cfg : (s.post n).cfg = s.cfg := by simp [State.cfg]
@[simp] theorem post_setOf (m : Nat) : (s.post n).setOf m = s.setOf m := by simp [State.setOf]
@[simp] theorem post_lineAt (k : Fin 64) (w : Way) : (s.post n).lineAt k w = s.lineAt k w := by
  simp [State.lineAt]

/-- One post, in the words of the statements. -/
theorem post_posts : s.Posts (s.post n) [n] :=
  ⟨by simp [NoticeUnit.postedAll], post_afterPosts s n, post_changesOnly s n⟩

end Post

/-! ## Posts in a row -/

theorem posted_length (u : NoticeUnit) (n : Notice) : u.backlog.length ≤ (u.posted n).backlog.length := by
  unfold NoticeUnit.posted; split <;> simp

theorem postedAll_length (u : NoticeUnit) (ns : List Notice) :
    u.backlog.length ≤ (u.postedAll ns).backlog.length := by
  induction ns generalizing u with
  | nil => exact le_rfl
  | cons n rest ih => exact (posted_length u n).trans (ih _)

/-- Posts speak of the station, the notices and the Contention Unit alone. -/
theorem State.AfterPosts.congr {a b s t : State} (h : a.AfterPosts b) (h1 : s.station = a.station)
    (h2 : s.notice = a.notice) (h3 : s.contention = a.contention) (h4 : t.notice = b.notice)
    (h5 : t.contention = b.contention) : s.AfterPosts t := by
  unfold State.AfterPosts State.testedAfter State.cfg at *
  rw [h5, h4, h1, h2, h3]; exact h

/-- Where nothing has been posted and the Contention Unit is as it was. -/
theorem State.AfterPosts.of_eq {s t : State} (h : t.notice = s.notice) (h' : t.contention = s.contention) :
    s.AfterPosts t := by
  simp [State.AfterPosts, State.testedAfter, h, h']

theorem State.Posts.refl (s : State) : s.Posts s [] :=
  ⟨rfl, by simp [State.AfterPosts, State.testedAfter], fun b _ => by cases b <;> rfl⟩

/-- Tests at two rises of the backlog make one test at the last of them (R134). -/
theorem tested_tested (c : Contention) (life : Life) (r : StartRecord) (a b : Nat) (h : a ≤ b) :
    (c.tested life r a).tested life r b = c.tested life r b := by
  unfold Contention.tested
  by_cases h1 : c.ownHold = .off ∧ (life = .active ∨ life = .leaving) ∧ r.highMark ≤ a
  · rw [if_pos h1, if_neg (by simp), if_pos ⟨h1.1, h1.2.1, h1.2.2.trans h⟩]
  · rw [if_neg h1]

/-- Posts after posts. -/
theorem State.Posts.trans {s t u : State} {ns ms : List Notice} (h : s.Posts t ns) (h' : t.Posts u ms) :
    s.Posts u (ns ++ ms) := by
  obtain ⟨h1, h2, h3⟩ := h
  obtain ⟨k1, k2, k3⟩ := h'
  refine ⟨by rw [k1, h1]; simp [NoticeUnit.postedAll], ?_, ?_⟩
  · have hst : t.station = s.station := h3 .station (by decide)
    have hcfg : t.cfg = s.cfg := by simp [State.cfg, hst]
    have a1 : s.notice.backlog.length ≤ t.notice.backlog.length := by rw [h1]; exact postedAll_length _ _
    have a2 : t.notice.backlog.length ≤ u.notice.backlog.length := by rw [k1]; exact postedAll_length _ _
    unfold State.AfterPosts State.testedAfter at *
    rw [k2, h2, hst, hcfg]
    by_cases b1 : s.notice.backlog.length < t.notice.backlog.length
    · rw [if_pos b1, if_pos (show s.notice.backlog.length < u.notice.backlog.length by omega)]
      by_cases b2 : t.notice.backlog.length < u.notice.backlog.length
      · rw [if_pos b2, tested_tested _ _ _ _ _ a2]
      · rw [if_neg b2, show u.notice.backlog.length = t.notice.backlog.length by omega]
    · rw [if_neg b1]
      have e : t.notice.backlog.length = s.notice.backlog.length := by omega
      rw [e]
  · intro b hb
    have h1 := h3 b hb
    have h2 := k3 b hb
    cases b <;> simp only [State.Agrees] at * <;> rw [h2, h1]

/-! ## The end of a happening -/

section Settle
variable (s : State)

/-- Leaving IDLE is a new draw at most (R119, R121). -/
theorem leaveIdle_cases : ∃ c r, s.leaveIdle =
    s.setContention { s.contention with state := c, rng := r } := by
  unfold State.leaveIdle
  split
  · exact ⟨_, _, rfl⟩
  · exact ⟨s.contention.state, s.contention.rng, rfl⟩

theorem leaveIdle_sameButDraw : s.contention.SameButDraw s.leaveIdle.contention := by
  obtain ⟨c, r, h⟩ := leaveIdle_cases s
  rw [h]; rfl

theorem leaveIdle_eq :
    s.leaveIdle = s.setContention { s.contention with
      state := s.leaveIdle.contention.state, rng := s.leaveIdle.contention.rng } := by
  obtain ⟨c, r, h⟩ := leaveIdle_cases s
  rw [h]; rfl

@[simp] theorem leaveIdle_station : s.leaveIdle.station = s.station := by rw [leaveIdle_eq]; rfl
@[simp] theorem leaveIdle_directory : s.leaveIdle.directory = s.directory := by rw [leaveIdle_eq]; rfl
@[simp] theorem leaveIdle_store : s.leaveIdle.store = s.store := by rw [leaveIdle_eq]; rfl
@[simp] theorem leaveIdle_ownership : s.leaveIdle.ownership = s.ownership := by rw [leaveIdle_eq]; rfl
@[simp] theorem leaveIdle_pubQueue : s.leaveIdle.pubQueue = s.pubQueue := by rw [leaveIdle_eq]; rfl
@[simp] theorem leaveIdle_rx : s.leaveIdle.rx = s.rx := by rw [leaveIdle_eq]; rfl
@[simp] theorem leaveIdle_dispatch : s.leaveIdle.dispatch = s.dispatch := by rw [leaveIdle_eq]; rfl
@[simp] theorem leaveIdle_command : s.leaveIdle.command = s.command := by rw [leaveIdle_eq]; rfl
@[simp] theorem leaveIdle_notice : s.leaveIdle.notice = s.notice := by rw [leaveIdle_eq]; rfl
@[simp] theorem leaveIdle_port : s.leaveIdle.port = s.port := by rw [leaveIdle_eq]; rfl
@[simp] theorem leaveIdle_pending : s.leaveIdle.pending = s.pending := by rw [leaveIdle_eq]; rfl

/-- A happening that leaves LEAVING unended ends with a new draw at most. -/
theorem settle_of_notDone (h : s.leaveDone = false) : s.settle = s.leaveIdle := by
  simp [State.settle, h]

theorem leaveDone_of_life (h : s.station.life ≠ .leaving) : s.leaveDone = false := by
  simp [State.leaveDone, h]

/-- A settled state stays as it is at the end of a happening. -/
theorem settle_of_settled (h : s.Settled) : s.settle = s := by
  rw [settle_of_notDone s h.2]
  unfold State.leaveIdle
  split
  · next hc => rw [h.1 hc.1] at hc; simp at hc
  · rfl

@[simp] theorem enterDetached_directory : s.enterDetached.directory = s.directory := by
  simp only [State.enterDetached, State.postHoldEnded]; split <;> simp
@[simp] theorem enterDetached_store : s.enterDetached.store = s.store := by
  simp only [State.enterDetached, State.postHoldEnded]; split <;> simp
@[simp] theorem enterDetached_ownership : s.enterDetached.ownership = s.ownership := by
  simp only [State.enterDetached, State.postHoldEnded]; split <;> simp
@[simp] theorem enterDetached_pubQueue : s.enterDetached.pubQueue = s.pubQueue := by
  simp only [State.enterDetached, State.postHoldEnded]; split <;> simp
@[simp] theorem enterDetached_rx : s.enterDetached.rx = s.rx := by
  simp only [State.enterDetached, State.postHoldEnded]; split <;> simp
@[simp] theorem enterDetached_dispatch : s.enterDetached.dispatch = s.dispatch := by
  simp only [State.enterDetached, State.postHoldEnded]; split <;> simp
@[simp] theorem enterDetached_command : s.enterDetached.command = s.command := by
  simp only [State.enterDetached, State.postHoldEnded]; split <;> simp
@[simp] theorem enterDetached_port : s.enterDetached.port = s.port := by
  simp only [State.enterDetached, State.postHoldEnded]; split <;> simp
@[simp] theorem enterDetached_pending : s.enterDetached.pending = s.pending := by
  simp only [State.enterDetached, State.postHoldEnded]; split <;> simp

@[simp] theorem settle_directory : s.settle.directory = s.directory := by
  unfold State.settle; split <;> simp
@[simp] theorem settle_store : s.settle.store = s.store := by
  unfold State.settle; split <;> simp
@[simp] theorem settle_ownership : s.settle.ownership = s.ownership := by
  unfold State.settle; split <;> simp
@[simp] theorem settle_pubQueue : s.settle.pubQueue = s.pubQueue := by
  unfold State.settle; split <;> simp
@[simp] theorem settle_rx : s.settle.rx = s.rx := by
  unfold State.settle; split <;> simp
@[simp] theorem settle_dispatch : s.settle.dispatch = s.dispatch := by
  unfold State.settle; split <;> simp
@[simp] theorem settle_command : s.settle.command = s.command := by
  unfold State.settle; split <;> simp
@[simp] theorem settle_port : s.settle.port = s.port := by
  unfold State.settle; split <;> simp
@[simp] theorem settle_pending : s.settle.pending = s.pending := by
  unfold State.settle; split <;> simp
end Settle

end Sys2Proof.Machine
end

