-- ==== Sys2Proof/Laws/Store.lean ====
section
/-! SUPPORT. What the operations on the Replica Store leave in every line, and what the removal of an entry
does. -/

namespace Sys2Proof.Machine

/-! ## Frames -/

theorem State.ChangesOnly.mono {s t : State} {l l' : List Block} (h : s.ChangesOnly t l) (hl : l ⊆ l') :
    s.ChangesOnly t l' := fun b hb => h b (fun hm => hb (hl hm))

theorem State.ChangesOnly.trans {s t u : State} {l : List Block} (h : s.ChangesOnly t l)
    (h' : t.ChangesOnly u l) : s.ChangesOnly u l := by
  intro b hb
  have h1 := h b hb
  have h2 := h' b hb
  cases b <;> simp only [State.Agrees] at * <;> rw [h2, h1]

theorem State.ChangesOnly.refl (s : State) (l : List Block) : s.ChangesOnly s l := by
  intro b _; cases b <;> rfl

section SetFrames
variable (s : State)

theorem setStation_changesOnly (x : Station) : s.ChangesOnly (s.setStation x) [.station] := by
  intro b hb; cases b <;> first | rfl | (exact absurd hb (by decide))
theorem setDirectory_changesOnly (x : List Entry) : s.ChangesOnly (s.setDirectory x) [.directory] := by
  intro b hb; cases b <;> first | rfl | (exact absurd hb (by decide))
theorem setStore_changesOnly (x : Vector ReplicaSet 64) : s.ChangesOnly (s.setStore x) [.store] := by
  intro b hb; cases b <;> first | rfl | (exact absurd hb (by decide))
theorem setOwnership_changesOnly (x : OwnershipUnit) : s.ChangesOnly (s.setOwnership x) [.ownership] := by
  intro b hb; cases b <;> first | rfl | (exact absurd hb (by decide))
theorem setPubQueue_changesOnly (x : List PubItem) : s.ChangesOnly (s.setPubQueue x) [.pubQueue] := by
  intro b hb; cases b <;> first | rfl | (exact absurd hb (by decide))
theorem setRx_changesOnly (x : Rx) : s.ChangesOnly (s.setRx x) [.rx] := by
  intro b hb; cases b <;> first | rfl | (exact absurd hb (by decide))
theorem setDispatch_changesOnly (x : List Item) : s.ChangesOnly (s.setDispatch x) [.dispatch] := by
  intro b hb; cases b <;> first | rfl | (exact absurd hb (by decide))
theorem setContention_changesOnly (x : Contention) : s.ChangesOnly (s.setContention x) [.contention] := by
  intro b hb; cases b <;> first | rfl | (exact absurd hb (by decide))
theorem setCommand_changesOnly (x : CommandUnit) : s.ChangesOnly (s.setCommand x) [.command] := by
  intro b hb; cases b <;> first | rfl | (exact absurd hb (by decide))
theorem setNotice_changesOnly (x : NoticeUnit) : s.ChangesOnly (s.setNotice x) [.notice] := by
  intro b hb; cases b <;> first | rfl | (exact absurd hb (by decide))
theorem setPort_changesOnly (x : HostPort) : s.ChangesOnly (s.setPort x) [.port] := by
  intro b hb; cases b <;> first | rfl | (exact absurd hb (by decide))
theorem updProduce_changesOnly (n : Nat) (f : Produce → Produce) :
    s.ChangesOnly (s.updProduce n f) [.directory] := setDirectory_changesOnly _ _
theorem updConsume_changesOnly (n : Nat) (f : Consume → Consume) :
    s.ChangesOnly (s.updConsume n f) [.directory] := setDirectory_changesOnly _ _
theorem putSlot_changesOnly (k : Fin 4) (x : Option ClaimSlot) :
    s.ChangesOnly (s.putSlot k x) [.ownership] := setOwnership_changesOnly _ _
theorem putSet_changesOnly (n : Nat) (x : ReplicaSet) :
    s.ChangesOnly (s.putSet n x) [.store] := setStore_changesOnly _ _

end SetFrames

/-! ## Sets and lines -/

section Sets
variable (s : State)

@[simp] theorem Way.other_other (w : Way) : w.other.other = w := by cases w <;> rfl
theorem Way.other_ne (w : Way) : w.other ≠ w := by cases w <;> simp [Way.other]
theorem Way.eq_or_other (v w : Way) : v = w ∨ v = w.other := by cases v <;> cases w <;> simp [Way.other]

theorem putSet_get (n : Nat) (x : ReplicaSet) (k : Fin 64) :
    (s.putSet n x).store.get k = if k = setIndex n then x else s.store.get k := by
  simp only [State.putSet, setStore_store, Vector.get_eq_getElem, Vector.getElem_set]
  by_cases h : k = setIndex n
  · subst h; simp
  · have : ¬ ((setIndex n).val = k.val) := fun hv => h (Fin.ext hv.symm)
    simp [h, this]

@[simp] theorem putSet_directory (n : Nat) (x : ReplicaSet) :
    (s.putSet n x).directory = s.directory := rfl
@[simp] theorem putSet_entry (n m : Nat) (x : ReplicaSet) :
    (s.putSet n x).entry m = s.entry m := rfl
@[simp] theorem putSet_produce (n m : Nat) (x : ReplicaSet) :
    (s.putSet n x).produce m = s.produce m := rfl
@[simp] theorem putSet_consume (n m : Nat) (x : ReplicaSet) :
    (s.putSet n x).consume m = s.consume m := rfl

theorem ReplicaSet.putLine_line (x : ReplicaSet) (w v : Way) (l : Line) :
    (x.putLine w l).line v = if v = w then l else x.line v := by
  cases w <;> cases v <;> simp [ReplicaSet.putLine, ReplicaSet.line]

@[simp] theorem ReplicaSet.putLine_older (x : ReplicaSet) (w : Way) (l : Line) :
    (x.putLine w l).older = x.older := by cases w <;> rfl

@[simp] theorem ReplicaSet.touch_line (x : ReplicaSet) (w v : Way) : (x.touch w).line v = x.line v := by
  cases v <;> rfl

@[simp] theorem ReplicaSet.touch_older (x : ReplicaSet) (w : Way) : (x.touch w).older = w.other := rfl

/-- What a replaced line leaves, with or without a touch of its way. -/
theorem putLine_lineAt (n : Nat) (w : Way) (l : Line) (k : Fin 64) (v : Way) :
    (s.putSet n ((s.setOf n).putLine w l)).lineAt k v =
      if k = setIndex n ∧ v = w then l else s.lineAt k v := by
  simp only [State.lineAt, putSet_get]
  by_cases h : k = setIndex n
  · subst h; simp [ReplicaSet.putLine_line, State.setOf]
  · simp [h]

theorem putLine_touch_lineAt (n : Nat) (w : Way) (l : Line) (k : Fin 64) (v : Way) :
    (s.putSet n (((s.setOf n).putLine w l).touch w)).lineAt k v =
      if k = setIndex n ∧ v = w then l else s.lineAt k v := by
  simp only [State.lineAt, putSet_get]
  by_cases h : k = setIndex n
  · subst h; simp [ReplicaSet.putLine_line, State.setOf]
  · simp [h]

theorem touch_lineAt (n : Nat) (w : Way) (k : Fin 64) (v : Way) :
    (s.putSet n ((s.setOf n).touch w)).lineAt k v = s.lineAt k v := by
  simp only [State.lineAt, putSet_get]
  by_cases h : k = setIndex n
  · subst h; simp [State.setOf]
  · simp [h]

theorem putSet_sameBut (n : Nat) (w : Way) (x : ReplicaSet)
    (h : x.line w.other = (s.setOf n).line w.other) : s.StoreSameBut (s.putSet n x) (setIndex n) w := by
  refine ⟨?_, fun j hj => ?_⟩
  · simp [State.lineAt, putSet_get, h, State.setOf]
  · simp [putSet_get, hj]

/-- The line of an object, by its entry. -/
theorem objectLine_eq (n : Nat) (e : Entry) (h : s.entry n = some e) :
    s.objectLine n = e.line.map (s.lineAt (setIndex n)) := by
  have ho : e.object = n := lookup_object _ _ _ h
  simp only [State.objectLine, h, Option.bind_some, State.lineOf, ho, State.setOf]
  rfl

end Sets

/-! ## Removal of an entry (R13, R33) -/

section Remove
variable (s : State) (n : Nat)

theorem removeEntry_entry (m : Nat) :
    (s.removeEntry n).entry m = if m = n then none else s.entry m := by
  simp only [State.removeEntry]
  split <;> exact lookup_eraseEntry _ _ _

theorem removeEntry_produce (m : Nat) :
    (s.removeEntry n).produce m = if m = n then none else s.produce m := by
  simp only [State.produce, removeEntry_entry]; split <;> rfl

theorem removeEntry_consume (m : Nat) :
    (s.removeEntry n).consume m = if m = n then none else s.consume m := by
  simp only [State.consume, removeEntry_entry]; split <;> rfl

theorem removeEntry_lineFreed : s.LineFreed (s.removeEntry n) n := by
  unfold State.LineFreed State.removeEntry
  cases h : (s.entry n).bind Entry.line with
  | none => rfl
  | some w =>
    refine ⟨?_, ?_, ?_⟩
    · exact (putLine_lineAt s n w _ _ _).trans (by simp [Line.freed, State.setOf, State.lineAt])
    · exact (congrArg ReplicaSet.older (putSet_get s n _ _)).trans (by simp [State.setOf])
    · exact putSet_sameBut s n w _ (by rw [ReplicaSet.putLine_line, if_neg w.other_ne])

theorem removeEntry_changesOnly : s.ChangesOnly (s.removeEntry n) [.directory, .store] := by
  intro b hb
  unfold State.removeEntry
  cases h : (s.entry n).bind Entry.line <;>
    cases b <;> simp_all [State.Agrees, State.putSet]

end Remove

/-! ## Payloads -/

theorem linePayload_eq (bytes : List Byte) (h : bytes.length ≤ 64) :
    linePayload bytes = bytes ++ List.replicate (64 - bytes.length) 0 := by
  simp only [linePayload, padTo, Config.lineBytes]
  rw [List.take_append, List.take_of_length_le h, List.take_replicate]
  congr 2
  omega

end Sys2Proof.Machine
end

