-- ==== Sys2Proof/Laws/Withdraw.lean ====
section
/-! SUPPORT. New draws, handing on, withdrawal and stripping: each operation does what its relation in the
statements says (R55, R72, R93, R119, R121, R128, R131), and what follows from that for queue and hand. -/

namespace Sys2Proof.Machine

/-! ## The Contention Unit, but for its frames -/

theorem Contention.SameButFrames.refl (c : Contention) : c.SameButFrames c := rfl

theorem Contention.SameButFrames.trans {c d e : Contention} (h : c.SameButFrames d)
    (h' : d.SameButFrames e) : c.SameButFrames e := by
  unfold Contention.SameButFrames at *; rw [h', h]

theorem Contention.requestHold_same (c : Contention) (n : Nat) : c.SameButFrames (c.requestHold n) := by
  unfold Contention.SameButFrames Contention.requestHold
  split_ifs <;> rfl

theorem Contention.tested_same (c : Contention) (l : Life) (r : StartRecord) (b : Nat) :
    c.SameButFrames (c.tested l r b) := by
  unfold Contention.tested
  split
  · exact (c.requestHold_same _).trans rfl
  · rfl

theorem State.AfterPosts.same {s t : State} (h : s.AfterPosts t) :
    s.contention.SameButFrames t.contention := by
  rw [h]; unfold State.testedAfter
  split
  · exact Contention.tested_same _ _ _ _
  · rfl

/-! ## Work and draws (R119, R121) -/

theorem hasWork_iff (s : State) : s.hasWork = true ↔ s.Works := by
  have live : s.station.life.transmits = true ↔ (s.station.life = .active ∨ s.station.life = .leaving) := by
    cases s.station.life <;> simp [Life.transmits]
  unfold State.hasWork State.Works
  simp [holdsClear_iff, live, and_assoc]

theorem draw_eq (c : Contention) : c.draw = (c.newDeferral, { c with rng := rngAdvance c.rng }) := by
  unfold Contention.draw Contention.deferralOf Contention.newDeferral Contention.controlClass drawValue
    dataExponent
  cases c.inHand with
  | none => cases hq : c.queue <;> simp
  | some f => cases f <;> cases hq : c.queue <;> simp

/-- An IDLE unit with work leaves IDLE with a new draw (R119). -/
theorem leaveIdle_of_works (s : State) (h : s.contention.state = .idle) (hw : s.Works) :
    s.leaveIdle = s.setContention s.contention.drawn := by
  rw [State.leaveIdle, if_pos ⟨h, (hasWork_iff s).mpr hw⟩, draw_eq]; rfl

theorem leaveIdle_of_not (s : State) (h : ¬ (s.contention.state = .idle ∧ s.Works)) : s.leaveIdle = s := by
  rw [State.leaveIdle, if_neg (fun hc => h ⟨hc.1, (hasWork_iff s).mp hc.2⟩)]

/-- The frame in hand is discarded (R128). -/
theorem discardInHand_discards (s : State) : s.Discards s.discardInHand := by
  have hw : (s.setContention s.contention.dropInHand).Works ↔ s.Works := Iff.rfl
  unfold State.discardInHand
  refine ⟨?_, fun h => ?_, fun h => ?_⟩
  · rw [leaveIdle_eq]
    exact ((setContention_changesOnly _ _).mono (by decide)).trans (setContention_changesOnly _ _)
  · rw [leaveIdle_of_works _ rfl (hw.mpr h)]; rfl
  · rw [leaveIdle_of_not _ (fun hc => h (hw.mp hc.2))]; rfl

/-- A discard leaves no frame in hand, and of the rest only state, attempts and generator may change. -/
theorem State.Discards.contention {s t : State} (h : s.Discards t) :
    t.contention = { s.contention with
      inHand := none, attempts := 0, state := t.contention.state, rng := t.contention.rng } := by
  by_cases hw : s.Works
  · rw [h.2.1 hw]; rfl
  · rw [h.2.2 hw]; rfl

/-! ## Handing on, and a place that becomes free -/

section Freed
variable (s : State) (f : CtlFrame)

theorem noteQueued_changesOnly : s.ChangesOnly (s.noteQueued f) [.directory] := by
  unfold State.noteQueued
  split
  · exact updProduce_changesOnly _ _ _
  · exact .refl _ _

theorem noteQueued_entry (m : Nat) : (s.noteQueued f).entry m =
    if f = .relinquish m then (s.entry m).map (Entry.mapProduce (fun p => { p with releaseQueued := true }))
    else s.entry m := by
  cases f with
  | relinquish n =>
    simp only [State.noteQueued, State.updProduce_entry, CtlFrame.relinquish.injEq]
    by_cases h : m = n
    · subst h; simp
    · rw [if_neg h, if_neg (Ne.symm h)]
  | _ => simp [State.noteQueued]

theorem noteQueued_noRelease (h : ∀ n, f ≠ .relinquish n) : s.noteQueued f = s := by
  cases f <;> first | rfl | (exact absurd rfl (h _))

theorem placeCommand_contention : (s.placeCommand f).contention =
    { s.contention with queue := s.contention.queue ++ [f] } :=
  noteQueued_changesOnly _ f .contention (by decide)

theorem placeCommand_changesOnly : s.ChangesOnly (s.placeCommand f) [.directory, .contention] :=
  ((setContention_changesOnly _ _).mono (by decide)).trans ((noteQueued_changesOnly _ _).mono (by decide))

theorem placeCommand_entry (m : Nat) : (s.placeCommand f).entry m =
    if f = .relinquish m then (s.entry m).map (Entry.mapProduce (fun p => { p with releaseQueued := true }))
    else s.entry m := noteQueued_entry _ f m

/-- A CLAIM or RELINQUISH is handed on (R54, R55, R72). -/
theorem handOn_handsOn : s.HandsOn (s.handOn f) f := by
  unfold State.HandsOn State.handOn commandPlaceFree Config.commandPlaces
  by_cases h : (s.contention.queue.filter CtlFrame.fromCommand).length < 6
  · rw [if_pos h, if_pos (by simpa using h)]
    exact ⟨placeCommand_contention _ _, placeCommand_entry _ _, placeCommand_changesOnly _ _⟩
  · rw [if_neg h, if_neg (by simpa using h)]
    exact ⟨rfl, setOwnership_changesOnly _ _⟩

/-- What follows when a place of the control queue becomes free (R55, R131). -/
theorem placeFreed_placeFreed : s.PlaceFreed (s.placeFreed f) f := by
  unfold State.PlaceFreed State.placeFreed
  cases hf : f.fromCommand with
  | true =>
    simp only [if_true]
    unfold State.moveWaiting
    cases h : s.ownership.waitList with
    | nil =>
      refine ⟨by simp, ?_, fun m => by simp, .refl _ _⟩
      show s.ownership = _
      rw [List.drop_nil, ← h]
    | cons g rest =>
      refine ⟨placeCommand_contention _ g, ?_, fun m => ?_, ?_⟩
      · exact placeCommand_changesOnly _ g .ownership (by decide)
      · simp only [List.head?_cons, Option.some.injEq]
        exact placeCommand_entry _ g m
      · exact ((setOwnership_changesOnly _ _).mono (by decide)).trans
          ((placeCommand_changesOnly _ _).mono (by decide))
  | false =>
    simp only [Bool.false_eq_true, if_false]
    refine ⟨?_, setContention_changesOnly _ _⟩
    simp only [setContention_contention, Contention.placePendingHold]
    cases h : s.contention.pendingHold with
    | none => simp; rw [← h]
    | some n => rfl

end Freed

/-- The frames behind keep their order, at most one frame joins at the tail, and at most the entry of a
RELINQUISH that moves is marked. -/
theorem State.PlaceFreed.leaves {s t : State} {f : CtlFrame} (h : s.PlaceFreed t f) :
    s.ChangesOnly t [.directory, .ownership, .contention] ∧
    (∀ m, t.entry m = s.entry m ∨
      t.entry m = (s.entry m).map (Entry.mapProduce (fun p => { p with releaseQueued := true }))) ∧
    t.ownership.slots = s.ownership.slots ∧
    t.contention = { s.contention with
      queue := t.contention.queue, pendingHold := t.contention.pendingHold } ∧
    ∃ more, t.contention.queue = s.contention.queue ++ more ∧
      (f.fromCommand = true ∧ more = s.ownership.waitList.take 1
          ∧ t.ownership = { s.ownership with waitList := s.ownership.waitList.drop 1 }
        ∨ f.fromCommand = false ∧ more = (s.contention.pendingHold.map CtlFrame.hold).toList
          ∧ t.ownership = s.ownership ∧ t.directory = s.directory) := by
  unfold State.PlaceFreed at h
  cases hf : f.fromCommand with
  | true =>
    rw [hf, if_pos rfl] at h
    obtain ⟨h1, h2, h3, h4⟩ := h
    refine ⟨h4, fun m => ?_, by rw [h2], by rw [h1], _, by rw [h1], .inl ⟨rfl, rfl, h2⟩⟩
    rw [h3 m]; split
    · exact .inr rfl
    · exact .inl rfl
  | false =>
    rw [hf, if_neg (by decide)] at h
    obtain ⟨h1, h2⟩ := h
    have ho : t.ownership = s.ownership := h2 .ownership (by decide)
    have hd : t.directory = s.directory := h2 .directory (by decide)
    exact ⟨h2.mono (by decide), fun m => .inl (by simp only [State.entry, hd]), by rw [ho], by rw [h1],
      _, by rw [h1], .inr ⟨rfl, rfl, ho, hd⟩⟩

theorem placeFreed_changesOnly (s : State) (f : CtlFrame) :
    s.ChangesOnly (s.placeFreed f) [.directory, .ownership, .contention] := (placeFreed_placeFreed s f).leaves.1

/-! ## Withdrawal -/

section Withdraw
variable (s : State) (f : CtlFrame)

/-- Withdrawal from the control queue (R131). -/
theorem withdrawQueued_leavesQueue : s.LeavesQueue (s.withdrawQueued f) f := by
  unfold State.LeavesQueue State.withdrawQueued
  by_cases h : f ∈ s.contention.queue
  · rw [if_pos h, if_pos (by simpa using h)]
    exact placeFreed_placeFreed _ f
  · rw [if_neg h, if_neg (by simpa using h)]

/-- Withdrawal from the hand (R128). -/
theorem withdrawInHand_leavesHand : s.LeavesHand (s.withdrawInHand f) f := by
  unfold State.LeavesHand State.withdrawInHand
  cases s.contention.inHand with
  | none => rfl
  | some i =>
    cases i with
    | data records => rfl
    | control g w =>
      by_cases hg : g = f
      · subst hg
        simp only [if_true]
        by_cases hs : s.contention.state = .sending
        · rw [if_pos hs, if_pos hs]; rfl
        · rw [if_neg hs, if_neg hs]; exact discardInHand_discards s
      · simp only [if_neg hg]

/-- Withdrawal from wherever the frame stands (R64, R65, R69, R128, R131). -/
theorem withdraw_withdraws : s.Withdraws (s.withdraw f) f := by
  refine ⟨_, ?_, withdrawInHand_leavesHand _ f⟩
  have h := withdrawQueued_leavesQueue
    (s.setOwnership { s.ownership with waitList := s.ownership.waitList.filter (· != f) }) f
  have he : s.setOwnership { s.ownership with waitList := s.ownership.waitList.filter (· != f) } =
      { s with ownership := { s.ownership with waitList := s.ownership.waitList.filter (fun g => g ≠ f) } } := by
    unfold State.setOwnership
    have hf : s.ownership.waitList.filter (· != f) = s.ownership.waitList.filter (fun g => g ≠ f) :=
      List.filter_congr (fun x _ => by by_cases hx : x = f <;> simp [hx])
    rw [hf]
  rw [he] at h
  rw [he]
  exact h

end Withdraw

/-- What a frame's leaving the control queue leaves. -/
theorem State.LeavesQueue.leaves {s t : State} {f : CtlFrame} (h : s.LeavesQueue t f) :
    s.ChangesOnly t [.directory, .ownership, .contention] ∧
    (∀ m, t.entry m = s.entry m ∨
      t.entry m = (s.entry m).map (Entry.mapProduce (fun p => { p with releaseQueued := true }))) ∧
    t.ownership.slots = s.ownership.slots ∧
    t.contention = { s.contention with
      queue := t.contention.queue, pendingHold := t.contention.pendingHold } ∧
    ∃ more, t.contention.queue = s.contention.queue.erase f ++ more ∧
      (more = [] ∧ t.ownership = s.ownership ∧ t.directory = s.directory
        ∨ f.fromCommand = true ∧ more = s.ownership.waitList.take 1
          ∧ t.ownership = { s.ownership with waitList := s.ownership.waitList.drop 1 }
        ∨ f.fromCommand = false ∧ more = (s.contention.pendingHold.map CtlFrame.hold).toList
          ∧ t.ownership = s.ownership ∧ t.directory = s.directory) := by
  unfold State.LeavesQueue at h
  split at h
  · obtain ⟨h1, h2, h3, h4, more, h5, h6⟩ := h.leaves
    refine ⟨?_, h2, h3, h4, more, h5, .inr h6⟩
    intro b hb
    have := h1 b hb
    cases b <;> first | exact this | (exact absurd (by decide) hb)
  · next hn =>
    subst h
    exact ⟨.refl _ _, fun _ => .inl rfl, rfl, rfl, [], by rw [List.append_nil, List.erase_of_not_mem hn],
      .inl ⟨rfl, rfl, rfl⟩⟩

/-- What a frame's leaving the hand leaves. -/
theorem State.LeavesHand.leaves {s t : State} {f : CtlFrame} (h : s.LeavesHand t f) :
    s.ChangesOnly t [.contention] ∧ s.WithdrawnInHand t f ∧
    t.contention = { s.contention with
      inHand := t.contention.inHand, attempts := t.contention.attempts, state := t.contention.state
      rng := t.contention.rng } ∧
    ((∀ w, s.contention.inHand ≠ some (.control f w)) → t = s) := by
  unfold State.LeavesHand at h
  have stay : t = s → (∀ w, s.contention.inHand ≠ some (.control f w)) →
      s.ChangesOnly t [.contention] ∧ s.WithdrawnInHand t f ∧ t.contention = { s.contention with
        inHand := t.contention.inHand, attempts := t.contention.attempts, state := t.contention.state
        rng := t.contention.rng } ∧ ((∀ w, s.contention.inHand ≠ some (.control f w)) → t = s) := by
    rintro rfl hn
    exact ⟨.refl _ _, fun w hw => absurd hw (hn w), rfl, fun _ => rfl⟩
  cases hi : s.contention.inHand with
  | none => rw [hi] at h; rw [← hi]; exact stay h (by simp [hi])
  | some i =>
    cases i with
    | data records => rw [hi] at h; rw [← hi]; exact stay h (by simp [hi])
    | control g w =>
      rw [hi] at h; rw [← hi]
      simp only at h
      by_cases hg : g = f
      · subst hg
        rw [if_pos rfl] at h
        by_cases hs : s.contention.state = .sending
        · rw [if_pos hs] at h; subst h
          refine ⟨setContention_changesOnly _ _, fun w' _ => by rw [if_pos hs], rfl, fun hn => absurd hi (hn w)⟩
        · rw [if_neg hs] at h
          refine ⟨h.1, fun w' _ => by rw [if_neg hs, h.contention], ?_, fun hn => absurd hi (hn w)⟩
          rw [h.contention]
      · rw [if_neg hg] at h
        exact stay h (fun w' hw => by rw [hi] at hw; cases hw; exact hg rfl)

/-- Everything a withdrawal can do. -/
theorem withdraw_spec (s : State) (f : CtlFrame) :
    s.ChangesOnly (s.withdraw f) [.directory, .ownership, .contention] ∧
    (∀ m, (s.withdraw f).entry m = s.entry m ∨ (s.withdraw f).entry m =
      (s.entry m).map (Entry.mapProduce (fun p => { p with releaseQueued := true }))) ∧
    (s.withdraw f).ownership.slots = s.ownership.slots ∧
    s.contention.SameButFrames (s.withdraw f).contention ∧
    (s.withdraw f).contention.ownHold = s.contention.ownHold ∧
    s.WithdrawnInHand (s.withdraw f) f ∧
    ((∀ w, s.contention.inHand ≠ some (.control f w)) →
      (s.withdraw f).contention = { s.contention with
        queue := (s.withdraw f).contention.queue
        pendingHold := (s.withdraw f).contention.pendingHold }) ∧
    (∃ more, (s.withdraw f).contention.queue = s.contention.queue.erase f ++ more ∧
      (more = [] ∧ (s.withdraw f).ownership.waitList = s.ownership.waitList.filter (· ≠ f)
          ∧ (s.withdraw f).directory = s.directory
        ∨ f.fromCommand = true ∧ more = (s.ownership.waitList.filter (· ≠ f)).take 1
          ∧ (s.withdraw f).ownership.waitList = (s.ownership.waitList.filter (· ≠ f)).drop 1
        ∨ f.fromCommand = false ∧ more = (s.contention.pendingHold.map CtlFrame.hold).toList
          ∧ (s.withdraw f).ownership.waitList = s.ownership.waitList.filter (· ≠ f)
          ∧ (s.withdraw f).directory = s.directory)) := by
  obtain ⟨q, hq, hh⟩ := withdraw_withdraws s f
  generalize s.withdraw f = t at *
  obtain ⟨h1, h2, h3, h4, more, h5, h6⟩ := hq.leaves
  obtain ⟨k1, k2, k3, k4⟩ := hh.leaves
  have hc : q.contention = { s.contention with
      queue := q.contention.queue, pendingHold := q.contention.pendingHold } := h4
  have hin : q.contention.inHand = s.contention.inHand := by rw [hc]
  have hst : q.contention.state = s.contention.state := by rw [hc]
  have ho : t.ownership = q.ownership := k1 .ownership (by decide)
  have hd : t.directory = q.directory := k1 .directory (by decide)
  have hqq : t.contention.queue = q.contention.queue := by rw [k3]
  refine ⟨?_, fun m => ?_, by rw [ho, h3], ?_, ?_, ?_, ?_, more, by rw [hqq, h5], ?_⟩
  · exact (((setOwnership_changesOnly _ _).mono (by decide)).trans h1).trans (k1.mono (by decide))
  · simp only [State.entry, hd]; exact h2 m
  · refine Contention.SameButFrames.trans (d := q.contention) ?_ ?_
    · unfold Contention.SameButFrames; rw [hc]
    · unfold Contention.SameButFrames; rw [k3]
  · rw [k3, hc]
  · intro w hw
    have := k2 w (by rw [hin]; exact hw)
    rw [this, hst]
  · intro hn
    rw [k4 (by rw [hin]; exact hn)]; exact hc
  · rw [ho, hd]
    rcases h6 with ⟨a, b, c⟩ | ⟨a, b, c⟩ | ⟨a, b, c, d⟩
    · exact .inl ⟨a, by rw [b], c⟩
    · exact .inr (.inl ⟨a, b, by rw [c]⟩)
    · exact .inr (.inr ⟨a, b, by rw [c], d⟩)

end Sys2Proof.Machine
end

