-- ==== Sys2Proof/Laws/Publication.lean ====
section
/-! SUPPORT. What stops with the publication of an object, and what the append to the queue leaves (R66, R70,
R77, R78, R93). -/

namespace Sys2Proof.Machine

theorem State.produce_entry (s : State) (n : Nat) (p : Produce) (h : s.produce n = some p) :
    ∃ e, s.entry n = some e ∧ e.role = .produce p := by
  unfold State.produce at h
  cases he : s.entry n with
  | none => rw [he] at h; cases h
  | some e =>
    rw [he] at h
    refine ⟨e, rfl, ?_⟩
    unfold Entry.produce at h
    cases hr : e.role with
    | produce p' => rw [Option.bind_some, hr] at h; cases h; rfl
    | consume c => rw [Option.bind_some, hr] at h; cases h

theorem State.consume_entry (s : State) (n : Nat) (c : Consume) (h : s.consume n = some c) :
    ∃ e, s.entry n = some e ∧ e.role = .consume c := by
  unfold State.consume at h
  cases he : s.entry n with
  | none => rw [he] at h; cases h
  | some e =>
    rw [he] at h
    refine ⟨e, rfl, ?_⟩
    unfold Entry.consume at h
    cases hr : e.role with
    | produce p' => rw [Option.bind_some, hr] at h; cases h
    | consume c => rw [Option.bind_some, hr] at h; cases h; rfl

theorem State.produce_of_entry (s : State) (n : Nat) (e : Entry) (p : Produce) (h : s.entry n = some e)
    (hr : e.role = .produce p) : s.produce n = some p := by
  simp [State.produce, h, Entry.produce, hr]

theorem State.consume_of_entry (s : State) (n : Nat) (e : Entry) (c : Consume) (h : s.entry n = some e)
    (hr : e.role = .consume c) : s.consume n = some c := by
  simp [State.consume, h, Entry.consume, hr]

theorem Entry.mapProduce_role (e : Entry) (p : Produce) (f : Produce → Produce) (h : e.role = .produce p) :
    e.mapProduce f = { e with role := .produce (f p) } := by simp [Entry.mapProduce, h]

theorem Entry.mapConsume_role (e : Entry) (c : Consume) (f : Consume → Consume) (h : e.role = .consume c) :
    e.mapConsume f = { e with role := .consume (f c) } := by simp [Entry.mapConsume, h]

/-- An append with REPEAT clear (R77). -/
theorem State.appendNew_eq (s : State) (n : Nat) : s.appendNew n =
    (s.setPubQueue (s.queueWith n)).updProduce n (fun p => { p with queued := .yes false }) := by
  have h : (s.pubQueue.any (fun it => it.object == n) = true) ↔ n ∈ s.pubQueue.map PubItem.object := by
    simp [List.any_eq_true]
  unfold State.appendNew State.queueWith
  by_cases hn : n ∈ s.pubQueue.map PubItem.object
  · rw [if_pos hn, if_pos (h.mpr hn)]
  · rw [if_neg hn, if_neg (fun hc => hn (h.mp hc))]

/-! ## The end of publication -/

section Stop
variable (s : State) (n : Nat) (e : Entry) (p : Produce)

theorem unsentRecord_of_data (records : List TxRecord) (hi : s.contention.inHand = some (.data records))
    (hst : s.contention.state ≠ .sending) :
    s.unsentRecord n = records.find? (fun r => r.object == n) := by
  simp [State.unsentRecord, hi, hst]

theorem updProduce_becomes (f : Produce → Produce) : s.EntryBecomes (s.updProduce n f) n f :=
  ⟨fun m => by rw [State.updProduce_entry]; split <;> simp_all, updProduce_changesOnly s n f⟩

/-- A PRODUCE entry after a change of its own. -/
theorem State.EntryBecomes.own {s t : State} {n : Nat} {f : Produce → Produce} {e : Entry} {p : Produce}
    (h : s.EntryBecomes t n f) (he : s.entry n = some e) (hr : e.role = .produce p) :
    t.entry n = some { e with role := .produce (f p) } := by
  rw [h.1 n, if_pos rfl, he, Option.map_some, Entry.mapProduce_role e p f hr]

theorem State.EntryBecomes.other {s t : State} {n m : Nat} {f : Produce → Produce}
    (h : s.EntryBecomes t n f) (hm : m ≠ n) : t.entry m = s.entry m := by rw [h.1 m, if_neg hm]

/-- Stripping of the object's record from an unsent DATA frame in hand (R93). -/
theorem stripRecord_strips : s.StripsRecord (s.stripRecord n) n := by
  have stay : s.unsentRecord n = none → s.stripRecord n = s → s.StripsRecord (s.stripRecord n) n := by
    intro hu hs
    unfold State.StripsRecord
    rw [hu, hs]
  cases hi : s.contention.inHand with
  | none => exact stay (by simp [State.unsentRecord, hi]) (by simp [State.stripRecord, hi])
  | some f =>
    cases f with
    | control g w => exact stay (by simp [State.unsentRecord, hi]) (by simp [State.stripRecord, hi])
    | data records =>
      by_cases hst : s.contention.state = .sending
      · exact stay (by simp [State.unsentRecord, hst]) (by simp [State.stripRecord, hi, hst])
      · have hu := unsentRecord_of_data s n records hi hst
        cases hf : records.find? (fun r => r.object == n) with
        | none => exact stay (by rw [hu, hf]) (by simp [State.stripRecord, hi, hf])
        | some r =>
          have hs : s.stripRecord n =
              (if (records.filter (fun r => r.object != n)).isEmpty then s.discardInHand
               else s.setContention { s.contention with
                 inHand := some (.data (records.filter (fun r => r.object != n))) }).updProduce n
                (Produce.unsent r) := by
            unfold State.stripRecord
            rw [hi]
            cases hc : s.contention.state <;> simp_all
          have hfl : records.filter (fun r => r.object != n) =
              records.filter (fun r => decide (r.object ≠ n)) :=
            List.filter_congr (fun x _ => by by_cases h : x.object = n <;> simp [h])
          unfold State.StripsRecord
          rw [hs, hu, hf, hi, hfl]
          refine ⟨_, ?_, updProduce_becomes _ n _⟩
          by_cases hE : records.filter (fun r => decide (r.object ≠ n)) = []
          · rw [if_pos hE, hE]; exact discardInHand_discards s
          · rw [if_neg hE, if_neg (fun h => hE (List.isEmpty_iff.mp h))]; rfl

/-- The publication of an object stops (R66, R70). -/
theorem stopPublishing_stops : s.StopsPublishing (s.stopPublishing n) n := by
  refine ⟨s.dequeue n, (s.dequeue n).stripRecord n, ?_, stripRecord_strips _ n, withdraw_withdraws _ _⟩
  have hf : s.pubQueue.filter (fun it => it.object != n) = s.pubQueue.filter (fun it => it.object ≠ n) :=
    List.filter_congr (fun x _ => by by_cases h : x.object = n <;> simp [h])
  have h := updProduce_becomes (s.setPubQueue (s.pubQueue.filter (fun it => it.object != n))) n
    (fun p => { p with queued := .no })
  rw [hf] at h
  unfold State.dequeue
  rw [hf]
  exact h

/-- A PRODUCE part after the record that stripping finds, if any (R93). -/
def strippedOf (p : Produce) : Option TxRecord → Produce
  | none => p
  | some r => p.unsent r

/-- What stripping leaves. -/
theorem State.StripsRecord.leaves {s t : State} {n : Nat} {e : Entry} {p : Produce} (h : s.StripsRecord t n)
    (he : s.entry n = some e) (hr : e.role = .produce p) :
    t.entry n = some { e with role := .produce (strippedOf p (s.unsentRecord n)) } ∧
    (∀ m, m ≠ n → t.entry m = s.entry m) ∧
    (∀ records, s.contention.inHand = some (.data records) →
      t.contention.inHand =
        if s.unsentRecord n = none then some (.data records)
        else if records.filter (fun r => r.object ≠ n) = [] then none
        else some (.data (records.filter (fun r => r.object ≠ n)))) ∧
    (s.unsentRecord n = none → t = s) ∧
    t.contention = { s.contention with
      state := t.contention.state, inHand := t.contention.inHand, attempts := t.contention.attempts
      rng := t.contention.rng } ∧
    s.ChangesOnly t [.directory, .contention] := by
  have self : ({ e with role := .produce p } : Entry) = e := by cases e; simp only at hr; subst hr; rfl
  unfold State.StripsRecord at h
  cases hu : s.unsentRecord n with
  | none =>
    rw [hu] at h; subst h
    exact ⟨by rw [he]; exact congrArg some self.symm, fun _ _ => rfl, fun _ hi => by rw [if_pos rfl]; exact hi,
      fun _ => rfl, rfl, .refl _ _⟩
  | some r =>
    cases hi : s.contention.inHand with
    | none => simp [State.unsentRecord, hi] at hu
    | some f =>
      cases f with
      | control g w => simp [State.unsentRecord, hi] at hu
      | data records =>
        rw [hu, hi] at h
        simp only at h
        obtain ⟨a, ha, hb⟩ := h
        have hc : t.contention = a.contention := hb.2 .contention (by decide)
        have hae : ∀ m, a.entry m = s.entry m := by
          intro m
          split at ha
          · have hd : a.directory = s.directory := ha.1 .directory (by decide)
            simp only [State.entry, hd]
          · subst ha; rfl
        refine ⟨?_, fun m hm => (hb.other hm).trans (hae m), ?_, fun hn => absurd hn (by simp), ?_, ?_⟩
        · exact hb.own ((hae n).trans he) hr
        · intro rs hrs
          cases hrs
          rw [if_neg (by simp), hc]
          split at ha
          · next hE => rw [if_pos hE, ha.contention]
          · next hE => rw [if_neg hE, ha]
        · rw [hc]
          split at ha
          · rw [ha.contention]
          · subst ha; rfl
        · refine State.ChangesOnly.trans (t := a) ?_ (hb.2.mono (by decide))
          split at ha
          · exact ha.1.mono (by decide)
          · subst ha; exact (setContention_changesOnly _ _).mono (by decide)

/-- Everything the end of publication does (R66, R70). -/
theorem stopPublishing_spec (he : s.entry n = some e) (hr : e.role = .produce p) :
    ∃ q, (s.stopPublishing n).entry n = some { e with role := .produce q } ∧
      q = { p with queued := .no, inFlight := q.inFlight, pending := q.pending } ∧
      s.PublicationStops (s.stopPublishing n) n p q ∧
      (∀ m, m ≠ n → (s.stopPublishing n).entry m = s.entry m) ∧
      (s.stopPublishing n).ownership.slots = s.ownership.slots ∧
      (s.stopPublishing n).ownership.waitList = s.ownership.waitList.filter (· ≠ .dispute n) ∧
      (s.stopPublishing n).contention.ownHold = s.contention.ownHold ∧
      (s.stopPublishing n).contention.queue.filter CtlFrame.fromCommand =
        s.contention.queue.filter CtlFrame.fromCommand ∧
      s.ChangesOnly (s.stopPublishing n) [.directory, .pubQueue, .ownership, .contention] := by
  set d := s.dequeue n with hd
  have hde : d.entry n = some { e with role := .produce { p with queued := .no } } := by
    rw [hd, State.dequeue, State.updProduce_entry, if_pos rfl]
    show (s.entry n).map _ = _
    rw [he, Option.map_some, Entry.mapProduce_role e p _ hr]
  have hdo : ∀ m, m ≠ n → d.entry m = s.entry m := by
    intro m hm
    rw [hd, State.dequeue, State.updProduce_entry, if_neg hm]; rfl
  have hdc : d.contention = s.contention := rfl
  have hdu : d.unsentRecord n = s.unsentRecord n := rfl
  obtain ⟨k1, k2, k3, k4, k5, k6⟩ := (stripRecord_strips d n).leaves hde rfl
  rw [hdu] at k1 k3 k4
  set t := d.stripRecord n with ht
  have hu : s.stopPublishing n = t.withdraw (.dispute n) := rfl
  obtain ⟨w1, w2, w3, w4, w5, w6, w7, more, w8, w9⟩ := withdraw_spec t (.dispute n)
  rw [hu]
  have hto : t.ownership = s.ownership := k6 .ownership (by decide)
  have hdir : (t.withdraw (.dispute n)).directory = t.directory := by
    rcases w9 with h | h | h
    · exact h.2.2
    · exact absurd h.1 (Bool.noConfusion)
    · exact h.2.2.2
  have hent : ∀ m, (t.withdraw (.dispute n)).entry m = t.entry m := by
    intro m; simp only [State.entry]; rw [hdir]
  have hwl : (t.withdraw (.dispute n)).ownership.waitList =
      s.ownership.waitList.filter (· ≠ .dispute n) := by
    rw [← hto]
    rcases w9 with h | h | h
    · exact h.2.1
    · exact absurd h.1 (Bool.noConfusion)
    · exact h.2.2.1
  have hmore : more.filter CtlFrame.fromCommand = [] ∧ more.count (.dispute n) = 0 := by
    rcases w9 with h | h | h
    · rw [h.1]; exact ⟨rfl, rfl⟩
    · exact absurd h.1 (Bool.noConfusion)
    · rw [h.2.1]; cases t.contention.pendingHold with
      | none => exact ⟨rfl, rfl⟩
      | some l =>
        refine ⟨rfl, List.count_eq_zero_of_not_mem ?_⟩
        simp
  have hq : t.contention.queue = s.contention.queue := by rw [k5, hdc]
  refine ⟨_, (hent n).trans k1, ?_, ⟨?_, ?_, ?_, ?_, ?_, ?_, ?_, ?_⟩, ?_, ?_, hwl, ?_, ?_, ?_⟩
  · cases s.unsentRecord n <;> rfl
  · cases s.unsentRecord n <;> rfl
  · rw [show _ = _ from w1 .pubQueue (by decide), show _ = _ from k6 .pubQueue (by decide)]
    exact List.filter_congr (fun x _ => by by_cases h : x.object = n <;> simp [h])
  · cases s.unsentRecord n <;> exact ⟨rfl, rfl⟩
  · intro records hrec
    have h1 := k3 records (by rw [hdc]; exact hrec)
    have h2 : (t.withdraw (.dispute n)).contention.inHand = t.contention.inHand := by
      rw [w7 ?_]
      intro w hw
      rw [hw] at h1
      split_ifs at h1 <;> cases h1
    rw [h2, h1]
  · rw [w8, List.count_append, hmore.2, hq, List.count_erase]
    simp
  · intro w hw
    have hnone : s.unsentRecord n = none := by simp [State.unsentRecord, hw]
    have htd : t = d := k4 hnone
    have h := w6 w (by rw [htd, hdc]; exact hw)
    rw [h, htd, hdc]
  · refine Contention.SameButFrames.trans ?_ w4
    have hp : t.contention.pendingHold = s.contention.pendingHold := by rw [k5, hdc]
    have ho : t.contention.ownHold = s.contention.ownHold := by rw [k5, hdc]
    unfold Contention.SameButFrames
    rw [hq, hp, ho]
    exact k5
  · intro hnone hnd
    have htd : t = d := k4 hnone
    rw [w7 (by rw [htd, hdc]; exact hnd), htd, hdc]
    exact ⟨rfl, rfl, rfl⟩
  · intro m hm; rw [hent, k2 m hm, hdo m hm]
  · rw [w3, hto]
  · rw [w5, k5, hdc]
  · rw [w8, List.filter_append, hmore.1, List.append_nil, hq]
    generalize s.contention.queue = qs
    induction qs with
    | nil => rfl
    | cons g rest ih =>
      by_cases hg : g = .dispute n
      · subst hg; simp [CtlFrame.fromCommand]
      · rw [List.erase_cons_tail (by simpa using hg)]
        simp [List.filter_cons, ih]
  · refine State.ChangesOnly.trans (t := d) ?_ (State.ChangesOnly.trans (k6.mono (by decide)) (w1.mono (by decide)))
    exact ((setPubQueue_changesOnly _ _).mono (by decide)).trans
      ((updProduce_changesOnly _ _ _).mono (by decide))

end Stop

/-! ## The end of claims and of entries (R13, R52, R69 to R72) -/

section Release
variable (s : State) (n : Nat)

theorem releaseSlot_freesSlot : s.FreesSlot (s.releaseSlot n) n := by
  unfold State.FreesSlot State.releaseSlot
  cases (s.produce n).bind Produce.claimSlot with
  | none => rfl
  | some k => exact updProduce_becomes (s.putSlot k none) n _

theorem removeEntry_removes : s.Removes (s.removeEntry n) n :=
  ⟨by rw [removeEntry_entry, if_pos rfl], fun m hm => by rw [removeEntry_entry, if_neg hm],
    removeEntry_lineFreed s n, removeEntry_changesOnly s n⟩

theorem beginRelease_begins (tag : Word16) : s.BeginsRelease (s.beginRelease n tag) n tag :=
  ⟨_, updProduce_becomes s n _, handOn_handsOn _ _⟩

end Release

end Sys2Proof.Machine
end

