-- ==== Sys2Proof/Laws/Notices.lean ====
section
/-! SUPPORT. The notices that the blocks post, in the words of the statements (R167): a value notice of the
entry's line, of a record, or of the station. -/

namespace Sys2Proof.Machine

/-- The first four bytes of a value are those of its padded payload (R18, R167). -/
theorem firstFour_of_line (payload : List Byte) (n : Nat) (h : ∀ i, n ≤ i → payload.getD i 0 = 0) :
    (payload.take n ++ [0, 0, 0, 0]).take 4 = padTo 4 payload := by
  apply List.ext_getElem
  · simp [padTo]
  · intro i h1 h2
    have hi : i < 4 := by simp [padTo] at h2; omega
    have zero : ∀ j (hj : j < [(0 : Byte), 0, 0, 0].length), [(0 : Byte), 0, 0, 0][j] = 0 := by
      intro j hj; simp at hj; interval_cases j <;> rfl
    simp only [padTo, List.getElem_take, List.getElem_append, List.length_take]
    by_cases hin : i < min n payload.length
    · rw [dif_pos hin, dif_pos (show i < payload.length by omega)]
    · rw [dif_neg hin, zero]
      by_cases hlen : i < payload.length
      · rw [dif_pos hlen]
        have := h i (by omega)
        simp only [List.getD, List.getElem?_eq_getElem hlen, Option.getD_some] at this
        exact this.symm
      · rw [dif_neg hlen]
        exact (List.getElem_replicate (n := 4) ..).symm

/-- A notice about the value in a line. -/
theorem valueNotice_of_line (s : State) (l : Line) (kind : NoticeKind) (object station : Nat) (seq : Byte)
    (detail : Nat) (tag : Word16) (h0 : l.length ≤ 64) (h1 : l.payload.length = 64)
    (h2 : ∀ i, l.length ≤ i → l.payload.getD i 0 = 0) :
    s.valueNotice kind object station seq detail (l.payload.take l.length) tag =
      { kind := kind, object := object, station := station, seq := seq, detail := detail
        length := l.length, tag := tag, stamp := s.stamp, first := firstFour l.payload } := by
  simp only [State.valueNotice, State.stamp, firstFour, firstFour_of_line _ _ h2]
  simp [h1, h0]

theorem objectLine_lineAt (s : State) (n : Nat) (l : Line) (h : s.objectLine n = some l) :
    ∃ w, l = s.lineAt (setIndex n) w := by
  cases he : s.entry n with
  | none => simp [State.objectLine, he] at h
  | some e =>
    rw [objectLine_eq _ _ e he] at h
    cases hw : e.line with
    | none => rw [hw] at h; cases h
    | some w => rw [hw] at h; cases h; exact ⟨w, rfl⟩

/-- An ownership notice (R74), in the words of the statements. -/
theorem ownershipNotice_eq (s : State) (n : Nat) (p : Produce) (kind : NoticeKind) (station : Nat)
    (cause : Cause) (tag : Word16) (hS : s.StorageCanonical) (hp : s.produce n = some p) :
    s.ownershipNotice n kind station cause tag =
      s.valueNotice kind n station (p.committed.getD 0) cause.code (s.value n) tag := by
  unfold State.ownershipNotice State.value
  rw [hp]
  cases ho : s.objectLine n with
  | none => rfl
  | some l =>
    obtain ⟨w, rfl⟩ := objectLine_lineAt s n l ho
    obtain ⟨h0, h1, h2⟩ := hS.2.1 (setIndex n) w
    rw [valueNotice_of_line s _ kind n station _ _ tag h0 h1 h2]
    rfl

/-- A notice about a replica as it stands, in the words of the statements (Table 6.3). -/
theorem valueNotice_of_replica (s t : State) (n : Nat) (kind : NoticeKind) (station detail : Nat)
    (seq : Byte) (hS : t.StorageCanonical) (hst : s.stamp = t.stamp) :
    { kind := kind, object := n, station := station, seq := seq, detail := detail
      length := ((t.objectLine n).map Line.length).getD 0, tag := 0, stamp := s.stamp
      first := firstFour (((t.objectLine n).map Line.payload).getD []) : Notice } =
      t.valueNotice kind n station seq detail (t.value n) 0 := by
  unfold State.value
  cases ho : t.objectLine n with
  | none => rw [hst]; rfl
  | some l =>
    obtain ⟨w, rfl⟩ := objectLine_lineAt t n l ho
    obtain ⟨h0, h1, h2⟩ := hS.2.1 (setIndex n) w
    rw [valueNotice_of_line t _ kind n station _ _ 0 h0 h1 h2, hst]
    rfl

/-- A notice about a record (Table 6.3). -/
theorem recordNotice_eq (s : State) (kind : NoticeKind) (n source : Nat) (q : Byte) (detail : Nat)
    (payload : List Byte) :
    s.recordNotice kind n source q detail payload = s.valueNotice kind n source q detail payload 0 := rfl

/-- A notice about the station (Tables 7.7 and 8.5). -/
theorem stationNotice_eq (s : State) (kind : NoticeKind) (station detail : Nat) (tag : Word16) :
    s.stationNotice kind station detail tag = s.valueNotice kind 0 station 0 detail [] tag := rfl

/-- The value of an object depends on the directory and the store alone. -/
theorem value_congr (s t : State) (n : Nat) (hd : t.entry n = s.entry n)
    (hs : ∀ w, t.lineAt (setIndex n) w = s.lineAt (setIndex n) w) : t.value n = s.value n := by
  have : t.objectLine n = s.objectLine n := by
    cases he : s.entry n with
    | none => simp [State.objectLine, he, hd]
    | some e =>
      rw [objectLine_eq _ _ e he, objectLine_eq _ _ e (hd.trans he)]
      cases e.line with
      | none => rfl
      | some w => simp [hs w]
  simp [State.value, this]

/-! ## Posts, in order -/

@[simp] theorem postedAll_nil (u : NoticeUnit) : u.postedAll [] = u := rfl
@[simp] theorem postedAll_cons (u : NoticeUnit) (n : Notice) (ns : List Notice) :
    u.postedAll (n :: ns) = (u.posted n).postedAll ns := rfl
theorem postedAll_append (u : NoticeUnit) (ns ms : List Notice) :
    u.postedAll (ns ++ ms) = (u.postedAll ns).postedAll ms := by
  simp [NoticeUnit.postedAll]

theorem NoticeUnit.GoesOnTo.refl (u : NoticeUnit) : u.GoesOnTo u := ⟨[], rfl⟩
theorem NoticeUnit.GoesOnTo.trans {u v w : NoticeUnit} (h : u.GoesOnTo v) (h' : v.GoesOnTo w) :
    u.GoesOnTo w := by
  obtain ⟨a, rfl⟩ := h
  obtain ⟨b, rfl⟩ := h'
  exact ⟨a ++ b, (postedAll_append _ _ _).symm⟩
theorem NoticeUnit.goesOnTo_posted (u : NoticeUnit) (n : Notice) : u.GoesOnTo (u.posted n) := ⟨[n], rfl⟩

end Sys2Proof.Machine
end

