-- ==== Sys2Proof/Laws/Memory.lean ====
section
/-! SUPPORT. What a read of shared RAM gives after a write, and that a write keeps the canonical form. -/

namespace Sys2Proof.Machine

theorem Memory.read_filter (m : Memory) (a x : Nat) :
    Memory.read (m.filter (fun c => c.1 != a)) x = if x = a then 0 else Memory.read m x := by
  induction m with
  | nil => simp [Memory.read]
  | cons c rest ih =>
    obtain ⟨k, v⟩ := c
    by_cases hk : k = a
    · subst hk
      by_cases hx : x = k
      · subst hx; simpa using ih
      · simp [Memory.read, hx, Ne.symm hx, ih]
    · by_cases hx : x = a
      · subst hx; simp [Memory.read, hk, ih]
      · simp only [List.filter, bne_iff_ne.mpr hk, Memory.read, ih, hx, if_false]

theorem Memory.read_insert (m : Memory) (a : Nat) (b : Byte) (h : ∀ c ∈ m, c.1 ≠ a) (x : Nat) :
    Memory.read (Memory.insert m a b) x = if x = a then b else Memory.read m x := by
  induction m with
  | nil => simp [Memory.insert, Memory.read, eq_comm]
  | cons c rest ih =>
    obtain ⟨k, v⟩ := c
    have hk : k ≠ a := h (k, v) (by simp)
    simp only [Memory.insert]
    split
    · by_cases hx : x = a
      · subst hx; simp [Memory.read]
      · simp [Memory.read, hx, Ne.symm hx]
    · simp only [Memory.read, ih (fun c hc => h c (by simp [hc]))]
      by_cases hx : x = a
      · subst hx; simp [hk]
      · simp [hx]

/-- A read after a write: the byte written where the address lies in shared RAM, and the byte as it was at
every other address. -/
theorem Memory.read_write (m : Memory) (a : Nat) (b : Byte) (x : Nat) :
    Memory.read (m.write a b) x = if x = a ∧ a < Config.ramEnd then b else Memory.read m x := by
  unfold Memory.write
  by_cases ha : a < Config.ramEnd
  · simp only [ha, if_true, and_true]
    split
    · next hb => rw [Memory.read_filter, hb]
    · rw [Memory.read_insert _ _ _ (by simp), Memory.read_filter]
      split <;> rfl
  · simp [ha]

theorem Memory.insert_mem (m : Memory) (a : Nat) (b : Byte) (c : Host.Cell) :
    c ∈ Memory.insert m a b ↔ c = (a, b) ∨ c ∈ m := by
  induction m with
  | nil => simp [Memory.insert]
  | cons d rest ih =>
    obtain ⟨k, v⟩ := d
    simp only [Memory.insert]
    split
    · simp
    · simp only [List.mem_cons, ih]; tauto

theorem Memory.insert_rises (m : Memory) (a : Nat) (b : Byte)
    (hm : m.Pairwise (fun c d => c.1 < d.1)) (ha : ∀ c ∈ m, c.1 ≠ a) :
    (Memory.insert m a b).Pairwise (fun c d => c.1 < d.1) := by
  induction m with
  | nil => simp [Memory.insert]
  | cons d rest ih =>
    obtain ⟨k, v⟩ := d
    rw [List.pairwise_cons] at hm
    have hk : k ≠ a := ha (k, v) (by simp)
    simp only [Memory.insert]
    split
    · next h =>
      refine List.pairwise_cons.mpr ⟨fun c hc => ?_, List.pairwise_cons.mpr hm⟩
      rcases List.mem_cons.mp hc with rfl | hc
      · exact h
      · exact Nat.lt_trans h (hm.1 c hc)
    · next h =>
      refine List.pairwise_cons.mpr ⟨fun c hc => ?_, ih hm.2 (fun c hc => ha c (by simp [hc]))⟩
      rcases (Memory.insert_mem rest a b c).mp hc with rfl | hc
      · simp only; omega
      · exact hm.1 c hc

theorem Memory.wf_iff (m : Memory) :
    m.wf = true ↔ m.Pairwise (fun c d => c.1 < d.1) ∧ ∀ c ∈ m, c.1 < Config.ramEnd ∧ c.2 ≠ 0 := by
  simp [Memory.wf]

/-- A write keeps the canonical form. -/
theorem Memory.write_wf (m : Memory) (a : Nat) (b : Byte) (h : m.wf = true) : (m.write a b).wf = true := by
  rw [Memory.wf_iff] at h
  unfold Memory.write
  split
  · next ha =>
    have hp : (m.filter (fun c => c.1 != a)).Pairwise (fun c d => c.1 < d.1) := h.1.filter _
    have hf : ∀ c ∈ m.filter (fun c => c.1 != a), c.1 < Config.ramEnd ∧ c.2 ≠ 0 :=
      fun c hc => h.2 c (List.mem_filter.mp hc).1
    split
    · exact (Memory.wf_iff _).mpr ⟨hp, hf⟩
    · next hb =>
      refine (Memory.wf_iff _).mpr ⟨Memory.insert_rises _ _ _ hp (by simp), fun c hc => ?_⟩
      rcases (Memory.insert_mem _ _ _ _).mp hc with rfl | hc
      · exact ⟨ha, hb⟩
      · exact hf c hc
  · exact (Memory.wf_iff _).mpr h

/-- Empty shared RAM has the canonical form. -/
theorem Memory.wf_nil : Memory.wf [] = true := by decide

end Sys2Proof.Machine
end

