-- ==== Sys2Proof/Laws/Port.lean ====
section
/-! SUPPORT. What the RAM arbiter and an SPI byte can do: engine accesses with no SPI write waiting, the
canonical form under every access, and the transaction after a byte that the port serves. -/

namespace Sys2Proof.Machine

theorem HostPort.drain_of_none (p : HostPort) (h : p.waiting = []) : p.drain = p := by
  cases p; simp only at h; subst h; rfl

theorem HostPort.yield_of_none (p : HostPort) (h : p.waiting = []) : p.yield = p := by
  cases p; simp only at h; subst h; rfl

@[simp] theorem HostPort.drain_waiting (p : HostPort) : p.drain.waiting = [] := rfl
@[simp] theorem HostPort.drain_drain (p : HostPort) : p.drain.drain = p.drain := rfl

/-- Engine reads with no SPI write waiting: the bytes as they stand, and the port as it was. -/
theorem HostPort.engineReads_of_none (p : HostPort) (h : p.waiting = []) (a n : Nat) :
    p.engineReads a n = ((List.range n).map (fun i => Memory.read p.ram (a + i)), p) := by
  induction n generalizing a with
  | zero => rfl
  | succ n ih =>
    simp only [HostPort.engineReads, HostPort.engineRead, p.yield_of_none h, ih (a + 1)]
    rw [List.range_succ_eq_map, List.map_cons, List.map_map]
    congr 2
    refine List.map_congr_left (fun i _ => ?_)
    simp only [Function.comp]
    congr 1
    omega

/-- Engine reads of a drained port. -/
theorem HostPort.engineReads_drain (p : HostPort) (a n : Nat) :
    p.drain.engineReads a n =
      ((List.range n).map (fun i => Memory.read p.drain.ram (a + i)), p.drain) :=
  HostPort.engineReads_of_none _ rfl a n

/-- Engine writes with no SPI write waiting: only the memory changes. -/
theorem HostPort.engineWrites_of_none (p : HostPort) (h : p.waiting = []) (a : Nat) (bs : List Byte) :
    (p.engineWrites a bs).waiting = [] ∧
      p.engineWrites a bs = { p with ram := (p.engineWrites a bs).ram } := by
  induction bs generalizing p a with
  | nil => exact ⟨h, rfl⟩
  | cons b rest ih =>
    have hw : (p.engineWrite a b).waiting = [] := by
      simp [HostPort.engineWrite, p.yield_of_none h, h]
    have hp : p.engineWrite a b = { p with ram := (p.engineWrite a b).ram } := by
      simp [HostPort.engineWrite, p.yield_of_none h]
    obtain ⟨h1, h2⟩ := ih (p.engineWrite a b) hw (a + 1)
    refine ⟨h1, ?_⟩
    simp only [HostPort.engineWrites]
    rw [h2, hp]

theorem HostPort.engineWrite_of_none (p : HostPort) (h : p.waiting = []) (a : Nat) (b : Byte) :
    p.engineWrite a b = { p with ram := Memory.write p.ram a b } := by
  simp [HostPort.engineWrite, p.yield_of_none h]

/-- A byte after engine writes of a block that lies in shared RAM. -/
theorem HostPort.engineWrites_read (p : HostPort) (h : p.waiting = []) (a : Nat) (bs : List Byte)
    (hb : a + bs.length ≤ Config.ramEnd) (x : Nat) :
    Memory.read (p.engineWrites a bs).ram x =
      if a ≤ x ∧ x < a + bs.length then bs.getD (x - a) 0 else Memory.read p.ram x := by
  induction bs generalizing p a with
  | nil =>
    have : ¬ (a ≤ x ∧ x < a) := by omega
    simp [HostPort.engineWrites, this]
  | cons b rest ih =>
    simp only [List.length_cons] at hb
    simp only [HostPort.engineWrites]
    rw [ih (p.engineWrite a b) (by rw [p.engineWrite_of_none h]; exact h) (a + 1) (by omega)]
    rw [p.engineWrite_of_none h]
    simp only [Memory.read_write, List.length_cons]
    by_cases hx : x = a
    · subst hx
      have h1 : ¬ (x + 1 ≤ x ∧ x < x + 1 + rest.length) := by omega
      have h2 : x < Config.ramEnd := by omega
      have h3 : x ≤ x ∧ x < x + (rest.length + 1) := by omega
      simp [h2]
    · by_cases h1 : a + 1 ≤ x ∧ x < a + 1 + rest.length
      · have h3 : a ≤ x ∧ x < a + (rest.length + 1) := by omega
        have h4 : x - a = (x - (a + 1)) + 1 := by omega
        rw [if_pos h1, if_pos h3, h4]
        rfl
      · have h3 : ¬ (a ≤ x ∧ x < a + (rest.length + 1)) := by omega
        rw [if_neg h1, if_neg h3]
        simp [hx]

/-! ## Canonical form -/

theorem HostPort.take_wf (p : HostPort) (w : WaitingAccess) (h : Memory.wf p.ram = true) :
    Memory.wf (p.take w).ram = true := by
  unfold HostPort.take
  split
  · exact Memory.write_wf _ _ _ h
  · exact h

theorem HostPort.landDue_wf (p : HostPort) (ws : List WaitingAccess) (h : Memory.wf p.ram = true) :
    Memory.wf (p.landDue ws).ram = true := by
  induction ws generalizing p with
  | nil => exact h
  | cons w rest ih =>
    simp only [HostPort.landDue]
    split
    · exact ih _ (p.take_wf w h)
    · exact h

theorem HostPort.yield_wf (p : HostPort) (h : Memory.wf p.ram = true) : Memory.wf p.yield.ram = true :=
  p.landDue_wf _ h

theorem HostPort.drain_wf (p : HostPort) (h : Memory.wf p.ram = true) : Memory.wf p.drain.ram = true := by
  simp only [HostPort.drain]
  generalize p.waiting = ws
  induction ws generalizing p with
  | nil => exact h
  | cons w rest ih => exact ih _ (p.take_wf w h)

theorem HostPort.engineWrite_wf (p : HostPort) (a : Nat) (b : Byte) (h : Memory.wf p.ram = true) :
    Memory.wf (p.engineWrite a b).ram = true :=
  Memory.write_wf _ _ _ (p.yield_wf h)

theorem HostPort.engineReads_wf (p : HostPort) (a n : Nat) (h : Memory.wf p.ram = true) :
    Memory.wf (p.engineReads a n).2.ram = true := by
  induction n generalizing p a with
  | zero => exact h
  | succ n ih => exact ih _ _ (p.yield_wf h)

theorem HostPort.engineWrites_wf (p : HostPort) (a : Nat) (bs : List Byte) (h : Memory.wf p.ram = true) :
    Memory.wf (p.engineWrites a bs).ram = true := by
  induction bs generalizing p a with
  | nil => exact h
  | cons b rest ih => exact ih _ _ (p.engineWrite_wf a b h)

theorem HostPort.spiByte_ram (p q : HostPort) (via : SpiVia) (w : Bool) (addr : Nat)
    (h : p.spiByte via w addr = some q) : q.ram = p.ram ∧ q.waiting = p.waiting := by
  unfold HostPort.spiByte at h
  split at h
  · cases h; exact ⟨rfl, rfl⟩
  · cases h

theorem State.registerByte_wf (s t : State) (via : SpiVia) (w : Bool) (addr : Nat)
    (h : s.registerByte via w addr = some t) (hs : Memory.wf s.port.ram = true) :
    Memory.wf t.port.ram = true := by
  unfold State.registerByte at h
  cases hb : s.port.spiByte via w addr with
  | none => simp [hb] at h
  | some q =>
    simp only [hb, Option.map_some, Option.some.injEq] at h
    subst h
    exact q.drain_wf (by rw [(s.port.spiByte_ram q via w addr hb).1]; exact hs)

theorem HostPort.request_wf (p : HostPort) (w : WaitingAccess) (h : Memory.wf p.ram = true) :
    Memory.wf (p.request w).ram = true := by
  unfold HostPort.request
  split
  · exact p.take_wf w h
  · exact h

theorem HostPort.acceptByte_wf (p : HostPort) (b : RamByte) (h : Memory.wf p.ram = true) :
    Memory.wf (p.acceptByte b).ram = true := by
  unfold HostPort.acceptByte
  split
  · split
    · exact h
    · next q hq => exact q.request_wf _ (by rw [(p.spiByte_ram q _ _ _ hq).1]; exact h)
  · exact h

theorem HostPort.acceptBytes_wf (p : HostPort) (bytes : List RamByte) (h : Memory.wf p.ram = true) :
    Memory.wf (p.acceptBytes bytes).ram = true := by
  induction bytes generalizing p with
  | nil => exact h
  | cons b rest ih => exact ih _ (p.acceptByte_wf b h)

/-! ## SPI bytes -/

/-- The two ways to say that the port serves a byte. -/
theorem HostPort.serves_iff (p : HostPort) (via : SpiVia) (w : Bool) (addr : Nat) :
    p.serves via w addr = true ↔ p.Serves via w addr := by
  unfold HostPort.serves HostPort.Serves HostPort.continuesWrite
  cases p.spi <;> cases p.resetHeld <;> cases via <;> cases w <;> simp [SpiVia.begins]

/-- A byte that the port serves: the transaction goes on or ends, and nothing else of the port changes. -/
theorem HostPort.spiByte_of_serves (p : HostPort) (via : SpiVia) (w : Bool) (addr : Nat)
    (h : p.Serves via w addr) :
    p.spiByte via w addr = some { p with spi := transactionAfter via w addr } := by
  rw [HostPort.spiByte, if_pos ((p.serves_iff via w addr).mpr h)]
  simp [spiAfter, transactionAfter, BitVec.ofNat_add]

/-- The arbiter's accesses leave the transaction and the list of waiting accesses to others. -/
theorem HostPort.takeAll_with (p : HostPort) (spi : Option SpiTransaction) (waiting ws : List WaitingAccess) :
    ws.foldl HostPort.take { p with spi := spi, waiting := waiting } =
      { ws.foldl HostPort.take p with spi := spi, waiting := waiting } := by
  induction ws generalizing p with
  | nil => rfl
  | cons x rest ih =>
    have hx : ({ p with spi := spi, waiting := waiting } : HostPort).take x =
        { p.take x with spi := spi, waiting := waiting } := by
      unfold HostPort.take; split <;> rfl
    rw [List.foldl_cons, hx, ih, List.foldl_cons]

/-- A register byte that the port serves. -/
theorem State.registerByte_of_serves (s : State) (via : SpiVia) (w : Bool) (addr : Nat)
    (h : s.port.Serves via w addr) :
    s.registerByte via w addr = some (s.setPort (s.port.afterRegisterByte via w addr)) := by
  simp only [State.registerByte, HostPort.spiByte_of_serves _ _ _ _ h, Option.map_some,
    HostPort.afterRegisterByte]
  congr 2
  simp only [HostPort.drain]
  rw [HostPort.takeAll_with s.port _ s.port.waiting]

/-- A byte for shared RAM that the port serves comes to the arbiter (R176, R178). -/
theorem HostPort.acceptByte_of_serves (p : HostPort) (b : RamByte) (ha : b.addr < Config.ramEnd)
    (h : p.Serves b.via true b.addr) :
    p.acceptByte b =
      { p with spi := transactionAfter b.via true b.addr }.ramWrite b.addr b.value b.turn := by
  simp only [HostPort.acceptByte, if_pos ha, HostPort.spiByte_of_serves _ _ _ _ h]

theorem HostPort.acceptByte_same (p : HostPort) (b : RamByte) :
    (p.acceptByte b).tickLatch = p.tickLatch ∧ (p.acceptByte b).resetHeld = p.resetHeld
      ∧ (p.acceptByte b).readByte = p.readByte := by
  unfold HostPort.acceptByte HostPort.spiByte
  split
  · split
    · exact ⟨rfl, rfl, rfl⟩
    · next q hq =>
      split at hq
      · cases hq
        simp only [HostPort.ramWrite, HostPort.request]
        split <;> exact ⟨rfl, rfl, rfl⟩
      · cases hq
  · exact ⟨rfl, rfl, rfl⟩

/-- SPI bytes for shared RAM can change it, the waiting accesses and the transaction, and nothing else of the port. -/
theorem HostPort.acceptBytes_same (p : HostPort) (bytes : List RamByte) :
    (p.acceptBytes bytes).tickLatch = p.tickLatch ∧ (p.acceptBytes bytes).resetHeld = p.resetHeld
      ∧ (p.acceptBytes bytes).readByte = p.readByte := by
  induction bytes generalizing p with
  | nil => exact ⟨rfl, rfl, rfl⟩
  | cons b rest ih =>
    obtain ⟨h1, h2, h3⟩ := ih (p.acceptByte b)
    obtain ⟨g1, g2, g3⟩ := p.acceptByte_same b
    exact ⟨h1.trans g1, h2.trans g2, h3.trans g3⟩

/-- While RESET_N is asserted no SPI byte is served (R176). -/
theorem HostPort.acceptBytes_of_resetHeld (p : HostPort) (bytes : List RamByte) (h : p.resetHeld = true) :
    p.acceptBytes bytes = p := by
  induction bytes with
  | nil => rfl
  | cons b rest ih =>
    have hb : p.acceptByte b = p := by
      simp [HostPort.acceptByte, HostPort.spiByte, HostPort.serves, h]
    show (p.acceptByte b).acceptBytes rest = p
    rw [hb, ih]

end Sys2Proof.Machine
end

