-- ==== Sys2Proof/Laws/Records.lean ====
section
/-! SUPPORT. The records of a DATA frame: changes of one entry for each record, the return to the queue, and the
bundle. -/

namespace Sys2Proof.Machine

/-- `F` changes, for each record, the PRODUCE part of that record's entry by `H`, and nothing else. -/
structure PerRec (F : State → TxRecord → State) (H : TxRecord → Produce → Produce) : Prop where
  entry : ∀ (t : State) r m, (F t r).entry m = if m = r.object
      then (t.entry m).map (Entry.mapProduce (H r)) else t.entry m
  frame : ∀ (t : State) r, t.ChangesOnly (F t r) [.directory]

/-- One change for each record of a list. -/
theorem PerRec.fold {F H} (h : PerRec F H) (l : List TxRecord) : ∀ (t : State),
   (∀ m, m ∉ l.map TxRecord.object → (l.foldl F t).entry m = t.entry m)
   ∧ ((l.map TxRecord.object).Nodup → ∀ x ∈ l,
       (l.foldl F t).entry x.object = (t.entry x.object).map (Entry.mapProduce (H x)))
   ∧ t.ChangesOnly (l.foldl F t) [.directory] := by
  induction l with
  | nil => intro t; exact ⟨fun _ _ => rfl, fun _ _ hx => by simp at hx, State.ChangesOnly.refl _ _⟩
  | cons r l ih =>
    intro t
    obtain ⟨a, b, c⟩ := ih (F t r)
    refine ⟨?_, ?_, (h.frame t r).trans c⟩
    · intro m hm
      simp only [List.map_cons, List.mem_cons, not_or] at hm
      rw [List.foldl_cons, a m hm.2, h.entry, if_neg hm.1]
    · intro hn x hx
      simp only [List.map_cons, List.nodup_cons] at hn
      rw [List.foldl_cons]
      rcases List.mem_cons.mp hx with rfl | hx
      · rw [a _ hn.1, h.entry, if_pos rfl]
      · rw [b hn.2 x hx, h.entry, if_neg]
        intro he; exact hn.1 (he ▸ List.mem_map_of_mem hx)

theorem map_id_of (o : Option Entry) (f : Entry → Entry) (h : ∀ e, o = some e
    → f e = e) : o.map f = o := by
  cases o with
  | none => rfl
  | some e => simp [h e rfl]

theorem reached_some (s : State) (r p) : s.reached r = some p ↔ s.produce r.object = some p
    ∧ p.marks r = true := by
  unfold State.reached
  cases hp : s.produce r.object with
  | none => simp
  | some q =>
    simp only [Option.bind_some, Option.some.injEq]
    by_cases h : q.marks r = true
    · rw [if_pos h]; simp only [Option.some.injEq]
      constructor
      · rintro rfl; exact ⟨rfl, h⟩
      · rintro ⟨rfl, -⟩; rfl
    · rw [if_neg h]
      constructor
      · intro hh; cases hh
      · rintro ⟨rfl, h'⟩; exact absurd h' h

/-- A change of the entry that a record reaches is such a change. -/
theorem perRec_of (F : State → TxRecord → State) (G : TxRecord → Produce → Produce → Produce)
   (h1 : ∀ (t : State) r, t.reached r = none → F t r = t) (h2 : ∀ (t : State) r p, t.reached r = some p
       → F t r = t.updProduce r.object (G r p)) :
   PerRec F (fun r p => if p.marks r = true then G r p p else p) := by
  constructor
  · intro t r m
    by_cases hm : m = r.object
    · subst hm
      rw [if_pos rfl]
      cases hr : t.reached r with
      | none =>
        rw [h1 t r hr]
        symm; apply map_id_of
        intro e he
        unfold Entry.mapProduce
        cases hro : e.role with
        | consume c => rfl
        | produce p =>
          have hp := State.produce_of_entry _ _ _ _ he hro
          have : ¬ p.marks r = true := fun hmk => by
            have := (reached_some t r p).mpr ⟨hp, hmk⟩
            rw [hr] at this; cases this
          simp only [if_neg this]
          cases e; simp only at hro; subst hro; rfl
      | some p =>
        obtain ⟨hp, hmk⟩ := (reached_some _ _ _).mp hr
        obtain ⟨e, he, her⟩ := State.produce_entry _ _ _ hp
        rw [h2 t r p hr, State.updProduce_entry, if_pos rfl, he]
        simp [Entry.mapProduce, her, hmk]
    · rw [if_neg hm]
      cases hr : t.reached r with
      | none => rw [h1 t r hr]
      | some p => rw [h2 t r p hr, State.updProduce_entry, if_neg hm]
  · intro t r
    cases hr : t.reached r with
    | none => rw [h1 t r hr]; exact .refl _ _
    | some p => rw [h2 t r p hr]; exact updProduce_changesOnly _ _ _

theorem commit_perRec : PerRec State.commitRecord (fun r p =>
    if p.marks r = true then Produce.commit r p else p) :=
  perRec_of State.commitRecord (fun r _ => Produce.commit r)
   (fun t r h => by simp [State.commitRecord, h]) (fun t r p h => by simp [State.commitRecord, h])

theorem return_perRec : PerRec State.returnRecord (fun r p =>
    if p.marks r = true then { p.unsent r with
        queued := if p.ownership = .owned ∧ p.queued = .no then .yes r.rep else p.queued } else p) :=
  perRec_of State.returnRecord (fun r p q => { q.unsent r with
        queued := if p.ownership = .owned ∧ p.queued = .no then .yes r.rep else q.queued })
   (fun t r h => by simp [State.returnRecord, h]) (fun t r p h => by simp [State.returnRecord, h])

theorem unsend_perRec : PerRec State.unsend (fun r p =>
    if p.marks r = true then Produce.unsent r p else p) :=
  perRec_of State.unsend (fun r _ => Produce.unsent r)
   (fun t r h => by simp [State.unsend, h]) (fun t r p h => by simp [State.unsend, h])

theorem bundle_perRec : PerRec (fun t r => t.updProduce r.object (Produce.bundled r)) Produce.bundled :=
  ⟨fun t r m => by rw [State.updProduce_entry]; split <;> simp_all,
      fun t r => updProduce_changesOnly _ _ _⟩

/-- What the abandonment of a DATA frame's records leaves (R90, R92). -/
theorem returnRecords_spec (s : State) (records : List TxRecord) :
   (s.returnRecords records).pubQueue = (records.filter s.returns).map (fun r => { object := r.object, rep := r.rep : PubItem }) ++ s.pubQueue
   ∧ s.ChangesOnly (s.returnRecords records) [.directory, .pubQueue]
   ∧ (∀ m, m ∉ records.map TxRecord.object → (s.returnRecords records).entry m = s.entry m)
   ∧ ((records.map TxRecord.object).Nodup → ∀ x ∈ records,
       (s.returnRecords records).entry x.object = (s.entry x.object).map (Entry.mapProduce (fun p => if p.marks x = true then
       { p.unsent x with queued := if p.ownership = .owned ∧ p.queued = .no then .yes x.rep else p.queued } else p))) := by
  obtain ⟨a, b,
      c⟩ := return_perRec.fold records (s.setPubQueue ((records.filter s.returns).map (fun r => { object := r.object, rep := r.rep : PubItem }) ++ s.pubQueue))
  refine ⟨?_, ?_, ?_, ?_⟩
  · exact c .pubQueue (by decide)
  · exact ((setPubQueue_changesOnly _ _).mono (by decide)).trans (c.mono (by decide))
  · intro m hm; exact a m hm
  · intro hn x hx; exact b hn x hx

/-- The bundle is the longest run from the head of the queue that fits (R86). -/
theorem takeBundle_spec (s : State) : ∀ (q : List PubItem) (body count : Nat),
   ∃ taken left, q = taken ++ left ∧ s.takeBundle q body count = (taken.map s.bundleRecord, left)
    ∧ (count ≤ 8 → count + taken.length ≤ 8) ∧ (body ≤ 128
        → body + (taken.map (fun it => 4 + (s.bundleRecord it).payload.length)).sum ≤ 128)
    ∧ (∀ it more, left = it :: more
        → 8 ≤ count + taken.length ∨ 128 < body + ((taken ++ [it]).map (fun it => 4 + (s.bundleRecord it).payload.length)).sum) := by
  intro q
  induction q with
  | nil => intro body count; exact ⟨[], [], rfl, rfl, by simp, by simp, by simp⟩
  | cons it rest ih =>
    intro body count
    by_cases hc : body + 4 + (s.bundleRecord it).payload.length ≤ Config.maxBody
        ∧ count < Config.maxRecords
    · obtain ⟨taken, left, h1, h2, h3, h4,
        h5⟩ := ih (body + 4 + (s.bundleRecord it).payload.length) (count + 1)
      have hc' : body + 4 + (s.bundleRecord it).payload.length ≤ 128 ∧ count < 8 := hc
      refine ⟨it :: taken, left, by rw [h1]; rfl, ?_, ?_, ?_, ?_⟩
      · unfold State.takeBundle; rw [if_pos hc]; simp only [h2]; rfl
      · intro _; have := h3 (by omega); simp; omega
      · intro _; have := h4 (by omega); simp only [List.map_cons, List.sum_cons]; omega
      · intro it' more hl
        rcases h5 it' more hl with h | h
        · left; simp; omega
        · right; simp only [List.cons_append, List.map_cons, List.sum_cons] at *; omega
    · refine ⟨[], it :: rest, rfl, ?_, by simp, by simp, ?_⟩
      · unfold State.takeBundle; rw [if_neg hc]; rfl
      · intro it' more hl
        cases hl
        have hc' : ¬ (body + 4 + (s.bundleRecord it).payload.length ≤ 128 ∧ count < 8) := hc
        simp
        omega

end Sys2Proof.Machine
end

