-- ==== Sys2Proof/Laws/Ring.lean ====
section
/-! SUPPORT. The command ring: what a taking gives, what the checks of a command say, and what a completion
leaves in shared RAM. -/

namespace Sys2Proof.Machine

/-! ## Taking -/

theorem State.ramByte_of_none (s : State) (h : s.port.waiting = []) (a : Nat) :
    s.ramByte a = Memory.read s.port.ram a := by
  rw [State.ramByte, s.port.drain_of_none h]

theorem State.ramBytes_eq (s : State) (h : s.port.waiting = []) (a n : Nat) :
    s.port.engineReads a n = (s.ramBytes a n, s.port) := by
  rw [s.port.engineReads_of_none h]
  simp only [State.ramBytes, s.ramByte_of_none h]

/-- A submitted descriptor is taken, and its sixteen reads change nothing (R157). -/
theorem State.taking_of_submits (s : State) (d : Descriptor) (h : s.Submits d) :
    s.taking = some (d, s) := by
  obtain ⟨h1, h2, h3, h4⟩ := h
  subst h3
  simp [State.taking, h1, s.ramBytes_eq h2, h4]

theorem State.takingCode_of_submits (s : State) (d : Descriptor) (h : s.Submits d) :
    s.takingCode d.code = some (d, s) := by
  simp [State.takingCode, s.taking_of_submits d h]

/-! ## Checks -/

/-- A list of checks of the model, and the list of Table 9.6 that says the same. -/
abbrev SameChecks (checks : List (Bool × Status)) (table : List (Prop × Status)) : Prop :=
  List.Forall₂ (fun c p => (c.1 = true ↔ p.1) ∧ c.2 = p.2) checks table

theorem firstFailure_of_passes {checks : List (Bool × Status)} {table : List (Prop × Status)}
    (h : SameChecks checks table) (hp : ∀ k ∈ table, ¬ k.1) : firstFailure checks = none := by
  induction h with
  | nil => rfl
  | @cons c p checks table hc _ ih =>
    have : c.1 = false := by
      rw [← Bool.not_eq_true]
      exact fun hf => hp _ (List.mem_cons_self ..) (hc.1.mp hf)
    simp [firstFailure, this, ih (fun k hk => hp k (List.mem_cons_of_mem _ hk))]

theorem firstFailure_of_fails {checks : List (Bool × Status)} {table : List (Prop × Status)}
    (h : SameChecks checks table) {status : Status} (hf : FirstToFail table status) :
    firstFailure checks = some status := by
  obtain ⟨before, after, p, rfl, hp, hb⟩ := hf
  induction before generalizing checks with
  | nil =>
    obtain ⟨c, rest, hc, -, rfl⟩ := List.forall₂_cons_right_iff.mp h
    simp [firstFailure, hc.1.mpr hp, hc.2]
  | cons q before ih =>
    obtain ⟨c, rest, hc, hrest, rfl⟩ := List.forall₂_cons_right_iff.mp h
    have : c.1 = false := by
      rw [← Bool.not_eq_true]
      exact fun hf => hb _ (List.mem_cons_self ..) (hc.1.mp hf)
    simp [firstFailure, this, ih hrest (fun k hk => hb k (List.mem_cons_of_mem _ hk))]

/-- A command whose checks all pass is carried out. -/
theorem State.perform_of_passes (s : State) (d : Descriptor) {checks : List (Bool × Status)}
    {table : List (Prop × Status)} (carryOut : State → State) (h : SameChecks checks table)
    (hp : ∀ k ∈ table, ¬ k.1) : s.perform d checks carryOut = carryOut s := by
  simp [State.perform, firstFailure_of_passes h hp]

/-- A command with a failing check only completes, with the status of the first. -/
theorem State.perform_of_fails (s : State) (d : Descriptor) {checks : List (Bool × Status)}
    {table : List (Prop × Status)} (carryOut : State → State) (h : SameChecks checks table)
    {status : Status} (hf : FirstToFail table status) :
    s.perform d checks carryOut = s.finish d status := by
  simp [State.perform, firstFailure_of_fails h hf]

theorem State.consume_or_produce (s : State) (n : Nat) (h : s.entry n ≠ none) :
    (s.produce n).isSome = !(s.consume n).isSome := by
  unfold State.produce State.consume
  cases he : s.entry n with
  | none => exact absurd he h
  | some e => cases e with | mk o l r => cases r <;> rfl

theorem State.bufferPasses_iff (s : State) (b n : Nat) : s.bufferPasses b n = true ↔ s.BufferGood b n := by
  unfold State.bufferPasses State.BufferGood outsideRing
  by_cases hn : n = 0
  · simp [hn]
  · simp only [hn, beq_iff_eq, Bool.or_eq_true, Bool.and_eq_true, decide_eq_true_eq, false_or]
    simp only [Config.startRecordEnd, Config.ramEnd]
    constructor
    · rintro ⟨⟨⟨h1, h2⟩, (h3 | h3) | h3⟩, (h4 | h4) | h4⟩
      all_goals exact ⟨h1, by omega, fun a ha hb => ⟨by omega, by omega⟩⟩
    · rintro ⟨h1, h2, h3⟩
      refine ⟨⟨⟨h1, by omega⟩, ?_⟩, ?_⟩
      · by_contra hc
        have h4 := (h3 (max b s.cfg.cmdBase) (by omega) (by omega)).1
        omega
      · by_contra hc
        have h4 := (h3 (max b s.cfg.noticeBase) (by omega) (by omega)).2
        omega

theorem State.producing_iff (s : State) (h : s.station.life ≠ .awaitStart) :
    ((!s.producing) = true ↔ s.station.life.stopsProducing = true) := by
  unfold State.producing Life.stopsProducing
  cases hl : s.station.life <;> simp_all

section Checks
variable (s : State) (d : Descriptor)

theorem subscribeChecks_same : SameChecks (s.subscribeChecks d) (s.tableChecks d .subscribe) := by
  simp [State.subscribeChecks, State.tableChecks, Descriptor.badObject]
  simp [Config.objectCount, Config.directoryCapacity]

theorem consumeChecks_same : SameChecks (s.consumeChecks d) (s.tableChecks d .unsubscribe) := by
  simp [State.consumeChecks, State.tableChecks, Descriptor.badObject]
  simp [Config.objectCount]

theorem lockChecks_same :
    SameChecks (s.consumeChecks d ++ [((s.objectLine d.object).isNone, .notResident)])
      (s.tableChecks d .lock) := by
  simp [State.consumeChecks, State.tableChecks, Descriptor.badObject]
  simp [Config.objectCount]

theorem pullChecks_same (h : s.station.life ≠ .awaitStart) :
    SameChecks (s.pullChecks d) (s.tableChecks d .pull) := by
  simp [State.pullChecks, State.tableChecks, Descriptor.badObject, commandPlaceFree,
    ← s.producing_iff h]
  simp [Config.objectCount, Config.commandPlaces]

theorem relinquishChecks_same : SameChecks (s.relinquishChecks d) (s.tableChecks d .relinquish) := by
  simp [State.relinquishChecks, State.tableChecks, Descriptor.badObject]
  simp [Config.objectCount]

theorem readChecks_same : SameChecks (s.readChecks d) (s.tableChecks d .read) := by
  simp [State.readChecks, State.tableChecks, Descriptor.badObject, ← s.bufferPasses_iff]
  simp [Config.objectCount, Config.lineBytes]

theorem snapshotChecks_same : SameChecks (s.snapshotChecks d) (s.tableChecks d .snapshot) := by
  simp [State.snapshotChecks, State.tableChecks, ← s.bufferPasses_iff]

theorem writeChecks_same (h : s.station.life ≠ .awaitStart) :
    SameChecks (s.writeChecks d) (s.tableChecks d .write) := by
  simp only [State.writeChecks, State.tableChecks, ← s.bufferPasses_iff, ← s.producing_iff h]
  refine .cons ?_ (.cons ?_ (.cons ?_ (.cons ?_ (.cons ?_ (.cons ?_ (.cons ?_ .nil))))))
  · simp
  · simp [Descriptor.badObject]; rfl
  · simp; rfl
  · simp
  · simp
  · simp
  · cases s.produce d.object <;> simp

theorem freeSlot_none (slots : Vector (Option ClaimSlot) 4) :
    freeSlot slots = none ↔ ∀ k, slots.get k ≠ none := by
  simp only [freeSlot, List.find?_eq_none, Option.isNone_iff_eq_none]
  constructor
  · intro h k
    exact h k (by revert k; decide)
  · intro h k _
    exact h k

theorem claimChecks_same (h : s.station.life ≠ .awaitStart) :
    SameChecks (s.claimChecks d) (s.tableChecks d .claim) := by
  simp only [State.claimChecks, State.tableChecks, ← s.producing_iff h]
  refine .cons ?_ (.cons ?_ (.cons ?_ (.cons ?_ (.cons ?_ (.cons ?_ (.cons ?_ .nil))))))
  · simp
  · simp [Descriptor.badObject]; rfl
  · simp
  · cases s.produce d.object <;> simp
  · simp [freeSlot_none]
  · simp; exact fun _ => Iff.rfl
  · simp

theorem leaveChecks_same :
    SameChecks [(s.station.life != .active, .badState)] (s.tableChecks d .leave) := by
  simp [State.tableChecks]

theorem rejoinChecks_same :
    SameChecks [(s.station.life != .detached, .badState)] (s.tableChecks d .rejoin) := by
  simp [State.tableChecks]

end Checks

/-! ## Completion -/

/-- While a unit is SCANNING, the slot at its index lies in shared RAM (R141, R154). -/
theorem State.slot_in_ram (s : State) (h : s.RingsKept) (hs : s.command.scanning = true) :
    s.station.life ≠ .awaitStart ∧ s.slotAddress + 16 ≤ Config.ramEnd
      ∧ s.cfg.cmdBase ≤ s.slotAddress
      ∧ s.slotAddress + 16 ≤ s.cfg.cmdBase + 16 * s.cfg.cmdLength := by
  obtain ⟨h1, h2, -⟩ := h
  have hl : s.station.life ≠ .awaitStart := by
    intro hl; rw [(h1 hl).2.1] at hs; cases hs
  obtain ⟨hc, hi, -⟩ := h2 hl
  refine ⟨hl, ?_⟩
  cases hr : s.station.copy with
  | none => simp [hr] at hc
  | some r =>
    have hcfg : s.cfg = r := by simp [State.cfg, hr]
    simp only [hr, Option.map_some, Option.some.injEq, StartRecord.valid, StartRecord.checks, ringFits,
      List.all_cons, Bool.and_eq_true, decide_eq_true_eq, beq_iff_eq] at hc
    simp only [Config.startRecordEnd, Config.ramEnd] at hc
    rw [hcfg] at hi
    simp only [State.slotAddress, hcfg, Config.ramEnd]
    omega

/-- The completion writes, as shared RAM sees them (R158). -/
theorem State.complete_ramByte (t : State) (status : Status) (flags : Byte) (length detail : Nat)
    (hw : t.port.waiting = []) (hfit : t.slotAddress + 16 ≤ Config.ramEnd) (a : Nat) :
    (t.complete status flags length detail).ramByte a =
      if a = t.slotAddress then markerDone
      else if a = t.slotAddress + 12 then byteOf detail
      else if a = t.slotAddress + 9 then byteOf length
      else if a = t.slotAddress + 3 then flags
      else if a = t.slotAddress + 2 then status.code
      else t.ramByte a := by
  simp only [State.complete, State.ramByte, setCommand_port, setPort_port, HostPort.drain_drain]
  simp only [HostPort.drain_of_none, HostPort.engineWrite_of_none, hw, Memory.read_write]
  have h0 : t.slotAddress < Config.ramEnd := by omega
  have h2 : t.slotAddress + 2 < Config.ramEnd := by omega
  have h3 : t.slotAddress + 3 < Config.ramEnd := by omega
  have h9 : t.slotAddress + 9 < Config.ramEnd := by omega
  have h12 : t.slotAddress + 12 < Config.ramEnd := by omega
  simp only [h0, h2, h3, h9, h12, and_true]

/-- What a completion leaves, told from the state `s` in which the descriptor was taken. `t` is the state that
the command's effect has left. -/
theorem State.completed_of (s t : State) (status : Status) (flags : Byte) (length detail b n : Nat)
    (hcfg : t.cfg = s.cfg) (hcmd : t.command = s.command) (hw : s.port.waiting = [])
    (hport : t.port = { s.port with ram := t.port.ram })
    (hfit : s.slotAddress + 16 ≤ Config.ramEnd)
    (hbuf : ∀ a, ¬ (b ≤ a ∧ a < b + n) → Memory.read t.port.ram a = Memory.read s.port.ram a) :
    s.Completed (t.complete status flags length detail) status flags length detail b n := by
  have hwt : t.port.waiting = [] := by rw [hport]; exact hw
  have ha : t.slotAddress = s.slotAddress := by simp [State.slotAddress, hcfg, hcmd]
  have hfit' : t.slotAddress + 16 ≤ Config.ramEnd := by rw [ha]; exact hfit
  have hb := t.complete_ramByte status flags length detail hwt hfit'
  rw [ha] at hb
  refine ⟨?_, ?_, ?_, ?_, ?_, ?_, ?_, ?_⟩
  · simp [State.complete, hcmd, State.nextIndex, hcfg]
  · rw [hb]; simp
  · rw [hb]; simp
  · rw [hb]; simp
  · rw [hb]; simp
  · rw [hb]; simp
  · intro a hn hr
    simp only [List.mem_cons, List.not_mem_nil, or_false, not_or] at hn
    rw [hb]
    simp only [hn, if_false]
    rw [t.ramByte_of_none hwt, s.ramByte_of_none hw, hbuf a hr]
  · simp only [State.complete, setCommand_port, setPort_port]
    simp only [HostPort.drain_of_none, HostPort.engineWrite_of_none, hwt]
    rw [hport]
    simp [hw]

/-- A completion changes the Command Unit and shared RAM alone. -/
theorem State.complete_changesOnly (t : State) (status : Status) (flags : Byte) (length detail : Nat) :
    t.ChangesOnly (t.complete status flags length detail) [.command, .port] := by
  intro b hb
  cases b <;> simp_all [State.Agrees, State.complete]

/-! ## A taken command, by its code (Table 9.2) -/

/-- The code of a ring command. -/
theorem commandOf_code (code : Byte) (c : Instr) (h : commandOf code = some c) :
    [(1, Instr.subscribe), (2, .unsubscribe), (3, .claim), (4, .relinquish), (5, .write), (6, .read),
      (7, .pull), (8, .lock), (9, .unlock), (10, .unbind), (11, .snapshot), (12, .leave),
      (13, .rejoin)].contains (code.toNat, c) = true := by
  unfold commandOf at h
  split at h
  all_goals
    first
    | (next hc => rw [hc]; injection h with h; subst h; decide)
    | cases h

theorem codeOf (code : Byte) (n : Nat) (h : code.toNat = n) : code = BitVec.ofNat 8 n := by
  subst h; simp

section Taken
variable (s : State) (d : Descriptor)

/-- SUBSCRIBE that passes its checks. -/
theorem exec_subscribe_of_takes (h : s.Takes .subscribe d) :
    exec .subscribe s = .next ((s.setDirectory (insertEntry s.directory d.newConsume)).finish d .ok) := by
  obtain ⟨hs, hc, hp⟩ := h
  have tk := s.takingCode_of_submits d hs
  have hd : d.code = BitVec.ofNat 8 1 := codeOf _ _ (by simpa using commandOf_code _ _ hc)
  rw [hd] at tk
  show execSubscribe s = _
  unfold execSubscribe
  rw [show s.takingCode 0x01 = some (d, s) from tk]
  simp only [s.perform_of_passes d _ (subscribeChecks_same s d) hp]

/-- UNSUBSCRIBE that passes its checks. -/
theorem exec_unsubscribe_of_takes (h : s.Takes .unsubscribe d) :
    exec .unsubscribe s = .next ((s.removeEntry d.object).finish d .ok) := by
  obtain ⟨hs, hc, hp⟩ := h
  have tk := s.takingCode_of_submits d hs
  have hd : d.code = BitVec.ofNat 8 2 := codeOf _ _ (by simpa using commandOf_code _ _ hc)
  rw [hd] at tk
  show execUnsubscribe s = _
  unfold execUnsubscribe
  rw [show s.takingCode 0x02 = some (d, s) from tk]
  simp only [s.perform_of_passes d _ (consumeChecks_same s d) hp]

/-- CLAIM that passes its checks. -/
theorem exec_claim_of_takes (hl : s.station.life ≠ .awaitStart) (h : s.Takes .claim d) :
    exec .claim s = .next (((s.takeClaim d).finish d .ok).settle) := by
  obtain ⟨hs, hc, hp⟩ := h
  have tk := s.takingCode_of_submits d hs
  have hd : d.code = BitVec.ofNat 8 3 := codeOf _ _ (by simpa using commandOf_code _ _ hc)
  rw [hd] at tk
  show execClaim s = _
  unfold execClaim
  rw [show s.takingCode 0x03 = some (d, s) from tk]
  simp only [s.perform_of_passes d _ (claimChecks_same s d hl) hp]

/-- RELINQUISH that passes its checks. -/
theorem exec_relinquish_of_takes (h : s.Takes .relinquish d) :
    exec .relinquish s = .next (((s.release d.object d.tag).finish d .ok).settle) := by
  obtain ⟨hs, hc, hp⟩ := h
  have tk := s.takingCode_of_submits d hs
  have hd : d.code = BitVec.ofNat 8 4 := codeOf _ _ (by simpa using commandOf_code _ _ hc)
  rw [hd] at tk
  show execRelinquish s = _
  unfold execRelinquish
  rw [show s.takingCode 0x04 = some (d, s) from tk]
  simp only [s.perform_of_passes d _ (relinquishChecks_same s d) hp]

/-- WRITE that passes its checks. -/
theorem exec_write_of_takes (hl : s.station.life ≠ .awaitStart) (h : s.Takes .write d) :
    exec .write s = .next (((s.stage d.object (s.ramBytes d.buffer d.length)).finish d .ok).settle) := by
  obtain ⟨hs, hc, hp⟩ := h
  have tk := s.takingCode_of_submits d hs
  have hd : d.code = BitVec.ofNat 8 5 := codeOf _ _ (by simpa using commandOf_code _ _ hc)
  rw [hd] at tk
  show execWrite s = _
  unfold execWrite
  rw [show s.takingCode 0x05 = some (d, s) from tk]
  simp only [s.ramBytes_eq hs.2.1, s.perform_of_passes d _ (writeChecks_same s d hl) hp]
  rfl
/-- READ that passes its checks. -/
theorem exec_read_of_takes (h : s.Takes .read d) :
    exec .read s = .next (s.readLine d) := by
  obtain ⟨hs, hc, hp⟩ := h
  have tk := s.takingCode_of_submits d hs
  have hd : d.code = BitVec.ofNat 8 6 := codeOf _ _ (by simpa using commandOf_code _ _ hc)
  rw [hd] at tk
  show execRead s = _
  unfold execRead
  rw [show s.takingCode 0x06 = some (d, s) from tk]
  simp only [s.perform_of_passes d _ (readChecks_same s d) hp]

/-- PULL that passes its checks. -/
theorem exec_pull_of_takes (hl : s.station.life ≠ .awaitStart) (h : s.Takes .pull d) :
    exec .pull s = .next (((s.placeCommand (.pull d.object)).finish d .ok).settle) := by
  obtain ⟨hs, hc, hp⟩ := h
  have tk := s.takingCode_of_submits d hs
  have hd : d.code = BitVec.ofNat 8 7 := codeOf _ _ (by simpa using commandOf_code _ _ hc)
  rw [hd] at tk
  show execPull s = _
  unfold execPull
  rw [show s.takingCode 0x07 = some (d, s) from tk]
  simp only [s.perform_of_passes d _ (pullChecks_same s d hl) hp]

/-- LOCK that passes its checks. -/
theorem exec_lock_of_takes (h : s.Takes .lock d) :
    exec .lock s = .next ((s.markLocked d.object true).finish d .ok) := by
  obtain ⟨hs, hc, hp⟩ := h
  have tk := s.takingCode_of_submits d hs
  have hd : d.code = BitVec.ofNat 8 8 := codeOf _ _ (by simpa using commandOf_code _ _ hc)
  rw [hd] at tk
  show execLock s = _
  unfold execLock
  rw [show s.takingCode 0x08 = some (d, s) from tk]
  simp only [s.perform_of_passes d _ (lockChecks_same s d) hp]

/-- UNLOCK that passes its checks. -/
theorem exec_unlock_of_takes (h : s.Takes .unlock d) :
    exec .unlock s = .next ((s.markLocked d.object false).finish d .ok) := by
  obtain ⟨hs, hc, hp⟩ := h
  have tk := s.takingCode_of_submits d hs
  have hd : d.code = BitVec.ofNat 8 9 := codeOf _ _ (by simpa using commandOf_code _ _ hc)
  rw [hd] at tk
  show execUnlock s = _
  unfold execUnlock
  rw [show s.takingCode 0x09 = some (d, s) from tk]
  simp only [s.perform_of_passes d _ (consumeChecks_same s d) hp]

/-- UNBIND that passes its checks. -/
theorem exec_unbind_of_takes (h : s.Takes .unbind d) :
    exec .unbind s = .next ((s.updConsume d.object (fun c => { c with binding := .unbound })).finish d .ok) := by
  obtain ⟨hs, hc, hp⟩ := h
  have tk := s.takingCode_of_submits d hs
  have hd : d.code = BitVec.ofNat 8 10 := codeOf _ _ (by simpa using commandOf_code _ _ hc)
  rw [hd] at tk
  show execUnbind s = _
  unfold execUnbind
  rw [show s.takingCode 0x0A = some (d, s) from tk]
  simp only [s.perform_of_passes d _ (consumeChecks_same s d) hp]

/-- SNAPSHOT that passes its checks. -/
theorem exec_snapshot_of_takes (h : s.Takes .snapshot d) :
    exec .snapshot s = .next ((s.setPort (s.port.engineWrites d.buffer
        (s.summaries ((s.walk d.paramA).take d.length)))).complete .ok (descriptorFlags false)
        ((s.walk d.paramA).take d.length).length (if d.length < (s.walk d.paramA).length then 1 else 0)) := by
  obtain ⟨hs, hc, hp⟩ := h
  have tk := s.takingCode_of_submits d hs
  have hd : d.code = BitVec.ofNat 8 11 := codeOf _ _ (by simpa using commandOf_code _ _ hc)
  rw [hd] at tk
  show execSnapshot s = _
  unfold execSnapshot
  rw [show s.takingCode 0x0B = some (d, s) from tk]
  simp only [s.perform_of_passes d _ (snapshotChecks_same s d) hp]

/-- LEAVE that passes its checks. -/
theorem exec_leave_of_takes (h : s.Takes .leave d) :
    exec .leave s = .next (((s.beginLeave d.tag).finish d .ok).settle) := by
  obtain ⟨hs, hc, hp⟩ := h
  have tk := s.takingCode_of_submits d hs
  have hd : d.code = BitVec.ofNat 8 12 := codeOf _ _ (by simpa using commandOf_code _ _ hc)
  rw [hd] at tk
  show execLeave s = _
  unfold execLeave
  rw [show s.takingCode 0x0C = some (d, s) from tk]
  simp only [s.perform_of_passes d _ (leaveChecks_same s d) hp]

/-- REJOIN that passes its checks. -/
theorem exec_rejoin_of_takes (h : s.Takes .rejoin d) :
    exec .rejoin s = .next ((s.setStation { s.station with
        life := .joining, joinTimer := 0, joinRunning := true, joinOwed := false, keptTag := d.tag
        rejoined := true }).finish d .ok) := by
  obtain ⟨hs, hc, hp⟩ := h
  have tk := s.takingCode_of_submits d hs
  have hd : d.code = BitVec.ofNat 8 13 := codeOf _ _ (by simpa using commandOf_code _ _ hc)
  rw [hd] at tk
  show execRejoin s = _
  unfold execRejoin
  rw [show s.takingCode 0x0D = some (d, s) from tk]
  simp only [s.perform_of_passes d _ (rejoinChecks_same s d) hp]

end Taken

end Sys2Proof.Machine
end

