-- ==== Sys2Proof/Laws/Frames.lean ====
section
/-! SUPPORT. For each shared operation, the blocks that it can change: every other block is as it was. -/

namespace Sys2Proof.Machine

theorem highMarkTest_changesOnly (b : State) : b.ChangesOnly b.highMarkTest [.contention] := by
  unfold State.highMarkTest; split
  · exact setContention_changesOnly _ _
  · exact .refl _ _

theorem postOwnership_changesOnly (s : State) (a b c d e) :
    s.ChangesOnly (s.postOwnership a b c d e) [.notice, .contention] := post_changesOnly _ _

theorem postHoldEnded_changesOnly (s : State) (a) :
    s.ChangesOnly (s.postHoldEnded a) [.notice, .contention] := post_changesOnly _ _

theorem reportFall_changesOnly (s : State) (a) :
    s.ChangesOnly (s.reportFall a) [.notice, .contention] := by
  unfold State.reportFall; split
  · exact ((setContention_changesOnly _ _).mono (by decide)).trans (postHoldEnded_changesOnly _ _)
  · exact .refl _ _

theorem storePayload_changesOnly (s : State) (n b) : s.ChangesOnly (s.storePayload n b) [.store] := by
  unfold State.storePayload; split
  · exact .refl _ _
  · exact putSet_changesOnly _ _ _

theorem touchLine_changesOnly (s : State) (n) : s.ChangesOnly (s.touchLine n) [.store] := by
  unfold State.touchLine; split
  · exact .refl _ _
  · exact putSet_changesOnly _ _ _

theorem markLocked_changesOnly (s : State) (n b) : s.ChangesOnly (s.markLocked n b) [.store] := by
  unfold State.markLocked; split
  · exact .refl _ _
  · exact putSet_changesOnly _ _ _

theorem releaseSlot_changesOnly (s : State) (n) :
    s.ChangesOnly (s.releaseSlot n) [.directory, .ownership] := by
  unfold State.releaseSlot; split
  · exact .refl _ _
  · exact ((putSlot_changesOnly _ _ _).mono (by decide)).trans
      ((updProduce_changesOnly _ _ _).mono (by decide))

theorem handOn_changesOnly (s : State) (f) :
    s.ChangesOnly (s.handOn f) [.directory, .ownership, .contention] := by
  unfold State.handOn; split
  · exact (placeCommand_changesOnly _ _).mono (by decide)
  · exact (setOwnership_changesOnly _ _).mono (by decide)

theorem withdraw_changesOnly (s : State) (f) :
    s.ChangesOnly (s.withdraw f) [.directory, .ownership, .contention] := (withdraw_spec s f).1

theorem discardInHand_changesOnly (s : State) : s.ChangesOnly s.discardInHand [.contention] :=
  (discardInHand_discards s).1

theorem stripRecord_changesOnly (s : State) (n) :
    s.ChangesOnly (s.stripRecord n) [.directory, .contention] := by
  unfold State.stripRecord
  split
  · split
    · exact .refl _ _
    · exact .refl _ _
    · refine State.ChangesOnly.trans ?_ ((updProduce_changesOnly _ _ _).mono (by decide))
      split
      · exact (discardInHand_changesOnly s).mono (by decide)
      · exact (setContention_changesOnly _ _).mono (by decide)
  · exact .refl _ _

theorem dequeue_changesOnly (s : State) (n) : s.ChangesOnly (s.dequeue n) [.pubQueue, .directory] :=
    ((setPubQueue_changesOnly _ _).mono (by decide)).trans
    ((updProduce_changesOnly _ _ _).mono (by decide))

theorem appendNew_changesOnly (s : State) (n) : s.ChangesOnly (s.appendNew n) [.pubQueue, .directory] :=
    ((setPubQueue_changesOnly _ _).mono (by decide)).trans
    ((updProduce_changesOnly _ _ _).mono (by decide))

theorem appendRepeat_changesOnly (s : State) (n) :
    s.ChangesOnly (s.appendRepeat n) [.pubQueue, .directory] := by
  unfold State.appendRepeat; split
  · exact .refl _ _
  · split
    · exact ((setPubQueue_changesOnly _ _).mono (by decide)).trans
        ((updProduce_changesOnly _ _ _).mono (by decide))
    · exact .refl _ _

theorem stopPublishing_changesOnly (s : State) (n) :
    s.ChangesOnly (s.stopPublishing n) [.pubQueue, .directory, .ownership, .contention] :=
  ((dequeue_changesOnly s n).mono (by decide)).trans
      (((stripRecord_changesOnly _ n).mono (by decide)).trans
      ((withdraw_changesOnly _ _).mono (by decide)))

theorem loseClaim_changesOnly (s : State) (n a c) :
    s.ChangesOnly (s.loseClaim n a c) [.directory, .store, .ownership, .contention, .notice] := by
  unfold State.loseClaim
  exact ((withdraw_changesOnly _ _).mono (by decide)).trans
      (((withdraw_changesOnly _ _).mono (by decide)).trans
      (((releaseSlot_changesOnly _ _).mono (by decide)).trans
      (((postOwnership_changesOnly _ _ _ _ _ _).mono (by decide)).trans
      ((removeEntry_changesOnly _ _).mono (by decide)))))

theorem depose_changesOnly (s : State) (n a c) :
    s.ChangesOnly (s.depose n a c) [.pubQueue, .directory, .ownership, .contention, .notice] := by
  unfold State.depose
  exact ((stopPublishing_changesOnly _ _).mono (by decide)).trans
      (((updProduce_changesOnly _ _ _).mono (by decide)).trans
      ((postOwnership_changesOnly _ _ _ _ _ _).mono (by decide)))

theorem beginRelease_changesOnly (s : State) (n a) :
    s.ChangesOnly (s.beginRelease n a) [.directory, .ownership, .contention] := by
  unfold State.beginRelease
  exact ((updProduce_changesOnly _ _ _).mono (by decide)).trans
      ((handOn_changesOnly _ _).mono (by decide))

theorem releaseClaim_changesOnly (s : State) (n p a) :
    s.ChangesOnly (s.releaseClaim n p a) [.directory, .store, .ownership, .contention, .notice] := by
  unfold State.releaseClaim
  have h : s.ChangesOnly ((s.releaseSlot n).postOwnership n .claimFailed noStation .released (s.slotTag p)) [.directory, .store, .ownership, .contention, .notice] := ((releaseSlot_changesOnly _ _).mono (by decide)).trans ((postOwnership_changesOnly _ _ _ _ _ _).mono (by decide))
  dsimp only
  split
  · exact h.trans (((beginRelease_changesOnly _ _ _).mono (by decide)).trans
      (((withdraw_changesOnly _ _).mono (by decide)).trans
      ((withdraw_changesOnly _ _).mono (by decide))))
  · exact h.trans (((withdraw_changesOnly _ _).mono (by decide)).trans
      (((withdraw_changesOnly _ _).mono (by decide)).trans
      (((postOwnership_changesOnly _ _ _ _ _ _).mono (by decide)).trans
      ((removeEntry_changesOnly _ _).mono (by decide)))))

theorem release_changesOnly (s : State) (n a) :
    s.ChangesOnly (s.release n a) [.pubQueue, .directory, .store, .ownership, .contention, .notice] := by
  unfold State.release
  split
  · exact .refl _ _
  · split
    · exact (releaseClaim_changesOnly _ _ _ _).mono (by decide)
    · exact ((stopPublishing_changesOnly _ _).mono (by decide)).trans
        ((beginRelease_changesOnly _ _ _).mono (by decide))
    · exact .refl _ _
    · exact ((postOwnership_changesOnly _ _ _ _ _ _).mono (by decide)).trans
        ((removeEntry_changesOnly _ _).mono (by decide))

theorem foldl_changesOnly {α : Type} {L} (F : State → α → State) (h : ∀ t x,
    State.ChangesOnly t (F t x) L) : ∀ (l : List α) (s : State), s.ChangesOnly (l.foldl F s) L
  | [], s => .refl _ _
  | x :: l, s => (h s x).trans (foldl_changesOnly F h l _)

theorem beginWindow_changesOnly (s : State) (n) : s.ChangesOnly (s.beginWindow n) [.ownership] := by
  unfold State.beginWindow
  split
  · exact .refl _ _
  · split
    · split
      · exact putSlot_changesOnly _ _ _
      · exact .refl _ _
    · exact .refl _ _

theorem failClaim_changesOnly (s : State) (n) :
    s.ChangesOnly (s.failClaim n) [.directory, .store, .ownership, .contention, .notice] := by
  unfold State.failClaim
  split
  · exact .refl _ _
  · split
    · exact ((releaseSlot_changesOnly _ _).mono (by decide)).trans
        (((withdraw_changesOnly _ _).mono (by decide)).trans
        (((postOwnership_changesOnly _ _ _ _ _ _).mono (by decide)).trans
        ((removeEntry_changesOnly _ _).mono (by decide))))
    · exact .refl _ _

theorem endRelease_changesOnly (s : State) (n c) :
    s.ChangesOnly (s.endRelease n c) [.directory, .store, .contention, .notice] := by
  unfold State.endRelease
  split
  · exact .refl _ _
  · split
    · exact ((postOwnership_changesOnly _ _ _ _ _ _).mono (by decide)).trans
        ((removeEntry_changesOnly _ _).mono (by decide))
    · exact .refl _ _

theorem setOwnHold_changesOnly (s : State) (a b) :
    s.ChangesOnly (s.setOwnHold a b) [.contention] := setContention_changesOnly _ _

theorem holdSucceeded_changesOnly (s : State) (n) :
    s.ChangesOnly (s.holdSucceeded n) [.contention, .notice] := by
  unfold State.holdSucceeded
  split
  · exact ((setOwnHold_changesOnly _ _ _).mono (by decide)).trans
      ((post_changesOnly _ _).mono (by decide))
  · exact (setOwnHold_changesOnly _ _ _).mono (by decide)
  · split
    · exact ((setOwnHold_changesOnly _ _ _).mono (by decide)).trans
        ((highMarkTest_changesOnly _).mono (by decide))
    · exact .refl _ _
  · exact .refl _ _

theorem holdAbandoned_changesOnly (s : State) (n) :
    s.ChangesOnly (s.holdAbandoned n) [.contention, .notice] := by
  unfold State.holdAbandoned
  split
  · exact ((setOwnHold_changesOnly _ _ _).mono (by decide)).trans
      ((highMarkTest_changesOnly _).mono (by decide))
  · exact ((setOwnHold_changesOnly _ _ _).mono (by decide)).trans
      (((postHoldEnded_changesOnly _ _).mono (by decide)).trans
      ((highMarkTest_changesOnly _).mono (by decide)))
  · split
    · exact ((setOwnHold_changesOnly _ _ _).mono (by decide)).trans
        ((highMarkTest_changesOnly _).mono (by decide))
    · exact .refl _ _
  · exact .refl _ _

theorem postAbandoned_changesOnly (s : State) (l c) :
    s.ChangesOnly (s.postAbandoned l c) [.contention, .notice] := by
  unfold State.postAbandoned; split
  · exact .refl _ _
  · exact (post_changesOnly _ _).mono (by decide)

theorem reportSuccess_changesOnly (s : State) :
    s.ChangesOnly s.reportSuccess [.directory, .store, .ownership, .contention, .notice] := by
  unfold State.reportSuccess
  split
  · exact .refl _ _
  · exact (foldl_changesOnly _ commit_perRec.frame _ _).mono (by decide)
  · split
    · exact .refl _ _
    · exact (beginWindow_changesOnly _ _).mono (by decide)
  · exact (endRelease_changesOnly _ _ _).mono (by decide)
  · exact (holdSucceeded_changesOnly _ _).mono (by decide)
  · exact .refl _ _
  · exact .refl _ _

theorem reportAbandonment_changesOnly (s : State) (c) :
    s.ChangesOnly (s.reportAbandonment c) [.pubQueue, .directory, .store, .ownership, .contention, .notice] := by
  unfold State.reportAbandonment
  split
  · exact .refl _ _
  · exact ((returnRecords_spec _ _).2.1.mono (by decide)).trans
      ((postAbandoned_changesOnly _ _ _).mono (by decide))
  · split
    · exact .refl _ _
    · exact (failClaim_changesOnly _ _).mono (by decide)
  · exact (endRelease_changesOnly _ _ _).mono (by decide)
  · exact (holdAbandoned_changesOnly _ _).mono (by decide)
  · exact .refl _ _
  · exact .refl _ _

theorem dropFrame_changesOnly (s : State) :
    s.ChangesOnly s.dropFrame [.contention] := setContention_changesOnly _ _

theorem leaveIdle_changesOnly (s : State) : s.ChangesOnly s.leaveIdle [.contention] := by
  unfold State.leaveIdle; split
  · exact setContention_changesOnly _ _
  · exact .refl _ _

theorem enterDetached_changesOnly (s : State) :
    s.ChangesOnly s.enterDetached [.station, .contention, .notice] := by
  unfold State.enterDetached
  have h : s.ChangesOnly (((s.setStation { s.station with life := .detached }).post
    (s.stationNotice .left s.own 0 s.station.keptTag))) [.station, .contention, .notice] :=
        ((setStation_changesOnly _ _).mono (by decide)).trans ((post_changesOnly _ _).mono (by decide))
  dsimp only
  split
  · exact h.trans (((setContention_changesOnly _ _).mono (by decide)).trans
      ((postHoldEnded_changesOnly _ _).mono (by decide)))
  · exact h.trans ((setContention_changesOnly _ _).mono (by decide))

theorem settle_changesOnly (s : State) : s.ChangesOnly s.settle [.station, .contention, .notice] := by
  unfold State.settle; split
  · exact (enterDetached_changesOnly _).trans ((leaveIdle_changesOnly _).mono (by decide))
  · exact (leaveIdle_changesOnly _).mono (by decide)

theorem muteEntry_changesOnly (s : State) (n) :
    s.ChangesOnly (s.muteEntry n) [.directory, .store, .ownership, .contention, .notice] := by
  unfold State.muteEntry; split
  · exact .refl _ _
  · split
    · exact ((releaseSlot_changesOnly _ _).mono (by decide)).trans
        (((postOwnership_changesOnly _ _ _ _ _ _).mono (by decide)).trans
        ((removeEntry_changesOnly _ _).mono (by decide)))
    · exact ((postOwnership_changesOnly _ _ _ _ _ _).mono (by decide)).trans
        ((removeEntry_changesOnly _ _).mono (by decide))

theorem muteContention_changesOnly (s : State) :
    s.ChangesOnly s.muteContention [.contention, .notice] := by
  unfold State.muteContention; dsimp only; split
  · exact ((setContention_changesOnly _ _).mono (by decide)).trans
      ((postHoldEnded_changesOnly _ _).mono (by decide))
  · exact (setContention_changesOnly _ _).mono (by decide)

theorem enterMuted_changesOnly (s : State) :
    s.ChangesOnly s.enterMuted [.station, .pubQueue, .directory, .store, .ownership, .contention, .notice] := by
  unfold State.enterMuted; dsimp only
  refine State.ChangesOnly.trans ?_ ((foldl_changesOnly _ muteEntry_changesOnly _ _).mono (by decide))
  exact ((setStation_changesOnly _ _).mono (by decide)).trans
      (((post_changesOnly _ _).mono (by decide)).trans
      (((muteContention_changesOnly _).mono (by decide)).trans
      (((setOwnership_changesOnly _ _).mono (by decide)).trans
      ((setPubQueue_changesOnly _ _).mono (by decide)))))

theorem evict_changesOnly (s : State) (l d t) :
    s.ChangesOnly (s.evict l d t) [.directory, .contention, .notice] := by
  unfold State.evict; split
  · exact .refl _ _
  · dsimp only; split
    · exact (setDirectory_changesOnly _ _).mono (by decide)
    · exact ((setDirectory_changesOnly _ _).mono (by decide)).trans
        ((post_changesOnly _ _).mono (by decide))

theorem allocate_changesOnly (s : State) (n p d g w a) (h : s.allocate n p d g = some (w, a)) :
    s.ChangesOnly a [.directory, .store, .contention, .notice] := by
  unfold State.allocate at h
  split at h
  · cases h
  · dsimp only at h
    simp only [Option.some.injEq, Prod.mk.injEq] at h
    obtain ⟨-, rfl⟩ := h
    split
    · exact ((evict_changesOnly _ _ _ _).mono (by decide)).trans
        ((putSet_changesOnly _ _ _).mono (by decide))
    · exact (putSet_changesOnly _ _ _).mono (by decide)

theorem postBinding_changesOnly (s : State) (a b c d e) :
    s.ChangesOnly (s.postBinding a b c d e) [.contention, .notice] := by
  unfold State.postBinding; split
  · exact (post_changesOnly _ _).mono (by decide)
  · exact (post_changesOnly _ _).mono (by decide)
  · split
    · exact .refl _ _
    · exact (post_changesOnly _ _).mono (by decide)

theorem recordLine_changesOnly (s : State) (n a) (h : s.recordLine n = some a) :
    s.ChangesOnly a [.directory, .store, .contention, .notice] := by
  unfold State.recordLine at h
  split at h
  · cases h; exact .refl _ _
  · cases ha : s.allocate n false 1 0 with
    | none => rw [ha] at h; cases h
    | some wa =>
      rw [ha] at h; cases h
      exact (allocate_changesOnly _ _ _ _ _ wa.1 wa.2 ha).trans
          ((setDirectory_changesOnly _ _).mono (by decide))

theorem accept_changesOnly (s : State) (n c a b q p) :
    s.ChangesOnly (s.accept n c a b q p) [.directory, .store, .contention, .notice] := by
  unfold State.accept
  split
  · exact (post_changesOnly _ _).mono (by decide)
  · next lined h =>
    have h0 := recordLine_changesOnly _ _ _ h
    have h1 :
        s.ChangesOnly ((((lined.updConsume n (fun c => { c with binding := .bound a })).postBinding
      n a q p c.binding).storePayload n p).updConsume n (fun c => { c with replica := .fresh, lastSeq := some q, age := 0, ageRunning := true })) [.directory, .store, .contention, .notice] :=
      h0.trans (((updConsume_changesOnly _ _ _).mono (by decide)).trans
          (((postBinding_changesOnly _ _ _ _ _ _).mono (by decide)).trans
          (((storePayload_changesOnly _ _ _).mono (by decide)).trans
          ((updConsume_changesOnly _ _ _).mono (by decide)))))
    dsimp only
    split
    · exact h1.trans ((post_changesOnly _ _).mono (by decide))
    · exact h1

theorem checkSequence_changesOnly (s : State) (n c a b q p) :
    s.ChangesOnly (s.checkSequence n c a b q p) [.directory, .store, .contention, .notice] := by
  unfold State.checkSequence
  split
  · exact accept_changesOnly _ _ _ _ _ _ _
  · exact accept_changesOnly _ _ _ _ _ _ _
  · split
    · exact (updConsume_changesOnly _ _ _).mono (by decide)
    · split
      · exact accept_changesOnly _ _ _ _ _ _ _
      · exact ((post_changesOnly _ _).mono (by decide)).trans (accept_changesOnly _ _ _ _ _ _ _)

theorem judgeRecord_changesOnly (s : State) (n c a b q p) :
    s.ChangesOnly (s.judgeRecord n c a b q p) [.directory, .store, .contention, .notice] := by
  unfold State.judgeRecord
  split
  · exact accept_changesOnly _ _ _ _ _ _ _
  · exact accept_changesOnly _ _ _ _ _ _ _
  · split
    · exact checkSequence_changesOnly _ _ _ _ _ _ _
    · split
      · exact accept_changesOnly _ _ _ _ _ _ _
      · exact (post_changesOnly _ _).mono (by decide)

theorem buildBundle_changesOnly (s : State) :
    s.ChangesOnly s.buildBundle [.pubQueue, .directory, .contention] := by
  unfold State.buildBundle; dsimp only
  exact ((setPubQueue_changesOnly _ _).mono (by decide)).trans
      (((foldl_changesOnly _ bundle_perRec.frame _ _).mono (by decide)).trans
      ((setContention_changesOnly _ _).mono (by decide)))

theorem sendHead_changesOnly (s : State) (f r) :
    s.ChangesOnly (s.sendHead f r) [.directory, .ownership, .contention] := by
  unfold State.sendHead
  exact ((setContention_changesOnly _ _).mono (by decide)).trans
      ((placeFreed_changesOnly _ _).mono (by decide))

theorem chooseFrame_changesOnly (s : State) :
    s.ChangesOnly s.chooseFrame [.pubQueue, .directory, .ownership, .contention] := by
  unfold State.chooseFrame
  split
  · split
    · exact (setContention_changesOnly _ _).mono (by decide)
    · exact ((returnRecords_spec _ _).2.1.mono (by decide)).trans
        ((dropFrame_changesOnly _).mono (by decide))
  · exact (setContention_changesOnly _ _).mono (by decide)
  · split
    · exact (sendHead_changesOnly _ _ _).mono (by decide)
    · split
      · exact (buildBundle_changesOnly _).mono (by decide)
      · exact (setContention_changesOnly _ _).mono (by decide)

theorem collideAgain_changesOnly (s : State) :
    s.ChangesOnly s.collideAgain [.directory, .contention] := by
  unfold State.collideAgain
  split
  · exact (dropFrame_changesOnly _).mono (by decide)
  · unfold State.stripAll; dsimp only
    have h : ∀ l,
        s.ChangesOnly (List.foldl State.unsend s l) [.directory, .contention] := fun l => (foldl_changesOnly _ unsend_perRec.frame l s).mono (by decide)
    split
    · exact (h _).trans ((dropFrame_changesOnly _).mono (by decide))
    · exact (h _).trans (((setContention_changesOnly _ _).mono (by decide)).trans
        ((setContention_changesOnly _ _).mono (by decide)))
  · exact (setContention_changesOnly _ _).mono (by decide)

theorem collide_changesOnly (s : State) :
    s.ChangesOnly s.collide [.pubQueue, .directory, .store, .ownership, .contention, .notice] := by
  unfold State.collide; dsimp only; split
  · exact ((setContention_changesOnly _ _).mono (by decide)).trans
      (((reportAbandonment_changesOnly _ _).mono (by decide)).trans
      ((dropFrame_changesOnly _).mono (by decide)))
  · exact ((setContention_changesOnly _ _).mono (by decide)).trans
      ((collideAgain_changesOnly _).mono (by decide))

theorem complete_changesOnly (t : State) (a b c d) :
    t.ChangesOnly (t.complete a b c d) [.command, .port] := t.complete_changesOnly _ _ _ _

theorem finish_changesOnly (t : State) (a b) :
    t.ChangesOnly (t.finish a b) [.command, .port] := t.complete_changesOnly _ _ _ _

theorem claimEntry_changesOnly (s : State) (d k) :
    s.ChangesOnly (s.claimEntry d k) [.directory, .store, .contention, .notice] := by
  unfold State.claimEntry; split
  · exact (updProduce_changesOnly _ _ _).mono (by decide)
  · split
    · exact .refl _ _
    · next h => exact (allocate_changesOnly _ _ _ _ _ _ _ h).trans
                    ((setDirectory_changesOnly _ _).mono (by decide))

theorem takeClaim_changesOnly (s : State) (d) :
    s.ChangesOnly (s.takeClaim d) [.directory, .store, .ownership, .contention, .notice] := by
  unfold State.takeClaim; split
  · exact .refl _ _
  · exact ((claimEntry_changesOnly _ _ _).mono (by decide)).trans
      (((putSlot_changesOnly _ _ _).mono (by decide)).trans ((handOn_changesOnly _ _).mono (by decide)))

theorem stage_changesOnly (s : State) (d b) :
    s.ChangesOnly (s.stage d b) [.directory, .store, .pubQueue] := by
  unfold State.stage; dsimp only
  have h : s.ChangesOnly ((s.storePayload d b).updProduce d (fun p => { p with staged := true, pending := true })) [.directory, .store, .pubQueue] := ((storePayload_changesOnly _ _ _).mono (by decide)).trans ((updProduce_changesOnly _ _ _).mono (by decide))
  split
  · exact h.trans ((appendNew_changesOnly _ _).mono (by decide))
  · exact h

theorem taking_changesOnly (s : State) (d t) (h : s.taking = some (d, t)) :
    s.ChangesOnly t [.port] := by
  unfold State.taking at h
  split at h
  · dsimp only at h; split at h
    · cases h; exact setPort_changesOnly _ _
    · cases h
  · cases h

theorem takingCode_changesOnly (s : State) (c d t) (h : s.takingCode c = some (d, t)) :
    s.ChangesOnly t [.port] := by
  unfold State.takingCode at h
  cases hk : s.taking with
  | none => rw [hk] at h; cases h
  | some x =>
    rw [hk] at h
    simp only [Option.bind_some] at h
    split at h
    · cases h; exact taking_changesOnly s d t hk
    · cases h

theorem readLine_changesOnly (s : State) (d) :
    s.ChangesOnly (s.readLine d) [.store, .command, .port] := by
  unfold State.readLine; split
  · exact ((setPort_changesOnly _ _).mono (by decide)).trans
      (((touchLine_changesOnly _ _).mono (by decide)).trans
      ((complete_changesOnly _ _ _ _ _).mono (by decide)))
  · exact (complete_changesOnly _ _ _ _ _).mono (by decide)

theorem beginLeave_changesOnly (s : State) (g) :
    s.ChangesOnly (s.beginLeave g) [.station, .directory, .store, .ownership, .pubQueue, .contention, .notice] := by
  unfold State.beginLeave; dsimp only
  exact ((setStation_changesOnly _ _).mono (by decide)).trans
      ((foldl_changesOnly _ (fun t n => release_changesOnly t n g) _ _).mono (by decide))

theorem windowEnds_changesOnly (s : State) (k) :
    s.ChangesOnly (s.windowEnds k)
      [.station, .directory, .ownership, .pubQueue, .contention, .notice] := by
  unfold State.windowEnds
  split
  · exact .refl _ _
  · split
    · exact .refl _ _
    · split
      · refine State.ChangesOnly.trans ?_ ((settle_changesOnly _).mono (by decide))
        unfold State.grantClaim; dsimp only
        split
        · exact ((putSlot_changesOnly _ _ _).mono (by decide)).trans
            (((updProduce_changesOnly _ _ _).mono (by decide)).trans
            (((postOwnership_changesOnly _ _ _ _ _ _).mono (by decide)).trans
            ((appendNew_changesOnly _ _).mono (by decide))))
        · exact ((putSlot_changesOnly _ _ _).mono (by decide)).trans
            (((updProduce_changesOnly _ _ _).mono (by decide)).trans
            ((postOwnership_changesOnly _ _ _ _ _ _).mono (by decide)))
      · exact .refl _ _

theorem lastFall_changesOnly (s : State) :
    s.ChangesOnly s.lastFall [.station, .contention, .notice] := by
  unfold State.lastFall
  split
  · exact .refl _ _
  · exact ((setContention_changesOnly _ _).mono (by decide)).trans (settle_changesOnly _)

theorem ownHoldEnds_changesOnly (s : State) :
    s.ChangesOnly s.ownHoldEnds [.station, .contention, .notice] := by
  unfold State.ownHoldEnds State.expireOwnHold
  split
  · refine State.ChangesOnly.trans ?_ (settle_changesOnly _)
    split
    · exact (setContention_changesOnly _ _).mono (by decide)
    · exact ((setOwnHold_changesOnly _ _ _).mono (by decide)).trans
        ((postHoldEnded_changesOnly _ _).mono (by decide))
  · exact .refl _ _

theorem joinEnds_changesOnly (s : State) :
    s.ChangesOnly s.joinEnds [.station, .contention, .notice] := by
  unfold State.joinEnds State.enterActive
  split
  · refine State.ChangesOnly.trans ?_ (settle_changesOnly _)
    have h : s.ChangesOnly (s.setStation { s.station with
        life := .active, joinTimer := s.station.joinTimer + 1, joinRunning := false, joinOwed := false })
        [.station, .contention, .notice] := (setStation_changesOnly _ _).mono (by decide)
    exact h.trans (((post_changesOnly _ _).mono (by decide)).trans
      ((highMarkTest_changesOnly _).mono (by decide)))
  · exact .refl _ _

/-- What the owed boundaries can change. -/
theorem carryOutSlots_changesOnly (s : State) :
    s.ChangesOnly s.carryOutSlots [.station, .directory, .ownership, .pubQueue, .contention, .notice] :=
  (foldl_changesOnly _ windowEnds_changesOnly _ _).trans
    (((lastFall_changesOnly _).mono (by decide)).trans
    (((ownHoldEnds_changesOnly _).mono (by decide)).trans ((joinEnds_changesOnly _).mono (by decide))))

theorem expireRefresh_changesOnly (s : State) (n) :
    s.ChangesOnly (s.expireRefresh n) [.pubQueue, .directory] :=
  (appendRepeat_changesOnly _ _).trans ((updProduce_changesOnly _ _ _).mono (by decide))

theorem expireAge_changesOnly (s : State) (n c) :
    s.ChangesOnly (s.expireAge n c) [.directory, .contention, .notice] := by
  unfold State.expireAge; dsimp only
  have h := (updConsume_changesOnly s n (fun c => { c with age := c.ageLimit, ageRunning := false })).mono
    (l' := [.directory, .contention, .notice]) (by decide)
  split
  · exact h.trans (((updConsume_changesOnly _ _ _).mono (by decide)).trans
      ((post_changesOnly _ _).mono (by decide)))
  · exact h.trans (((updConsume_changesOnly _ _ _).mono (by decide)).trans
      ((post_changesOnly _ _).mono (by decide)))
  · exact h.trans (((updConsume_changesOnly _ _ _).mono (by decide)).trans
      ((post_changesOnly _ _).mono (by decide)))
  · exact h.trans (((updConsume_changesOnly _ _ _).mono (by decide)).trans
      ((post_changesOnly _ _).mono (by decide)))
  all_goals exact h

theorem tickEntry_changesOnly (s : State) (n) :
    s.ChangesOnly (s.tickEntry n) [.station, .directory, .pubQueue, .contention, .notice] := by
  unfold State.tickEntry
  split
  · exact .refl _ _
  · split
    · dsimp only
      split
      · split
        · exact ((setDirectory_changesOnly _ _).mono (by decide)).trans
            (((expireRefresh_changesOnly _ _).mono (by decide)).trans ((settle_changesOnly _).mono (by decide)))
        · exact ((setDirectory_changesOnly _ _).mono (by decide)).trans
            (((expireAge_changesOnly _ _ _).mono (by decide)).trans ((settle_changesOnly _).mono (by decide)))
      · exact ((setDirectory_changesOnly _ _).mono (by decide)).trans
          ((setDirectory_changesOnly _ _).mono (by decide))
    · exact .refl _ _

theorem tickTimer_changesOnly (s : State) : s.ChangesOnly s.tickTimer [.notice] := by
  unfold State.tickTimer State.updateInt
  split
  · split
    · exact (setNotice_changesOnly _ _).trans (setNotice_changesOnly _ _)
    · exact setNotice_changesOnly _ _
  · exact .refl _ _

/-- What the owed ticks can change. -/
theorem carryOutTicks_changesOnly (s : State) :
    s.ChangesOnly s.carryOutTicks [.station, .directory, .pubQueue, .contention, .notice] :=
  (foldl_changesOnly _ tickEntry_changesOnly _ _).trans ((tickTimer_changesOnly _).mono (by decide))

theorem perform_changesOnly (s : State) (d) (ch) (k : State
    → State) {L} (hL : [Block.command, .port] ⊆ L) (h : s.ChangesOnly (k s) L) :
    s.ChangesOnly (s.perform d ch k) L := by
  unfold State.perform; split
  · exact (finish_changesOnly _ _ _).mono hL
  · exact h

theorem tickAll_changesOnly (s : State) (late b) :
    s.ChangesOnly (s.tickAll late b) [.station, .directory, .notice] :=
  ((setStation_changesOnly _ _).mono (by decide)).trans
    (((setDirectory_changesOnly _ _).mono (by decide)).trans ((setNotice_changesOnly _ _).mono (by decide)))

theorem arrive_changesOnly (s : State) (items) : s.ChangesOnly (s.arrive items) [.dispatch] :=
  setDispatch_changesOnly _ _

theorem registerByte_changesOnly (s t : State) (v w a) (h : s.registerByte v w a = some t) :
    s.ChangesOnly t [.port] := by
  unfold State.registerByte at h
  cases hk : s.port.spiByte v w a with
  | none => rw [hk] at h; cases h
  | some p => rw [hk] at h; cases h; exact setPort_changesOnly _ _

end Sys2Proof.Machine
end

