-- ==== Sys2Proof/Laws/Allocation.lean ====
section
/-! SUPPORT. Allocation and eviction: the entries and the lines after them. -/

namespace Sys2Proof.Machine

/-- An eviction with no CONSUME entry to evict changes nothing (R26). -/
theorem evict_none (s : State) (l d t) (h : s.consume l.object = none) : s.evict l d t = s := by
  simp [State.evict, h]

/-- The two things an eviction does (R26). -/
theorem evict_some (s : State) (l d t) (c) (h : s.consume l.object = some c) : s.evict l d t =
   (let cut := s.setDirectory (updateEntry s.directory l.object (fun e =>
      { (e.mapConsume (fun c => { c with replica := .absent, lastSeq := none })) with line := none }))
    if c.notify = .none then cut else cut.post (s.evictedNotice l c d t)) := by
  simp [State.evict, h]

/-- The entry that an eviction leaves (R26). -/
def cutEntry (e : Entry) : Entry :=
  { (e.mapConsume (fun c => { c with replica := .absent, lastSeq := none })) with line := none }

theorem evict_entry (s : State) (l d t) (m) : (s.evict l d t).entry m = if (s.consume l.object).isSome
    ∧ m = l.object then (s.entry m).map cutEntry else s.entry m := by
  cases h : s.consume l.object with
  | none => rw [evict_none _ _ _ _ h]; simp
  | some c =>
    rw [evict_some _ _ _ _ c h]
    dsimp only
    have : (s.setDirectory (updateEntry s.directory l.object cutEntry)).entry m = if m = l.object
        then (s.entry m).map cutEntry else s.entry m := by
      show lookup (updateEntry s.directory l.object cutEntry) m = _
      rw [lookup_updateEntry _ _ _ _ (by intro e; simp [cutEntry])]
      split
      · next h => subst h; rfl
      · rfl
    split
    · exact this.trans (by simp)
    · rw [post_entry]; exact this.trans (by simp)

/-- What an allocation does to the entries (R24 to R26). -/
theorem allocate_entry (s : State) (n p d g w a) (h : s.allocate n p d g = some (w, a)) (m) :
   a.entry m = if (s.lineAt (setIndex n) w).valid = true
       ∧ (s.consume (s.lineAt (setIndex n) w).object).isSome ∧ m = (s.lineAt (setIndex n) w).object
       then (s.entry m).map cutEntry else s.entry m := by
  unfold State.allocate at h
  cases hc : (s.setOf n).choose with
  | none => rw [hc] at h; cases h
  | some w' =>
    rw [hc] at h
    simp only [Option.some.injEq, Prod.mk.injEq] at h
    obtain ⟨rfl, rfl⟩ := h
    rw [putSet_entry]
    by_cases hv : ((s.setOf n).line w').valid = true
    · rw [if_pos hv, evict_entry]
      have : (s.lineAt (setIndex n) w').valid = true := hv
      simp only [this, true_and]; rfl
    · rw [if_neg hv]
      have : ¬ (s.lineAt (setIndex n) w').valid = true := hv
      rw [if_neg (fun h => this h.1)]

/-- The way that is chosen holds no pinned line (R24). -/
theorem choose_unpinned (x : ReplicaSet) (w) (h : x.choose = some w) : (x.line w).valid = true
    → (x.line w).pinned = false := by
  unfold ReplicaSet.choose at h
  split at h
  · next h0 => cases h; intro hv; change x.way0.valid = true at hv; rw [hv] at h0; cases h0
  · split at h
    · next h0 => cases h; intro hv; change x.way1.valid = true at hv; rw [hv] at h0; cases h0
    · unfold Line.eligible at h
      intro _
      have hline : ∀ w, x.line w = if w = .way0 then x.way0 else x.way1 := by intro w; cases w <;> rfl
      cases hp0 : x.way0.pinned <;> cases hp1 : x.way1.pinned <;> cases hl0 : x.way0.locked
          <;> cases hl1 : x.way1.locked <;> simp [hp0, hp1, hl0, hl1] at h <;> (try subst h)
          <;> (try exact hp0) <;> (try exact hp1) <;> (try (rw [hline]; split
          <;> first | exact hp0 | exact hp1))

/-- What an allocation does to the lines (R25). -/
theorem allocate_lineAt (s : State) (n p d g w a) (h : s.allocate n p d g = some (w, a)) :
    (s.setOf n).choose = some w ∧ ∀ k v, a.lineAt k v = if k = setIndex n ∧ v = w
    then Line.allocated n p else s.lineAt k v := by
  unfold State.allocate at h
  cases hc : (s.setOf n).choose with
  | none => rw [hc] at h; cases h
  | some w' =>
    rw [hc] at h
    simp only [Option.some.injEq, Prod.mk.injEq] at h
    obtain ⟨rfl, rfl⟩ := h
    refine ⟨rfl, fun k v => ?_⟩
    rw [putLine_touch_lineAt]
    have : ∀ (u : State), u.store = s.store → ∀ k v,
        u.lineAt k v = s.lineAt k v := fun u hu k v => by simp only [State.lineAt, hu]
    split
    · rfl
    · split
      · exact this _ (evict_changesOnly _ _ _ _ .store (by decide)) k v
      · rfl

end Sys2Proof.Machine
end

