-- ==== Sys2Proof/Laws/Items.lean ====
section
/-! SUPPORT. The items of a valid frame, their turns in the dispatch list, and the frame that the part drives. -/

namespace Sys2Proof.Machine

/-- The items of a DATA body (R39). -/
theorem parseRecords_ok (source : Nat) : ∀ (fuel : Nat) (b : List Byte) (items),
    parseRecords source fuel b = some items →
   items.length ≤ fuel ∧ ∀ it ∈ items, ∃ n rep q payload, it = .record source n rep q payload ∧ n < 4096
       ∧ payload.length ≤ 64 := by
  intro fuel
  induction fuel with
  | zero =>
    intro b items h
    cases b with
    | nil => simp [parseRecords] at h; subst h; simp
    | cons x xs => simp [parseRecords] at h
  | succ fuel ih =>
    intro b items h
    match b, h with
    | [], h => simp [parseRecords] at h; subst h; simp
    | [_], h => simp [parseRecords] at h
    | [_, _], h => simp [parseRecords] at h
    | [_, _, _], h => simp [parseRecords] at h
    | b0 :: b1 :: sq :: len :: rest, h =>
      simp only [parseRecords] at h
      split at h
      · next hc =>
        rw [Option.map_eq_some_iff] at h
        obtain ⟨its, h1, rfl⟩ := h
        obtain ⟨i1, i2⟩ := ih _ _ h1
        refine ⟨by simp; omega, ?_⟩
        intro it hit
        rcases List.mem_cons.mp hit with rfl | hit
        · refine ⟨_, _, _, _, rfl, ?_, ?_⟩
          · have := b0.isLt; have := b1.isLt; omega
          · have : len.toNat ≤ 64 := hc.2.1
            rw [List.length_take]; omega
        · exact i2 it hit
      · cases h

/-- The items of a valid frame carry its source and stay within the ranges of R38 and R39. -/
theorem judge_items (f : RxFrame) (rest items) (h : judgeFrame f rest = some items) : items.length ≤ 8
    ∧ ∀ it ∈ items,
        match it with
        | .record m n _ _ payload => m = f.source ∧ n < 4096 ∧ payload.length ≤ 64
        | .claim m n | .dispute m n | .relinquish m n | .pull m n => m = f.source ∧ n < 4096
        | .hold m n => m = f.source ∧ n < 1024 := by
  unfold judgeFrame at h
  split at h
  · cases h
  · next b1 b2 hh =>
    split at h
    · have hs : f.source = headerSource b1 := by unfold RxFrame.source; rw [hh]
      unfold parseBody at h
      split at h
      · obtain ⟨a, b⟩ := parseRecords_ok _ _ _ _ h
        refine ⟨a, ?_⟩
        intro it hit
        obtain ⟨n, rep, q, p, rfl, h1, h2⟩ := b it hit
        exact ⟨hs.symm, h1, h2⟩
      · rw [Option.map_eq_some_iff] at h
        obtain ⟨it, h1, rfl⟩ := h
        refine ⟨by simp, ?_⟩
        intro it' hit
        obtain rfl := List.mem_singleton.mp hit
        unfold parseControl at h1
        split at h1
        · split at h1
          · next h3 => cases h1; exact ⟨hs.symm, h3⟩
          · cases h1
        · split at h1
          · next h3 =>
            split at h1 <;> first | (cases h1; exact ⟨hs.symm, h3⟩) | cases h1
          · cases h1
    · cases h

/-! ## Turns (R9, R45, R46) -/

theorem ignores_eq (s : State) : s.ignores = fun it => !s.handsOn it := by
  funext it; cases it <;> simp [State.ignores, State.handsOn]

theorem meetFirst_eq (s : State) (items : List Item) : s.meetFirst items = s.afterFirstTurn items := by
  cases items with
  | nil => rfl
  | cons it rest =>
    simp only [State.meetFirst, State.afterFirstTurn, ignores_eq]
    cases s.handsOn it <;> rfl

/-- The dispatch list as the items of a frame arrive. -/
theorem arrive_dispatch (s : State) (items : List Item) : (s.arrive items).dispatch =
    if s.dispatch.dropWhile s.ignores = [] then s.afterFirstTurn items
    else s.dispatch.dropWhile s.ignores ++ items := by
  rw [ignores_eq, ← meetFirst_eq]
  show (match s.nextItems with | [] => _ | it :: rest => _) = _
  unfold State.nextItems
  cases s.dispatch.dropWhile (fun it => !s.handsOn it) <;> simp

/-! ## The frame that the part drives (R88, R124) -/

theorem InHand.bytes_length (f : InHand) (source : Nat) : (f.bytes source).length = f.body.length + 5 := by
  simp [InHand.bytes, InHand.covered, twoBytes]

theorem drivenFrame_of_inHand (s : State) (f : InHand) (h : s.contention.inHand = some f) :
    s.drivenFrame = some (f.bytes s.own) := by simp [State.drivenFrame, h]

theorem pastWindow_of_inHand (s : State) (f : InHand) (h : s.contention.inHand = some f) :
    s.pastWindow = decide (Config.collisionWindow < f.body.length + 5) := by
  simp [State.pastWindow, drivenFrame_of_inHand s f h, InHand.bytes_length]

end Sys2Proof.Machine
end

