-- ==== Sys2Proof/Tests/Slice0.lean ====
section
/-! SUPPORT. The model's own tests: the smoke tests of well-formedness, the spec's worked examples, one command each
on a small state, and for every statement with hypotheses a state and operands that meet them all. -/

namespace Sys2Proof.Tests

open Sys2Proof Sys2Proof.Machine

set_option Elab.async false

/-! ## Well-formedness: each check refuses an ill-formed command -/

theorem test_refuses_ignored_write_to_control_start :
    (Instr.registerWriteIgnored .first 0x4006 0x01).wellFormed = false := by decide
theorem test_refuses_ignored_write_to_shared_ram :
    (Instr.registerWriteIgnored .first 0x3FFF 0).wellFormed = false := by decide
theorem test_refuses_shared_ram_write_above_its_end :
    (Instr.sharedRamWrite .first 0x4000 0 0).wellFormed = false := by decide
theorem test_refuses_frame_end_without_crc : (Instr.frameEnd [0x00]).wellFormed = false := by decide
theorem test_refuses_grant_of_slot_4 : (Instr.grant 4).wellFormed = false := by decide
theorem test_refuses_refresh_of_object_4096 : (Instr.refreshExpiry 4096).wellFormed = false := by decide
theorem test_refuses_age_of_object_4096 : (Instr.ageExpiry 4096).wellFormed = false := by decide
theorem test_refuses_start_byte_above_shared_ram :
    (Instr.start .only [⟨.first, 0x4000, 0, 0⟩]).wellFormed = false := by decide
theorem test_refuses_late_tick_of_object_4096 : (Instr.tick [4096] false).wellFormed = false := by decide
theorem test_accepts_boundary_operands :
    (Instr.registerWriteIgnored .next 0xFFFF 0).wellFormed = true
      ∧ (Instr.sharedRamWrite .first 0x3FFF 0 0).wellFormed = true
      ∧ (Instr.grant 3).wellFormed = true ∧ (Instr.ageExpiry 4095).wellFormed = true
      ∧ (Instr.start .only [⟨.first, 0x3FFF, 0, 32⟩]).wellFormed = true
      ∧ (Instr.tick [0, 4095] true).wellFormed = true := by decide

/-- No row of the table gives bits. -/
theorem test_no_word_spells_a_command : decodeTableWord 8 0x01 = none := rfl

/-! ## Small states -/

/-- A valid start record: station 8, command ring of 4 slots at 0x0020, notice ring of 8 slots at 0x0060. -/
def record : StartRecord :=
  { station := 8, bitRate := 0, retryLimit := 3, claimWindow := 8, joinPeriod := 16, tickLength := 1
    cmdLength := 4, cmdBase := 0x0020, noticeLength := 8, noticeBase := 0x0060, holdLength := 16
    highMark := 4, lowMark := 1, trigger := 2, coalescing := 2 }

/-- Its 32 bytes as Table 11.6 lays them out. -/
def recordBytes : List Byte :=
  [8, 0, 3, 8, 0, 16, 1, 4, 0x00, 0x20, 8, 0x00, 0x60, 0, 16, 4, 1, 2, 2] ++ List.replicate 13 0

/-- A station in a life-cycle state, nothing else happened since reset. -/
def station (life : Life) : State :=
  { State.reset with station := { Station.reset with life := life, copy := some record } }

/-- A station that is ACTIVE. -/
def active : State := station .active

/-- Bytes of shared RAM from an address on, as its canonical list. -/
def cells (a : Nat) (bytes : List Byte) : List Host.Cell :=
  (((List.range bytes.length).map (a + ·)).zip bytes).filter (fun c => c.2 != 0)

/-- A descriptor as Table 11.7 lays it out. -/
def descriptor (code : Byte) (object paramA paramB length buffer tag : Nat) : List Byte :=
  [0x01, code, 0, 0] ++ twoBytes object ++ twoBytes paramA ++ [byteOf paramB, byteOf length]
    ++ twoBytes buffer ++ [0, 0] ++ twoBytes tag

/-- A state that is SCANNING, with a descriptor in the slot at its index. -/
def submit (s : State) (bytes : List Byte) : State :=
  { s with port := { s.port with ram := cells s.slotAddress bytes }
           command := { s.command with scanning := true } }

/-- A CONSUME entry. -/
def consumer (n : Nat) (line : Option Way) (binding : Binding) (replica : Replica) (last : Option Byte)
    (limit : Nat) (notify : NotifyMode) : Entry :=
  { object := n, line := line, tickOwed := false
    role := .consume { binding := binding, replica := replica, lastSeq := last, ageLimit := limit, age := 0
                       ageRunning := true, notify := notify } }

/-- A PRODUCE part without a claim or a release. -/
def produced (o : Ownership) (committed : Option Byte) : Produce :=
  { ownership := o, committed := committed, staged := true, pending := false, queued := .no, inFlight := .no
    refreshPeriod := 4, refreshCounter := 0, claimSlot := none, releaseQueued := false, releaseTag := none }

/-- A PRODUCE entry in way 0. -/
def producer (n : Nat) (p : Produce) : Entry :=
  { object := n, line := some .way0, tickOwed := false, role := .produce p }

/-- A state with some entries. -/
def withEntries (s : State) (es : List Entry) : State := { s with directory := es }

/-- A line with a value. -/
def lineOf (n : Nat) (value : List Byte) (pinned locked : Bool) : Line :=
  { valid := true, object := n, length := value.length, payload := linePayload value, pinned := pinned
    locked := locked }

/-- A state whose set of object `n` is `x`. -/
def withSet (s : State) (n : Nat) (x : ReplicaSet) : State := s.putSet n x

/-- A state with items to dispatch. -/
def hearing (s : State) (items : List Item) : State := { s with dispatch := items }

/-- One field of the next state. -/
def after {α : Type} (o : Host.Outcome State Fault Refusal) (f : State → α) : Option α :=
  match o with
  | .next t => some (f t)
  | .fault _ => none
  | .refused _ => none

/-! ## Ways to show the hypotheses -/

/-- What `firstFailure` finds is the first check to fail. -/
theorem firstToFail_of {checks : List (Bool × Status)} {table : List (Prop × Status)} {status : Status}
    (h : SameChecks checks table) (hf : firstFailure checks = some status) : FirstToFail table status := by
  induction h with
  | nil => cases hf
  | @cons c p checks table hc _ ih =>
    obtain ⟨p, st⟩ := p
    by_cases hp : p
    · obtain rfl : st = status := by simpa [firstFailure, hc.1.mpr hp, hc.2] using hf
      exact ⟨[], table, p, rfl, hp, by simp⟩
    · have : c.1 = false := by rw [← Bool.not_eq_true]; exact fun h => hp (hc.1.mp h)
      obtain ⟨before, after, q, he, hq, hb⟩ := ih (by simpa [firstFailure, this] using hf)
      exact ⟨(p, st) :: before, after, q, by rw [he]; rfl, hq, by simpa [hp] using hb⟩

/-- Checks none of which fails. -/
theorem passes_of {checks : List (Bool × Status)} {table : List (Prop × Status)}
    (h : SameChecks checks table) (hf : firstFailure checks = none) : ∀ k ∈ table, ¬ k.1 := by
  induction h with
  | nil => simp
  | @cons c p checks table hc _ ih =>
    have : c.1 = false := by
      rw [← Bool.not_eq_true]; intro hc'; simp [firstFailure, hc'] at hf
    have hp : ¬ p.1 := fun hp => by simp [hc.1.mpr hp] at this
    simpa [hp] using ih (by simpa [firstFailure, this] using hf)

/-- Storage in its form, as a check. -/
def storageCheck (s : State) : Bool :=
  Memory.wf s.port.ram
    && s.store.toList.all (fun x => [x.way0, x.way1].all (fun l =>
      l.length ≤ 64 && l.payload.length == 64 && (l.payload.drop l.length).all (· == 0)))
    && s.dispatch.all (fun it => match it with | .record _ _ _ _ p => p.length ≤ 64 | _ => true)

theorem storage_of (s : State) (h : storageCheck s = true) : s.StorageCanonical := by
  simp only [storageCheck, Bool.and_eq_true, List.all_eq_true] at h
  obtain ⟨⟨h1, h2⟩, h3⟩ := h
  refine ⟨h1, fun k w => ?_, fun a b c d p hm => ?_⟩
  · have hk : s.store.get k ∈ s.store.toList := by
      rw [Vector.mem_toList_iff]; exact Vector.getElem_mem k.isLt
    have hw := h2 _ hk (s.lineAt k w) (by cases w <;> simp [State.lineAt, ReplicaSet.line])
    simp only [decide_eq_true_eq, beq_iff_eq] at hw
    refine ⟨hw.1.1, hw.1.2, fun i hi => ?_⟩
    by_cases hb : i < (s.lineAt k w).payload.length
    · rw [List.getD_eq_getElem _ _ hb]
      refine hw.2 _ (List.mem_drop_iff_getElem.mpr ⟨i - (s.lineAt k w).length, by omega, ?_⟩)
      simp only [show (s.lineAt k w).length + (i - (s.lineAt k w).length) = i by omega]
    · rw [List.getD_eq_default _ _ (by omega)]
  · simpa using h3 _ hm

/-! ## Worked examples of the spec, one command each -/

/-- R122's example: the first three advances of station 0's generator. -/
theorem test_generator_of_station_0 :
    rngAdvance 0xACE1 = 0x5670 ∧ rngAdvance 0x5670 = 0xAB38 ∧ rngAdvance 0xAB38 = 0x559C := by decide

/-- R40: CRC bytes appended high byte first leave the register at 0. -/
theorem test_crc_of_a_claim_frame :
    crcRun crcStart (((InHand.control (.claim 672) false).bytes 5).drop 1) = 0 := by decide +kernel

/-- R40: the check value of the digits 1 to 9 under this generator, start value and bit order, as the catalogues of
CRCs give it. -/
theorem test_crc_of_the_digits :
    crcOf [0x31, 0x32, 0x33, 0x34, 0x35, 0x36, 0x37, 0x38, 0x39] = 0x29B1 := by decide +kernel

/-- Contention Units that show the five cases of R130: a HOLD in the queue, one in hand unsent, a pending one, a free
automatic place, and none (the last two with a HOLD on the line). -/
def holdCases : List Contention :=
  let sending := { Contention.reset with state := .sending, inHand := some (.control (.hold 9) false) }
  [ { sending with queue := [.dispute 1, .hold 9, .pull 2] },
    { Contention.reset with state := .waitQuiet 3, inHand := some (.control (.hold 9) false), attempts := 2 },
    { sending with queue := [.dispute 1, .dispute 2], pendingHold := some 9 },
    { sending with queue := [.pull 2, .dispute 1] },
    { sending with queue := [.dispute 1, .dispute 2] } ]

/-- R130: where a HOLD request of length 4 goes in each of the five cases. -/
theorem test_hold_request :
    holdCases.map (fun c => ((c.requestHold 4).queue, (c.requestHold 4).pendingHold)) =
      [([.dispute 1, .hold 4, .pull 2], none), ([], none), ([.dispute 1, .dispute 2], some 4),
        ([.pull 2, .dispute 1, .hold 4], none), ([.dispute 1, .dispute 2], some 4)]
    ∧ holdCases.map (fun c => ((c.requestHold 4).inHand, (c.requestHold 4).attempts)) =
      [(some (.control (.hold 9) false), 0), (some (.control (.hold 4) false), 2),
        (some (.control (.hold 9) false), 0), (some (.control (.hold 9) false), 0),
        (some (.control (.hold 9) false), 0)] := by decide

/-- Tables 11.3 and 11.4: CLAIM 672 from station 5 begins C3 45 02 02 A0. -/
theorem test_claim_frame_bytes :
    ((InHand.control (.claim 672) false).bytes 5).take 5 = [0xC3, 0x45, 0x02, 0x02, 0xA0] := by decide

/-- The four entries of Table 1.9, with the fields that matter here. -/
def table19 : State :=
  withEntries active
    [consumer 17 (some .way0) (.bound 6) .fresh (some 88) 0 .all, producer 120 (produced .owned (some 41)),
     consumer 871 none .unbound .absent none 0 .none, producer 2040 (produced .claiming none)]

/-- Section 1.8, step 1. -/
theorem test_subscribe_300 :
    after (exec .subscribe (submit table19 (descriptor 0x01 300 50 1 0 0 0x1234)))
      (fun t => (t.directory.map Entry.object, t.entry 300, t.ramByte 0x0020)) =
    some ([17, 120, 300, 871, 2040], some (consumer 300 none .unbound .absent none 50 .change), 0x02) := by
  decide

/-- R161's examples: rings at 0x0100 and 0x0200. -/
def ringsAt : State :=
  { active with station := { active.station with copy := some { record with
      cmdLength := 16, cmdBase := 0x0100, noticeLength := 32, noticeBase := 0x0200 } } }

theorem test_buffer_check_examples :
    ringsAt.bufferPasses 0x3FC0 64 = true ∧ ringsAt.bufferPasses 0x3FC1 64 = false
      ∧ ringsAt.bufferPasses 0x01F0 20 = false ∧ ringsAt.bufferPasses 0x01F0 0 = true := by decide

/-- The directory of R163's example. -/
def table163 : State :=
  withEntries active ([17, 120, 300, 871, 2040].map (fun n => consumer n none .unbound .absent none 0 .none))

/-- R163's third example: length 1, detail 0, and the number 2040 in the summary. -/
theorem test_snapshot_from_872 :
    after (exec .snapshot (submit table163 (descriptor 0x0B 0 872 0 2 0x1000 0)))
      (fun t => (t.ramByte 0x0022, t.ramByte 0x0029, t.ramByte 0x002C, t.ramByte 0x1000, t.ramByte 0x1001)) =
    some (0x00, 1, 0, 0x7F, 0x88) := by decide

theorem test_snapshot_from_0 :
    after (exec .snapshot (submit table163 (descriptor 0x0B 0 0 0 2 0x1000 0)))
      (fun t => (t.ramByte 0x0029, t.ramByte 0x002C)) = some (2, 1) := by decide

/-- Set 5 of Table 2.6 after step 3: 5 and 69 hold the ways, way 1 is the older. -/
def table26 : State :=
  withSet (withEntries active
    [consumer 5 (some .way0) (.bound 2) .fresh (some 10) 0 .all,
     consumer 69 (some .way1) (.bound 2) .fresh (some 3) 0 .change,
     consumer 133 none .unbound .absent none 0 .none]) 5
    { way0 := lineOf 5 [1, 2, 3] false false, way1 := lineOf 69 [4, 5, 6, 7, 8] false false, older := .way1 }

/-- Table 2.6, step 4: the record for 133 evicts 69, way 0 becomes the older; EVICTED(69) carries station 2,
sequence 3, detail 1; then BOUND(133). -/
theorem test_record_133_evicts_69 :
    after (exec .dataRecordAtConsume (hearing table26 [.record 7 133 false 50 [9, 9, 9, 9]]))
      (fun t => ((t.setOf 5).way1.object, (t.setOf 5).older,
        t.notice.backlog.map (fun n => [n.object, n.station, n.seq.toNat, n.detail]))) =
    some (133, .way0, [[69, 2, 3, 1], [133, 7, 50, 0xFF]]) := by decide +kernel

/-- Table 2.6, step 3: READ touches its way. -/
theorem test_read_touches :
    after (exec .read (submit table26 (descriptor 0x06 69 0 0 0 0x1000 0)))
      (fun t => ((t.setOf 5).older, t.ramByte 0x1000, t.ramByte 0x0029, t.ramByte 0x002C)) =
    some (.way0, 4, 5, 3) := by decide +kernel

/-- Entry 1500 of Table 6.6 after step 2, without its line's bytes. -/
def table66 : State :=
  withSet (withEntries active [consumer 1500 (some .way0) (.bound 12) .fresh (some 31) 40 .change]) 1500
    { way0 := lineOf 1500 [1, 2] false false, way1 := Line.reset, older := .way1 }

/-- Table 6.6, step 3: a gap of 2, then UPDATED with detail 0. -/
theorem test_gap_of_2 :
    after (exec .dataRecordAtConsume (hearing table66 [.record 12 1500 false 34 [3, 3]]))
      (fun t => (t.consume 1500 |>.bind Consume.lastSeq,
        t.notice.backlog.map (fun n => (n.kind, n.detail)))) =
    some (some 34, [(.gap, 2), (.updated, 0)]) := by decide

/-- Table 6.6, step 5: a lower station takes over. -/
theorem test_owner_changed :
    after (exec .dataRecordAtConsume (hearing table66 [.record 4 1500 false 10 [7]]))
      (fun t => (t.consume 1500 |>.map Consume.binding, t.notice.backlog.map (fun n => (n.kind, n.detail)))) =
    some (some (.bound 4), [(.ownerChanged, 12), (.updated, 2)]) := by decide

/-- The entries of Table 5.5, with shorter values of the same sum of lengths. -/
def table55 : State :=
  { withEntries active
      [producer 100 { produced .owned (some 7) with pending := true, queued := .yes false },
       producer 101 { produced .owned none with pending := true, queued := .yes false },
       producer 102 { produced .owned (some 250) with queued := .yes true }] with
    pubQueue := [⟨100, false⟩, ⟨101, false⟩, ⟨102, true⟩]
    contention := { Contention.reset with state := .deferring 0 true } }

/-- The three lines of Table 5.5: 20, 40 and 64 bytes. -/
def table55Lines : State :=
  withSet (withSet (withSet table55 100 { ReplicaSet.reset with way0 := lineOf 100 (List.replicate 20 1) true false })
    101 { ReplicaSet.reset with way0 := lineOf 101 (List.replicate 40 1) true false })
    102 { ReplicaSet.reset with way0 := lineOf 102 (List.replicate 64 1) true false }

/-- Section 5.9, step 1: 100 with sequence 8 and 101 with sequence 0 are bundled, 102 stays. -/
theorem test_bundle_of_table_5_5 :
    after (exec .deferralEnd table55Lines)
      (fun t => (t.pubQueue, (t.produce 100).map Produce.inFlight, (t.produce 101).map Produce.inFlight,
        t.contention.state)) =
    some ([⟨102, true⟩], some (.tentative 8), some (.tentative 0), .sending) := by decide

/-- R141's example: overlapping rings fail with code 9. -/
theorem test_overlapping_rings_fail_with_code_9 :
    firstError ({ record with cmdLength := 32, cmdBase := 0x0100, noticeLength := 64, noticeBase := 0x0200 }
      : StartRecord).checks = some 9 := by decide

/-- R140: a START with a good record enters JOINING. -/
theorem test_start :
    after (exec (.start .first []) { State.reset with port := { HostPort.reset with ram := cells 0 recordBytes } })
      (fun t => (t.station.life, t.station.copy, t.contention.rng)) =
    some (.joining, some record, 0xACE9) := by decide

/-- R178: an SPI write of station number 32 that follows START is in the record that is read if it comes before the
first read (Table 8.4, code 1), and not if it comes after it; one that stands before START is in it at any turn. -/
theorem test_start_meets_a_byte_at_its_turn :
    after (exec (.start .only []) { State.reset with
        port := { HostPort.reset with
          ram := cells 0 recordBytes, waiting := [{ turn := 1, addr := 0, value := some 32 }] } })
      (fun t => (t.station.life, t.station.startError)) = some (.awaitStart, 1) ∧
    [0, 1].map (fun turn =>
      after (exec (.start .only [⟨.only, 0, 32, turn⟩])
          { State.reset with port := { HostPort.reset with ram := cells 0 recordBytes } })
        (fun t => (t.station.life, t.station.startError, t.ramByte 0))) =
    [some (.awaitStart, 1, 32), some (.joining, 0, 32)] := by decide

/-- R46, R98: of a frame with two records for objects without an entry the first is dropped at the frame end, and the
second waits for its own turn. -/
theorem test_second_record_waits_for_its_turn :
    (active.arrive [.record 3 300 false 1 [], .record 3 871 false 1 []]).dispatch
      = [.record 3 871 false 1 []] := by decide

/-- R83, R110: a tick may come to an entry after it has come to another. -/
theorem test_tick_comes_later_to_one_entry :
    after (exec (.tick [871] false) (withEntries active
        [consumer 300 none .unbound .absent none 50 .none, consumer 871 none .unbound .absent none 50 .none]))
      (fun t => [300, 871].map (fun n => (t.consume n).map Consume.age)) = some [some 1, some 0] := by decide

/-- A station that joins, one boundary short of its join period of 16. -/
def joining (owed : Bool) : State :=
  { station .joining with station :=
      { (station .joining).station with joinTimer := 15, joinRunning := true, joinOwed := owed } }

/-- R144: the join timer reaches the join period in the happening that enters ACTIVE. -/
theorem test_join_period_ends_in_one_happening :
    (after (exec .slotBoundary (joining false)) (fun t => (t.station.life, t.station.joinTimer)),
      after (exec .joinPeriodEnd (joining true)) (fun t => (t.station.life, t.station.joinTimer)))
    = (some (.joining, 15), some (.active, 16)) := by decide

/-- R172 and R173: the second unread notice reaches the trigger of 2. -/
theorem test_placement_asserts_the_line :
    after (exec .placement { active with notice := { NoticeUnit.reset with
        backlog := [active.stationNotice .joined 8 0 0x0102], unread := 1, writeIndex := 7, serial := 255
        timer := .running 0 } })
      (fun t => (t.notice.intLine, t.notice.writeIndex, t.notice.serial, t.ramByte 0x00D0, t.ramByte 0x00D1)) =
    some (true, 0, 1, 1, 0x20) := by decide

/-! ## Witnesses: the hypotheses of the statements, met together -/

/-- The ACTIVE station keeps its rings. -/
theorem active_ringsKept : active.RingsKept := by unfold State.RingsKept; decide

/-- The OWNED entry of `busy`. -/
def busyOwner : Entry := producer 5 { produced .owned (some 9) with queued := .yes false }

/-- The BOUND entry of `busy`. -/
def busyReplica : Entry := consumer 69 (some .way1) (.bound 2) .fresh (some 3) 0 .all

/-- A state in which every block holds something: an OWNED entry that is queued, a BOUND replica that is locked,
a queued DISPUTE, a peer's hold, a notice in the backlog and one unread, and a boundary commanded. -/
def busy : State :=
  let s := withSet (withEntries active [busyOwner, busyReplica]) 5
    { way0 := lineOf 5 [1, 2] true false, way1 := lineOf 69 [3] false true, older := .way1 }
  { s with
    pubQueue := [⟨5, false⟩]
    contention := { Contention.reset with
      state := .waitQuiet 3, queue := [.dispute 5], holdTable := Contention.reset.holdTable.set 2 7 }
    notice := { NoticeUnit.reset with
      backlog := [active.stationNotice .joined 8 0 0], unread := 1, timer := .running 0 }
    pending := [.slotBoundary, .tick [5] true] }

theorem busy_steps : ∃ t, step busy = .next t := ⟨_, rfl⟩

theorem witness_StepRunsTheFrontCommand :
    busy.pending = .slotBoundary :: [.tick [5] true] ∧ State.reset.pending = [] := ⟨rfl, rfl⟩

theorem busy_directoryOrdered : busy.DirectoryOrdered := by unfold State.DirectoryOrdered; decide +kernel

theorem witness_StorageStaysCanonical : busy.StorageCanonical ∧ ∃ t, step busy = .next t :=
  ⟨storage_of _ (by decide +kernel), busy_steps⟩

theorem witness_DirectoryStaysOrdered : busy.DirectoryOrdered ∧ ∃ t, step busy = .next t :=
  ⟨busy_directoryOrdered, busy_steps⟩

theorem witness_RingsStayKept : busy.RingsKept ∧ ∃ t, step busy = .next t :=
  ⟨by unfold State.RingsKept; decide +kernel, busy_steps⟩

theorem witness_QueuePlacesStayKept : busy.QueuePlacesKept ∧ ∃ t, step busy = .next t :=
  ⟨by unfold State.QueuePlacesKept; decide +kernel, busy_steps⟩

theorem witness_StepLeavesAStateSettled :
    (busy.DirectoryOrdered ∧ busy.Settled) ∧ ∃ t, step busy = .next t :=
  ⟨⟨busy_directoryOrdered, by unfold State.Settled; decide +kernel⟩, busy_steps⟩

theorem witness_InterruptLineFollowsItsCondition :
    (busy.RingsKept ∧ busy.LineFollowsCondition) ∧ ∃ t, step busy = .next t := by
  refine ⟨⟨by unfold State.RingsKept; decide +kernel, ?_⟩, busy_steps⟩
  constructor
  · intro h; cases h
  · rintro (⟨r, h, hr⟩ | ⟨-, h⟩)
    · obtain rfl : record = r := Option.some.inj h
      exact absurd hr (by decide)
    · cases h

theorem busy_queuedAreOwned : busy.QueuedAreOwned := by
  refine ⟨by decide, fun _ h => by simp [busy, withSet, State.putSet, Contention.reset] at h, fun it h => ?_⟩
  obtain rfl : it = ⟨5, false⟩ := by simpa [busy] using h
  exact ⟨_, rfl, rfl, rfl⟩

theorem busy_claimsHold : busy.ClaimsHold := by
  refine ⟨fun n p h => ?_, fun k slot h => ?_, fun n => ⟨Nat.zero_le 1, fun h => by cases h⟩⟩
  · obtain ⟨e, he, hp⟩ : ∃ e, busy.entry n = some e ∧ e.produce = some p := by
      simpa [State.produce, Option.bind_eq_some_iff] using h
    have : e = busyOwner ∨ e = busyReplica := by
      simpa [busy, withSet, withEntries, State.putSet, State.setStore] using List.mem_of_find?_eq_some he
    rcases this with rfl | rfl
    · obtain rfl := Option.some.inj hp
      exact ⟨(fun h => nomatch (h : Ownership.owned = .claiming)), fun _ => rfl,
        (fun h => nomatch (h : Ownership.owned = .relinquishing)), fun _ => ⟨rfl, rfl⟩, fun h => absurd rfl h,
        fun h => absurd rfl h⟩
    · cases hp
  · have all : ∀ k : Fin 4, busy.ownership.slots.get k = none := by decide +kernel
    rw [all k] at h; cases h

theorem witness_QueuedObjectsStayOwned :
    busy.QueuedAreOwned ∧ (busy.DirectoryOrdered ∧ busy.QueuedAreOwned ∧ busy.ClaimsHold)
      ∧ ∃ t, step busy = .next t :=
  ⟨busy_queuedAreOwned, ⟨busy_directoryOrdered, busy_queuedAreOwned, busy_claimsHold⟩, busy_steps⟩

theorem busy_linesHeld : busy.LinesHeld := by
  refine ⟨busy_directoryOrdered, fun e h => ?_, ?_⟩
  · have : e = busyOwner ∨ e = busyReplica := by
      simpa [busy, withSet, withEntries, State.putSet, State.setStore] using h
    rcases this with rfl | rfl
    · exact ⟨rfl, rfl, rfl, by decide⟩
    · exact ⟨rfl, rfl, rfl, by decide⟩
  · have all : ∀ k : Fin 64, ∀ w ∈ [Way.way0, Way.way1], (busy.lineAt k w).valid = true →
        ∃ e ∈ busy.directory, e.object = (busy.lineAt k w).object ∧ setIndex e.object = k
          ∧ e.line = some w := by decide +kernel
    exact fun k w => all k w (by cases w <;> simp)

theorem witness_LinesStayHeld : busy.LinesHeld ∧ ∃ t, step busy = .next t := ⟨busy_linesHeld, busy_steps⟩

theorem witness_ReplicasStayCoherent : busy.ReplicasCoherent ∧ ∃ t, step busy = .next t := by
  refine ⟨⟨busy_directoryOrdered, fun e h c hc => ?_⟩, busy_steps⟩
  have : e = busyOwner ∨ e = busyReplica := by simpa [busy, withSet, withEntries, State.putSet, State.setStore] using h
  rcases this with rfl | rfl
  · cases hc
  · obtain rfl := (Option.some.inj hc).symm
    exact ⟨by decide, by decide, fun t ht => by cases ht⟩

theorem witness_RestingStationsStayEmpty :
    (busy.DirectoryOrdered ∧ busy.RestsEmpty) ∧ ∃ t, step busy = .next t :=
  ⟨⟨busy_directoryOrdered, by unfold State.RestsEmpty; decide +kernel⟩, busy_steps⟩

/-- A served data byte: the first of a transaction, or the next one at the counter. -/
theorem witness_ResetsGiveTheResetValues :
    active.port.Serves .first true 0x4006
      ∧ ({ active.port with spi := some { isWrite := true, counter := 0x4006 } } : HostPort).Serves
          .next true 0x4006 :=
  ⟨⟨rfl, .inl rfl⟩, ⟨rfl, .inr (.inr ⟨_, rfl, rfl, rfl⟩)⟩⟩

/-- AWAIT_START with 32 bytes in shared RAM. -/
def loaded (bytes : List Byte) : State :=
  { State.reset with port := { HostPort.reset with ram := cells 0 bytes } }

theorem loaded_record : (loaded recordBytes).startRecord .only [] = recordBytes
    ∧ (loaded recordBytes).startRecord .only [⟨.first, 0, 32, 0⟩] = 32 :: recordBytes.tail := by decide +kernel

theorem witness_StartChecksTheRecord :
    ((loaded recordBytes).port.Serves .only true 0x4006 ∧ (loaded recordBytes).station.life = .awaitStart
      ∧ ∀ k ∈ startTable ((loaded recordBytes).startRecord .only []), ¬ k.1)
    ∧ (∀ b ∈ [(⟨.first, 0, 32, 0⟩ : RamByte), ⟨.only, 31, 1, 31⟩, ⟨.only, 0x3FFF, 1, 32⟩], b.addr < 0x4000
        ∧ ((loaded recordBytes).port.afterRegisterByte .only true 0x4006).Serves b.via true b.addr)
    ∧ (loaded recordBytes).port.Serves .only true 0x4006
      ∧ FirstToFail (startTable ((loaded recordBytes).startRecord .only [⟨.first, 0, 32, 0⟩])) 1 := by
  refine ⟨⟨⟨rfl, .inl rfl⟩, rfl, ?_⟩, ?_, ⟨rfl, .inl rfl⟩, ?_⟩
  · rw [loaded_record.1]
    simp only [startTable, List.forall_mem_cons, List.not_mem_nil, false_imp_iff, implies_true, and_true]
    have hr : StartRecord.ofBytes recordBytes = record := by decide
    rw [hr]
    refine ⟨by decide, by decide, by decide, by decide, by decide, by decide, ?_, ?_, ?_, by decide,
      by decide, by decide, by decide, ?_⟩
    · simp [RingGood, record]
    · simp [RingGood, record]
    · rintro ⟨a, h, h1, h2⟩; simp only [record] at h h1 h2; omega
    · rintro ⟨i, h1, h2, h⟩
      exact h (by have : ∀ i < 32, 19 ≤ i → byteAt recordBytes i = 0 := by decide
                  exact this i h2 h1)
  · simp only [List.forall_mem_cons, List.not_mem_nil, false_imp_iff, implies_true, and_true]
    exact ⟨⟨by decide, rfl, .inl rfl⟩, ⟨by decide, rfl, .inl rfl⟩, by decide, rfl, .inl rfl⟩
  · rw [loaded_record.2]
    exact ⟨[], _, _, rfl, by decide, by simp⟩

theorem witness_RegisterAccessesWithoutEffect :
    (∀ addr ∈ [0x4000, 0x4005, 0x4006, 0x4009, 0xFFFF], active.port.Serves .first true addr
      ∧ (0x4000 ≤ addr ∧ addr ≤ 0x4005 ∨ addr = 0x4006 ∧ (0x02 : Byte) ≠ 0x01 ∧ (0x02 : Byte) ≠ 0x0F
        ∨ 0x4009 ≤ addr ∧ addr ≤ 0xFFFF))
    ∧ (active.port.Serves .first true 0x4006 ∧ active.station.life ≠ .awaitStart)
    ∧ (State.reset.port.Serves .first true 0x4007 ∧ State.reset.station.life = .awaitStart)
    ∧ active.port.Serves .first true 0x4008 ∧ active.port.Serves .first false 0x400C
    ∧ ({ active.port with resetHeld := true } : HostPort).resetHeld = true
    ∧ active.port.resetHeld = false ∧ (0x00 : Byte) ≠ 0x01 ∧ (0x00 : Byte) ≠ 0x02 :=
  ⟨fun _ h => ⟨⟨rfl, .inl rfl⟩, by simp at h; rcases h with rfl | rfl | rfl | rfl | rfl <;> decide⟩, ⟨⟨rfl, .inl rfl⟩, by decide⟩,
    ⟨⟨rfl, .inl rfl⟩, rfl⟩, ⟨rfl, .inl rfl⟩, ⟨rfl, .inl rfl⟩, rfl, rfl, by decide, by decide⟩

theorem witness_ScansBeginAndStop :
    active.station.life ≠ .awaitStart ∧ active.port.Serves .first true 0x4007
      ∧ let s := { active with command := { active.command with scanning := true } }
        s.station.life ≠ .awaitStart ∧ s.command.scanning = true ∧ s.port.waiting = []
          ∧ s.ramByte s.slotAddress ≠ 0x01 :=
  ⟨by decide, ⟨rfl, .inl rfl⟩, by decide +kernel⟩

theorem witness_NoticeTakenReleasesNotices :
    (1 : Byte) ≠ 0 ∧ (255 : Byte) ≠ 0 ∧ busy.port.Serves .first true 0x4008 :=
  ⟨by decide, by decide, rfl, .inl rfl⟩

/-- A state in which one SPI access waits at the arbiter. -/
def waits (s : State) (w : WaitingAccess) : State := { s with port := { s.port with waiting := [w] } }

/-- An SPI write and an SPI read that wait for their turn. -/
def accesses : List WaitingAccess := [⟨3, 0x0020, some 9⟩, ⟨17, 0x3FFF, none⟩]

theorem witness_SharedRamWriteLandsAtItsTurn :
    (0 < 0x4000 ∧ active.port.Serves .first true 0) ∧ (0x3FFF < 0x4000 ∧ active.port.Serves .first true 0x3FFF)
      ∧ active.port.waiting = [] ∧ 0 < 1
      ∧ (∀ w ∈ accesses, (waits active w).port.waiting = [w] ∧ w.addr < 0x4000)
      ∧ 0x3FF0 + [(1 : Byte), 2].length ≤ 0x4000
      ∧ (∀ w ∈ accesses, let s := waits (submit active (descriptor 0x0E 0 0 0 0 0 0)) w
         s.RingsKept ∧ s.command.scanning = true ∧ s.port.waiting = [w] ∧ w.addr < 0x4000
           ∧ let d := Descriptor.ofBytes ((List.range 16).map (fun i => s.port.byteRead w i (s.slotAddress + i)))
             d.marker = 0x01 ∧ commandOf d.code = none) := by
  refine ⟨⟨by decide, rfl, .inl rfl⟩, ⟨by decide, rfl, .inl rfl⟩, rfl, by decide, by decide, by decide, ?_⟩
  unfold State.RingsKept
  decide +kernel

/-! ### The command ring -/

/-- A descriptor that is submitted, on a state whose rings stand. -/
theorem submits_of (s : State) (bytes : List Byte)
    (h : ((submit s bytes).ramBytes (submit s bytes).slotAddress 16 == bytes
      && (Descriptor.ofBytes bytes).marker == markerSubmitted && s.port.waiting.isEmpty) = true) :
    (submit s bytes).Submits (Descriptor.ofBytes bytes) := by
  simp only [Bool.and_eq_true, beq_iff_eq, List.isEmpty_iff] at h
  exact ⟨rfl, h.2, by rw [h.1.1], h.1.2⟩

/-- The first failing check of each command at a boundary value, its status, and the bad command. -/
theorem witness_RefusedCommandsOnlyComplete :
    (let b := descriptor 0x01 4096 0 3 0 0 0
     (submit active b).RingsKept ∧ (submit active b).Submits (Descriptor.ofBytes b)
       ∧ commandOf (Descriptor.ofBytes b).code = some .subscribe
       ∧ FirstToFail ((submit active b).tableChecks (Descriptor.ofBytes b) .subscribe) .badObject)
    ∧ (let b := descriptor 0x0B 0 0 0 33 0x1000 0
       (submit active b).RingsKept ∧ (submit active b).Submits (Descriptor.ofBytes b)
         ∧ commandOf (Descriptor.ofBytes b).code = some .snapshot
         ∧ FirstToFail ((submit active b).tableChecks (Descriptor.ofBytes b) .snapshot) .badParameter)
    ∧ (let b := descriptor 0x0D 0 0 0 0 0 0
       (submit active b).RingsKept ∧ (submit active b).Submits (Descriptor.ofBytes b)
         ∧ commandOf (Descriptor.ofBytes b).code = some .rejoin
         ∧ FirstToFail ((submit active b).tableChecks (Descriptor.ofBytes b) .rejoin) .badState)
    ∧ (let b := descriptor 0x0E 0 0 0 0 0 0
       (submit active b).RingsKept ∧ (submit active b).Submits (Descriptor.ofBytes b)
         ∧ commandOf (Descriptor.ofBytes b).code = none)
    ∧ (let b := descriptor 0x00 0 0 0 0 0 0
       (submit active b).RingsKept ∧ (submit active b).Submits (Descriptor.ofBytes b)
         ∧ commandOf (Descriptor.ofBytes b).code = none) := by
  refine ⟨⟨by unfold State.RingsKept; decide +kernel, submits_of _ _ (by decide +kernel), rfl,
      firstToFail_of (subscribeChecks_same _ _) (by decide +kernel)⟩,
    ⟨by unfold State.RingsKept; decide +kernel, submits_of _ _ (by decide +kernel), rfl,
      firstToFail_of (snapshotChecks_same _ _) (by decide +kernel)⟩,
    ⟨by unfold State.RingsKept; decide +kernel, submits_of _ _ (by decide +kernel), rfl,
      firstToFail_of (rejoinChecks_same _ _) (by decide +kernel)⟩,
    ⟨by unfold State.RingsKept; decide +kernel, submits_of _ _ (by decide +kernel), rfl⟩,
    ⟨by unfold State.RingsKept; decide +kernel, submits_of _ _ (by decide +kernel), rfl⟩⟩

/-- A descriptor that is taken: submitted, of the command's code, and past every check. -/
theorem takes_of {s : State} {bytes : List Byte} {c : Instr} {checks : List (Bool × Status)}
    (h : SameChecks checks ((submit s bytes).tableChecks (Descriptor.ofBytes bytes) c))
    (hs : ((submit s bytes).ramBytes (submit s bytes).slotAddress 16 == bytes
      && (Descriptor.ofBytes bytes).marker == markerSubmitted && s.port.waiting.isEmpty
      && commandOf (Descriptor.ofBytes bytes).code == some c && firstFailure checks == none) = true) :
    (submit s bytes).Takes c (Descriptor.ofBytes bytes) := by
  simp only [Bool.and_eq_true, beq_iff_eq] at hs
  exact ⟨submits_of s bytes (by simp [hs]), hs.1.2, passes_of h hs.2⟩

/-- The rings of a state, as a check. -/
theorem rings_of (s : State) (h : s.station = active.station := by rfl)
    (hc : s.command.index = 0 := by rfl) (hn : s.notice = active.notice := by rfl)
    (hr : s.contention.rng = 0xACE1 := by rfl) : s.RingsKept := by
  unfold State.RingsKept State.cfg
  rw [h, hc, hn, hr]
  exact ⟨fun h => absurd h (by decide), fun _ => by decide, by decide⟩

/-- Object 5 as a FRESH replica in way 0 of its set, and 69 as a CONSUME entry without a line. -/
def replicas : State :=
  withSet (withEntries active
    [consumer 5 (some .way0) (.bound 2) .fresh (some 10) 4 .all,
     consumer 69 none .unbound .absent none 0 .change]) 5
    { way0 := lineOf 5 [1, 2, 3, 4, 5] false false, way1 := Line.reset, older := .way1 }

/-- A station that owns object 5, a value committed and staged. -/
def owns (p : Produce) : State :=
  withSet (withEntries active [producer 5 p]) 5
    { way0 := lineOf 5 [1, 2] true false, way1 := Line.reset, older := .way1 }

theorem owns_linesHeld (p : Produce) (bytes : List Byte) : (submit (owns p) bytes).LinesHeld := by
  have held : (submit (owns p) bytes).HoldsItsLine (producer 5 p) := ⟨rfl, rfl, rfl, fun h => by cases (h : false = true)⟩
  refine ⟨⟨by simp [submit, owns, withSet, withEntries, State.putSet, State.setStore], by
      simp [submit, owns, withSet, withEntries, State.putSet, State.setStore], fun e h => ?_⟩,
    fun e h => ?_, ?_⟩
  · obtain rfl : e = producer 5 p := by
      simpa [submit, owns, withSet, withEntries, State.putSet, State.setStore] using h
    exact (by decide : 5 < 4096)
  · obtain rfl : e = producer 5 p := by
      simpa [submit, owns, withSet, withEntries, State.putSet, State.setStore] using h
    exact held
  · have all : ∀ k : Fin 64, ∀ w ∈ [Way.way0, Way.way1],
        (State.lineAt (owns (produced .owned none)) k w).valid = true →
          (State.lineAt (owns (produced .owned none)) k w).object = 5 ∧ setIndex 5 = k ∧ w = .way0 := by
      decide +kernel
    intro k w hv
    obtain ⟨h1, h2, rfl⟩ := all k w (by cases w <;> simp) hv
    exact ⟨producer 5 p, by simp [submit, owns, withSet, withEntries, State.putSet, State.setStore], h1.symm, h2, rfl⟩

theorem witness_SubscribeInsertsAnEntry :
    let b := descriptor 0x01 4095 0xFFFF 2 0 0 7
    (submit active b).RingsKept ∧ (submit active b).Takes .subscribe (Descriptor.ofBytes b) :=
  ⟨rings_of _, takes_of (subscribeChecks_same _ _) (by decide +kernel)⟩

theorem witness_UnsubscribeAndUnbindActOnTheEntry :
    (let b := descriptor 0x02 5 0 0 0 0 7
     (submit replicas b).RingsKept ∧ (submit replicas b).Takes .unsubscribe (Descriptor.ofBytes b))
    ∧ (let b := descriptor 0x0A 5 0 0 0 0 7
       (submit replicas b).RingsKept ∧ (submit replicas b).Takes .unbind (Descriptor.ofBytes b)) :=
  ⟨⟨rings_of _, takes_of (consumeChecks_same _ _) (by decide +kernel)⟩,
    rings_of _, takes_of (consumeChecks_same _ _) (by decide +kernel)⟩

theorem witness_LockAndUnlockMarkTheLine :
    (let b := descriptor 0x08 5 0 0 0 0 7
     (submit replicas b).RingsKept ∧ (submit replicas b).Takes .lock (Descriptor.ofBytes b))
    ∧ (let b := descriptor 0x09 5 0 0 0 0 7
       (submit replicas b).RingsKept ∧ (submit replicas b).Takes .unlock (Descriptor.ofBytes b))
    ∧ (let b := descriptor 0x09 69 0 0 0 0 7
       (submit replicas b).RingsKept ∧ (submit replicas b).Takes .unlock (Descriptor.ofBytes b)
         ∧ (submit replicas b).objectLine 69 = none) :=
  ⟨⟨rings_of _, takes_of (lockChecks_same _ _) (by decide +kernel)⟩,
    ⟨rings_of _, takes_of (consumeChecks_same _ _) (by decide +kernel)⟩,
    rings_of _, takes_of (consumeChecks_same _ _) (by decide +kernel), by decide +kernel⟩

theorem witness_PullPlacesItsFrame :
    let b := descriptor 0x07 69 0 0 0 0 7
    (submit replicas b).RingsKept ∧ (submit replicas b).Takes .pull (Descriptor.ofBytes b) :=
  ⟨rings_of _, takes_of (pullChecks_same _ _ (by decide)) (by decide +kernel)⟩

/-- Sets in which an allocation takes an invalid way, evicts, and fails. -/
theorem witness_AllocationChoosesAWay :
    (active.StorageCanonical ∧ (active.allocate 5 false 1 0).map (·.1) = some .way0)
    ∧ (replicas.StorageCanonical ∧ (replicas.allocate 69 false 1 0).map (·.1) = some .way1)
    ∧ (table26.StorageCanonical ∧ (table26.allocate 133 false 1 0).map (·.1) = some .way1
      ∧ (table26.lineAt (setIndex 133) .way1).valid = true
      ∧ (table26.lineAt (setIndex 133) .way1).object = 69
      ∧ table26.entry 69 = some (consumer 69 (some .way1) (.bound 2) .fresh (some 3) 0 .change))
    ∧ ((withSet active 5 { way0 := lineOf 5 [] true false, way1 := lineOf 69 [] false true, older := .way0
        }).allocate 133 true 0 0).isNone = true :=
  ⟨⟨storage_of _ (by decide +kernel), by decide +kernel⟩, ⟨storage_of _ (by decide +kernel), by decide +kernel⟩,
    ⟨storage_of _ (by decide +kernel), by decide +kernel⟩, by decide +kernel⟩

/-- A full set of command places. -/
def fullQueue : List CtlFrame := (List.range 6).map .pull

theorem witness_ClaimOpensAClaim :
    (let b := descriptor 0x03 672 8 0 0 0 7
     (submit active b).RingsKept ∧ (submit active b).Takes .claim (Descriptor.ofBytes b)
       ∧ (submit active b).entry 672 = none)
    ∧ (let b := descriptor 0x03 5 8 0 0 0 7
       let s := submit { owns (produced .deposed (some 3)) with
         contention := { Contention.reset with state := .sending, queue := fullQueue } } b
       s.RingsKept ∧ s.Takes .claim (Descriptor.ofBytes b)
         ∧ s.entry 5 = some (producer 5 (produced .deposed (some 3)))
         ∧ ¬ (s.contention.queue.filter CtlFrame.fromCommand).length < 6) :=
  ⟨⟨rings_of _, takes_of (claimChecks_same _ _ (by decide)) (by decide +kernel), by decide⟩,
    rings_of _, takes_of (claimChecks_same _ _ (by decide)) (by decide +kernel), by decide, by decide⟩

theorem witness_WriteStagesTheValue :
    (let b := descriptor 0x05 5 0 0 64 0x3FC0 7
     let s := submit (owns (produced .owned (some 3))) b
     s.RingsKept ∧ s.LinesHeld ∧ s.Takes .write (Descriptor.ofBytes b)
       ∧ s.produce 5 = some (produced .owned (some 3)))
    ∧ (let b := descriptor 0x05 5 0 0 0 0 7
       let s := submit (owns (produced .claiming none)) b
       s.RingsKept ∧ s.LinesHeld ∧ s.Takes .write (Descriptor.ofBytes b)
         ∧ s.produce 5 = some (produced .claiming none)) :=
  ⟨⟨rings_of _, owns_linesHeld _ _, takes_of (writeChecks_same _ _ (by decide)) (by decide +kernel), by decide⟩,
    rings_of _, owns_linesHeld _ _, takes_of (writeChecks_same _ _ (by decide)) (by decide +kernel), by decide⟩

theorem witness_ReadCopiesTheLine :
    (let b := descriptor 0x06 5 0 0 0 0x3FC0 7
     let s := submit replicas b
     s.RingsKept ∧ s.StorageCanonical ∧ s.Takes .read (Descriptor.ofBytes b)
       ∧ (s.entry 5).bind Entry.line = some .way0)
    ∧ (let b := descriptor 0x06 69 0 0 0 0x1000 7
       let s := submit replicas b
       s.RingsKept ∧ s.StorageCanonical ∧ s.Takes .read (Descriptor.ofBytes b)
         ∧ (s.entry 69).map Entry.line = some none)
    ∧ (let b := descriptor 0x06 5 0 0 0 0x1000 7
       let s := submit (owns (produced .owned none)) b
       s.RingsKept ∧ s.StorageCanonical ∧ s.Takes .read (Descriptor.ofBytes b)
         ∧ (s.entry 5).bind Entry.line = some .way0) :=
  ⟨⟨rings_of _, storage_of _ (by decide +kernel), takes_of (readChecks_same _ _) (by decide +kernel), by decide⟩,
    ⟨rings_of _, storage_of _ (by decide +kernel), takes_of (readChecks_same _ _) (by decide +kernel), by decide⟩,
    rings_of _, storage_of _ (by decide +kernel), takes_of (readChecks_same _ _) (by decide +kernel), by decide⟩

theorem witness_SnapshotWritesSummaries :
    (let b := descriptor 0x0B 0 0 0 1 0x3FF8 0
     (submit table163 b).RingsKept ∧ (submit table163 b).Takes .snapshot (Descriptor.ofBytes b))
    ∧ (let b := descriptor 0x0B 0 4095 0 32 0x1000 0
       (submit table163 b).RingsKept ∧ (submit table163 b).Takes .snapshot (Descriptor.ofBytes b)) :=
  ⟨⟨rings_of _, takes_of (snapshotChecks_same _ _) (by decide +kernel)⟩,
    rings_of _, takes_of (snapshotChecks_same _ _) (by decide +kernel)⟩

theorem witness_RelinquishOfAnOwnedEntry :
    let b := descriptor 0x04 5 0 0 0 0 7
    let s := submit (owns (produced .owned (some 3))) b
    s.RingsKept ∧ s.QueuePlacesKept ∧ s.Takes .relinquish (Descriptor.ofBytes b)
      ∧ s.produce 5 = some (produced .owned (some 3))
      ∧ (s.contention.queue.filter CtlFrame.fromCommand).length < 6 :=
  ⟨rings_of _, by unfold State.QueuePlacesKept; decide +kernel,
    takes_of (relinquishChecks_same _ _) (by decide +kernel), by decide, by decide⟩

/-- The entry of a claim in slot 3. -/
def claimant : Produce := { produced .claiming (some 3) with claimSlot := some 3 }

/-- A claim on object 5 in slot 3, in a phase. -/
def claims (phase : Phase) : State :=
  (owns claimant).putSlot 3 (some { object := 5, phase := phase, tag := 0x55 })

theorem witness_RelinquishOfAClaimingEntry :
    let b := descriptor 0x04 5 0 0 0 0 7
    ∀ phase ∈ [Phase.awaitSend, Phase.window 0],
      let s := submit (claims phase) b
      s.RingsKept ∧ s.StorageCanonical ∧ s.QueuePlacesKept ∧ s.Takes .relinquish (Descriptor.ofBytes b)
        ∧ s.produce 5 = some claimant ∧ claimant.ownership = .claiming ∧ claimant.claimSlot = some 3
        ∧ s.ownership.slots.get 3 = some { object := 5, phase := phase, tag := 0x55 } := by
  intro b phase hp
  simp only [List.mem_cons, List.not_mem_nil, or_false] at hp
  rcases hp with rfl | rfl
  · exact ⟨rings_of _, storage_of _ (by decide +kernel), by unfold State.QueuePlacesKept; decide +kernel,
      takes_of (relinquishChecks_same _ _) (by decide +kernel), by decide, rfl, rfl, by decide⟩
  · exact ⟨rings_of _, storage_of _ (by decide +kernel), by unfold State.QueuePlacesKept; decide +kernel,
      takes_of (relinquishChecks_same _ _) (by decide +kernel), by decide, rfl, rfl, by decide⟩

theorem witness_RelinquishOfADeposedOrReleasingEntry :
    let b := descriptor 0x04 5 0 0 0 0 7
    ∀ o ∈ [Ownership.deposed, Ownership.relinquishing],
      let s := submit (owns (produced o (some 3))) b
      s.RingsKept ∧ s.StorageCanonical ∧ s.Takes .relinquish (Descriptor.ofBytes b)
        ∧ s.produce 5 = some (produced o (some 3)) ∧ s.Settled := by
  intro b o ho
  simp only [List.mem_cons, List.not_mem_nil, or_false] at ho
  rcases ho with rfl | rfl
  · exact ⟨rings_of _, storage_of _ (by decide +kernel),
      takes_of (relinquishChecks_same _ _) (by decide +kernel), by decide, by unfold State.Settled; decide +kernel⟩
  · exact ⟨rings_of _, storage_of _ (by decide +kernel),
      takes_of (relinquishChecks_same _ _) (by decide +kernel), by decide, by unfold State.Settled; decide +kernel⟩

theorem queued_of (s : State) (records : List TxRecord) (h : s.pubQueue = [])
    (hi : s.contention.inHand = none ∨ s.contention.inHand = some (.data records))
    (hn : (records.map TxRecord.object).Nodup) : s.QueuedAreOwned := by
  refine ⟨by simp [h], fun r hr => ?_, by simp [h]⟩
  rcases hi with hi | hi
  · rw [hi] at hr; cases hr
  · obtain rfl : records = r := by rw [hi] at hr; injection hr with hr; injection hr
    exact hn

/-- One entry in each ownership state that LEAVE meets. -/
def producers : State :=
  withEntries active
    [producer 1 (produced .owned (some 1)), producer 2 { produced .relinquishing (some 2) with releaseTag := some 9 },
     producer 3 (produced .deposed none), producer 4 claimant]

theorem witness_LeaveReleasesEveryProduceEntry :
    let b := descriptor 0x0C 0 0 0 0 0 7
    let s := submit producers b
    s.RingsKept ∧ s.DirectoryOrdered ∧ s.StorageCanonical ∧ s.Takes .leave (Descriptor.ofBytes b)
      ∧ s.QueuedAreOwned
      ∧ (s.produce 1).map Produce.ownership = some .owned
      ∧ (s.produce 2).map Produce.ownership = some .relinquishing
      ∧ (s.produce 3).map Produce.ownership = some .deposed
      ∧ (s.produce 4).map (fun p => (p.ownership, p.claimSlot)) = some (.claiming, some 3) :=
  ⟨rings_of _, by unfold State.DirectoryOrdered; decide +kernel, storage_of _ (by decide +kernel),
    takes_of (leaveChecks_same _ _) (by decide +kernel), queued_of _ [] rfl (.inl rfl) (by decide),
    by decide, by decide, by decide, by decide⟩

theorem witness_JoiningBeginsAndEnds :
    (let b := descriptor 0x0D 0 0 0 0 0 7
     (submit (station .detached) b).RingsKept ∧ (submit (station .detached) b).Takes .rejoin (Descriptor.ofBytes b))
    ∧ ((joining true).RingsKept ∧ (joining true).station.life = .joining
      ∧ (joining true).station.joinOwed = true) :=
  ⟨⟨by unfold State.RingsKept; decide +kernel, takes_of (rejoinChecks_same _ _) (by decide +kernel)⟩,
    by unfold State.RingsKept; decide +kernel, rfl, rfl⟩

/-! ### Line and dispatch -/

theorem witness_ReceiveStatesFollowTheLine :
    active.contention.carrier = false
      ∧ ({ active with rx := .listen true } : State).rx = .listen true
      ∧ ({ active with rx := .frame RxFrame.opened } : State).rx = .frame RxFrame.opened
      ∧ RxFrame.opened.header = none := by decide

/-- A CLAIM of object 4095 from a source, its header complete, and the bytes still expected. -/
def heardClaim (source : Nat) : RxFrame := (InHand.control (.claim 4095) false).received source

/-- Its body and CRC. -/
def heardRest (source : Nat) : List Byte := ((InHand.control (.claim 4095) false).bytes source).drop 3

/-- A station that receives that frame. -/
def receives (life : Life) (source : Nat) : State := { station life with rx := .frame (heardClaim source) }

theorem heard_header (source : Nat) : (heardClaim source).header.isSome = true := rfl

theorem witness_FrameEndDisposesOfAFrame :
    ((receives .active 3).rx = .frame (heardClaim 3) ∧ (heardRest 3).length = (heardClaim 3).expected
      ∧ judgeFrame (heardClaim 3) (heardRest 3) = some [.claim 3 4095]
      ∧ (receives .active 3).contention.state ≠ .sending ∧ (heardClaim 3).source ≠ (receives .active 3).own)
    ∧ judgeFrame (heardClaim 3) [0x0F, 0xFF, 0, 0] = none
    ∧ ((receives .muted 8).rx = .frame (heardClaim 8) ∧ (heardRest 8).length = (heardClaim 8).expected
      ∧ (heardClaim 8).source = (receives .muted 8).own ∧ (receives .muted 8).station.life = .muted)
    ∧ ({ receives .active 3 with contention := { Contention.reset with state := .sending } } : State).contention.state
        = .sending
    ∧ (Instr.pullHeard ∈ dispatchCommands ∧ (hearing active [.claim 7 5]).nextItems = []
      ∧ (hearing active [.hold 2 5]).nextItems = [.hold 2 5]
      ∧ active.dispatchedBy (.hold 2 5) ≠ .pullHeard) := by
  refine ⟨⟨rfl, ?_, ?_, ?_, ?_⟩, ?_, ⟨rfl, ?_, ?_, rfl⟩, rfl, ?_, ?_, ?_, ?_⟩ <;> decide +kernel

/-- Before the first entry in each state, and with an OWNED entry, a CONSUME entry and frames to send. -/
theorem witness_NumberClashMutesTheStation :
    ∀ s ∈ { busy with rx := .frame (heardClaim 8) }
        :: [Life.joining, .active, .leaving, .detached].map (fun life => receives life 8),
      s.DirectoryOrdered ∧ s.StorageCanonical ∧ s.ClaimsHold ∧ s.rx = .frame (heardClaim 8)
        ∧ (heardRest 8).length = (heardClaim 8).expected
        ∧ judgeFrame (heardClaim 8) (heardRest 8) = some [.claim 8 4095]
        ∧ s.contention.state ≠ .sending ∧ (heardClaim 8).source = s.own
        ∧ s.station.life ≠ .awaitStart ∧ s.station.life ≠ .muted := by
  have none_of (life : Life) : (receives life 8).ClaimsHold :=
    have all : ∀ k : Fin 4, State.reset.ownership.slots.get k = none := by decide +kernel
    ⟨(fun n p h => nomatch h), fun k slot h => absurd ((all k).symm.trans h) (by simp), fun n => ⟨Nat.zero_le 1, fun h => by cases h⟩⟩
  simp only [List.map_cons, List.map_nil, List.forall_mem_cons, List.not_mem_nil, false_imp_iff, implies_true,
    and_true]
  refine ⟨⟨busy_directoryOrdered, storage_of _ (by decide +kernel), busy_claimsHold, ?_⟩,
    ⟨?_, storage_of _ (by decide +kernel), none_of _, ?_⟩,
    ⟨?_, storage_of _ (by decide +kernel), none_of _, ?_⟩,
    ⟨?_, storage_of _ (by decide +kernel), none_of _, ?_⟩, ?_, storage_of _ (by decide +kernel), none_of _, rfl, ?_⟩ <;> (try unfold State.DirectoryOrdered) <;>
    decide +kernel

/-- The smallest and the largest frame. -/
theorem witness_SentFramesAreReceived :
    (InHand.control (.hold 1023) false).wellFormed = true ∧ (InHand.control (.claim 4095) false).wellFormed = true
      ∧ (InHand.data [⟨4095, true, 255, []⟩]).wellFormed = true
      ∧ (InHand.data [⟨0, false, 0, List.replicate 64 1⟩, ⟨1, false, 0, List.replicate 56 1⟩]).wellFormed = true
      ∧ 0 < 32 ∧ 31 < 32
      ∧ ∀ f ∈ [InHand.control (.hold 1023) false, .data [⟨4095, true, 255, []⟩]],
          let s := { active with contention := { Contention.reset with inHand := some f } }
          s.contention.inHand = some f ∧ f.wellFormed = true ∧ s.own < 32 := by decide +kernel

/-- A station with one CONSUME entry, BOUND to 12, its replica in way 0. -/
def bound (notify : NotifyMode) : State :=
  withSet (withEntries active [consumer 1500 (some .way0) (.bound 12) .fresh (some 31) 40 notify]) 1500
    { way0 := lineOf 1500 [1, 2] false false, way1 := Line.reset, older := .way1 }

theorem witness_DuplicateRestartsTheAgeCounter :
    let s := hearing (bound .change) [.record 12 1500 true 31 [1, 2]]
    s.Settled ∧ s.nextItems = [.record 12 1500 true 31 [1, 2]]
      ∧ (s.consume 1500).map (fun c => (c.binding, c.replica, c.lastSeq))
        = some (.bound 12, .fresh, some 31) :=
  ⟨by unfold State.Settled; decide +kernel, by decide +kernel, by decide +kernel⟩

theorem coherent_of (s : State) (e : Entry) (h : s.directory = [e]) (hn : e.object < 4096)
    (hc : ∀ c, e.consume = some c → (c.replica = .absent ↔ e.line = none)
      ∧ (c.replica = .absent ↔ c.lastSeq = none) ∧ ∀ t, c.binding = .orphaned t → c.replica ≠ .fresh) :
    s.ReplicasCoherent := by
  refine ⟨⟨by simp [h], by simp [h], by simpa [h] using hn⟩, ?_⟩
  simpa [h] using hc

/-- An UNBOUND entry in a set whose ways are both locked. -/
def crowded : State :=
  withSet (withEntries active [consumer 133 none .unbound .absent none 0 .none]) 5
    { way0 := lineOf 5 [] false true, way1 := lineOf 69 [] true false, older := .way0 }

theorem witness_RejectedRecordsChangeNoEntry :
    (let s := hearing (bound .change) [.record 13 1500 false 31 []]
     s.ReplicasCoherent ∧ s.nextItems = [.record 13 1500 false 31 []]
       ∧ (s.consume 1500).map Consume.binding = some (.bound 12) ∧ 12 < 13)
    ∧ (let s := hearing crowded [.record 12 133 false 0 []]
       s.ReplicasCoherent ∧ s.nextItems = [.record 12 133 false 0 []]
         ∧ (s.consume 133).map Consume.binding = some .unbound ∧ (s.entry 133).bind Entry.line = none
         ∧ (s.setOf 133).choose = none) :=
  ⟨⟨coherent_of _ _ rfl (by decide) (fun c h => by cases h; exact ⟨by decide, by decide, fun t ht => by cases ht⟩),
      by decide +kernel, by decide +kernel, by decide⟩,
    coherent_of _ _ rfl (by decide) (fun c h => by cases h; exact ⟨by decide, by decide, fun t ht => by cases ht⟩),
    by decide +kernel, by decide +kernel, by decide +kernel, by decide +kernel⟩

/-- An accepted record: the next one from the bound owner into its line, and the first one of an UNBOUND entry
into a newly allocated line. -/
theorem witness_AcceptedRecordsUpdateTheReplica :
    (let s := hearing (bound .all) [.record 12 1500 false 32 [7]]
     s.ReplicasCoherent ∧ s.StorageCanonical ∧ s.nextItems = [.record 12 1500 false 32 [7]]
       ∧ s.entry 1500 = some (consumer 1500 (some .way0) (.bound 12) .fresh (some 31) 40 .all)
       ∧ (12 = 12 ∧ (some 31 : Option Byte) ≠ some 32))
    ∧ (let s := hearing (withEntries active [consumer 5 none .unbound .absent none 0 .change]) [.record 31 5 false 9 []]
       s.ReplicasCoherent ∧ s.StorageCanonical ∧ s.nextItems = [.record 31 5 false 9 []]
         ∧ s.entry 5 = some (consumer 5 none .unbound .absent none 0 .change)
         ∧ (s.allocate 5 false 1 0).map (·.1) = some .way0) :=
  ⟨⟨coherent_of _ _ rfl (by decide) (fun c h => by cases h; exact ⟨by decide, by decide, fun t ht => by cases ht⟩),
      storage_of _ (by decide +kernel), by decide +kernel, by decide +kernel, by decide⟩,
    coherent_of _ _ rfl (by decide) (fun c h => by cases h; exact ⟨by decide, by decide, fun t ht => by cases ht⟩),
    storage_of _ (by decide +kernel), by decide +kernel, by decide +kernel, by decide +kernel⟩

theorem witness_RelinquishHeardOrphansTheReplica :
    ∀ source ∈ [12, 13],
      let s := hearing (bound .none) [.relinquish source 1500]
      s.StorageCanonical ∧ s.nextItems = [.relinquish source 1500]
        ∧ s.entry 1500 = some (consumer 1500 (some .way0) (.bound 12) .fresh (some 31) 40 .none) := by
  simp only [List.forall_mem_cons, List.not_mem_nil, false_imp_iff, implies_true, and_true]
  exact ⟨⟨storage_of _ (by decide +kernel), by decide +kernel, by decide +kernel⟩,
    storage_of _ (by decide +kernel), by decide +kernel, by decide +kernel⟩

theorem witness_HeardItemsAreIgnoredOrDisputed :
    (let s := hearing (owns (produced .relinquishing none)) [.claim 0 5]
     s.Hears .claim 0 5 (produced .relinquishing none) []
       ∧ heardOutcome s.own 0 .claim .relinquishing = .ignored)
    ∧ (let s := hearing (owns (produced .owned none)) [.record 9 5 false 0 []]
       s.Hears .data 9 5 (produced .owned none) [] ∧ heardOutcome s.own 9 .data .owned = .disputes)
    ∧ (let s := hearing (owns (produced .owned none)) [.dispute 8 5]
       s.Hears .dispute 8 5 (produced .owned none) [] ∧ heardOutcome s.own 8 .dispute .owned = .disputes)
    ∧ (let s := hearing (owns (produced .owned none)) [.claim 0 5]
       s.Hears .claim 0 5 (produced .owned none) [] ∧ heardOutcome s.own 0 .claim .owned = .disputes) :=
  ⟨⟨⟨.claim 0 5, by decide +kernel, ⟨rfl, rfl, rfl⟩, by decide +kernel⟩, by decide +kernel⟩,
    ⟨⟨.record 9 5 false 0 [], by decide +kernel, ⟨rfl, rfl, rfl⟩, by decide +kernel⟩, by decide +kernel⟩,
    ⟨⟨.dispute 8 5, by decide +kernel, ⟨rfl, rfl, rfl⟩, by decide +kernel⟩, by decide +kernel⟩,
    ⟨.claim 0 5, by decide +kernel, ⟨rfl, rfl, rfl⟩, by decide +kernel⟩, by decide +kernel⟩

theorem witness_HeardItemsEndAClaim :
    let s := hearing (claims .awaitSend) [.claim 7 5]
    s.StorageCanonical ∧ s.QueuePlacesKept ∧ s.Hears .claim 7 5 claimant []
      ∧ heardOutcome s.own 7 .claim claimant.ownership = .lost ∧ claimant.claimSlot = some 3
      ∧ s.ownership.slots.get 3 = some { object := 5, phase := .awaitSend, tag := 0x55 } :=
  ⟨storage_of _ (by decide +kernel), by unfold State.QueuePlacesKept; decide +kernel,
    ⟨.claim 7 5, by decide +kernel, ⟨rfl, rfl, rfl⟩, by decide +kernel⟩, by decide +kernel, rfl, by decide⟩

theorem witness_HeardItemsDeposeAnOwner :
    let s := hearing (owns (produced .owned (some 3))) [.record 7 5 false 0 []]
    s.StorageCanonical ∧ s.QueuePlacesKept ∧ s.Hears .data 7 5 (produced .owned (some 3)) []
      ∧ heardOutcome s.own 7 .data .owned = .deposed :=
  ⟨storage_of _ (by decide +kernel), by unfold State.QueuePlacesKept; decide +kernel,
    ⟨.record 7 5 false 0 [], by decide +kernel, ⟨rfl, rfl, rfl⟩, by decide +kernel⟩, by decide +kernel⟩

theorem witness_RelinquishAndPullHeardAtAProduceEntry :
    (owns (produced .owned (some 3))).produce 5 = some (produced .owned (some 3))
      ∧ (hearing (owns (produced .owned (some 3))) [.relinquish 31 5]).nextItems = [.relinquish 31 5]
      ∧ (hearing (owns (produced .owned (some 3))) [.pull 31 5]).nextItems = [.pull 31 5]
      ∧ (hearing (owns (produced .owned none)) [.pull 0 5]).nextItems = [.pull 0 5] := by
  refine ⟨?_, ?_, ?_, ?_⟩ <;> decide +kernel

/-! ### Timers -/

theorem witness_SlotBoundaryAdvancesTheSlotCounters :
    busy.station.life ≠ .awaitStart ∧ (∀ k, busy.ownership.slots.get k = none) ∧ busy.contention.holdFall = none
      ∧ busy.contention.ownHold ≠ .on ∧ busy.station.life ≠ .joining := by
  refine ⟨by decide, ?_, rfl, by decide, by decide⟩
  decide +kernel

theorem witness_GrantMakesTheEntryOwned :
    (claims (.window 0)).StorageCanonical
      ∧ (claims (.window 0)).ownership.slots.get 3 = some { object := 5, phase := .window 0, tag := 0x55 }
      ∧ (claims (.window 0)).produce 5 = some claimant ∧ claimant.ownership = .claiming
      ∧ claimant.claimSlot = some 3 :=
  ⟨storage_of _ (by decide +kernel), by decide, by decide, rfl, rfl⟩

/-- An own hold in a state, with an expiry and the mark of an owed boundary. -/
def holding (h : OwnHold) (expiry : Nat) (owed : Bool) : State :=
  { active with contention := { Contention.reset with ownHold := h, ownExpiry := expiry, expiryOwed := owed } }

/-- R132: the fall that a boundary owes takes an entry of 1 to 0, and one that a HOLD of length 5 has set in between
to 4. -/
theorem test_owed_fall :
    [1, 5].map (fun n =>
      after (exec .holdEntryRunsOut { active with contention := { Contention.reset with
          holdTable := (Vector.replicate 32 0).set 31 n, holdFall := some 31 } })
        (fun t => (t.contention.holdTable.get 31, t.contention.holdFall))) =
    [some (0, none), some (4, none)] := by decide +kernel

theorem witness_HoldTableFollowsThePeers :
    (hearing active [.hold 31 1023]).nextItems = [.hold (31 : Fin 32) 1023]
      ∧ ({ active with contention := { Contention.reset with holdFall := some 31 } } : State).contention.holdFall
        = some 31 := ⟨by decide +kernel, rfl⟩

/-- The five cases of R130, one each, and both sides of the low mark of 1. -/
theorem witness_OwnHoldIsRenewedOrEnds :
    holdCases.map (fun c => (c.queue.any CtlFrame.isHold, c.holdInHand, c.pendingHold.isSome,
        (c.queue.filter (fun f => !f.fromCommand)).length)) =
      [(true, false, false, 2), (false, true, false, 0), (false, false, true, 2), (false, false, false, 1),
        (false, false, false, 2)] ∧
    (holding .on 1 true).contention.ownHold = .on ∧ (holding .on 1 true).contention.expiryOwed = true
      ∧ ¬ (holding .on 1 true).cfg.lowMark < (holding .on 1 true).notice.backlog.length
      ∧ let n := active.stationNotice .joined 8 0 0
        let s := { holding .on 1 true with notice := { NoticeUnit.reset with backlog := [n, n] } }
        s.contention.ownHold = .on ∧ s.contention.expiryOwed = true ∧ s.cfg.lowMark < s.notice.backlog.length := by
  decide

theorem witness_TickAdvancesTheTickCounters :
    (busy.station.life ≠ .awaitStart ∧ (∀ e ∈ busy.directory, e.tickOwed = false)
      ∧ busy.notice.tickOwed = false)
    ∧ ∀ timer ∈ [Coalescing.stopped, .running 0, .running 1, .expired],
        ({ active with notice := { NoticeUnit.reset with timer := timer, tickOwed := true } } : State).notice.tickOwed
          = true := by
  refine ⟨⟨by decide, ?_, rfl⟩, fun _ _ => rfl⟩
  decide

/-- An entry to which a tick is owed, alone in its directory. -/
def owed (role : Role) : State :=
  withEntries active [{ object := 5, line := none, tickOwed := true, role := role }]

theorem owed_meets (role : Role) : (owed role).StorageCanonical
    ∧ (owed role).entry 5 = some { object := 5, line := none, tickOwed := true, role := role } :=
  ⟨storage_of (withEntries active []) (by decide +kernel), rfl⟩

/-- A refresh counter a tick short of its period, with a committed value and without, and an age counter a tick
short of its limit; counters that the owed tick does not bring to their end; and an entry to which none is owed. -/
theorem witness_ExpiredEntryTimersAct :
    (∀ committed ∈ [some 3, none],
      let p := { produced .owned committed with refreshCounter := 3 }
      ((owed (.produce p)).StorageCanonical
        ∧ (owed (.produce p)).entry 5 = some { object := 5, line := none, tickOwed := true, role := .produce p })
        ∧ p.ownership = .owned ∧ p.refreshCounter + 1 = p.refreshPeriod ∧ p.queued = .no ∧ p.inFlight = .no)
    ∧ (∀ r ∈ [Replica.fresh, .stale, .absent],
        let c : Consume := { binding := .bound 12, replica := r, lastSeq := none, ageLimit := 1, age := 0
                             ageRunning := true, notify := .none }
        ((owed (.consume c)).StorageCanonical
          ∧ (owed (.consume c)).entry 5 = some { object := 5, line := none, tickOwed := true, role := .consume c })
          ∧ c.ageRunning = true ∧ c.ageLimit ≠ 0 ∧ c.ageLimit ≤ c.age + 1)
    ∧ ((owed (.produce (produced .owned none))).StorageCanonical
        ∧ ¬ ((produced .owned none).ownership = .owned
          ∧ (produced .owned none).refreshCounter + 1 = (produced .owned none).refreshPeriod))
    ∧ (let c : Consume := { binding := .unbound, replica := .absent, lastSeq := none, ageLimit := 0, age := 65535
                            ageRunning := true, notify := .all }
       (owed (.consume c)).StorageCanonical
         ∧ ¬ (c.ageRunning = true ∧ c.ageLimit ≠ 0 ∧ c.ageLimit ≤ c.age + 1))
    ∧ (busy.StorageCanonical ∧ busy.entry 5 = some busyOwner ∧ busyOwner.tickOwed = false) :=
  ⟨fun _ _ => ⟨owed_meets _, rfl, rfl, rfl, rfl⟩,
    fun _ _ => ⟨owed_meets _, rfl, (by decide : 1 ≠ 0), Nat.le_refl 1⟩,
    ⟨(owed_meets _).1, by decide⟩, ⟨(owed_meets _).1, fun h => absurd rfl h.2.1⟩,
    storage_of _ (by decide +kernel), rfl, rfl⟩

/-! ### Contention -/

/-- A Contention Unit in a state with a frame in hand. -/
def inHand (s : State) (c : CState) (f : Option InHand) (attempts : Nat) : State :=
  { s with contention := { Contention.reset with state := c, inHand := f, attempts := attempts } }

theorem witness_DeferralCountsQuietSlots :
    (active.contention.carrier = false ∧ active.contention.quiet = false ∧ active.contention.state ≠ .sending
      ∧ active.station.life ≠ .awaitStart)
    ∧ ∀ r ∈ [0, 1, 131],
        let c := { Contention.reset with quiet := true, state := .deferring r false }
        c.carrier = false ∧ c.quiet = true ∧ c.state = .deferring r false := by decide

/-- A record for object 5 that reaches its entry, and that entry. -/
def sent : TxRecord := { object := 5, rep := false, seq := 4, payload := [1, 2] }

/-- The owner whose record is in flight. -/
def flying : Produce := { produced .owned (some 3) with inFlight := .tentative 4 }

theorem witness_DeferralEndChoosesAFrame :
    (let s := inHand active (.deferring 0 true) (some (.control (.claim 5) true)) 1
     s.QueuedAreOwned ∧ s.contention.state = .deferring 0 true
       ∧ s.contention.inHand = some (.control (.claim 5) true))
    ∧ (let s := inHand (owns flying) (.deferring 0 true) (some (.data [sent])) 1
       s.QueuedAreOwned ∧ s.contention.state = .deferring 0 true ∧ s.contention.inHand = some (.data [sent])
         ∧ ∀ k, s.contention.holdTable.get k = 0)
    ∧ (let s := inHand (owns flying) (.deferring 0 true) (some (.data [sent])) 1
       let t := { s with contention := { s.contention with holdTable := s.contention.holdTable.set 31 1 } }
       t.QueuedAreOwned ∧ t.contention.state = .deferring 0 true ∧ t.contention.inHand = some (.data [sent])
         ∧ ¬ ∀ k, t.contention.holdTable.get k = 0)
    ∧ (let s := inHand active (.deferring 0 true) none 0
       let t := { s with contention := { s.contention with queue := [.hold 0] } }
       t.QueuedAreOwned ∧ t.contention.state = .deferring 0 true ∧ t.contention.inHand = none
         ∧ t.contention.queue = .hold 0 :: [])
    ∧ (let s := { busy with contention := { busy.contention with
          state := .deferring 0 true, queue := [], holdTable := Contention.reset.holdTable } }
       s.contention.state = .deferring 0 true ∧ s.contention.inHand = none ∧ s.contention.queue = []
         ∧ s.station.life = .active ∧ (∀ k, s.contention.holdTable.get k = 0) ∧ s.pubQueue ≠ [])
    ∧ (let s := inHand active (.deferring 0 true) none 0
       s.QueuedAreOwned ∧ s.contention.state = .deferring 0 true ∧ s.contention.inHand = none
         ∧ s.contention.queue = [] ∧ s.pubQueue = []) := by
  refine ⟨⟨⟨by decide, fun r h => by simp [inHand] at h, fun it h => by simp [inHand, active, station, State.reset] at h⟩,
      rfl, rfl⟩,
    ⟨queued_of _ [sent] rfl (.inr rfl) (by decide), rfl, rfl, by decide +kernel⟩,
    ⟨queued_of _ [sent] rfl (.inr rfl) (by decide), rfl, rfl, by decide +kernel⟩,
    ⟨queued_of _ [] rfl (.inl rfl) (by decide), rfl, rfl, rfl⟩,
    ⟨rfl, rfl, rfl, rfl, by decide +kernel, by decide⟩,
    queued_of _ [] rfl (.inl rfl) (by decide), rfl, rfl, rfl, rfl⟩

theorem witness_CollisionDrawsAgain :
    (∀ w ∈ [false, true],
      let s := inHand active .sending (some (.control (.claim 5) w)) 2
      s.contention.state = .sending ∧ s.contention.attempts + 1 ≤ s.cfg.retryLimit
        ∧ s.contention.inHand = some (.control (.claim 5) w))
    ∧ (let s := inHand (owns flying) .sending (some (.data [sent])) 0
       s.contention.state = .sending ∧ s.contention.attempts + 1 ≤ s.cfg.retryLimit
         ∧ s.contention.inHand = some (.data [sent]) ∧ [sent].filter s.keeps ≠ []
         ∧ ([sent].map TxRecord.object).Nodup)
    ∧ (let s := inHand (owns { flying with ownership := .deposed }) .sending (some (.data [sent])) 0
       s.contention.state = .sending ∧ s.contention.attempts + 1 ≤ s.cfg.retryLimit
         ∧ s.contention.inHand = some (.data [sent]) ∧ [sent].filter s.keeps = []) := by
  refine ⟨by decide, ?_, ?_⟩ <;> decide +kernel

theorem witness_DataFramesCommitOrReturn :
    (let s := inHand (owns flying) .sending (some (.data [sent])) 3
     s.QueuedAreOwned ∧ s.contention.state = .sending ∧ s.contention.inHand = some (.data [sent])
       ∧ s.reached sent = some flying ∧ s.cfg.retryLimit < s.contention.attempts + 1)
    ∧ (let r := { sent with payload := List.replicate 9 1 }
       let s := inHand (owns flying) .sending (some (.data [r])) 0
       s.QueuedAreOwned ∧ s.contention.state = .sending ∧ s.contention.inHand = some (.data [r])
         ∧ 17 < (InHand.data [r]).body.length + 5)
    ∧ (let s := inHand (owns (produced .owned (some 3))) .sending (some (.data [sent])) 3
       s.QueuedAreOwned ∧ s.contention.inHand = some (.data [sent]) ∧ s.reached sent = none) :=
  ⟨⟨queued_of _ [sent] rfl (.inr rfl) (by decide), rfl, rfl, by decide +kernel, by decide⟩,
    ⟨queued_of _ [_] rfl (.inr rfl) (by decide), rfl, rfl, by decide⟩,
    queued_of _ [sent] rfl (.inr rfl) (by decide), rfl, by decide +kernel⟩

theorem witness_ClaimAndReleaseFramesEnd :
    (let s := inHand (claims .awaitSend) .sending (some (.control (.claim 5) false)) 3
     s.StorageCanonical ∧ s.contention.state = .sending ∧ s.produce 5 = some claimant
       ∧ s.contention.inHand = some (.control (.claim 5) false) ∧ claimant.ownership = .claiming
       ∧ claimant.claimSlot = some 3
       ∧ s.ownership.slots.get 3 = some { object := 5, phase := .awaitSend, tag := 0x55 }
       ∧ s.cfg.retryLimit < s.contention.attempts + 1)
    ∧ (let p := { produced .relinquishing (some 3) with releaseQueued := true, releaseTag := some 9 }
       let s := inHand (owns p) .sending (some (.control (.relinquish 5) false)) 3
       s.StorageCanonical ∧ s.contention.state = .sending ∧ s.produce 5 = some p
         ∧ s.contention.inHand = some (.control (.relinquish 5) false) ∧ p.ownership = .relinquishing
         ∧ p.releaseQueued = true ∧ p.releaseTag = some 9 ∧ s.cfg.retryLimit < s.contention.attempts + 1)
    ∧ (∀ f ∈ [(CtlFrame.dispute 5, false), (.pull 5, true), (.claim 5, true)],
       let s := inHand active .sending (some (.control f.1 f.2)) 3
       s.StorageCanonical ∧ s.contention.state = .sending ∧ s.contention.inHand = some (.control f.1 f.2)
         ∧ (f.1 = .dispute 5 ∨ f.1 = .pull 5 ∨ f.1 = .claim 5 ∧ f.2 = true)
         ∧ s.cfg.retryLimit < s.contention.attempts + 1) :=
  ⟨⟨storage_of _ (by decide +kernel), rfl, by decide +kernel, rfl, rfl, rfl, by decide, by decide⟩,
    ⟨storage_of _ (by decide +kernel), rfl, by decide +kernel, rfl, rfl, rfl, rfl, by decide⟩,
    fun f hf => ⟨storage_of active (by decide +kernel), rfl, rfl, by revert f; decide, (by decide : 3 < 3 + 1)⟩⟩

theorem witness_OwnHoldFollowsItsFrames :
    ∀ h ∈ [OwnHold.starting, .renewing, .stopping, .off, .on], ∀ n ∈ [0, 16],
      let c := { Contention.reset with
        state := .sending, inHand := some (.control (.hold n) false), attempts := 3, ownHold := h }
      c.state = .sending ∧ c.inHand = some (.control (.hold n) false) ∧ c.ownHold = h
        ∧ record.retryLimit < c.attempts + 1 := by decide

theorem witness_EndOfHappeningDrawsOrDetaches :
    (let s := { active with contention := { Contention.reset with queue := [.pull 5] } }
     ¬ (s.station.life = .leaving) ∧ s.contention.state = .idle ∧ s.contention.queue ≠ []
       ∧ s.station.life = .active)
    ∧ (active.contention.state = .idle ∧ active.contention.queue = [] ∧ active.pubQueue = [])
    ∧ (let s := station .leaving
       s.station.life = .leaving ∧ s.producedObjects = [] ∧ s.contention.queue = []
         ∧ s.contention.inHand = none) := by decide

/-! ### Notices -/

/-- A backlog of two, with and without notices lost, an own hold ON at the low mark, and a full but one ring. -/
theorem witness_PlacementMovesTheHead :
    (let n := active.stationNotice .joined 8 0 0
     let s := { holding .on 5 false with notice := { NoticeUnit.reset with backlog := [n, n], lost := 1, unread := 7 } }
     s.RingsKept ∧ s.station.life ≠ .awaitStart ∧ s.port.waiting = [] ∧ s.notice.backlog = n :: [n]
       ∧ s.notice.unread < s.cfg.noticeLength
       ∧ (s.contention.ownHold = .on ∧ [n].length ≤ s.cfg.lowMark))
    ∧ (let n := active.stationNotice .joined 8 0 0
       let s := { active with notice := { NoticeUnit.reset with backlog := [n] } }
       s.RingsKept ∧ s.station.life ≠ .awaitStart ∧ s.port.waiting = [] ∧ s.notice.backlog = n :: []
         ∧ s.notice.unread < s.cfg.noticeLength ∧ s.contention.ownHold = .off)
    ∧ (∀ w ∈ accesses, (waits active w).port.waiting = [w] ∧ w.addr < 0x4000) :=
  ⟨⟨by unfold State.RingsKept; decide +kernel, by decide, rfl, rfl, by decide, by decide⟩,
    ⟨by unfold State.RingsKept; decide +kernel, by decide, rfl, rfl, by decide, rfl⟩, by decide⟩

end Sys2Proof.Tests
end

section
/-! PROOF. What every command does, said once: a property of the state that each operation below keeps holds after
every step. The operations are those that the commands of Table 95 share; the guards that a command has checked before
it carries one out are the operation's premises here. -/

namespace Sys2Proof.Machine

/-- If the outcome is a next state, the property holds there. -/
def Ends (P : State → Prop) (o : Host.Outcome State Fault Refusal) : Prop := ∀ t, o = .next t → P t

@[simp] theorem ends_next (P : State → Prop) (t : State) : Ends P (.next t) ↔ P t :=
  ⟨fun h => h t rfl, fun h u hu => by cases hu; exact h⟩

/-- The life-cycle states in which a station has nothing to send (R15, R137, R147, R149). -/
def Life.rests : Life → Bool
  | .awaitStart | .detached | .muted => true
  | .joining | .active | .leaving => false

/-- The unit differs in its counters and timing alone: the frames, the own hold and whether the unit is IDLE or SENDING
are as they were. -/
structure Contention.SameButTiming (c d : Contention) : Prop where
  inHand : d.inHand = c.inHand
  queue : d.queue = c.queue
  ownHold : d.ownHold = c.ownHold
  idle : d.state = .idle ↔ c.state = .idle
  sending : d.state = .sending ↔ c.state = .sending

/-- The frame in hand is as it was, but that one control frame may stand for another. -/
def SameData (i j : Option InHand) : Prop :=
  j = i ∨ ∃ f v g w, i = some (.control f v) ∧ j = some (.control g w)

/-- An entry differs in its counter and its owed tick alone (R83, R110). -/
def Entry.SameButCounter (e f : Entry) : Prop :=
  f.object = e.object ∧ f.line = e.line ∧
    match e.role, f.role with
    | .produce p, .produce q => q = { p with refreshCounter := q.refreshCounter }
    | .consume c, .consume d => d = { c with age := d.age, ageRunning := d.ageRunning }
    | _, _ => False

/-- The claim slots differ in their phases alone (R57). -/
def SameButPhases (v w : Vector (Option ClaimSlot) 4) : Prop :=
  ∀ k, (w.get k).map ClaimSlot.object = (v.get k).map ClaimSlot.object

/-- The station is not at rest, or has something that only such a station has. -/
def State.Busy (s : State) : Prop :=
  s.station.life.rests = false ∨ s.contention.ownHold ≠ .off ∨ s.contention.state ≠ .idle
    ∨ s.contention.inHand ≠ none ∨ s.contention.queue ≠ [] ∨ ∃ n p, s.produce n = some p

/-- A property that every operation of the commands keeps. -/
structure KeptByHappenings (P : State → Prop) : Prop where
  /-- The two resets (R139). -/
  reset : ∀ t, t.HasResetValues → P t
  /-- Blocks of which the property does not speak. -/
  aside : ∀ {s t}, P s → s.ChangesOnly t [.rx, .dispatch, .notice, .port, .pending] → P t
  /-- The Command Unit begins to scan outside AWAIT_START alone (R155). -/
  command : ∀ {s x}, P s → (x.scanning = true → s.command.scanning = true ∨ s.station.life ≠ .awaitStart) →
    P (s.setCommand x)
  /-- Station Control, but for the ways into a state of rest. -/
  station : ∀ {s x}, P s → (x.life = s.station.life ∨ x.life.rests = false) → P (s.setStation x)
  timing : ∀ {s x}, P s → s.contention.SameButTiming x → P (s.setContention x)
  /-- Requests of automatic frames, and the own hold (R130, R134, R135). -/
  automatic : ∀ {s x}, P s → s.Busy → x.state = s.contention.state → SameData s.contention.inHand x.inHand →
    P (s.setContention x)
  phases : ∀ {s x}, P s → SameButPhases s.ownership.slots x.slots → x.waitList = s.ownership.waitList →
    P (s.setOwnership x)
  counters : ∀ {s} {g : Entry → Entry}, P s → (∀ e : Entry, e.SameButCounter (g e)) →
    P (s.setDirectory (s.directory.map g))
  settle : ∀ {s}, P s → P s.settle
  mute : ∀ {s}, P s → P s.enterMuted
  subscribe : ∀ {s} {d : Descriptor}, P s → s.command.scanning = true → d.object < 4096 → s.entry d.object = none →
    s.directory.length < 256 → P (s.setDirectory (insertEntry s.directory d.newConsume))
  unsubscribe : ∀ {s n}, P s → s.produce n = none → P (s.removeEntry n)
  unbind : ∀ {s n}, P s → P (s.updConsume n (fun c => { c with binding := .unbound }))
  lock : ∀ {s n b}, P s → s.produce n = none → P (s.markLocked n b)
  pull : ∀ {s n}, P s → s.producing = true → P (s.placeCommand (.pull n))
  claim : ∀ {s} {d : Descriptor}, P s → s.producing = true → (∀ c ∈ s.claimChecks d, c.1 = false) →
    P (s.takeClaim d)
  release : ∀ {s n tag}, P s → P (s.release n tag)
  stage : ∀ {s n payload}, P s → P (s.stage n payload)
  touch : ∀ {s n}, P s → P (s.touchLine n)
  judge : ∀ {s n c source rep q payload}, P s → s.consume n = some c → P (s.judgeRecord n c source rep q payload)
  lose : ∀ {s n p source cause}, P s → s.produce n = some p → p.ownership = .claiming → P (s.loseClaim n source cause)
  depose : ∀ {s n p source cause}, P s → s.produce n = some p → p.ownership = .owned → P (s.depose n source cause)
  orphan : ∀ {s n c source}, P s → s.consume n = some c → P (s.relinquishAtConsume n source c)
  again : ∀ {s n p}, P s → s.produce n = some p → p.ownership = .owned → P (s.appendRepeat n)
  grant : ∀ {s k slot p}, P s → s.ownership.slots.get k = some slot → s.produce slot.object = some p →
    p.ownership = .claiming → p.claimSlot = some k → P (s.grantClaim k slot p)
  age : ∀ {s n c}, P s → s.consume n = some c → P (s.expireAge n c)
  choose : ∀ {s r}, P s → s.contention.state = .deferring r true → P s.chooseFrame
  collide : ∀ {s}, P s → s.contention.state = .sending → P s.collide
  abandon : ∀ {s cause}, P s → s.contention.state = .sending → P (s.reportAbandonment cause).dropFrame
  succeed : ∀ {s}, P s → s.contention.state = .sending → P s.reportSuccess.dropFrame

/-! ## Guards and relations -/

theorem Contention.SameButTiming.refl (c : Contention) : c.SameButTiming c := ⟨rfl, rfl, rfl, .rfl, .rfl⟩

theorem Contention.SameButTiming.of_eq {c d : Contention} (hs : d.state = c.state) (hi : d.inHand = c.inHand)
    (hq : d.queue = c.queue) (ho : d.ownHold = c.ownHold) : c.SameButTiming d :=
  ⟨hi, hq, ho, by rw [hs], by rw [hs]⟩

theorem SameData.refl (i : Option InHand) : SameData i i := .inl rfl

theorem SameData.trans {i j k : Option InHand} (h : SameData i j) (h' : SameData j k) : SameData i k := by
  obtain rfl | ⟨f, v, g, w, rfl, rfl⟩ := h
  · exact h'
  · obtain rfl | ⟨_, _, g', w', -, rfl⟩ := h'
    · exact .inr ⟨f, v, g, w, rfl, rfl⟩
    · exact .inr ⟨f, v, g', w', rfl, rfl⟩

/-- A HOLD request replaces one HOLD in hand by another at most (R130). -/
theorem requestHold_state (c : Contention) (n : Nat) :
    (c.requestHold n).state = c.state ∧ SameData c.inHand (c.requestHold n).inHand := by
  unfold Contention.requestHold
  split_ifs with _ hin
  · exact ⟨rfl, .refl _⟩
  · refine ⟨rfl, .inr ?_⟩
    unfold Contention.holdInHand at hin
    split at hin
    · next f w hi => exact ⟨f, w, _, _, hi, rfl⟩
    · simp at hin
  all_goals exact ⟨rfl, .refl _⟩

theorem requestDispute_state (c : Contention) (n : Nat) :
    (c.requestDispute n).state = c.state ∧ (c.requestDispute n).inHand = c.inHand := by
  unfold Contention.requestDispute
  split <;> exact ⟨rfl, rfl⟩

theorem entry_count_same (e : Entry) : e.SameButCounter e.count := by
  obtain ⟨o, l, r, w⟩ := e
  rw [count_eq]
  cases r <;> exact ⟨rfl, rfl, rfl⟩

theorem entry_tick_same (late : List Nat) (e : Entry) : e.SameButCounter (e.tick late) := by
  unfold Entry.tick
  split
  · obtain ⟨o, l, r, w⟩ := e
    cases r <;> exact ⟨rfl, rfl, rfl⟩
  · exact entry_count_same e

theorem Entry.SameButCounter.refl (e : Entry) : e.SameButCounter e := by
  obtain ⟨o, l, r, w⟩ := e
  cases r <;> exact ⟨rfl, rfl, rfl⟩

/-- A change of the entries of one object, as a change of every entry. -/
theorem sameButCounter_ite {n : Nat} {g : Entry → Entry} (h : ∀ e : Entry, e.SameButCounter (g e)) (e : Entry) :
    e.SameButCounter (if e.object = n then g e else e) := by
  split
  · exact h e
  · exact .refl e

/-- A slot boundary changes a claim slot's phase alone (R57). -/
theorem slots_samePhases (v : Vector (Option ClaimSlot) 4) :
    SameButPhases v (mapTable (Option.map ClaimSlot.slot) v) := by
  intro k
  rw [mapTable_get]
  cases v.get k with
  | none => rfl
  | some c =>
    simp only [Option.map_some, Option.some.injEq]
    unfold ClaimSlot.slot
    split <;> rfl

theorem firstFailure_none {checks : List (Bool × Status)} (h : firstFailure checks = none) :
    ∀ c ∈ checks, c.1 = false := by
  induction checks with
  | nil => simp
  | cons c rest ih =>
    obtain ⟨failed, status⟩ := c
    cases failed with
    | true => simp [firstFailure] at h
    | false => simpa using ih (by simpa [firstFailure] using h)

/-- A taking reads shared RAM while the unit is SCANNING (R156, R157). -/
theorem takingCode_scans {s t : State} {code : Byte} {d : Descriptor} (h : s.takingCode code = some (d, t)) :
    s.ChangesOnly t [.port] ∧ t.command.scanning = true := by
  have hp := takingCode_changesOnly _ _ _ _ h
  refine ⟨hp, ?_⟩
  have hc : t.command = s.command := hp .command (by decide)
  rw [hc]
  by_contra hn
  simp [State.takingCode, State.taking, hn] at h

theorem entry_none_of (s : State) (n : Nat) (hp : s.produce n = none) (hc : s.consume n = none) :
    s.entry n = none := by
  by_contra h
  have := s.consume_or_produce n h
  simp [hp, hc] at this

theorem slotTable_timing (c : Contention) : c.SameButTiming c.slotTable.slotExpiry := by
  obtain ⟨-, -, h⟩ := slotTable_spec c
  rw [slotExpiry_eq, h]
  exact .of_eq rfl rfl rfl rfl

end Sys2Proof.Machine
end

section
/-! PROOF. The walk of the commands: what every operation of `KeptByHappenings` keeps, every step keeps. -/

namespace Sys2Proof.Machine

/-- What every round of a fold keeps, the fold keeps. -/
theorem fold_keeps {α : Type} {P : State → Prop} {F : State → α → State} (hF : ∀ t x, P t → P (F t x)) (l : List α)
    {s : State} (hs : P s) : P (l.foldl F s) := by
  induction l generalizing s with
  | nil => exact hs
  | cons x rest ih => exact ih (hF s x hs)

theorem consumeChecked (s : State) (d : Descriptor) (h : ∀ c ∈ s.consumeChecks d, c.1 = false) :
    s.produce d.object = none := by
  simp [State.consumeChecks] at h
  exact h.2.2

section Walk
variable {P : State → Prop} (H : KeptByHappenings P) {s : State} (hs : P s)
include H hs

/-! ## Shared steps of the commands -/

theorem KeptByHappenings.port (x : HostPort) : P (s.setPort x) :=
  H.aside hs ((setPort_changesOnly _ _).mono (by decide))

theorem KeptByHappenings.notice (x : NoticeUnit) : P (s.setNotice x) :=
  H.aside hs ((setNotice_changesOnly _ _).mono (by decide))

theorem KeptByHappenings.rx (x : Rx) : P (s.setRx x) :=
  H.aside hs ((setRx_changesOnly _ _).mono (by decide))

theorem KeptByHappenings.dispatch (x : List Item) : P (s.setDispatch x) :=
  H.aside hs ((setDispatch_changesOnly _ _).mono (by decide))

theorem KeptByHappenings.register {t : State} {via : SpiVia} {w : Bool} {a : Nat}
    (h : s.registerByte via w a = some t) : P t :=
  H.aside hs ((registerByte_changesOnly _ _ _ _ _ h).mono (by decide))

theorem KeptByHappenings.complete (status : Status) (flags : Byte) (length detail : Nat) :
    P (s.complete status flags length detail) := by
  unfold State.complete
  exact H.command (H.port hs _) (fun h => .inl h)

theorem KeptByHappenings.finish (d : Descriptor) (status : Status) : P (s.finish d status) :=
  H.complete hs _ _ _ _

theorem KeptByHappenings.taken {code : Byte} {d : Descriptor} {t : State} (h : s.takingCode code = some (d, t)) :
    P t := H.aside hs ((takingCode_scans h).1.mono (by decide))

theorem KeptByHappenings.perform (d : Descriptor) {checks : List (Bool × Status)} {carryOut : State → State}
    (h : (∀ c ∈ checks, c.1 = false) → P (carryOut s)) : P (s.perform d checks carryOut) := by
  unfold State.perform
  split
  · exact H.finish hs d _
  · next hc => exact h (firstFailure_none hc)

theorem KeptByHappenings.highMarkTest : P s.highMarkTest := by
  rcases highMarkTest_cases s with h | ⟨-, hl, -, h⟩
  · rw [h]; exact hs
  · rw [h]
    refine H.automatic hs (.inl ?_) (requestHold_state _ _).1 (requestHold_state _ _).2
    cases hlife : s.station.life <;> simp_all [Life.transmits, Life.rests]

theorem KeptByHappenings.post (n : Notice) : P (s.post n) := by
  unfold State.post
  split
  · exact H.highMarkTest (H.notice hs _)
  · exact H.notice hs _

theorem KeptByHappenings.reportFall (b : Nat) : P (s.reportFall b) := by
  unfold State.reportFall
  split
  · next h =>
    have hold : s.contention.ownHold ≠ .off := by rcases h.1 with h | h <;> simp [h]
    refine H.post ?_ _
    exact H.automatic hs (.inr (.inl hold)) (requestHold_state _ _).1 (requestHold_state _ _).2
  · exact hs

/-! ## Timers -/

theorem KeptByHappenings.windowEnds (k : Fin 4) : P (s.windowEnds k) := by
  unfold State.windowEnds
  split
  · exact hs
  · next slot hslot =>
    split
    · exact hs
    · next p hp =>
      split
      · next h => exact H.settle (H.grant hs hslot hp h.2.1 h.2.2)
      · exact hs

theorem KeptByHappenings.lastFall : P s.lastFall := by
  unfold State.lastFall
  split
  · exact hs
  · exact H.settle (H.timing hs (.of_eq rfl rfl rfl rfl))

theorem KeptByHappenings.ownHoldEnds : P s.ownHoldEnds := by
  unfold State.ownHoldEnds State.expireOwnHold
  split
  · next h =>
    have busy : s.Busy := .inr (.inl (by simp [h.1]))
    refine H.settle ?_
    split
    · exact H.automatic hs busy (requestHold_state _ _).1 (requestHold_state _ _).2
    · refine H.post ?_ _
      exact H.automatic hs busy rfl (.refl _)
  · exact hs

theorem KeptByHappenings.joinEnds : P s.joinEnds := by
  unfold State.joinEnds State.enterActive
  split
  · exact H.settle (H.highMarkTest (H.post (H.station hs (.inr rfl)) _))
  · exact hs

theorem KeptByHappenings.carryOutSlots : P s.carryOutSlots := by
  unfold State.carryOutSlots
  have hgrants := fold_keeps (P := P) (F := State.windowEnds) (fun _ k ht => H.windowEnds ht k) [0, 1, 2, 3] hs
  exact H.joinEnds (H.ownHoldEnds (H.lastFall hgrants))

theorem KeptByHappenings.slotBoundary : P s.slotBoundary := by
  unfold State.slotBoundary
  refine H.timing (H.phases (H.station hs (.inl ?_)) (slots_samePhases _) rfl) (slotTable_timing _)
  rw [Station.slot_eq]

theorem KeptByHappenings.updateCounter (n : Nat) {g : Entry → Entry} (hg : ∀ e : Entry, e.SameButCounter (g e)) :
    P (s.setDirectory (updateEntry s.directory n g)) := H.counters hs (sameButCounter_ite hg)

theorem KeptByHappenings.expireRefresh (n : Nat) (p : Produce) (hp : s.produce n = some p)
    (ho : p.ownership = .owned) : P (s.expireRefresh n) := by
  refine H.updateCounter (H.again hs hp ho) n (fun e => ?_)
  obtain ⟨o, l, r, w⟩ := e
  cases r <;> exact ⟨rfl, rfl, rfl⟩

theorem KeptByHappenings.tickEntry (n : Nat) : P (s.tickEntry n) := by
  unfold State.tickEntry
  split
  · exact hs
  · next e he =>
    split
    · have hmet := H.updateCounter hs n (g := fun e => { e with tickOwed := false }) (fun e => by
        obtain ⟨o, l, r, w⟩ := e
        cases r <;> exact ⟨rfl, rfl, rfl⟩)
      have hentry : (s.setDirectory (updateEntry s.directory n (fun e => { e with tickOwed := false }))).entry n
          = some { e with tickOwed := false } :=
        (lookup_updateEntry s.directory n n (fun e => { e with tickOwed := false }) (fun _ => rfl)).trans (by
          rw [if_pos rfl, show lookup s.directory n = some e from he]; rfl)
      dsimp only
      split
      · next hend =>
        rw [endsAtTick_iff] at hend
        split
        · next p hr =>
          rw [hr] at hend
          exact H.settle (H.expireRefresh hmet n p (State.produce_of_entry _ _ _ _ hentry hr) hend.1)
        · next c hr => exact H.settle (H.age hmet (State.consume_of_entry _ _ _ _ hentry hr))
      · exact H.updateCounter hmet n entry_count_same
    · exact hs

theorem KeptByHappenings.tickTimer : P s.tickTimer := by
  unfold State.tickTimer State.updateInt
  split
  · split
    · exact H.notice (H.notice hs _) _
    · exact H.notice hs _
  · exact hs

theorem KeptByHappenings.carryOutTicks : P s.carryOutTicks := by
  unfold State.carryOutTicks
  exact H.tickTimer (fold_keeps (P := P) (F := State.tickEntry) (fun _ n ht => H.tickEntry ht n) _ hs)

theorem KeptByHappenings.tickAll (late : List Nat) (timerLate : Bool) : P (s.tickAll late timerLate) := by
  unfold State.tickAll
  refine H.notice ?_ _
  exact H.counters (s := s.setStation _) (H.station hs (.inl rfl)) (entry_tick_same late)

/-! ## The commands of the host port -/

theorem KeptByHappenings.started (r : StartRecord) : P (s.started r) := by
  have h1 := H.station hs (x := { s.station with
    life := .joining, startError := 0, copy := some r, keptTag := 0, joinTimer := 0, joinRunning := true
    joinOwed := false, rejoined := false, slotCount := 0, tickCount := 0 }) (.inr rfl)
  have h2 := H.timing (H.rx h1 .skip) (x := { s.contention with
    rng := Config.generatorSeed ^^^ BitVec.ofNat 16 r.station, quiet := false }) (.of_eq rfl rfl rfl rfl)
  exact H.command h2 (x := { index := 0, scanning := true, rescan := false }) (fun _ => .inr (by simp))

theorem KeptByHappenings.startRequest : P s.startRequest := by
  unfold State.startRequest
  dsimp only
  split
  · exact H.station (H.port hs _) (.inl rfl)
  · exact H.started (H.port hs _) _

theorem KeptByHappenings.scanRequest : P s.scanRequest := by
  unfold State.scanRequest
  split
  · exact hs
  · next hl =>
    split
    · exact H.command hs (fun _ => .inr hl)
    · exact H.command hs (fun _ => .inr hl)

theorem KeptByHappenings.releaseNotices (k : Nat) : P (s.releaseNotices k) := by
  unfold State.releaseNotices State.updateInt
  split
  · exact hs
  · exact H.notice (H.notice hs _) _

theorem KeptByHappenings.placement : Ends P (execPlacement s) := by
  unfold execPlacement
  split
  · simpa using hs
  · next n rest _ =>
    split
    · rw [ends_next]
      have hw : P (s.writeNotice n) := H.notice (H.port hs _) _
      refine H.settle (H.notice (H.notice ?_ _) _)
      unfold State.leaveBacklog
      split
      · exact H.reportFall (H.notice hw _) _
      · exact H.highMarkTest (H.reportFall (H.notice hw _) _)
    · simpa using hs

/-! ## The line -/

theorem KeptByHappenings.carrierBegins : Ends P (execCarrierBegins s) := by
  unfold execCarrierBegins
  split
  · simpa using hs
  · rw [ends_next]
    refine H.timing (H.rx hs _) ⟨rfl, rfl, rfl, ?_, ?_⟩ <;>
      (show s.contention.state.carrierBegins = _ ↔ _; cases hst : s.contention.state <;> simp [CState.carrierBegins, hst])

theorem KeptByHappenings.quietReached : Ends P (execQuietReached s) := by
  unfold execQuietReached
  split
  · rw [ends_next]
    refine H.timing hs ⟨rfl, rfl, rfl, ?_, ?_⟩ <;>
      (cases hst : s.contention.state <;> simp)
  · simpa using hs

theorem KeptByHappenings.deferralSlot : Ends P (execDeferralSlot s) := by
  unfold execDeferralSlot
  split
  · next hst =>
    split
    · rw [ends_next]
      exact H.timing hs ⟨rfl, rfl, rfl, by simp [hst], by simp [hst]⟩
    · simpa using hs
  · simpa using hs

theorem KeptByHappenings.frameEnd (f : RxFrame) (rest : List Byte) : P (s.frameEnd f rest) := by
  unfold State.frameEnd State.clash
  split
  · exact hs
  · split
    · exact hs
    · split
      · split
        · exact H.mute hs
        · exact H.mute hs
        · exact H.mute hs
        · exact H.mute hs
        · exact hs
        · exact hs
      · exact H.dispatch hs _

/-! ## The command ring -/

theorem KeptByHappenings.subscribeChecked (d : Descriptor) (hscan : s.command.scanning = true)
    (h : ∀ c ∈ s.subscribeChecks d, c.1 = false) :
    P ((s.setDirectory (insertEntry s.directory d.newConsume)).finish d .ok) := by
  simp [State.subscribeChecks, Descriptor.badObject, Config.objectCount, Config.directoryCapacity] at h
  obtain ⟨hobj, -, hp, hc, hlen⟩ := h
  exact H.finish (H.subscribe hs hscan (Nat.not_le.mp (of_decide_eq_false hobj)) (entry_none_of s _ hp hc)
    (Nat.not_le.mp (of_decide_eq_false hlen))) d _

theorem KeptByHappenings.readLine (d : Descriptor) : P (s.readLine d) := by
  unfold State.readLine
  split
  · exact H.complete (H.touch (H.port hs _)) _ _ _ _
  · exact H.complete hs _ _ _ _

theorem KeptByHappenings.beginLeave (tag : Word16) : P (s.beginLeave tag) := by
  unfold State.beginLeave
  exact fold_keeps (fun _ _ ht => H.release ht) _ (H.station hs (.inr rfl))

/-- A checked ring command: refused, or carried out and completed. -/
theorem KeptByHappenings.ring {code : Byte} {d : Descriptor} {t : State} (h : s.takingCode code = some (d, t))
    {checks : List (Bool × Status)} {carryOut : State → State}
    (hk : P t → t.command.scanning = true → (∀ c ∈ checks, c.1 = false) → P (carryOut t)) :
    P (t.perform d checks carryOut) :=
  H.perform (H.taken hs h) d (hk (H.taken hs h) (takingCode_scans h).2)

theorem KeptByHappenings.execBadCommand : Ends P (execBadCommand s) := by
  unfold Sys2Proof.Machine.execBadCommand
  split
  · simpa using hs
  · next d t ht =>
    split
    · simpa using hs
    · rw [ends_next]
      exact H.finish (H.aside hs ((taking_changesOnly _ _ _ ht).mono (by decide))) d _

theorem KeptByHappenings.execExamination : Ends P (execExamination s) := by
  unfold Sys2Proof.Machine.execExamination
  split
  · next hscan =>
    dsimp only
    split
    · simpa using hs
    · rw [ends_next]
      exact H.command (H.port hs _) (fun _ => .inl hscan)
  · simpa using hs

theorem KeptByHappenings.execSubscribe : Ends P (execSubscribe s) := by
  unfold Sys2Proof.Machine.execSubscribe
  split
  · simpa using hs
  · next d t ht =>
    rw [ends_next]
    exact H.ring hs ht (fun h hscan hc => H.subscribeChecked h d hscan hc)

theorem KeptByHappenings.execUnsubscribe : Ends P (execUnsubscribe s) := by
  unfold Sys2Proof.Machine.execUnsubscribe
  split
  · simpa using hs
  · next d t ht =>
    rw [ends_next]
    exact H.ring hs ht (fun h _ hc => H.finish (H.unsubscribe h (consumeChecked t d hc)) d _)

theorem KeptByHappenings.execUnbind : Ends P (execUnbind s) := by
  unfold Sys2Proof.Machine.execUnbind
  split
  · simpa using hs
  · next d t ht =>
    rw [ends_next]
    exact H.ring hs ht (fun h _ _ => H.finish (H.unbind h) d _)

theorem KeptByHappenings.execLock : Ends P (execLock s) := by
  unfold Sys2Proof.Machine.execLock
  split
  · simpa using hs
  · next d t ht =>
    rw [ends_next]
    exact H.ring hs ht (fun h _ hc => H.finish
      (H.lock h (consumeChecked t d (fun c hm => hc c (List.mem_append_left _ hm)))) d _)

theorem KeptByHappenings.execUnlock : Ends P (execUnlock s) := by
  unfold Sys2Proof.Machine.execUnlock
  split
  · simpa using hs
  · next d t ht =>
    rw [ends_next]
    exact H.ring hs ht (fun h _ hc => H.finish (H.lock h (consumeChecked t d hc)) d _)

theorem KeptByHappenings.execPull : Ends P (execPull s) := by
  unfold Sys2Proof.Machine.execPull
  split
  · simpa using hs
  · next d t ht =>
    rw [ends_next]
    refine H.ring hs ht (fun h _ hc => H.settle (H.finish (H.pull h ?_) d _))
    simpa [State.pullChecks] using (hc (!t.producing, .badState) (by simp [State.pullChecks]))

theorem KeptByHappenings.execClaim : Ends P (execClaim s) := by
  unfold Sys2Proof.Machine.execClaim
  split
  · simpa using hs
  · next d t ht =>
    rw [ends_next]
    refine H.ring hs ht (fun h _ hc => H.settle (H.finish (H.claim h ?_ hc) d _))
    simpa using (hc (!t.producing, .badState) (by simp [State.claimChecks]))

theorem KeptByHappenings.execRelinquish : Ends P (execRelinquish s) := by
  unfold Sys2Proof.Machine.execRelinquish
  split
  · simpa using hs
  · next d t ht =>
    rw [ends_next]
    exact H.ring hs ht (fun h _ _ => H.settle (H.finish (H.release h) d _))

theorem KeptByHappenings.execWrite : Ends P (execWrite s) := by
  unfold Sys2Proof.Machine.execWrite
  split
  · simpa using hs
  · next d t ht =>
    rw [ends_next]
    exact H.ring hs ht (fun h _ _ => H.settle (H.finish (H.stage (H.port h _)) d _))

theorem KeptByHappenings.execRead : Ends P (execRead s) := by
  unfold Sys2Proof.Machine.execRead
  split
  · simpa using hs
  · next d t ht =>
    rw [ends_next]
    exact H.ring hs ht (fun h _ _ => H.readLine h d)

theorem KeptByHappenings.execSnapshot : Ends P (execSnapshot s) := by
  unfold Sys2Proof.Machine.execSnapshot
  split
  · simpa using hs
  · next d t ht =>
    rw [ends_next]
    exact H.ring hs ht (fun h _ _ => H.complete (H.port h _) _ _ _ _)

theorem KeptByHappenings.execLeave : Ends P (execLeave s) := by
  unfold Sys2Proof.Machine.execLeave
  split
  · simpa using hs
  · next d t ht =>
    rw [ends_next]
    exact H.ring hs ht (fun h _ _ => H.settle (H.finish (H.beginLeave h _) d _))

theorem KeptByHappenings.execRejoin : Ends P (execRejoin s) := by
  unfold Sys2Proof.Machine.execRejoin
  split
  · simpa using hs
  · next d t ht =>
    rw [ends_next]
    exact H.ring hs ht (fun h _ _ => H.finish (H.station h (.inr rfl)) d _)

/-! ## The dispatched items -/

theorem KeptByHappenings.dropIgnored : P s.dropIgnored := H.dispatch hs _

theorem KeptByHappenings.dispute (n : Nat) (p : Produce) (hp : s.produce n = some p) : P (s.requestDispute n) := by
  obtain ⟨hstate, hin⟩ := requestDispute_state s.contention n
  exact H.automatic hs (.inr (.inr (.inr (.inr (.inr ⟨n, p, hp⟩))))) hstate (.inl hin)

theorem KeptByHappenings.dataAtProduce (n source : Nat) (p : Produce) (hp : s.produce n = some p) :
    P (s.dataAtProduce n source p) := by
  unfold State.dataAtProduce
  split
  · next ho => exact H.lose hs hp ho
  · next ho =>
    split
    · exact H.depose hs hp ho
    · exact H.dispute hs n p hp
  all_goals exact hs

theorem KeptByHappenings.disputeAtProduce (n source : Nat) (p : Produce) (hp : s.produce n = some p) :
    P (s.disputeAtProduce n source p) := by
  unfold State.disputeAtProduce
  split
  · next ho => exact H.lose hs hp ho
  · next ho =>
    split
    · exact H.depose hs hp ho
    · exact H.dispute hs n p hp
  all_goals exact hs

theorem KeptByHappenings.claimAtProduce (n source : Nat) (p : Produce) (hp : s.produce n = some p) :
    P (s.claimAtProduce n source p) := by
  unfold State.claimAtProduce
  split
  · next ho =>
    split
    · exact H.dispute hs n p hp
    · exact H.lose hs hp ho
  · exact H.dispute hs n p hp
  all_goals exact hs

theorem KeptByHappenings.pullAtProduce (n : Nat) (p : Produce) (hp : s.produce n = some p) :
    P (s.pullAtProduce n p) := by
  unfold State.pullAtProduce
  split
  · next ho => exact H.again hs hp ho
  · exact hs

theorem KeptByHappenings.execDataRecordAtConsume : Ends P (execDataRecordAtConsume s) := by
  unfold Sys2Proof.Machine.execDataRecordAtConsume
  split
  · split
    · next c hc =>
      rw [ends_next]
      exact H.settle (H.judge (H.dispatch hs _) hc)
    · simpa using H.dropIgnored hs
  · simpa using H.dropIgnored hs

theorem KeptByHappenings.execDataRecordAtProduce : Ends P (execDataRecordAtProduce s) := by
  unfold Sys2Proof.Machine.execDataRecordAtProduce
  split
  · split
    · next p hp =>
      rw [ends_next]
      exact H.settle (H.dataAtProduce (H.dispatch hs _) _ _ p hp)
    · simpa using H.dropIgnored hs
  · simpa using H.dropIgnored hs

theorem KeptByHappenings.execClaimHeard : Ends P (execClaimHeard s) := by
  unfold Sys2Proof.Machine.execClaimHeard
  split
  · split
    · next p hp =>
      rw [ends_next]
      exact H.settle (H.claimAtProduce (H.dispatch hs _) _ _ p hp)
    · simpa using H.dropIgnored hs
  · simpa using H.dropIgnored hs

theorem KeptByHappenings.execDisputeHeard : Ends P (execDisputeHeard s) := by
  unfold Sys2Proof.Machine.execDisputeHeard
  split
  · split
    · next p hp =>
      rw [ends_next]
      exact H.settle (H.disputeAtProduce (H.dispatch hs _) _ _ p hp)
    · simpa using H.dropIgnored hs
  · simpa using H.dropIgnored hs

theorem KeptByHappenings.execRelinquishHeardAtProduce : Ends P (execRelinquishHeardAtProduce s) := by
  unfold Sys2Proof.Machine.execRelinquishHeardAtProduce
  split
  · split
    · simpa using H.dispatch hs _
    · simpa using H.dropIgnored hs
  · simpa using H.dropIgnored hs

theorem KeptByHappenings.execRelinquishHeardAtConsume : Ends P (execRelinquishHeardAtConsume s) := by
  unfold Sys2Proof.Machine.execRelinquishHeardAtConsume
  split
  · split
    · next c hc =>
      rw [ends_next]
      exact H.settle (H.orphan (H.dispatch hs _) hc)
    · simpa using H.dropIgnored hs
  · simpa using H.dropIgnored hs

theorem KeptByHappenings.execPullHeard : Ends P (execPullHeard s) := by
  unfold Sys2Proof.Machine.execPullHeard
  split
  · split
    · next p hp =>
      rw [ends_next]
      exact H.settle (H.pullAtProduce (H.dispatch hs _) _ p hp)
    · simpa using H.dropIgnored hs
  · simpa using H.dropIgnored hs

theorem KeptByHappenings.execHoldHeard : Ends P (execHoldHeard s) := by
  unfold Sys2Proof.Machine.execHoldHeard
  split
  · split
    · rw [ends_next]
      exact H.settle (H.timing (H.dispatch hs _) (.of_eq rfl rfl rfl rfl))
    · simpa using H.dispatch hs _
  · simpa using H.dropIgnored hs

/-! ## The frame in hand -/

theorem KeptByHappenings.execDeferralEnd : Ends P (execDeferralEnd s) := by
  unfold Sys2Proof.Machine.execDeferralEnd
  split
  · next hst =>
    rw [ends_next]
    exact H.settle (H.choose hs hst)
  · simpa using hs

theorem KeptByHappenings.execCollision : Ends P (execCollision s) := by
  unfold Sys2Proof.Machine.execCollision
  split
  · next hst =>
    rw [ends_next]
    exact H.settle (H.collide hs hst)
  · simpa using hs

theorem KeptByHappenings.execLateCollision : Ends P (execLateCollision s) := by
  unfold Sys2Proof.Machine.execLateCollision
  split
  · next hst =>
    rw [ends_next]
    exact H.settle (H.abandon hs hst.1)
  · simpa using hs

theorem KeptByHappenings.execSuccessfulEnd : Ends P (execSuccessfulEnd s) := by
  unfold Sys2Proof.Machine.execSuccessfulEnd
  split
  · next hst =>
    rw [ends_next]
    exact H.settle (H.succeed (H.rx hs _) hst)
  · simpa using hs

end Walk

/-- Only the queue of commands differs. -/
theorem setPending_changesOnly (s : State) (x : List Instr) : s.ChangesOnly (s.setPending x) [.pending] := by
  intro b hb
  cases b with
  | pending => exact absurd (List.mem_singleton.mpr rfl) hb
  | _ => rfl

/-! ## Every command, and the step -/

theorem Vector.get_replicate_eq {α : Type} {n : Nat} (a : α) (k : Fin n) : (Vector.replicate n a).get k = a := by
  simp [Vector.get_eq_getElem]

/-- Both resets give every block its reset values (R139). -/
theorem resets_of_eq (t : State) (h1 : t.station = .reset) (h2 : t.directory = []) (h3 : t.store = State.reset.store)
    (h4 : t.ownership = .reset) (h5 : t.pubQueue = []) (h6 : t.rx = .off) (h7 : t.dispatch = [])
    (h8 : t.contention = { Contention.reset with carrier := t.contention.carrier }) (h9 : t.command = .reset)
    (h10 : t.notice = .reset) (h11 : t.port.tickLatch = 0) : t.HasResetValues := by
  have line : ∀ k, t.store.get k = .reset := fun k => by rw [h3]; exact Vector.get_replicate_eq _ k
  refine ⟨h1, h2, fun k w => ?_, fun k => by rw [line]; rfl, fun k => ?_, by rw [h4]; rfl, h5, h6, h7, by rw [h8]; rfl,
    by rw [h8]; rfl, by rw [h8]; rfl, by rw [h8]; rfl, by rw [h8]; rfl, fun k => ?_, by rw [h8]; rfl, by rw [h8]; rfl,
    by rw [h8]; rfl, by rw [h8]; rfl, h9, h10, h11⟩
  · rw [State.lineAt, line]; cases w <;> exact ⟨rfl, rfl, rfl⟩
  · rw [h4]; exact Vector.get_replicate_eq _ k
  · rw [h8]; exact Vector.get_replicate_eq _ k

theorem softReset_resets (s : State) : s.softReset.HasResetValues :=
  resets_of_eq _ rfl rfl rfl rfl rfl rfl rfl rfl rfl rfl rfl

theorem hardReset_resets (s : State) : s.hardReset.HasResetValues :=
  resets_of_eq _ rfl rfl rfl rfl rfl rfl rfl rfl rfl rfl rfl

theorem reset_resets : State.reset.HasResetValues :=
  resets_of_eq _ rfl rfl rfl rfl rfl rfl rfl rfl rfl rfl rfl

section Step
variable {P : State → Prop} (H : KeptByHappenings P) {s : State} (hs : P s)
include H hs

theorem KeptByHappenings.execStart (via : SpiVia) (during : List RamByte) : Ends P (execStart via s during) := by
  unfold Sys2Proof.Machine.execStart
  split
  · simpa using hs
  · next t ht =>
    have hmet := H.port (H.register hs ht) (t.port.acceptBytes during)
    dsimp only
    split
    · rw [ends_next]
      exact H.startRequest hmet
    · simpa using hmet

theorem KeptByHappenings.execRegisterWriteIgnored (via : SpiVia) (addr : Nat) (value : Byte) :
    Ends P (execRegisterWriteIgnored via addr value s) := by
  unfold Sys2Proof.Machine.execRegisterWriteIgnored
  split
  · split
    · simpa using hs
    · next t ht => simpa using H.register hs ht
  · simpa using hs

theorem KeptByHappenings.execSoftReset (via : SpiVia) : Ends P (execSoftReset via s) := by
  unfold Sys2Proof.Machine.execSoftReset
  split
  · simpa using hs
  · simpa using H.reset _ (softReset_resets _)

theorem KeptByHappenings.execCmdAdvance (via : SpiVia) (value : Byte) : Ends P (execCmdAdvance via value s) := by
  unfold Sys2Proof.Machine.execCmdAdvance
  split
  · simpa using hs
  · next t ht => simpa using H.scanRequest (H.register hs ht)

theorem KeptByHappenings.execNoticeTaken (via : SpiVia) (k : Byte) : Ends P (execNoticeTaken via k s) := by
  unfold Sys2Proof.Machine.execNoticeTaken
  split
  · simpa using hs
  · next t ht => simpa using H.releaseNotices (H.register hs ht) _

theorem KeptByHappenings.execTickHighByteRead (via : SpiVia) : Ends P (execTickHighByteRead via s) := by
  unfold Sys2Proof.Machine.execTickHighByteRead
  split
  · simpa using hs
  · next t ht => simpa using H.port (H.register hs ht) _

theorem KeptByHappenings.execFrameEnd (bytes : List Byte) : Ends P (execFrameEnd bytes s) := by
  unfold Sys2Proof.Machine.execFrameEnd
  split
  · split
    · simpa using H.frameEnd (H.rx hs _) _ _
    · simpa using hs
  · simpa using hs

theorem KeptByHappenings.execFirstByteCollected (byte : Byte) : Ends P (execFirstByteCollected byte s) := by
  unfold Sys2Proof.Machine.execFirstByteCollected
  split
  · simpa using H.rx hs _
  · simpa using hs

theorem KeptByHappenings.execHeaderFieldsComplete (byte1 byte2 : Byte) :
    Ends P (execHeaderFieldsComplete byte1 byte2 s) := by
  unfold Sys2Proof.Machine.execHeaderFieldsComplete
  split
  · split
    · simpa using hs
    · simpa using H.rx hs _
  · simpa using hs

theorem KeptByHappenings.execGrant (slot : Nat) : Ends P (execGrant slot s) := by
  unfold Sys2Proof.Machine.execGrant
  split
  · simpa using H.windowEnds hs _
  · simpa using hs

theorem KeptByHappenings.execSlotBoundary : Ends P (execSlotBoundary s) := by
  unfold Sys2Proof.Machine.execSlotBoundary
  split
  · simpa using hs
  · simpa using H.slotBoundary (H.carryOutSlots hs)

theorem KeptByHappenings.execTick (late : List Nat) (timerLate : Bool) : Ends P (execTick s late timerLate) := by
  unfold Sys2Proof.Machine.execTick
  split
  · simpa using hs
  · simpa using H.tickAll (H.carryOutTicks hs) late timerLate

theorem KeptByHappenings.execRefreshExpiry (n : Nat) : Ends P (execRefreshExpiry n s) := by
  unfold Sys2Proof.Machine.execRefreshExpiry
  split
  · simpa using hs
  · simpa using H.tickEntry hs n

theorem KeptByHappenings.execAgeExpiry (n : Nat) : Ends P (execAgeExpiry n s) := by
  unfold Sys2Proof.Machine.execAgeExpiry
  split
  · simpa using hs
  · simpa using H.tickEntry hs n

/-- Every command keeps what the happenings keep. -/
theorem KeptByHappenings.exec (c : Instr) : Ends P (exec c s) := by
  cases c with
  | hardReset => exact (ends_next _ _).mpr (H.reset _ (hardReset_resets s))
  | softReset via => exact H.execSoftReset hs via
  | start via during => exact H.execStart hs via during
  | cmdAdvance via value => exact H.execCmdAdvance hs via value
  | noticeTaken via k => exact H.execNoticeTaken hs via k
  | tickHighByteRead via => exact H.execTickHighByteRead hs via
  | registerWriteIgnored via addr value => exact H.execRegisterWriteIgnored hs via addr value
  | sharedRamWrite via addr value turn => exact (ends_next _ _).mpr (H.port hs _)
  | examination => exact H.execExamination hs
  | badCommand => exact H.execBadCommand hs
  | subscribe => exact H.execSubscribe hs
  | unsubscribe => exact H.execUnsubscribe hs
  | claim => exact H.execClaim hs
  | relinquish => exact H.execRelinquish hs
  | write => exact H.execWrite hs
  | read => exact H.execRead hs
  | pull => exact H.execPull hs
  | lock => exact H.execLock hs
  | unlock => exact H.execUnlock hs
  | unbind => exact H.execUnbind hs
  | snapshot => exact H.execSnapshot hs
  | leave => exact H.execLeave hs
  | rejoin => exact H.execRejoin hs
  | carrierBegins => exact H.carrierBegins hs
  | carrierAbsent => exact (ends_next _ _).mpr (H.timing (H.rx hs _) (.of_eq rfl rfl rfl rfl))
  | frameEnd bytes => exact H.execFrameEnd hs bytes
  | dataRecordAtConsume => exact H.execDataRecordAtConsume hs
  | dataRecordAtProduce => exact H.execDataRecordAtProduce hs
  | claimHeard => exact H.execClaimHeard hs
  | disputeHeard => exact H.execDisputeHeard hs
  | relinquishHeardAtProduce => exact H.execRelinquishHeardAtProduce hs
  | relinquishHeardAtConsume => exact H.execRelinquishHeardAtConsume hs
  | pullHeard => exact H.execPullHeard hs
  | holdHeard => exact H.execHoldHeard hs
  | slotBoundary => exact H.execSlotBoundary hs
  | grant slot => exact H.execGrant hs slot
  | holdEntryRunsOut => exact (ends_next _ _).mpr (H.lastFall hs)
  | ownHoldExpires => exact (ends_next _ _).mpr (H.ownHoldEnds hs)
  | joinPeriodEnd => exact (ends_next _ _).mpr (H.joinEnds hs)
  | tick late timerLate => exact H.execTick hs late timerLate
  | refreshExpiry object => exact H.execRefreshExpiry hs object
  | ageExpiry object => exact H.execAgeExpiry hs object
  | coalescingExpiry => exact (ends_next _ _).mpr (H.tickTimer hs)
  | quietReached => exact H.quietReached hs
  | deferralSlot => exact H.deferralSlot hs
  | deferralEnd => exact H.execDeferralEnd hs
  | collision => exact H.execCollision hs
  | lateCollision => exact H.execLateCollision hs
  | successfulEnd => exact H.execSuccessfulEnd hs
  | placement => exact H.placement hs
  | firstByteCollected byte => exact H.execFirstByteCollected hs byte
  | headerFieldsComplete byte1 byte2 => exact H.execHeaderFieldsComplete hs byte1 byte2
  | resetNReleased => exact (ends_next _ _).mpr (H.port hs _)

end Step

/-- A step is the front command on the rest of the queue, or idles: it keeps what the happenings keep. -/
theorem KeptByHappenings.keptByStep {P : State → Prop} (H : KeptByHappenings P) : KeptByStep P := by
  intro s t hs ht
  unfold step at ht
  split at ht
  · cases ht; exact hs
  · next c rest _ => exact H.exec (H.aside hs ((setPending_changesOnly s rest).mono (by decide))) c t ht

end Sys2Proof.Machine
end

section
/-! PROOF. Properties of the directory and the Replica Store. A property that the few changes of entries and lines below
keep is kept by every happening. -/

namespace Sys2Proof.Machine

/-- The fields of a CONSUME part fit each other and the entry's line (R6). -/
def Consume.Coherent (c : Consume) (line : Option Way) : Prop :=
  (c.replica = .absent ↔ line = none) ∧ (c.replica = .absent ↔ c.lastSeq = none)
    ∧ ∀ t, c.binding = .orphaned t → c.replica ≠ .fresh

/-- An entry is changed within its role: its object number and its line stay, and coherent fields stay coherent. -/
structure Entry.Reworked (e f : Entry) : Prop where
  object : f.object = e.object
  line : f.line = e.line
  produce : f.produce.isSome = e.produce.isSome
  consume : ∀ d, f.consume = some d → ∃ c, e.consume = some c ∧ (c.Coherent e.line → d.Coherent e.line)

/-- A line is changed in its value alone. -/
def Line.SameHolder (l m : Line) : Prop :=
  m.valid = l.valid ∧ m.object = l.object ∧ m.pinned = l.pinned ∧ m.locked = l.locked

/-- A property of the directory and the store that changes within an entry or a line keep. -/
structure EntryChanges (P : State → Prop) : Prop where
  ordered : ∀ {s}, P s → s.DirectoryOrdered
  congr : ∀ {s t : State}, P s → t.directory = s.directory → t.store = s.store → P t
  entries : ∀ {s : State} {g : Entry → Entry}, P s → (∀ e ∈ s.directory, e.Reworked (g e)) →
    P (s.setDirectory (s.directory.map g))
  lines : ∀ {s : State} {x}, P s → (∀ (k : Fin 64) w, (s.lineAt k w).SameHolder ((s.setStore x).lineAt k w)) →
    P (s.setStore x)

/-- A property of the directory and the store that the creation, the removal and the eviction of an entry keep as
well. -/
structure EntryInvariant (P : State → Prop) : Prop extends EntryChanges P where
  reset : ∀ t, t.HasResetValues → P t
  lock : ∀ {s : State} {n b}, P s → s.produce n = none → P (s.markLocked n b)
  remove : ∀ {s : State} {n}, P s → P (s.removeEntry n)
  subscribe : ∀ {s : State} {d : Descriptor}, P s → d.object < 4096 → s.entry d.object = none →
    s.directory.length < 256 → P (s.setDirectory (insertEntry s.directory d.newConsume))
  claim : ∀ {s : State} {d : Descriptor} {slot}, P s → d.object < 4096 → s.entry d.object = none →
    s.directory.length < 256 → P (s.claimEntry d slot)
  accept : ∀ {s : State} {n c source rep q payload}, P s → s.consume n = some c →
    P (s.accept n c source rep q payload)

/-! ## Reworked entries -/

theorem Entry.Reworked.refl (e : Entry) : e.Reworked e := ⟨rfl, rfl, rfl, fun d h => ⟨d, h, id⟩⟩

theorem Entry.SameButCounter.reworked {e f : Entry} (h : e.SameButCounter f) : e.Reworked f := by
  obtain ⟨ho, hl, hr⟩ := h
  obtain ⟨o, l, r, w⟩ := e
  obtain ⟨o', l', r', w'⟩ := f
  subst ho hl
  cases r with
  | produce p =>
    cases r' with
    | produce q => exact ⟨rfl, rfl, rfl, fun d hd => by cases hd⟩
    | consume c => exact hr.elim
  | consume c =>
    cases r' with
    | produce q => exact hr.elim
    | consume d =>
      refine ⟨rfl, rfl, rfl, fun d' hd => ⟨c, rfl, fun hc => ?_⟩⟩
      cases hd
      simp only at hr
      rw [hr]
      exact hc

theorem Entry.mapProduce_reworked (f : Produce → Produce) (e : Entry) : e.Reworked (e.mapProduce f) :=
  ⟨by simp, by simp, by simp, fun d hd => ⟨d, by simpa using hd, id⟩⟩

theorem Consume.coherent_orphaned {c : Consume} {line : Option Way} (h : c.Coherent line) (t : Nat) :
    ({ c with binding := .orphaned t, replica := c.replica.aged } : Consume).Coherent line := by
  obtain ⟨h1, h2, -⟩ := h
  cases hr : c.replica <;> simp_all [Consume.Coherent, Replica.aged]

section Changes
variable {P : State → Prop} (H : EntryChanges P) {s : State} (hs : P s)
include H hs

/-! ## Blocks of which the property does not speak -/

theorem EntryChanges.elsewhere {t : State} {l : List Block} (h : s.ChangesOnly t l) (hd : .directory ∉ l)
    (hst : .store ∉ l) : P t := H.congr hs (h .directory hd) (h .store hst)

theorem EntryChanges.post (n : Notice) : P (s.post n) :=
  H.elsewhere hs (post_changesOnly s n) (by decide) (by decide)

theorem EntryChanges.postOwnership (n : Nat) (kind : NoticeKind) (station : Nat) (cause : Cause) (tag : Word16) :
    P (s.postOwnership n kind station cause tag) := H.post hs _

theorem EntryChanges.contention (x : Contention) : P (s.setContention x) :=
  H.elsewhere hs (setContention_changesOnly s x) (by decide) (by decide)

theorem EntryChanges.ownership (x : OwnershipUnit) : P (s.setOwnership x) :=
  H.elsewhere hs (setOwnership_changesOnly s x) (by decide) (by decide)

theorem EntryChanges.pubQueue (x : List PubItem) : P (s.setPubQueue x) :=
  H.elsewhere hs (setPubQueue_changesOnly s x) (by decide) (by decide)

/-! ## One entry -/

theorem EntryChanges.updProduce (n : Nat) (f : Produce → Produce) : P (s.updProduce n f) := by
  refine H.entries hs (fun e _ => ?_)
  split
  · exact e.mapProduce_reworked f
  · exact .refl e

theorem EntryChanges.updConsume (n : Nat) (f : Consume → Consume)
    (hf : ∀ c, s.consume n = some c → ∀ line, c.Coherent line → (f c).Coherent line) : P (s.updConsume n f) := by
  refine H.entries hs (fun e he => ?_)
  split
  · next ho =>
    subst ho
    have hentry : s.entry e.object = some e := lookup_of_mem s.directory (H.ordered hs).1 e he
    refine ⟨by simp, by simp, by simp, fun d hd => ?_⟩
    rw [Entry.mapConsume_consume, Option.map_eq_some_iff] at hd
    obtain ⟨c, hc, rfl⟩ := hd
    exact ⟨c, hc, hf c (by simp [State.consume, hentry, hc]) _⟩
  · exact .refl e

theorem EntryChanges.storePayload (n : Nat) (payload : List Byte) : P (s.storePayload n payload) := by
  unfold State.storePayload
  split
  · exact hs
  · next w _ =>
    refine H.lines hs (fun k v => ?_)
    change (s.lineAt k v).SameHolder ((s.putSet n _).lineAt k v)
    rw [putLine_touch_lineAt]
    split
    · next hk =>
      obtain ⟨rfl, rfl⟩ := hk
      exact ⟨rfl, rfl, rfl, rfl⟩
    · exact ⟨rfl, rfl, rfl, rfl⟩

theorem EntryChanges.touchLine (n : Nat) : P (s.touchLine n) := by
  unfold State.touchLine
  split
  · exact hs
  · next w _ =>
    refine H.lines hs (fun k v => ?_)
    change (s.lineAt k v).SameHolder ((s.putSet n _).lineAt k v)
    rw [touch_lineAt]
    exact ⟨rfl, rfl, rfl, rfl⟩

end Changes

section Walk
variable {P : State → Prop} (H : EntryInvariant P) {s : State} (hs : P s)
include H hs

/-! ## Slots, frames and queues -/

theorem EntryInvariant.releaseSlot (n : Nat) : P (s.releaseSlot n) := by
  unfold State.releaseSlot
  split
  · exact hs
  · exact H.updProduce (H.ownership hs _) n _

theorem EntryInvariant.noteQueued (f : CtlFrame) : P (s.noteQueued f) := by
  unfold State.noteQueued
  split
  · exact H.updProduce hs _ _
  · exact hs

theorem EntryInvariant.placeCommand (f : CtlFrame) : P (s.placeCommand f) :=
  H.noteQueued (H.contention hs _) f

theorem EntryInvariant.handOn (f : CtlFrame) : P (s.handOn f) := by
  unfold State.handOn
  split
  · exact H.placeCommand hs f
  · exact H.ownership hs _

theorem EntryInvariant.placeFreed (f : CtlFrame) : P (s.placeFreed f) := by
  unfold State.placeFreed State.moveWaiting
  split
  · split
    · exact hs
    · exact H.placeCommand (H.ownership hs _) _
  · exact H.contention hs _

theorem EntryInvariant.withdraw (f : CtlFrame) : P (s.withdraw f) := by
  have hqueued : ∀ {t : State}, P t → P (t.withdrawQueued f) := fun ht => by
    unfold State.withdrawQueued
    split
    · exact H.placeFreed (H.contention ht _) f
    · exact ht
  have hhand : ∀ {t : State}, P t → P (t.withdrawInHand f) := fun {t} ht => by
    have hl := (withdrawInHand_leavesHand t f).leaves.1
    exact H.elsewhere ht hl (by decide) (by decide)
  exact hhand (hqueued (H.ownership hs _))

theorem EntryInvariant.stripRecord (n : Nat) : P (s.stripRecord n) := by
  unfold State.stripRecord
  split
  · split
    · exact hs
    · exact hs
    · refine H.updProduce ?_ n _
      split
      · exact H.elsewhere hs (discardInHand_changesOnly s) (by decide) (by decide)
      · exact H.contention hs _
  · exact hs

theorem EntryInvariant.stopPublishing (n : Nat) : P (s.stopPublishing n) :=
  H.withdraw (H.stripRecord (H.updProduce (H.pubQueue hs _) n _) n) _

theorem EntryInvariant.appendNew (n : Nat) : P (s.appendNew n) := H.updProduce (H.pubQueue hs _) n _

theorem EntryInvariant.appendRepeat (n : Nat) : P (s.appendRepeat n) := by
  unfold State.appendRepeat
  split
  · exact hs
  · split
    · exact H.updProduce (H.pubQueue hs _) n _
    · exact hs

/-! ## Claims and releases -/

theorem EntryInvariant.loseClaim (n source : Nat) (cause : Cause) : P (s.loseClaim n source cause) := by
  unfold State.loseClaim
  exact H.remove (H.postOwnership (H.releaseSlot (H.withdraw (H.withdraw hs _) _) n) _ _ _ _ _)

theorem EntryInvariant.depose (n source : Nat) (cause : Cause) : P (s.depose n source cause) := by
  unfold State.depose
  exact H.postOwnership (H.updProduce (H.stopPublishing hs n) n _) _ _ _ _ _

theorem EntryInvariant.beginRelease (n : Nat) (tag : Word16) : P (s.beginRelease n tag) :=
  H.handOn (H.updProduce hs n _) _

theorem EntryInvariant.releaseClaim (n : Nat) (p : Produce) (tag : Word16) : P (s.releaseClaim n p tag) := by
  unfold State.releaseClaim
  have hfailed := H.postOwnership (H.releaseSlot hs n) n .claimFailed noStation .released (s.slotTag p)
  dsimp only
  split
  · exact H.withdraw (H.withdraw (H.beginRelease hfailed n tag) _) _
  · exact H.remove (H.postOwnership (H.withdraw (H.withdraw hfailed _) _) _ _ _ _ _)

theorem EntryInvariant.release (n : Nat) (tag : Word16) : P (s.release n tag) := by
  unfold State.release
  split
  · exact hs
  · split
    · exact H.releaseClaim hs n _ tag
    · exact H.beginRelease (H.stopPublishing hs n) n tag
    · exact hs
    · exact H.remove (H.postOwnership hs _ _ _ _ _)

theorem EntryInvariant.failClaim (n : Nat) : P (s.failClaim n) := by
  unfold State.failClaim
  split
  · exact hs
  · split
    · exact H.remove (H.postOwnership (H.withdraw (H.releaseSlot hs n) _) _ _ _ _ _)
    · exact hs

theorem EntryInvariant.endRelease (n : Nat) (cause : Cause) : P (s.endRelease n cause) := by
  unfold State.endRelease
  split
  · exact hs
  · split
    · exact H.remove (H.postOwnership hs _ _ _ _ _)
    · exact hs

theorem EntryInvariant.muteEntry (n : Nat) : P (s.muteEntry n) := by
  unfold State.muteEntry
  split
  · exact hs
  · split
    · exact H.remove (H.postOwnership (H.releaseSlot hs n) _ _ _ _ _)
    · exact H.remove (H.postOwnership hs _ _ _ _ _)

theorem EntryInvariant.enterMuted : P s.enterMuted := by
  unfold State.enterMuted
  have hmuted : P ((s.setStation { s.station with life := .muted, joinRunning := false, joinOwed := false }).post
      (s.stationNotice .numberClash s.own s.station.life.code 0)) :=
    H.post (H.elsewhere hs (setStation_changesOnly s _) (by decide) (by decide)) _
  have hsilent := H.elsewhere hmuted (muteContention_changesOnly _) (by decide) (by decide)
  dsimp only
  exact fold_keeps (P := P) (fun _ n ht => H.muteEntry ht n) _ (H.pubQueue (H.ownership hsilent _) _)

/-! ## The frame in hand -/

/-- A change of the PRODUCE entry of each record. -/
theorem EntryInvariant.records {F : State → TxRecord → State}
    (hF : ∀ t r, F t r = t ∨ ∃ f, F t r = t.updProduce r.object f) (records : List TxRecord) :
    P (records.foldl F s) := by
  refine fold_keeps (fun t r ht => ?_) records hs
  obtain h | ⟨f, h⟩ := hF t r
  · rw [h]; exact ht
  · rw [h]; exact H.updProduce ht _ _

theorem EntryInvariant.returnRecords (records : List TxRecord) : P (s.returnRecords records) := by
  refine H.records (H.pubQueue hs _) (fun t r => ?_) records
  unfold State.returnRecord
  split
  · exact .inr ⟨_, rfl⟩
  · exact .inl rfl

theorem EntryInvariant.commitRecords (records : List TxRecord) : P (records.foldl State.commitRecord s) := by
  refine H.records hs (fun t r => ?_) records
  unfold State.commitRecord
  split
  · exact .inr ⟨_, rfl⟩
  · exact .inl rfl

theorem EntryInvariant.unsendRecords (records : List TxRecord) : P (records.foldl State.unsend s) := by
  refine H.records hs (fun t r => ?_) records
  unfold State.unsend
  split
  · exact .inr ⟨_, rfl⟩
  · exact .inl rfl

theorem EntryInvariant.buildBundle : P s.buildBundle := by
  unfold State.buildBundle
  exact H.contention (H.records (H.pubQueue hs _) (fun _ _ => .inr ⟨_, rfl⟩) _) _

theorem EntryInvariant.chooseFrame : P s.chooseFrame := by
  unfold State.chooseFrame
  split
  · split
    · exact H.contention hs _
    · exact H.contention (H.returnRecords hs _) _
  · exact H.contention hs _
  · split
    · exact H.placeFreed (H.contention hs _) _
    · split
      · exact H.buildBundle hs
      · exact H.contention hs _

theorem EntryInvariant.reportAbandonment (cause : Nat) : P (s.reportAbandonment cause) := by
  unfold State.reportAbandonment
  split
  · exact hs
  · exact H.elsewhere (H.returnRecords hs _) (postAbandoned_changesOnly _ _ _) (by decide) (by decide)
  · split
    · exact hs
    · exact H.failClaim hs _
  · exact H.endRelease hs _ _
  · exact H.elsewhere hs (holdAbandoned_changesOnly _ _) (by decide) (by decide)
  all_goals exact hs

theorem EntryInvariant.reportSuccess : P s.reportSuccess := by
  unfold State.reportSuccess
  split
  · exact hs
  · exact H.commitRecords hs _
  · split
    · exact hs
    · exact H.elsewhere hs (beginWindow_changesOnly _ _) (by decide) (by decide)
  · exact H.endRelease hs _ _
  · exact H.elsewhere hs (holdSucceeded_changesOnly _ _) (by decide) (by decide)
  all_goals exact hs

theorem EntryInvariant.collide : P s.collide := by
  unfold State.collide State.collideAgain State.stripAll
  dsimp only
  split
  · exact H.contention (H.reportAbandonment (H.contention hs _) _) _
  · split
    · exact H.contention (H.contention hs _) _
    · split
      · exact H.contention (H.unsendRecords (H.contention hs _) _) _
      · exact H.contention (H.contention (H.unsendRecords (H.contention hs _) _) _) _
    · exact H.contention (H.contention hs _) _

/-! ## Lines and CONSUME entries -/

theorem EntryInvariant.stage (n : Nat) (payload : List Byte) : P (s.stage n payload) := by
  have hstaged : ∀ f, P ((s.storePayload n payload).updProduce n f) := H.updProduce (H.storePayload hs n payload) n
  unfold State.stage
  dsimp only
  split
  · exact H.appendNew (hstaged _) n
  · exact hstaged _

theorem EntryInvariant.takeClaim (d : Descriptor) (hc : ∀ c ∈ s.claimChecks d, c.1 = false) : P (s.takeClaim d) := by
  simp [State.claimChecks, Descriptor.badObject, Config.objectCount, Config.directoryCapacity] at hc
  obtain ⟨-, hobj, -, -, -, hlen, -⟩ := hc
  unfold State.takeClaim
  split
  · exact hs
  · next slot _ =>
    refine H.handOn (H.ownership ?_ _) _
    cases he : s.entry d.object with
    | some e =>
      unfold State.claimEntry
      rw [he]
      exact H.updProduce hs _ _
    | none => exact H.claim hs (Nat.not_le.mp (of_decide_eq_false hobj)) he (Nat.not_le.mp (of_decide_eq_false (hlen he)))

theorem EntryInvariant.judgeRecord (n : Nat) (c : Consume) (hc : s.consume n = some c) (source : Nat) (rep : Bool)
    (q : Byte) (payload : List Byte) : P (s.judgeRecord n c source rep q payload) := by
  have hsequence : P (s.checkSequence n c source rep q payload) := by
    unfold State.checkSequence
    split
    · exact H.accept hs hc
    · exact H.accept hs hc
    · split
      · exact H.updConsume hs n _ (fun _ _ _ h => h)
      · split
        · exact H.accept hs hc
        · exact H.accept (H.post hs _) (by simpa using hc)
  unfold State.judgeRecord
  split
  · exact H.accept hs hc
  · exact H.accept hs hc
  · split
    · exact hsequence
    · split
      · exact H.accept hs hc
      · exact H.post hs _

theorem EntryInvariant.relinquishAtConsume (n source : Nat) (c : Consume) : P (s.relinquishAtConsume n source c) := by
  unfold State.relinquishAtConsume
  split
  · exact H.post (H.updConsume hs n _ (fun _ _ _ h => Consume.coherent_orphaned h source)) _
  · exact hs

/-- The CONSUME part of one entry changes twice. -/
theorem EntryInvariant.updConsume_twice (n : Nat) (c : Consume) (hc : s.consume n = some c) (f g : Consume → Consume)
    (hf : ∀ line, c.Coherent line → (f c).Coherent line) (hg : ∀ line, (f c).Coherent line → (g (f c)).Coherent line) :
    P ((s.updConsume n f).updConsume n g) := by
  have hfirst : P (s.updConsume n f) := H.updConsume hs n f (fun d hd => by
    obtain rfl := Option.some.inj (hc.symm.trans hd)
    exact hf)
  refine H.updConsume hfirst n g (fun d hd => ?_)
  rw [State.updConsume_consume, if_pos rfl, hc] at hd
  obtain rfl := Option.some.inj hd
  exact hg

theorem EntryInvariant.expireAge (n : Nat) (c : Consume) (hc : s.consume n = some c) : P (s.expireAge n c) := by
  have hstop : ∀ line, c.Coherent line → ({ c with age := c.ageLimit, ageRunning := false } : Consume).Coherent line :=
    fun _ h => h
  unfold State.expireAge
  dsimp only
  split
  · next hr _ =>
    refine H.post (H.updConsume_twice hs n c hc _ _ hstop (fun line h => ?_)) _
    simp only [Consume.Coherent, hr, reduceCtorEq, false_iff] at h ⊢
    simpa using ⟨h.1, h.2.1⟩
  · next hr _ =>
    refine H.post (H.updConsume_twice hs n c hc _ _ hstop (fun line h => ?_)) _
    simp only [Consume.Coherent, hr, reduceCtorEq, false_iff] at h ⊢
    simpa using ⟨h.1, h.2.1⟩
  · next hr _ =>
    refine H.post (H.updConsume_twice hs n c hc _ _ hstop (fun line h => ?_)) _
    simp only [Consume.Coherent, hr, reduceCtorEq, false_iff] at h ⊢
    simpa using ⟨h.1, h.2.1⟩
  · next hr _ =>
    exact H.post (H.updConsume_twice hs n c hc _ _ hstop (fun _ h => ⟨h.1, h.2.1, by simp [hr]⟩)) _
  all_goals exact H.updConsume hs n _ (fun _ _ _ h => h)

end Walk

/-- What the changes of entries and lines keep, every happening keeps. -/
theorem EntryInvariant.keptByHappenings {P : State → Prop} (H : EntryInvariant P) : KeptByHappenings P where
  reset := H.reset
  aside hs h := H.elsewhere hs h (by decide) (by decide)
  command hs _ := H.elsewhere hs (setCommand_changesOnly _ _) (by decide) (by decide)
  station hs _ := H.elsewhere hs (setStation_changesOnly _ _) (by decide) (by decide)
  timing hs _ := H.contention hs _
  automatic hs _ _ _ := H.contention hs _
  phases hs _ _ := H.ownership hs _
  counters hs h := H.entries hs (fun e _ => (h e).reworked)
  settle hs := H.elsewhere hs (settle_changesOnly _) (by decide) (by decide)
  mute hs := H.enterMuted hs
  subscribe hs _ := H.subscribe hs
  unsubscribe hs _ := H.remove hs
  unbind hs := H.updConsume hs _ _ (fun c _ _ h => ⟨h.1, h.2.1, fun _ ht => by cases ht⟩)
  lock hs := H.lock hs
  pull hs _ := H.placeCommand hs _
  claim hs _ hc := H.takeClaim hs _ hc
  release hs := H.release hs _ _
  stage hs := H.stage hs _ _
  touch hs := H.touchLine hs _
  judge hs hc := H.judgeRecord hs _ _ hc _ _ _ _
  lose hs _ _ := H.loseClaim hs _ _ _
  depose hs _ _ := H.depose hs _ _ _
  orphan hs _ := H.relinquishAtConsume hs _ _ _
  again hs _ _ := H.appendRepeat hs _
  grant {s k slot p} hs _ _ _ _ := by
    unfold State.grantClaim
    have howned := fun f => H.postOwnership (H.updProduce (H.elsewhere hs (putSlot_changesOnly s k none) (by decide)
      (by decide)) slot.object f) slot.object .claimGranted s.own .ok slot.tag
    dsimp only
    split
    · exact H.appendNew (howned _) _
    · exact howned _
  age hs hc := H.expireAge hs _ _ hc
  choose hs _ := H.chooseFrame hs
  collide hs _ := H.collide hs
  abandon hs _ := H.contention (H.reportAbandonment hs _) _
  succeed hs _ := H.contention (H.reportSuccess hs) _

end Sys2Proof.Machine
end

section
/-! PROOF. The directory keeps its order and its bounds (R1, R2, R11, R13). -/

namespace Sys2Proof.Machine

/-- Order and bounds rest on the object numbers alone. -/
theorem State.DirectoryOrdered.of_objects {s t : State} (h : s.DirectoryOrdered)
    (ho : (t.directory.map Entry.object).Sublist (s.directory.map Entry.object)) : t.DirectoryOrdered := by
  obtain ⟨hasc, hlen, hlt⟩ := h
  refine ⟨?_, ?_, fun e he => ?_⟩
  · have : (s.directory.map Entry.object).Pairwise (· < ·) := List.pairwise_map.mpr hasc
    exact List.pairwise_map.mp (this.sublist ho)
  · have := ho.length_le
    simp only [List.length_map] at this
    omega
  · obtain ⟨f, hf, hfe⟩ := List.mem_map.mp (ho.subset (List.mem_map_of_mem (f := Entry.object) he))
    rw [← hfe]
    exact hlt f hf

theorem State.DirectoryOrdered.of_eq {s t : State} (h : s.DirectoryOrdered)
    (hd : t.directory.map Entry.object = s.directory.map Entry.object) : t.DirectoryOrdered :=
  h.of_objects (by rw [hd])

/-- A new entry takes its place in the order (R11). -/
theorem State.DirectoryOrdered.insert {s : State} (h : s.DirectoryOrdered) (e : Entry) (he : s.entry e.object = none)
    (hobj : e.object < 4096) (hlen : s.directory.length < 256) :
    (s.setDirectory (insertEntry s.directory e)).DirectoryOrdered := by
  obtain ⟨hasc, -, hlt⟩ := h
  refine ⟨insertEntry_rises _ _ hasc he, ?_, fun f hf => ?_⟩
  · simp only [setDirectory_directory, insertEntry_length]
    omega
  · rcases (insertEntry_mem _ _ _).mp hf with rfl | hf
    · exact hobj
    · exact hlt f hf

theorem removeEntry_directory (s : State) (n : Nat) : (s.removeEntry n).directory = eraseEntry s.directory n := by
  unfold State.removeEntry
  split <;> rfl

theorem evict_objects (s : State) (l : Line) (detail : Nat) (tag : Word16) :
    (s.evict l detail tag).directory.map Entry.object = s.directory.map Entry.object := by
  have hcut := updateEntry_objects s.directory l.object cutEntry (fun e => by simp [cutEntry])
  cases hc : s.consume l.object with
  | none => rw [evict_none _ _ _ _ hc]
  | some c =>
    rw [evict_some _ _ _ _ c hc]
    dsimp only
    split
    · exact hcut
    · rw [post_directory]; exact hcut

/-- An allocation leaves every object its entry (R24 to R26). -/
theorem allocate_objects (s t : State) (n : Nat) (pinned : Bool) (detail : Nat) (tag : Word16) (w : Way)
    (h : s.allocate n pinned detail tag = some (w, t)) :
    t.directory.map Entry.object = s.directory.map Entry.object := by
  unfold State.allocate at h
  split at h
  · cases h
  · simp only [Option.some.injEq, Prod.mk.injEq] at h
    obtain ⟨-, rfl⟩ := h
    rw [putSet_directory]
    split
    · exact evict_objects s _ detail tag
    · rfl

theorem recordLine_objects (s t : State) (n : Nat) (h : s.recordLine n = some t) :
    t.directory.map Entry.object = s.directory.map Entry.object := by
  unfold State.recordLine at h
  split at h
  · cases h; rfl
  · rw [Option.map_eq_some_iff] at h
    obtain ⟨⟨w, a⟩, ha, rfl⟩ := h
    exact (updateEntry_objects a.directory n (fun e => { e with line := some w }) (fun _ => rfl)).trans
      (allocate_objects _ _ _ _ _ _ _ ha)

theorem updConsume_objects (s : State) (n : Nat) (f : Consume → Consume) :
    (s.updConsume n f).directory.map Entry.object = s.directory.map Entry.object :=
  updateEntry_objects _ _ _ (by simp)

theorem postBinding_directory (s : State) (n source : Nat) (q : Byte) (payload : List Byte) (b : Binding) :
    (s.postBinding n source q payload b).directory = s.directory :=
  postBinding_changesOnly s n source q payload b .directory (by decide)

theorem storePayload_directory (s : State) (n : Nat) (payload : List Byte) :
    (s.storePayload n payload).directory = s.directory :=
  storePayload_changesOnly s n payload .directory (by decide)

theorem accept_objects (s : State) (n : Nat) (c : Consume) (source : Nat) (rep : Bool) (q : Byte)
    (payload : List Byte) :
    (s.accept n c source rep q payload).directory.map Entry.object = s.directory.map Entry.object := by
  unfold State.accept
  split
  · simp
  · next lined hl =>
    have hlined := recordLine_objects s lined n hl
    dsimp only
    split <;> simp [updConsume_objects, postBinding_directory, storePayload_directory, hlined]

theorem markLocked_directory (s : State) (n : Nat) (b : Bool) : (s.markLocked n b).directory = s.directory :=
  markLocked_changesOnly s n b .directory (by decide)

theorem claimEntry_of_none (s : State) (d : Descriptor) (slot : Fin 4) (h : s.entry d.object = none) :
    s.claimEntry d slot = s ∨ ∃ w t, s.allocate d.object true 0 d.tag = some (w, t) ∧
      s.claimEntry d slot = t.setDirectory (insertEntry t.directory (d.newProduce w slot)) := by
  unfold State.claimEntry
  rw [h]
  dsimp only
  split
  · exact .inl rfl
  · next w t ha => exact .inr ⟨w, t, ha, rfl⟩

theorem entry_none_iff_objects (s : State) (n : Nat) :
    s.entry n = none ↔ n ∉ s.directory.map Entry.object := by
  rw [State.entry, lookup_none_iff]
  simp

theorem directoryOrdered_entryInvariant : EntryInvariant State.DirectoryOrdered where
  reset t ht := by
    have hd := ht.2.1
    simp [State.DirectoryOrdered, hd]
  ordered hs := hs
  congr hs hd _ := hs.of_eq (by rw [hd])
  entries {s g} hs hg := by
    refine hs.of_eq ?_
    rw [setDirectory_directory, List.map_map]
    exact List.map_congr_left (fun e he => (hg e he).object)
  lines hs _ := hs.of_eq rfl
  lock hs _ := hs.of_eq (by rw [markLocked_directory])
  remove hs := hs.of_objects (by
    rw [removeEntry_directory]
    exact List.filter_sublist.map _)
  subscribe hs hobj he hlen := hs.insert _ he hobj hlen
  claim {s d slot} hs hobj he hlen := by
    obtain h | ⟨w, t, ha, h⟩ := claimEntry_of_none s d slot he
    · rw [h]; exact hs
    · have hobjects := allocate_objects s t _ _ _ _ w ha
      rw [h]
      refine (hs.of_eq hobjects).insert _ ?_ hobj ?_
      · rw [entry_none_iff_objects] at he ⊢
        rw [hobjects]; exact he
      · have := congrArg List.length hobjects
        simp only [List.length_map] at this
        omega
  accept hs _ := hs.of_eq (accept_objects _ _ _ _ _ _ _)

/-- Settles O4: the commands create an entry only where its object has none, in its place and within the capacity,
and every other change of the directory keeps the object numbers or drops some. -/
theorem directoryStaysOrdered : Obligations.DirectoryStaysOrdered :=
  directoryOrdered_entryInvariant.keptByHappenings.keptByStep

end Sys2Proof.Machine
end

section
/-! PROOF. Every entry and its line keep to each other (R19 to R21). -/

namespace Sys2Proof.Machine

/-- What `HoldsItsLine` says of an entry with and without a line. -/
theorem holdsItsLine_iff (s : State) (e : Entry) : s.HoldsItsLine e ↔
    match e.line with
    | some w =>
      (s.lineAt (setIndex e.object) w).valid = true ∧ (s.lineAt (setIndex e.object) w).object = e.object
        ∧ (s.lineAt (setIndex e.object) w).pinned = e.produce.isSome
        ∧ ((s.lineAt (setIndex e.object) w).locked = true → (s.lineAt (setIndex e.object) w).pinned = false)
    | none => e.produce = none := by
  unfold State.HoldsItsLine State.lineOf
  cases e.line <;> rfl

/-- In an ordered directory the entries are what the lookups give. -/
theorem mem_directory_iff (s : State) (h : s.DirectoryOrdered) (e : Entry) :
    e ∈ s.directory ↔ s.entry e.object = some e :=
  ⟨lookup_of_mem _ h.1 e, lookup_mem _ _ e⟩

theorem linesHeld_iff (s : State) : s.LinesHeld ↔
    s.DirectoryOrdered ∧ (∀ m e, s.entry m = some e → s.HoldsItsLine e) ∧
      ∀ k w, (s.lineAt k w).valid = true →
        ∃ e, s.entry (s.lineAt k w).object = some e ∧ setIndex e.object = k ∧ e.line = some w := by
  unfold State.LinesHeld
  refine and_congr_right (fun ho => and_congr ⟨fun h m e he => h e (lookup_mem _ _ _ he), fun h e he =>
    h e.object e ((mem_directory_iff s ho e).mp he)⟩ (forall_congr' fun k => forall_congr' fun w =>
      imp_congr_right fun _ => ⟨?_, ?_⟩))
  · rintro ⟨e, he, hobj, hk, hw⟩
    exact ⟨e, by rw [← hobj]; exact (mem_directory_iff s ho e).mp he, hk, hw⟩
  · rintro ⟨e, he, hk, hw⟩
    exact ⟨e, lookup_mem _ _ _ he, lookup_object _ _ _ he, hk, hw⟩

/-- A line whose holder is as before keeps to the entry. -/
theorem HoldsItsLine_congr {s t : State} {e f : Entry} (h : s.HoldsItsLine e) (ho : f.object = e.object)
    (hl : f.line = e.line) (hp : f.produce.isSome = e.produce.isSome)
    (hline : ∀ w, e.line = some w →
      (s.lineAt (setIndex e.object) w).SameHolder (t.lineAt (setIndex e.object) w)) : t.HoldsItsLine f := by
  rw [holdsItsLine_iff] at h ⊢
  rw [hl, ho, hp]
  cases hw : e.line with
  | none =>
    rw [hw] at h
    simp only at h ⊢
    rw [h] at hp
    simpa using hp
  | some w =>
    rw [hw] at h
    obtain ⟨h1, h2, h3, h4⟩ := hline w hw
    simp only at h ⊢
    rw [h1, h2, h3, h4]
    exact h

theorem Line.SameHolder.refl (l : Line) : l.SameHolder l := ⟨rfl, rfl, rfl, rfl⟩

/-- Entries that keep their object, line and role keep to their lines. -/
theorem linesHeld_rework {s : State} {g : Entry → Entry} (hs : s.LinesHeld)
    (hg : ∀ e ∈ s.directory,
      (g e).object = e.object ∧ (g e).line = e.line ∧ (g e).produce.isSome = e.produce.isSome) :
    (s.setDirectory (s.directory.map g)).LinesHeld := by
  obtain ⟨ho, hholds, hheld⟩ := hs
  refine ⟨ho.of_eq ?_, fun f hf => ?_, fun k w hv => ?_⟩
  · rw [setDirectory_directory, List.map_map]
    exact List.map_congr_left (fun e he => (hg e he).1)
  · obtain ⟨e, he, rfl⟩ := List.mem_map.mp hf
    obtain ⟨hobj, hline, hprod⟩ := hg e he
    exact HoldsItsLine_congr (hholds e he) hobj hline hprod (fun _ _ => .refl _)
  · obtain ⟨e, he, hobj, hk, hw⟩ := hheld k w hv
    obtain ⟨hobj', hline, -⟩ := hg e he
    exact ⟨g e, List.mem_map_of_mem he, hobj'.trans hobj, by rw [hobj']; exact hk, hline.trans hw⟩

theorem linesHeld_updConsume {s : State} (hs : s.LinesHeld) (n : Nat) (f : Consume → Consume) :
    (s.updConsume n f).LinesHeld :=
  linesHeld_rework hs (fun e _ => by split <;> simp)

theorem linesHeld_entryChanges : EntryChanges State.LinesHeld where
  ordered hs := hs.1
  congr {s t} hs hd hst := by
    have hline : ∀ k w, t.lineAt k w = s.lineAt k w := fun k w => by simp only [State.lineAt, hst]
    obtain ⟨ho, hholds, hheld⟩ := hs
    refine ⟨ho.of_eq (by rw [hd]), fun e he => ?_, fun k w hv => ?_⟩
    · rw [hd] at he
      exact HoldsItsLine_congr (hholds e he) rfl rfl rfl (fun w _ => by rw [hline]; exact .refl _)
    · rw [hline] at hv ⊢
      rw [hd]
      exact hheld k w hv
  entries hs hg := linesHeld_rework hs (fun e he => ⟨(hg e he).object, (hg e he).line, (hg e he).produce⟩)
  lines {s x} hs hx := by
    obtain ⟨ho, hholds, hheld⟩ := hs
    refine ⟨ho.of_eq rfl, fun e he => HoldsItsLine_congr (hholds e he) rfl rfl rfl (fun w _ => hx _ w),
      fun k w hv => ?_⟩
    obtain ⟨hvalid, hobj, -, -⟩ := hx k w
    rw [hobj]
    exact hheld k w (hvalid ▸ hv)

/-! ## A line taken and a line freed -/

theorem cutEntry_line (e : Entry) : (cutEntry e).line = none := rfl

theorem cutEntry_produce (e : Entry) : (cutEntry e).produce = e.produce := e.mapConsume_produce _

theorem cutEntry_consume (e : Entry) :
    (cutEntry e).consume = e.consume.map (fun c => { c with replica := .absent, lastSeq := none }) :=
  e.mapConsume_consume _

/-- A line that an allocation gives to an object without one, and the entry that comes to hold it (R24 to R26): the
evicted holder holds no line any more. -/
theorem linesHeld_of_allocation {s t u : State} {n : Nat} {pinned : Bool} {detail : Nat} {tag : Word16} {w : Way}
    (hs : s.LinesHeld) (hfree : ∀ e, s.entry n = some e → e.line = none)
    (ha : s.allocate n pinned detail tag = some (w, t)) (hstore : u.store = t.store) (ho : u.DirectoryOrdered)
    {e₀ : Entry} (hobj : e₀.object = n) (hline : e₀.line = some w) (hpin : e₀.produce.isSome = pinned)
    (hentry : ∀ m, u.entry m = if m = n then some e₀ else t.entry m) : u.LinesHeld := by
  obtain ⟨-, hholds, hheld⟩ := (linesHeld_iff s).mp hs
  obtain ⟨hchoose, hlines⟩ := allocate_lineAt s n pinned detail tag w t ha
  have hu : ∀ k v, u.lineAt k v = if k = setIndex n ∧ v = w then Line.allocated n pinned else s.lineAt k v :=
    fun k v => by rw [← hlines]; simp only [State.lineAt, hstore]
  have hunpinned := choose_unpinned _ _ hchoose
  refine (linesHeld_iff u).mpr ⟨ho, fun m e he => ?_, fun k v hv => ?_⟩
  · rw [hentry] at he
    by_cases hm : m = n
    · rw [if_pos hm] at he
      cases he
      rw [holdsItsLine_iff, hline]
      simp only [hobj, hu, hpin, and_self, if_true]
      exact ⟨rfl, rfl, rfl, fun h => by cases h⟩
    · rw [if_neg hm, allocate_entry s n pinned detail tag w t ha] at he
      split at he
      · next hcut =>
        obtain ⟨-, hcons, rfl⟩ := hcut
        obtain ⟨f, hf, rfl⟩ := Option.map_eq_some_iff.mp he
        obtain ⟨c, hc⟩ := Option.isSome_iff_exists.mp hcons
        have hfc : f.consume = some c := by simpa [State.consume, hf] using hc
        rw [holdsItsLine_iff, cutEntry_line]
        exact (cutEntry_produce f).trans (f.produce_none_of_consume c hfc)
      · next hcut =>
        have heobj : e.object = m := lookup_object _ _ _ he
        refine HoldsItsLine_congr (hholds m e he) rfl rfl rfl (fun v hv => ?_)
        rw [hu, if_neg]
        · exact .refl _
        · rintro ⟨hk, rfl⟩
          have hold := hholds m e he
          rw [holdsItsLine_iff, hv] at hold
          simp only [hk] at hold
          obtain ⟨hvalid, hlobj, hlpin, -⟩ := hold
          refine hcut ⟨hvalid, ?_, by rw [hlobj, heobj]⟩
          have hprod : e.produce = none := by
            have : (s.lineAt (setIndex n) v).pinned = false := hunpinned hvalid
            rw [this] at hlpin
            simpa using hlpin.symm
          have hne : s.entry m ≠ none := by rw [he]; simp
          have := s.consume_or_produce m hne
          rw [hlobj, heobj]
          simpa [State.produce, he, hprod] using this
  · by_cases hpos : k = setIndex n ∧ v = w
    · obtain ⟨rfl, rfl⟩ := hpos
      rw [hu, if_pos ⟨rfl, rfl⟩]
      exact ⟨e₀, by rw [hentry, if_pos (show (Line.allocated n pinned).object = n from rfl)], by rw [hobj], hline⟩
    · rw [hu, if_neg hpos] at hv ⊢
      obtain ⟨e, he, hk, hw⟩ := hheld k v hv
      refine ⟨e, ?_, hk, hw⟩
      have hne : (s.lineAt k v).object ≠ n := by
        intro h
        rw [h] at he
        rw [hfree e he] at hw
        cases hw
      rw [hentry, if_neg hne, allocate_entry s n pinned detail tag w t ha, if_neg]
      · exact he
      · rintro ⟨hvalid, -, hsame⟩
        obtain ⟨f, hf, hfk, hfw⟩ := hheld _ _ hvalid
        rw [← hsame, he] at hf
        cases hf
        exact hpos ⟨hk.symm.trans hfk, Option.some.inj (hw.symm.trans hfw)⟩

/-- The removal of an entry frees its line alone (R13, R33). -/
theorem removeEntry_lineAt (s : State) (n : Nat) (k : Fin 64) (v : Way) :
    (s.removeEntry n).lineAt k v =
      if k = setIndex n ∧ (s.entry n).bind Entry.line = some v then (s.lineAt k v).freed else s.lineAt k v := by
  unfold State.removeEntry
  cases hw : (s.entry n).bind Entry.line with
  | none => simp [State.lineAt]
  | some w =>
    refine (putLine_lineAt s n w _ k v).trans ?_
    by_cases hpos : k = setIndex n ∧ v = w
    · obtain ⟨rfl, rfl⟩ := hpos
      rw [if_pos ⟨rfl, rfl⟩, if_pos ⟨rfl, rfl⟩]
      rfl
    · rw [if_neg hpos, if_neg (fun h => hpos ⟨h.1, (Option.some.inj h.2).symm⟩)]

theorem linesHeld_remove {s : State} {n : Nat} (hs : s.LinesHeld) : (s.removeEntry n).LinesHeld := by
  obtain ⟨ho, hholds, hheld⟩ := (linesHeld_iff s).mp hs
  refine (linesHeld_iff _).mpr ⟨directoryOrdered_entryInvariant.remove ho, fun m e he => ?_, fun k v hv => ?_⟩
  · rw [removeEntry_entry] at he
    split at he
    · cases he
    · next hm =>
      refine HoldsItsLine_congr (hholds m e he) rfl rfl rfl (fun v hv => ?_)
      rw [removeEntry_lineAt, if_neg]
      · exact .refl _
      · rintro ⟨hk, hw⟩
        obtain ⟨f, hf, hfw⟩ := Option.bind_eq_some_iff.mp hw
        have hline := (holdsItsLine_iff s e).mp (hholds m e he)
        have hline' := (holdsItsLine_iff s f).mp (hholds n f hf)
        rw [hv] at hline
        rw [hfw, lookup_object _ _ _ hf] at hline'
        simp only [hk] at hline hline'
        exact hm ((lookup_object _ _ _ he).symm.trans (hline.2.1.symm.trans hline'.2.1))
  · rw [removeEntry_lineAt] at hv ⊢
    split at hv
    · cases hv
    · next hpos =>
      rw [if_neg hpos]
      obtain ⟨e, he, hk, hw⟩ := hheld k v hv
      refine ⟨e, ?_, hk, hw⟩
      rw [removeEntry_entry, if_neg]
      · exact he
      · intro hn
        rw [hn] at he
        refine hpos ⟨?_, by rw [he]; exact hw⟩
        rw [← hk, lookup_object _ _ _ he]

/-- A mark on the line of a CONSUME entry leaves no pinned line locked (R21, R32). -/
theorem linesHeld_lock {s : State} {n : Nat} {b : Bool} (hs : s.LinesHeld) (hp : s.produce n = none) :
    (s.markLocked n b).LinesHeld := by
  obtain ⟨ho, hholds, hheld⟩ := (linesHeld_iff s).mp hs
  unfold State.markLocked
  cases hw : (s.entry n).bind Entry.line with
  | none => exact hs
  | some w =>
    obtain ⟨f, hf, hfw⟩ := Option.bind_eq_some_iff.mp hw
    have hfobj : f.object = n := lookup_object _ _ _ hf
    have hlines := putLine_lineAt s n w { (s.setOf n).line w with locked := b }
    have hfp : f.produce = none := by simpa [State.produce, hf] using hp
    refine (linesHeld_iff _).mpr ⟨ho.of_eq rfl, fun m e he => ?_, fun k v hv => ?_⟩
    · have hold := (holdsItsLine_iff s e).mp (hholds m e he)
      have heobj : e.object = m := lookup_object _ _ _ he
      rw [holdsItsLine_iff]
      cases hv : e.line with
      | none => rw [hv] at hold; exact hold
      | some v =>
        rw [hv] at hold
        simp only [hlines] at hold ⊢
        split
        · next hpos =>
          obtain ⟨hk, rfl⟩ := hpos
          have hline := (holdsItsLine_iff s f).mp (hholds n f hf)
          rw [hfw, hfobj] at hline
          rw [hk] at hold
          have hmn : m = n := heobj.symm.trans (hold.2.1.symm.trans hline.2.1)
          have hunpinned : e.produce = none := by
            subst hmn
            obtain rfl : f = e := Option.some.inj (hf.symm.trans he)
            exact hfp
          rw [hunpinned] at hold ⊢
          exact ⟨hold.1, hold.2.1, hold.2.2.1, fun _ => hold.2.2.1⟩
        · exact hold
    · rw [hlines] at hv ⊢
      split at hv
      · next hpos =>
        obtain ⟨rfl, rfl⟩ := hpos
        rw [if_pos ⟨rfl, rfl⟩]
        exact hheld _ _ hv
      · next hpos =>
        rw [if_neg hpos]
        exact hheld _ _ hv

theorem linesHeld_subscribe {s : State} {d : Descriptor} (hs : s.LinesHeld) (hobj : d.object < 4096)
    (he : s.entry d.object = none) (hlen : s.directory.length < 256) :
    (s.setDirectory (insertEntry s.directory d.newConsume)).LinesHeld := by
  obtain ⟨ho, hholds, hheld⟩ := (linesHeld_iff s).mp hs
  have hentry : ∀ m, (s.setDirectory (insertEntry s.directory d.newConsume)).entry m =
      if m = d.object then some d.newConsume else s.entry m := fun m => lookup_insertEntry _ _ d.newConsume he
  refine (linesHeld_iff _).mpr ⟨ho.insert d.newConsume he hobj hlen, fun m e hm => ?_, fun k v hv => ?_⟩
  · rw [hentry] at hm
    split at hm
    · cases hm
      exact (holdsItsLine_iff _ _).mpr rfl
    · exact HoldsItsLine_congr (hholds m e hm) rfl rfl rfl (fun _ _ => .refl _)
  · obtain ⟨e, hm, hk, hw⟩ := hheld k v hv
    refine ⟨e, ?_, hk, hw⟩
    rw [hentry, if_neg]
    · exact hm
    · intro h
      rw [show (s.lineAt k v).object = d.object from h, he] at hm
      cases hm

theorem linesHeld_claim {s : State} {d : Descriptor} {slot : Fin 4} (hs : s.LinesHeld) (hobj : d.object < 4096)
    (he : s.entry d.object = none) (hlen : s.directory.length < 256) : (s.claimEntry d slot).LinesHeld := by
  have ho := directoryOrdered_entryInvariant.claim (slot := slot) hs.1 hobj he hlen
  obtain h | ⟨w, t, ha, h⟩ := claimEntry_of_none s d slot he
  · rw [h]; exact hs
  · rw [h] at ho ⊢
    have hnone : t.entry d.object = none := by
      rw [entry_none_iff_objects] at he ⊢
      rw [allocate_objects s t _ _ _ _ w ha]
      exact he
    exact linesHeld_of_allocation hs (fun e h => by rw [he] at h; cases h) ha rfl ho
      (e₀ := d.newProduce w slot) rfl rfl rfl (fun m => lookup_insertEntry t.directory m (d.newProduce w slot) hnone)

theorem linesHeld_recordLine {s t : State} {n : Nat} {c : Consume} (hs : s.LinesHeld) (hc : s.consume n = some c)
    (h : s.recordLine n = some t) : t.LinesHeld := by
  obtain ⟨e, he, hr⟩ := s.consume_entry n c hc
  have ho := hs.1.of_eq (recordLine_objects s t n h)
  unfold State.recordLine at h
  rw [he] at h
  cases hline : e.line with
  | some w => simp [hline] at h; subst h; exact hs
  | none =>
    simp only [Option.bind_some, hline, Option.map_eq_some_iff] at h
    obtain ⟨⟨w, a⟩, ha, rfl⟩ := h
    obtain ⟨f, hf, hfobj, hfp⟩ : ∃ f, a.entry n = some f ∧ f.object = n ∧ f.produce = none := by
      have hprod : e.produce = none := by simp [Entry.produce, hr]
      rw [allocate_entry s n false 1 0 w a ha, he]
      split
      · exact ⟨_, rfl, (lookup_object _ _ _ he : e.object = n) ▸ e.mapConsume_object _, (cutEntry_produce e).trans hprod⟩
      · exact ⟨e, rfl, lookup_object _ _ _ he, hprod⟩
    refine linesHeld_of_allocation hs (fun g hg => ?_) ha rfl ho (e₀ := { f with line := some w }) hfobj rfl
      (by simpa [Entry.produce] using hfp) (fun m => ?_)
    · rw [he] at hg
      cases hg
      exact hline
    · refine (lookup_updateEntry a.directory n m (fun e => { e with line := some w }) (fun _ => rfl)).trans ?_
      rw [show lookup a.directory n = some f from hf]
      rfl

theorem linesHeld_accept {s : State} {n : Nat} {c : Consume} {source : Nat} {rep : Bool} {q : Byte}
    {payload : List Byte} (hs : s.LinesHeld) (hc : s.consume n = some c) :
    (s.accept n c source rep q payload).LinesHeld := by
  have H := linesHeld_entryChanges
  unfold State.accept
  split
  · exact H.post hs _
  · next lined hl =>
    have hlined := linesHeld_updConsume (linesHeld_recordLine hs hc hl) n (fun c => { c with binding := .bound source })
    have hbound := H.elsewhere hlined (postBinding_changesOnly _ n source q payload c.binding) (by decide) (by decide)
    have hwritten := linesHeld_updConsume (H.storePayload hbound n payload) n (fun c =>
      { c with replica := .fresh, lastSeq := some q, age := 0, ageRunning := true })
    dsimp only
    split
    · exact H.post hwritten _
    · exact hwritten

theorem linesHeld_entryInvariant : EntryInvariant State.LinesHeld where
  toEntryChanges := linesHeld_entryChanges
  reset t ht := by
    obtain ⟨-, hd, hline, -⟩ := ht
    refine ⟨?_, ?_, fun k w hv => ?_⟩
    · simp [State.DirectoryOrdered, hd]
    · simp [hd]
    · rw [(hline k w).1] at hv
      cases hv
  lock hs hp := linesHeld_lock hs hp
  remove hs := linesHeld_remove hs
  subscribe hs hobj he hlen := linesHeld_subscribe hs hobj he hlen
  claim hs hobj he hlen := linesHeld_claim hs hobj he hlen
  accept hs hc := linesHeld_accept hs hc

/-- Settles O10: an entry takes its line from an allocation, which has cut the evicted holder off, and gives it up where
it is removed; every other change of a line or an entry keeps them to each other. -/
theorem linesStayHeld : Obligations.LinesStayHeld := linesHeld_entryInvariant.keptByHappenings.keptByStep

end Sys2Proof.Machine
end

section
/-! PROOF. The fields of a CONSUME entry hold together (R6). -/

namespace Sys2Proof.Machine

theorem replicasCoherent_iff (s : State) : s.ReplicasCoherent ↔
    s.DirectoryOrdered ∧ ∀ m e c, s.entry m = some e → e.consume = some c → c.Coherent e.line := by
  unfold State.ReplicasCoherent
  refine and_congr_right (fun ho => ⟨fun h m e c he hc => h e (lookup_mem _ _ _ he) c hc, fun h e he c hc => ?_⟩)
  exact h e.object e c ((mem_directory_iff s ho e).mp he) hc

theorem State.ReplicasCoherent.of_directory {s t : State} (hs : s.ReplicasCoherent)
    (hd : t.directory = s.directory) : t.ReplicasCoherent :=
  ⟨hs.1.of_eq (by rw [hd]), by rw [hd]; exact hs.2⟩

/-- An evicted holder is ABSENT, without a line and without a last sequence (R26). -/
theorem cutEntry_coherent (e : Entry) (c : Consume) (h : (cutEntry e).consume = some c) :
    c.Coherent (cutEntry e).line := by
  rw [cutEntry_consume, Option.map_eq_some_iff] at h
  obtain ⟨d, -, rfl⟩ := h
  exact ⟨by simp [cutEntry_line], by simp, fun _ _ => by simp⟩

theorem replicasCoherent_allocate {s t : State} {n : Nat} {pinned : Bool} {detail : Nat} {tag : Word16} {w : Way}
    (hs : s.ReplicasCoherent) (ha : s.allocate n pinned detail tag = some (w, t)) : t.ReplicasCoherent := by
  obtain ⟨ho, hall⟩ := (replicasCoherent_iff s).mp hs
  refine (replicasCoherent_iff t).mpr ⟨ho.of_eq (allocate_objects s t n pinned detail tag w ha), fun m e c he hc => ?_⟩
  rw [allocate_entry s n pinned detail tag w t ha] at he
  split at he
  · obtain ⟨f, -, rfl⟩ := Option.map_eq_some_iff.mp he
    exact cutEntry_coherent f c hc
  · exact hall m e c he hc

/-- A new entry with coherent fields. -/
theorem replicasCoherent_insert {s : State} (hs : s.ReplicasCoherent) (e : Entry) (he : s.entry e.object = none)
    (hobj : e.object < 4096) (hlen : s.directory.length < 256)
    (hcoh : ∀ c, e.consume = some c → c.Coherent e.line) :
    (s.setDirectory (insertEntry s.directory e)).ReplicasCoherent := by
  refine ⟨hs.1.insert e he hobj hlen, fun f hf c hc => ?_⟩
  rcases (insertEntry_mem _ _ _).mp hf with rfl | hf
  · exact hcoh c hc
  · exact hs.2 f hf c hc

theorem replicasCoherent_claim {s : State} {d : Descriptor} {slot : Fin 4} (hs : s.ReplicasCoherent)
    (hobj : d.object < 4096) (he : s.entry d.object = none) (hlen : s.directory.length < 256) :
    (s.claimEntry d slot).ReplicasCoherent := by
  obtain h | ⟨w, t, ha, h⟩ := claimEntry_of_none s d slot he
  · rw [h]; exact hs
  · have hobjects := allocate_objects s t _ _ _ _ w ha
    rw [h]
    refine replicasCoherent_insert (replicasCoherent_allocate hs ha) (d.newProduce w slot) ?_ hobj ?_
      (fun c hc => by cases hc)
    · rw [entry_none_iff_objects] at he ⊢
      rw [hobjects]
      exact he
    · have := congrArg List.length hobjects
      simp only [List.length_map] at this
      omega

/-- The entry of an accepted record holds a line, and every other entry is coherent as before (R105 step 1). -/
theorem recordLine_coherent {s t : State} {n : Nat} (hs : s.ReplicasCoherent) (h : s.recordLine n = some t) :
    (∀ e, t.entry n = some e → e.line ≠ none) ∧
      ∀ m e c, m ≠ n → t.entry m = some e → e.consume = some c → c.Coherent e.line := by
  unfold State.recordLine at h
  split at h
  · next w hw =>
    cases h
    refine ⟨fun e he hn => ?_, fun m e c _ => ((replicasCoherent_iff s).mp hs).2 m e c⟩
    simp [he, hn] at hw
  · obtain ⟨⟨w, a⟩, ha, rfl⟩ := Option.map_eq_some_iff.mp h
    have hentry : ∀ m, (a.setDirectory (updateEntry a.directory n (fun e => { e with line := some w }))).entry m =
        if m = n then (a.entry n).map (fun e => { e with line := some w }) else a.entry m :=
      fun m => lookup_updateEntry a.directory n m _ (fun _ => rfl)
    refine ⟨fun e he => ?_, fun m e c hm he hc => ?_⟩
    · rw [hentry, if_pos rfl] at he
      obtain ⟨f, -, rfl⟩ := Option.map_eq_some_iff.mp he
      simp
    · rw [hentry, if_neg hm] at he
      exact ((replicasCoherent_iff a).mp (replicasCoherent_allocate hs ha)).2 m e c he hc

theorem accept_none (s : State) (n : Nat) (c : Consume) (source : Nat) (rep : Bool) (q : Byte) (payload : List Byte)
    (h : s.recordLine n = none) : (s.accept n c source rep q payload).directory = s.directory := by
  unfold State.accept
  rw [h]
  exact post_directory _ _

/-- The entries after a record has been accepted (R105). -/
theorem accept_entry (s : State) (n : Nat) (c : Consume) (source : Nat) (rep : Bool) (q : Byte) (payload : List Byte)
    (lined : State) (h : s.recordLine n = some lined) (m : Nat) :
    (s.accept n c source rep q payload).entry m =
      if m = n then (lined.entry n).map (Entry.mapConsume (fun c =>
        { c with binding := .bound source, replica := .fresh, lastSeq := some q, age := 0, ageRunning := true }))
      else lined.entry m := by
  have hcongr : ∀ {a b : State}, a.directory = b.directory → ∀ m, a.entry m = b.entry m :=
    fun hd m => by simp only [State.entry, hd]
  have hbound : ∀ m, (((lined.updConsume n (fun c => { c with binding := .bound source })).postBinding n source q
      payload c.binding).storePayload n payload).entry m =
      (lined.updConsume n (fun c => { c with binding := .bound source })).entry m :=
    hcongr (by rw [storePayload_directory, postBinding_directory])
  have hwritten : ∀ m, (((((lined.updConsume n (fun c => { c with binding := .bound source })).postBinding n source q
      payload c.binding).storePayload n payload).updConsume n (fun c =>
        { c with replica := .fresh, lastSeq := some q, age := 0, ageRunning := true })).entry m) =
      if m = n then (lined.entry n).map (Entry.mapConsume (fun c =>
        { c with binding := .bound source, replica := .fresh, lastSeq := some q, age := 0, ageRunning := true }))
      else lined.entry m := by
    intro m
    rw [State.updConsume_entry, hbound, hbound, State.updConsume_entry, if_pos rfl, State.updConsume_entry]
    split
    · cases he : lined.entry n with
      | none => rfl
      | some e =>
        obtain ⟨o, l, r, w⟩ := e
        cases r <;> rfl
    · rfl
  unfold State.accept
  rw [h]
  dsimp only
  split
  · rw [post_entry]; exact hwritten m
  · exact hwritten m

theorem replicasCoherent_accept {s : State} {n : Nat} {c : Consume} {source : Nat} {rep : Bool} {q : Byte}
    {payload : List Byte} (hs : s.ReplicasCoherent) : (s.accept n c source rep q payload).ReplicasCoherent := by
  cases hl : s.recordLine n with
  | none => exact hs.of_directory (accept_none s n c source rep q payload hl)
  | some lined =>
    obtain ⟨hline, hothers⟩ := recordLine_coherent hs hl
    refine (replicasCoherent_iff _).mpr ⟨hs.1.of_eq (accept_objects _ _ _ _ _ _ _), fun m e d he hd => ?_⟩
    rw [accept_entry s n c source rep q payload lined hl] at he
    split at he
    · obtain ⟨f, hf, rfl⟩ := Option.map_eq_some_iff.mp he
      rw [Entry.mapConsume_consume, Option.map_eq_some_iff] at hd
      obtain ⟨d, -, rfl⟩ := hd
      rw [Entry.mapConsume_line]
      exact ⟨by simp [hline f hf], by simp, fun _ h => by cases h⟩
    · next hm => exact hothers m e d hm he hd

theorem replicasCoherent_entryInvariant : EntryInvariant State.ReplicasCoherent where
  ordered hs := hs.1
  congr hs hd _ := hs.of_directory hd
  entries {s g} hs hg := by
    refine ⟨directoryOrdered_entryInvariant.entries hs.1 hg, fun f hf d hd => ?_⟩
    obtain ⟨e, he, rfl⟩ := List.mem_map.mp hf
    obtain ⟨c, hc, hkeep⟩ := (hg e he).consume d hd
    rw [(hg e he).line]
    exact hkeep (hs.2 e he c hc)
  lines hs _ := hs.of_directory rfl
  reset t ht := by
    have hd := ht.2.1
    refine ⟨?_, ?_⟩
    · simp [State.DirectoryOrdered, hd]
    · simp [hd]
  lock hs _ := hs.of_directory (markLocked_directory _ _ _)
  remove {s n} hs := by
    refine ⟨directoryOrdered_entryInvariant.remove hs.1, fun e he c hc => ?_⟩
    rw [removeEntry_directory] at he
    exact hs.2 e ((eraseEntry_mem _ _ _).mp he).1 c hc
  subscribe hs hobj he hlen := replicasCoherent_insert hs _ he hobj hlen (fun c hc => by
    cases hc
    exact ⟨by simp [Descriptor.newConsume], by simp, fun _ h => by cases h⟩)
  claim hs hobj he hlen := replicasCoherent_claim hs hobj he hlen
  accept hs _ := replicasCoherent_accept hs

/-- Settles O11: an entry becomes FRESH as it takes a line and a last sequence, loses all three at an eviction, and is
no more FRESH where it becomes ORPHANED. -/
theorem replicasStayCoherent : Obligations.ReplicasStayCoherent :=
  replicasCoherent_entryInvariant.keptByHappenings.keptByStep

end Sys2Proof.Machine
end

section
/-! PROOF. What happens at CONSUME entries and their lines leaves the PRODUCE entries alone, and reaches the Contention
Unit by posts at most; and what the two entries into a state of rest leave there (R146, R148). -/

namespace Sys2Proof.Machine

/-- Nothing but CONSUME entries, lines and notices differs; the posts may have asked for a HOLD (R134). -/
structure State.ConsumerSide (s t : State) : Prop where
  station : t.station = s.station
  command : t.command = s.command
  ownership : t.ownership = s.ownership
  pubQueue : t.pubQueue = s.pubQueue
  produce : ∀ m, t.produce m = s.produce m
  quiet : s.station.life.transmits = false → t.contention = s.contention
  state : t.contention.state = s.contention.state
  inHand : SameData s.contention.inHand t.contention.inHand

theorem State.ConsumerSide.refl (s : State) : s.ConsumerSide s :=
  ⟨rfl, rfl, rfl, rfl, fun _ => rfl, fun _ => rfl, rfl, .refl _⟩

theorem State.ConsumerSide.trans {s t u : State} (h : s.ConsumerSide t) (h' : t.ConsumerSide u) : s.ConsumerSide u where
  station := h'.station.trans h.station
  command := h'.command.trans h.command
  ownership := h'.ownership.trans h.ownership
  pubQueue := h'.pubQueue.trans h.pubQueue
  produce m := (h'.produce m).trans (h.produce m)
  quiet hq := (h'.quiet (by rw [h.station]; exact hq)).trans (h.quiet hq)
  state := h'.state.trans h.state
  inHand := h.inHand.trans h'.inHand

theorem post_contention_state (s : State) (n : Notice) :
    (s.post n).contention.state = s.contention.state ∧
      SameData s.contention.inHand (s.post n).contention.inHand := by
  rcases post_contention_cases s n with h | ⟨-, -, -, h⟩
  · rw [h]; exact ⟨rfl, .refl _⟩
  · rw [h]; exact requestHold_state _ _

theorem post_consumerSide (s : State) (n : Notice) : s.ConsumerSide (s.post n) where
  station := by simp
  command := by simp
  ownership := by simp
  pubQueue := by simp
  produce := by simp
  quiet h := post_contention_quiet s n (.inr h)
  state := (post_contention_state s n).1
  inHand := (post_contention_state s n).2

theorem setStore_consumerSide (s : State) (x : Vector ReplicaSet 64) : s.ConsumerSide (s.setStore x) :=
  ⟨rfl, rfl, rfl, rfl, fun _ => rfl, fun _ => rfl, rfl, .refl _⟩

theorem setDirectory_consumerSide (s : State) (d : List Entry)
    (h : ∀ m, (s.setDirectory d).produce m = s.produce m) : s.ConsumerSide (s.setDirectory d) :=
  ⟨rfl, rfl, rfl, rfl, h, fun _ => rfl, rfl, .refl _⟩

theorem updConsume_consumerSide (s : State) (n : Nat) (f : Consume → Consume) : s.ConsumerSide (s.updConsume n f) :=
  setDirectory_consumerSide s _ (fun m => State.updConsume_produce n m s f)

/-- A change of the entries of `n` that keeps their PRODUCE parts. -/
theorem updateEntry_consumerSide (s : State) (n : Nat) (f : Entry → Entry) (ho : ∀ e, (f e).object = e.object)
    (hp : ∀ e, (f e).produce = e.produce) : s.ConsumerSide (s.setDirectory (updateEntry s.directory n f)) := by
  refine setDirectory_consumerSide s _ (fun m => ?_)
  have hentry : (s.setDirectory (updateEntry s.directory n f)).entry m =
      if m = n then (s.entry n).map f else s.entry m := lookup_updateEntry s.directory n m f ho
  rw [State.produce, hentry]
  split
  · next hm =>
    subst hm
    cases he : s.entry m <;> simp [State.produce, he, hp]
  · rfl

/-! ## Evictions, acceptances and expiries -/

theorem evict_consumerSide (s : State) (l : Line) (detail : Nat) (tag : Word16) :
    s.ConsumerSide (s.evict l detail tag) := by
  cases hc : s.consume l.object with
  | none => rw [evict_none _ _ _ _ hc]; exact .refl s
  | some c =>
    rw [evict_some _ _ _ _ c hc]
    have hcut := updateEntry_consumerSide s l.object cutEntry (fun e => by simp [cutEntry]) cutEntry_produce
    dsimp only
    split
    · exact hcut
    · exact hcut.trans (post_consumerSide _ _)

theorem allocate_consumerSide {s t : State} {n : Nat} {pinned : Bool} {detail : Nat} {tag : Word16} {w : Way}
    (h : s.allocate n pinned detail tag = some (w, t)) : s.ConsumerSide t := by
  unfold State.allocate at h
  split at h
  · cases h
  · simp only [Option.some.injEq, Prod.mk.injEq] at h
    obtain ⟨-, rfl⟩ := h
    refine State.ConsumerSide.trans ?_ (setStore_consumerSide _ _)
    split
    · exact evict_consumerSide _ _ _ _
    · exact .refl s

theorem recordLine_consumerSide {s t : State} {n : Nat} (h : s.recordLine n = some t) : s.ConsumerSide t := by
  unfold State.recordLine at h
  split at h
  · cases h; exact .refl s
  · obtain ⟨⟨w, a⟩, ha, rfl⟩ := Option.map_eq_some_iff.mp h
    exact (allocate_consumerSide ha).trans
      (updateEntry_consumerSide a n (fun e => { e with line := some w }) (fun _ => rfl) (fun _ => rfl))

theorem postBinding_consumerSide (s : State) (n source : Nat) (q : Byte) (payload : List Byte) (b : Binding) :
    s.ConsumerSide (s.postBinding n source q payload b) := by
  unfold State.postBinding
  split
  · exact post_consumerSide _ _
  · exact post_consumerSide _ _
  · split
    · exact .refl s
    · exact post_consumerSide _ _

theorem storePayload_consumerSide (s : State) (n : Nat) (payload : List Byte) :
    s.ConsumerSide (s.storePayload n payload) := by
  unfold State.storePayload
  split
  · exact .refl s
  · exact setStore_consumerSide _ _

theorem touchLine_consumerSide (s : State) (n : Nat) : s.ConsumerSide (s.touchLine n) := by
  unfold State.touchLine
  split
  · exact .refl s
  · exact setStore_consumerSide _ _

theorem markLocked_consumerSide (s : State) (n : Nat) (b : Bool) : s.ConsumerSide (s.markLocked n b) := by
  unfold State.markLocked
  split
  · exact .refl s
  · exact setStore_consumerSide _ _

theorem accept_consumerSide (s : State) (n : Nat) (c : Consume) (source : Nat) (rep : Bool) (q : Byte)
    (payload : List Byte) : s.ConsumerSide (s.accept n c source rep q payload) := by
  unfold State.accept
  split
  · exact post_consumerSide _ _
  · next lined hl =>
    have hbound := (recordLine_consumerSide hl).trans ((updConsume_consumerSide lined n
      (fun c => { c with binding := .bound source })).trans (postBinding_consumerSide _ n source q payload c.binding))
    have hwritten := hbound.trans ((storePayload_consumerSide _ n payload).trans (updConsume_consumerSide _ n
      (fun c => { c with replica := .fresh, lastSeq := some q, age := 0, ageRunning := true })))
    dsimp only
    split
    · exact hwritten.trans (post_consumerSide _ _)
    · exact hwritten

theorem judgeRecord_consumerSide (s : State) (n : Nat) (c : Consume) (source : Nat) (rep : Bool) (q : Byte)
    (payload : List Byte) : s.ConsumerSide (s.judgeRecord n c source rep q payload) := by
  have hsequence : s.ConsumerSide (s.checkSequence n c source rep q payload) := by
    unfold State.checkSequence
    split
    · exact accept_consumerSide _ _ _ _ _ _ _
    · exact accept_consumerSide _ _ _ _ _ _ _
    · split
      · exact updConsume_consumerSide _ _ _
      · split
        · exact accept_consumerSide _ _ _ _ _ _ _
        · exact (post_consumerSide _ _).trans (accept_consumerSide _ _ _ _ _ _ _)
  unfold State.judgeRecord
  split
  · exact accept_consumerSide _ _ _ _ _ _ _
  · exact accept_consumerSide _ _ _ _ _ _ _
  · split
    · exact hsequence
    · split
      · exact accept_consumerSide _ _ _ _ _ _ _
      · exact post_consumerSide _ _

theorem relinquishAtConsume_consumerSide (s : State) (n source : Nat) (c : Consume) :
    s.ConsumerSide (s.relinquishAtConsume n source c) := by
  unfold State.relinquishAtConsume
  split
  · exact (updConsume_consumerSide _ _ _).trans (post_consumerSide _ _)
  · exact .refl s

theorem expireAge_consumerSide (s : State) (n : Nat) (c : Consume) : s.ConsumerSide (s.expireAge n c) := by
  have hstop := updConsume_consumerSide s n (fun c => { c with age := c.ageLimit, ageRunning := false })
  unfold State.expireAge
  dsimp only
  split
  · exact hstop.trans ((updConsume_consumerSide _ n _).trans (post_consumerSide _ _))
  · exact hstop.trans ((updConsume_consumerSide _ n _).trans (post_consumerSide _ _))
  · exact hstop.trans ((updConsume_consumerSide _ n _).trans (post_consumerSide _ _))
  · exact hstop.trans ((updConsume_consumerSide _ n _).trans (post_consumerSide _ _))
  all_goals exact hstop

/-! ## Entry to DETACHED and to MUTED -/

/-- The unit once it has been torn down: nothing to send and no hold. -/
structure Contention.TornDown (c : Contention) : Prop where
  queue : c.queue = []
  inHand : c.inHand = none
  ownHold : c.ownHold = .off
  state : c.state = .idle

theorem postHoldEnded_tornDown (s : State) (detail : Nat) (hl : s.station.life.transmits = false)
    (h : s.contention.TornDown) :
    (s.postHoldEnded detail).station = s.station ∧ (s.postHoldEnded detail).contention.TornDown := by
  have hpost := post_consumerSide s (s.stationNotice .holdEnded s.own detail 0)
  exact ⟨hpost.station, by rw [State.postHoldEnded, hpost.quiet hl]; exact h⟩

theorem muteEntry_rest (s : State) (n : Nat) (hl : s.station.life.transmits = false) :
    (s.muteEntry n).station = s.station ∧ (s.muteEntry n).contention = s.contention ∧
      ∀ m, (s.muteEntry n).produce m = if m = n then none else s.produce m := by
  have hfree := releaseSlot_changesOnly s n
  have hremoved : ∀ t : State, t.station = s.station → t.contention = s.contention →
      (∀ m, m ≠ n → t.produce m = s.produce m) → ∀ kind station cause tag,
      ((t.postOwnership n kind station cause tag).removeEntry n).station = s.station ∧
      ((t.postOwnership n kind station cause tag).removeEntry n).contention = s.contention ∧
      ∀ m, ((t.postOwnership n kind station cause tag).removeEntry n).produce m =
        if m = n then none else s.produce m := by
    intro t hst hct hp kind station cause tag
    have hpost := post_consumerSide t (t.ownershipNotice n kind station cause tag)
    have hrem := removeEntry_changesOnly (t.postOwnership n kind station cause tag) n
    have h1 := hrem .station (by decide)
    have h2 := hrem .contention (by decide)
    refine ⟨h1.trans (hpost.station.trans hst), h2.trans ((hpost.quiet (by rw [hst]; exact hl)).trans hct), fun m => ?_⟩
    rw [removeEntry_produce]
    split
    · rfl
    · next hm => exact (hpost.produce m).trans (hp m hm)
  unfold State.muteEntry
  split
  · next hp =>
    refine ⟨rfl, rfl, fun m => ?_⟩
    split
    · next hm => rw [hm]; exact hp
    · rfl
  · split
    · refine hremoved _ (hfree .station (by decide)) (hfree .contention (by decide)) (fun m hm => ?_) _ _ _ _
      unfold State.releaseSlot
      split
      · rfl
      · rw [State.updProduce_produce, if_neg hm]; rfl
    · exact hremoved s rfl rfl (fun _ _ => rfl) _ _ _ _

theorem muteEntries_rest (l : List Nat) (s : State) (hl : s.station.life.transmits = false) :
    (l.foldl State.muteEntry s).station = s.station ∧ (l.foldl State.muteEntry s).contention = s.contention ∧
      ∀ m, (l.foldl State.muteEntry s).produce m = if m ∈ l then none else s.produce m := by
  induction l generalizing s with
  | nil => exact ⟨rfl, rfl, fun _ => by simp⟩
  | cons n rest ih =>
    obtain ⟨hst, hct, hp⟩ := muteEntry_rest s n hl
    obtain ⟨ist, ict, ip⟩ := ih (s.muteEntry n) (by rw [hst]; exact hl)
    refine ⟨ist.trans hst, ict.trans hct, fun m => ?_⟩
    rw [List.foldl_cons, ip, hp]
    by_cases h1 : m ∈ rest <;> by_cases h2 : m = n <;> simp [h1, h2]

theorem produce_mem_producedObjects (s : State) (n : Nat) (p : Produce) (h : s.produce n = some p) :
    n ∈ s.producedObjects := by
  obtain ⟨e, he, hr⟩ := s.produce_entry n p h
  refine List.mem_map.mpr ⟨e, List.mem_filter.mpr ⟨lookup_mem _ _ _ he, ?_⟩, lookup_object _ _ _ he⟩
  simp [Entry.produce, hr]

theorem muteContention_tornDown (s : State) (hl : s.station.life.transmits = false) :
    s.muteContention.contention.TornDown := by
  unfold State.muteContention
  dsimp only
  split
  · refine (postHoldEnded_tornDown _ 3 ?_ ?_).2
    · exact hl
    · exact ⟨rfl, rfl, rfl, rfl⟩
  · exact ⟨rfl, rfl, rfl, rfl⟩

/-- What the entry to MUTED leaves (R148). -/
theorem enterMuted_spec (s : State) :
    s.enterMuted.station.life = .muted ∧ s.enterMuted.contention.TornDown ∧
      ∀ m, s.enterMuted.produce m = none := by
  unfold State.enterMuted
  dsimp only
  set muted := (s.setStation { s.station with life := .muted, joinRunning := false, joinOwed := false }).post
    (s.stationNotice .numberClash s.own s.station.life.code 0) with hmuted
  have hlife : muted.station.life = .muted := by rw [hmuted, post_station]; rfl
  set emptied := (muted.muteContention.setOwnership
    { muted.muteContention.ownership with waitList := [] }).setPubQueue [] with hemptied
  have hstation : emptied.station = muted.station := muteContention_changesOnly muted .station (by decide)
  have hdown : emptied.contention.TornDown := muteContention_tornDown muted (by rw [hlife]; rfl)
  obtain ⟨hst, hct, hp⟩ := muteEntries_rest emptied.producedObjects emptied (by rw [hstation, hlife]; rfl)
  refine ⟨by rw [hst, hstation]; exact hlife, by rw [hct]; exact hdown, fun m => ?_⟩
  rw [hp]
  split
  · rfl
  · next hm =>
    by_contra h
    obtain ⟨p, h⟩ := Option.ne_none_iff_exists'.mp h
    exact hm (produce_mem_producedObjects _ _ _ h)

theorem hasWork_rest (s : State) (h : s.station.life.rests = true) : s.hasWork = false := by
  cases hl : s.station.life <;> simp_all [State.hasWork, Life.rests, Life.transmits]

theorem leaveIdle_rest (s : State) (h : s.station.life.rests = true) : s.leaveIdle = s := by
  unfold State.leaveIdle
  rw [hasWork_rest s h]
  simp

/-- What the entry to DETACHED leaves (R137, R146). -/
theorem enterDetached_spec (s : State) (hq : s.contention.queue = []) (hi : s.contention.inHand = none) :
    s.enterDetached.station.life = .detached ∧ s.enterDetached.contention.TornDown := by
  have hleft := post_consumerSide (s.setStation { s.station with life := .detached })
    (s.stationNotice .left s.own 0 s.station.keptTag)
  have hcontention := hleft.quiet rfl
  have hlife := congrArg Station.life hleft.station
  unfold State.enterDetached
  dsimp only
  rw [hcontention]
  have hdown : ({ s.contention with
      state := .idle, attempts := 0, ownHold := .off, ownExpiry := 0, expiryOwed := false } : Contention).TornDown :=
    ⟨hq, hi, rfl, rfl⟩
  split
  · obtain ⟨hst, hdown'⟩ := postHoldEnded_tornDown (((s.setStation { s.station with life := .detached }).post
      (s.stationNotice .left s.own 0 s.station.keptTag)).setContention { s.contention with
        state := .idle, attempts := 0, ownHold := .off, ownExpiry := 0, expiryOwed := false }) 3
      (by rw [setContention_station, hlife]; rfl) hdown
    exact ⟨(congrArg Station.life hst).trans hlife, hdown'⟩
  · exact ⟨hlife, hdown⟩

end Sys2Proof.Machine
end

section
/-! PROOF. A station at rest has nothing to send (R15, R137, R147, R149). -/

namespace Sys2Proof.Machine

/-- What a station at rest holds. -/
structure State.AtRest (s : State) : Prop where
  produced : s.producedObjects = []
  tornDown : s.contention.TornDown

theorem restsEmpty_iff (s : State) : s.RestsEmpty ↔
    (s.station.life.rests = true → s.AtRest) ∧
      (s.station.life = .awaitStart → s.directory = [] ∧ s.command.scanning = false) := by
  have hlife : s.station.life = .awaitStart ∨ s.station.life = .detached ∨ s.station.life = .muted ↔
      s.station.life.rests = true := by
    cases s.station.life <;> simp [Life.rests]
  unfold State.RestsEmpty
  rw [hlife]
  refine and_congr_left' (imp_congr_right fun _ => ⟨?_, ?_⟩)
  · rintro ⟨hp, hq, hi, ho, hst⟩
    exact ⟨hp, hq, hi, ho, hst⟩
  · rintro ⟨hp, hq, hi, ho, hst⟩
    exact ⟨hp, hq, hi, ho, hst⟩

theorem restsEmpty_of_awake {s : State} (h : s.station.life.rests = false) : s.RestsEmpty := by
  refine (restsEmpty_iff s).mpr ⟨fun hr => ?_, fun hl => ?_⟩
  · rw [h] at hr; cases hr
  · rw [hl] at h; cases h

/-- What only a station that is not at rest has. -/
theorem State.RestsEmpty.awake {s : State} (h : s.RestsEmpty) (hb : s.Busy) : s.station.life.rests = false := by
  cases hr : s.station.life.rests with
  | false => rfl
  | true =>
    obtain ⟨hp, hq, hi, ho, hst⟩ := ((restsEmpty_iff s).mp h).1 hr
    obtain h | h | h | h | h | ⟨n, p, h⟩ := hb
    · rw [hr] at h; cases h
    · exact absurd ho h
    · exact absurd hst h
    · exact absurd hi h
    · exact absurd hq h
    · have := produce_mem_producedObjects s n p h
      rw [hp] at this
      cases this

/-- A busy station whose life-cycle state stays is not at rest. -/
theorem State.RestsEmpty.of_busy {s t : State} {l : List Block} (h : s.RestsEmpty) (hb : s.Busy)
    (ht : s.ChangesOnly t l) (hl : .station ∉ l) : t.RestsEmpty :=
  restsEmpty_of_awake (by rw [show t.station = s.station from ht .station hl]; exact h.awake hb)

/-- Rest is a matter of life-cycle state, PRODUCE entries, frames and scan alone. -/
theorem State.RestsEmpty.congr {s t : State} (h : s.RestsEmpty) (hst : t.station = s.station)
    (hp : s.producedObjects = [] → t.producedObjects = []) (hd : s.directory = [] → t.directory = [])
    (hct : s.contention.TornDown → t.contention.TornDown) (hcmd : t.command.scanning = s.command.scanning) :
    t.RestsEmpty := by
  obtain ⟨hrest, hwait⟩ := (restsEmpty_iff s).mp h
  refine (restsEmpty_iff t).mpr ⟨fun hr => ?_, fun hl => ?_⟩
  · rw [hst] at hr
    exact ⟨hp (hrest hr).produced, hct (hrest hr).tornDown⟩
  · rw [hst] at hl
    exact ⟨hd (hwait hl).1, by rw [hcmd]; exact (hwait hl).2⟩

theorem producedObjects_eq_nil_iff (s : State) : s.producedObjects = [] ↔ ∀ e ∈ s.directory, e.produce = none := by
  simp [State.producedObjects, List.filter_eq_nil_iff]

theorem producedObjects_of_produce {s : State} (ho : s.DirectoryOrdered) (h : ∀ m, s.produce m = none) :
    s.producedObjects = [] := by
  refine (producedObjects_eq_nil_iff s).mpr (fun e he => ?_)
  have hentry := (mem_directory_iff s ho e).mp he
  simpa [State.produce, hentry] using h e.object

theorem produce_of_producedObjects {s : State} (h : s.producedObjects = []) (m : Nat) : s.produce m = none := by
  by_contra hne
  obtain ⟨p, hp⟩ := Option.ne_none_iff_exists'.mp hne
  have := produce_mem_producedObjects s m p hp
  rw [h] at this
  cases this

/-- Entries that keep their role. -/
theorem State.RestsEmpty.mapEntries {s : State} {g : Entry → Entry} (h : s.RestsEmpty)
    (hg : ∀ e, (g e).produce.isSome = e.produce.isSome) : (s.setDirectory (s.directory.map g)).RestsEmpty := by
  refine h.congr rfl (fun hnil => ?_) (fun hnil => by rw [setDirectory_directory, hnil]; rfl) id rfl
  rw [producedObjects_eq_nil_iff] at hnil ⊢
  intro f hf
  obtain ⟨e, he, rfl⟩ := List.mem_map.mp hf
  have := hg e
  rw [hnil e he] at this
  simpa using this

/-- What happens at CONSUME entries leaves a station at rest as it is. -/
theorem State.ConsumerSide.restsEmpty {s t : State} (ht : s.ConsumerSide t) (ho : t.DirectoryOrdered)
    (h : s.RestsEmpty) (hd : s.station.life = .awaitStart → t.directory = s.directory) : t.RestsEmpty := by
  obtain ⟨hrest, hwait⟩ := (restsEmpty_iff s).mp h
  refine (restsEmpty_iff t).mpr ⟨fun hr => ?_, fun hl => ?_⟩
  · rw [ht.station] at hr
    have hquiet : s.station.life.transmits = false := by
      cases hl : s.station.life <;> simp_all [Life.rests, Life.transmits]
    refine ⟨producedObjects_of_produce ho (fun m => ?_), by rw [ht.quiet hquiet]; exact (hrest hr).tornDown⟩
    rw [ht.produce]
    exact produce_of_producedObjects (hrest hr).produced m
  · rw [ht.station] at hl
    exact ⟨(hd hl).trans (hwait hl).1, by rw [ht.command]; exact (hwait hl).2⟩

/-- Where there is a CONSUME entry the station has been started. -/
theorem State.RestsEmpty.started {s : State} {n : Nat} {c : Consume} (h : s.RestsEmpty) (hc : s.consume n = some c) :
    s.station.life ≠ .awaitStart := by
  intro hl
  have hd := (((restsEmpty_iff s).mp h).2 hl).1
  simp [State.consume, State.entry, hd, lookup] at hc

theorem restsEmpty_settle {s : State} (h : s.RestsEmpty) : s.settle.RestsEmpty := by
  unfold State.settle
  split
  · next hdone =>
    simp only [State.leaveDone, Bool.and_eq_true, List.isEmpty_iff, Option.isNone_iff_eq_none] at hdone
    obtain ⟨⟨⟨-, hp⟩, hq⟩, hi⟩ := hdone
    obtain ⟨hlife, hdown⟩ := enterDetached_spec s hq hi
    rw [leaveIdle_rest _ (by rw [hlife]; rfl)]
    refine (restsEmpty_iff _).mpr ⟨fun _ => ⟨?_, hdown⟩, fun hl => by rw [hlife] at hl; cases hl⟩
    rw [State.producedObjects, enterDetached_directory]
    exact hp
  · cases hr : s.station.life.rests with
    | true => rw [leaveIdle_rest s hr]; exact h
    | false => exact restsEmpty_of_awake (by rw [leaveIdle_station]; exact hr)

theorem restsEmpty_enterMuted {s : State} (ho : s.enterMuted.DirectoryOrdered) : s.enterMuted.RestsEmpty := by
  obtain ⟨hlife, hdown, hp⟩ := enterMuted_spec s
  exact (restsEmpty_iff _).mpr ⟨fun _ => ⟨producedObjects_of_produce ho hp, hdown⟩,
    fun hl => by rw [hlife] at hl; cases hl⟩

theorem restsEmpty_stage {s : State} (h : s.RestsEmpty) (n : Nat) (payload : List Byte) :
    (s.stage n payload).RestsEmpty := by
  cases hp : s.produce n with
  | some p =>
    exact h.of_busy (.inr (.inr (.inr (.inr (.inr ⟨n, p, hp⟩))))) (stage_changesOnly s n payload) (by decide)
  | none =>
    have hstored : (s.storePayload n payload).RestsEmpty := by
      have hc := storePayload_changesOnly s n payload
      have hd := hc .directory (by decide)
      have hct := hc .contention (by decide)
      exact h.congr (hc .station (by decide)) (fun hnil => by rw [State.producedObjects, hd]; exact hnil)
        (fun hnil => hd.trans hnil) (fun hdown => by rw [hct]; exact hdown) (by rw [hc .command (by decide)])
    unfold State.stage
    rw [hp]
    exact hstored.mapEntries (fun e => by split <;> simp)

/-- A release at an object without PRODUCE entry does nothing, and at any other the station is not at rest. -/
theorem restsEmpty_release {s : State} (h : s.RestsEmpty) (n : Nat) (tag : Word16) : (s.release n tag).RestsEmpty := by
  cases hp : s.produce n with
  | some p => exact h.of_busy (.inr (.inr (.inr (.inr (.inr ⟨n, p, hp⟩))))) (release_changesOnly s n tag) (by decide)
  | none =>
    unfold State.release
    rw [hp]
    exact h

theorem grantClaim_station (s : State) (k : Fin 4) (slot : ClaimSlot) (p : Produce) :
    (s.grantClaim k slot p).station = s.station := by
  unfold State.grantClaim
  dsimp only
  split
  · rw [show _ = _ from appendNew_changesOnly _ slot.object .station (by decide)]
    exact post_station _ _
  · exact post_station _ _

theorem SameButTiming.tornDown {c d : Contention} (h : c.SameButTiming d) (hc : c.TornDown) : d.TornDown :=
  ⟨h.queue.trans hc.queue, h.inHand.trans hc.inHand, h.ownHold.trans hc.ownHold, h.idle.mpr hc.state⟩

theorem awake_of_producing {s : State} (h : s.producing = true) : s.Busy := by
  refine .inl ?_
  cases hl : s.station.life <;> simp_all [State.producing, Life.rests]

theorem restsEmpty_keptByHappenings : KeptByHappenings (fun s => s.DirectoryOrdered ∧ s.RestsEmpty) where
  reset t ht := by
    refine ⟨directoryOrdered_entryInvariant.reset t ht, ?_⟩
    obtain ⟨hst, hd, -, -, -, -, -, -, -, hstate, hin, -, hq, -, -, -, ho, -, -, hcmd, -⟩ := ht
    exact (restsEmpty_iff t).mpr ⟨fun _ => ⟨by rw [State.producedObjects, hd]; rfl, hq, hin, ho, hstate⟩,
      fun _ => ⟨hd, by rw [hcmd]⟩⟩
  aside := fun {s t} ⟨ho, h⟩ hc => by
    have hd := hc .directory (by decide)
    have hct := hc .contention (by decide)
    exact ⟨directoryOrdered_entryInvariant.keptByHappenings.aside ho hc, h.congr (hc .station (by decide))
      (fun hnil => by rw [State.producedObjects, hd]; exact hnil) (fun hnil => hd.trans hnil)
      (fun hdown => by rw [hct]; exact hdown) (by rw [hc .command (by decide)])⟩
  command := fun {s x} ⟨ho, h⟩ hx => by
    obtain ⟨hrest, hwait⟩ := (restsEmpty_iff s).mp h
    refine ⟨ho, (restsEmpty_iff _).mpr ⟨fun hr => ⟨(hrest hr).produced, (hrest hr).tornDown⟩,
      fun hl => ⟨(hwait hl).1, ?_⟩⟩⟩
    by_contra hscan
    obtain hs | hs := hx (by simpa using hscan)
    · rw [(hwait hl).2] at hs; cases hs
    · exact hs hl
  station := fun {s x} ⟨ho, h⟩ hx => by
    refine ⟨ho, ?_⟩
    obtain hlife | hlife := hx
    · obtain ⟨hrest, hwait⟩ := (restsEmpty_iff s).mp h
      refine (restsEmpty_iff _).mpr ⟨fun hr => ?_, fun hl => ?_⟩
      · have := hrest (by rw [← hlife]; exact hr)
        exact ⟨this.produced, this.tornDown⟩
      · exact hwait (by rw [← hlife]; exact hl)
    · exact restsEmpty_of_awake hlife
  timing := fun ⟨ho, h⟩ hx => ⟨ho, h.congr rfl id id (SameButTiming.tornDown hx) rfl⟩
  automatic := fun ⟨ho, h⟩ hb _ _ => ⟨ho, h.of_busy hb (setContention_changesOnly _ _) (by decide)⟩
  phases := fun ⟨ho, h⟩ _ _ => ⟨ho, h.congr rfl id id id rfl⟩
  counters := fun ⟨ho, h⟩ hg =>
    ⟨directoryOrdered_entryInvariant.keptByHappenings.counters ho hg, h.mapEntries (fun e => (hg e).reworked.produce)⟩
  settle := fun ⟨ho, h⟩ => ⟨directoryOrdered_entryInvariant.keptByHappenings.settle ho, restsEmpty_settle h⟩
  mute := fun ⟨ho, _⟩ =>
    have hmuted := directoryOrdered_entryInvariant.keptByHappenings.mute ho
    ⟨hmuted, restsEmpty_enterMuted hmuted⟩
  subscribe := fun {s d} ⟨ho, h⟩ hscan hobj he hlen => by
    obtain ⟨hrest, hwait⟩ := (restsEmpty_iff s).mp h
    have hlife : s.station.life ≠ .awaitStart := fun hl => by rw [(hwait hl).2] at hscan; cases hscan
    refine ⟨ho.insert d.newConsume he hobj hlen, (restsEmpty_iff _).mpr
      ⟨fun hr => ⟨(producedObjects_eq_nil_iff _).mpr (fun e hm => ?_), (hrest hr).tornDown⟩,
        fun hl => absurd hl hlife⟩⟩
    rcases (insertEntry_mem _ _ _).mp hm with rfl | hm
    · rfl
    · exact (producedObjects_eq_nil_iff s).mp (hrest hr).produced e hm
  unsubscribe := fun {s n} ⟨ho, h⟩ _ => by
    refine ⟨directoryOrdered_entryInvariant.remove ho, ?_⟩
    have hc := removeEntry_changesOnly s n
    have hd := removeEntry_directory s n
    have hct := hc .contention (by decide)
    refine h.congr (hc .station (by decide)) (fun hnil => ?_) (fun hnil => by rw [hd, hnil]; rfl)
      (fun hdown => by rw [hct]; exact hdown) (by rw [hc .command (by decide)])
    rw [producedObjects_eq_nil_iff] at hnil ⊢
    rw [hd]
    exact fun e he => hnil e ((eraseEntry_mem _ _ _).mp he).1
  unbind := fun {s n} ⟨ho, h⟩ =>
    ⟨directoryOrdered_entryInvariant.keptByHappenings.unbind ho, h.mapEntries (fun e => by split <;> simp)⟩
  lock := fun {s n b} ⟨ho, h⟩ hp =>
    have hlocked := directoryOrdered_entryInvariant.lock (b := b) ho hp
    ⟨hlocked, (markLocked_consumerSide s n b).restsEmpty hlocked h (fun _ => markLocked_directory s n b)⟩
  pull := fun ⟨ho, h⟩ hp => ⟨directoryOrdered_entryInvariant.keptByHappenings.pull ho hp,
    h.of_busy (awake_of_producing hp) (placeCommand_changesOnly _ _) (by decide)⟩
  claim := fun ⟨ho, h⟩ hp hc => ⟨directoryOrdered_entryInvariant.keptByHappenings.claim ho hp hc,
    h.of_busy (awake_of_producing hp) (takeClaim_changesOnly _ _) (by decide)⟩
  release := fun ⟨ho, h⟩ => ⟨directoryOrdered_entryInvariant.keptByHappenings.release ho, restsEmpty_release h _ _⟩
  stage := fun ⟨ho, h⟩ => ⟨directoryOrdered_entryInvariant.keptByHappenings.stage ho, restsEmpty_stage h _ _⟩
  touch := fun {s n} ⟨ho, h⟩ =>
    have htouched := directoryOrdered_entryInvariant.keptByHappenings.touch (n := n) ho
    ⟨htouched, (touchLine_consumerSide s n).restsEmpty htouched h
      (fun _ => touchLine_changesOnly s n .directory (by decide))⟩
  judge := fun {s n c source rep q payload} ⟨ho, h⟩ hc =>
    have hjudged := directoryOrdered_entryInvariant.keptByHappenings.judge (source := source) (rep := rep) (q := q)
      (payload := payload) ho hc
    ⟨hjudged, (judgeRecord_consumerSide s n c source rep q payload).restsEmpty hjudged h
      (fun hl => absurd hl (h.started hc))⟩
  lose := fun ⟨ho, h⟩ hp hown => ⟨directoryOrdered_entryInvariant.keptByHappenings.lose ho hp hown,
    h.of_busy (.inr (.inr (.inr (.inr (.inr ⟨_, _, hp⟩))))) (loseClaim_changesOnly _ _ _ _) (by decide)⟩
  depose := fun ⟨ho, h⟩ hp hown => ⟨directoryOrdered_entryInvariant.keptByHappenings.depose ho hp hown,
    h.of_busy (.inr (.inr (.inr (.inr (.inr ⟨_, _, hp⟩))))) (depose_changesOnly _ _ _ _) (by decide)⟩
  orphan := fun {s n c source} ⟨ho, h⟩ hc =>
    have horphaned := directoryOrdered_entryInvariant.keptByHappenings.orphan (source := source) ho hc
    ⟨horphaned, (relinquishAtConsume_consumerSide s n source c).restsEmpty horphaned h
      (fun hl => absurd hl (h.started hc))⟩
  again := fun ⟨ho, h⟩ hp hown => ⟨directoryOrdered_entryInvariant.keptByHappenings.again ho hp hown,
    h.of_busy (.inr (.inr (.inr (.inr (.inr ⟨_, _, hp⟩))))) (appendRepeat_changesOnly _ _) (by decide)⟩
  grant := fun {s k slot p} ⟨ho, h⟩ hs hp hown hk =>
    ⟨directoryOrdered_entryInvariant.keptByHappenings.grant ho hs hp hown hk, restsEmpty_of_awake (by
      rw [grantClaim_station]
      exact h.awake (.inr (.inr (.inr (.inr (.inr ⟨_, _, hp⟩))))))⟩
  age := fun {s n c} ⟨ho, h⟩ hc =>
    have haged := directoryOrdered_entryInvariant.keptByHappenings.age ho hc
    ⟨haged, (expireAge_consumerSide s n c).restsEmpty haged h (fun hl => absurd hl (h.started hc))⟩
  choose := fun ⟨ho, h⟩ hst => ⟨directoryOrdered_entryInvariant.keptByHappenings.choose ho hst,
    h.of_busy (.inr (.inr (.inl (by simp [hst])))) (chooseFrame_changesOnly _) (by decide)⟩
  collide := fun ⟨ho, h⟩ hst => ⟨directoryOrdered_entryInvariant.keptByHappenings.collide ho hst,
    h.of_busy (.inr (.inr (.inl (by simp [hst])))) (collide_changesOnly _) (by decide)⟩
  abandon := fun {s cause} ⟨ho, h⟩ hst => ⟨directoryOrdered_entryInvariant.keptByHappenings.abandon ho hst,
    h.of_busy (.inr (.inr (.inl (by simp [hst])))) ((reportAbandonment_changesOnly s cause).trans
      ((dropFrame_changesOnly _).mono (by decide))) (by decide)⟩
  succeed := fun {s} ⟨ho, h⟩ hst => ⟨directoryOrdered_entryInvariant.keptByHappenings.succeed ho hst,
    h.of_busy (.inr (.inr (.inl (by simp [hst])))) ((reportSuccess_changesOnly s).trans
      ((dropFrame_changesOnly _).mono (by decide))) (by decide)⟩

/-- Settles O12: a station at rest has no PRODUCE entry, frame or hold from which a happening could make work, and both
entries into rest clear them. -/
theorem restingStationsStayEmpty : Obligations.RestingStationsStayEmpty := restsEmpty_keptByHappenings.keptByStep

end Sys2Proof.Machine
end

section
/-! PROOF. The disposal of a frame at its end, and the turn of an ignored item (R43 to R47, R9). -/

namespace Sys2Proof.Machine

/-! ## The frame end -/

section FrameEnd
variable {s : State} {f : RxFrame} {rest : List Byte} (hrx : s.rx = .frame f) (hhead : f.header.isSome = true)
  (hlen : rest.length = f.expected)
include hrx hhead hlen

theorem exec_frameEnd_of_expected : exec (.frameEnd rest) s = .next ((s.setRx .skip).frameEnd f rest) := by
  show execFrameEnd rest s = _
  unfold execFrameEnd
  rw [hrx]
  exact if_pos ⟨hhead, hlen⟩

/-- A frame end that changes nothing but the Receive Path. -/
theorem frameEnd_discards (h : (s.setRx .skip).frameEnd f rest = s.setRx .skip) :
    ∃ t, exec (.frameEnd rest) s = .next t ∧ t.rx = .skip ∧ s.ChangesOnly t [.rx] :=
  ⟨s.setRx .skip, by rw [exec_frameEnd_of_expected hrx hhead hlen, h], rfl, setRx_changesOnly s .skip⟩

/-- Malformed, collided with the part's own sending, or its own number where that is no clash (R41, R43, R44, R47). -/
theorem frameEnd_discards_of (h : judgeFrame f rest = none ∨ s.contention.state = .sending
      ∨ (f.source = s.own ∧ (s.station.life = .awaitStart ∨ s.station.life = .muted))) :
    ∃ t, exec (.frameEnd rest) s = .next t ∧ t.rx = .skip ∧ s.ChangesOnly t [.rx] := by
  refine frameEnd_discards hrx hhead hlen ?_
  unfold State.frameEnd
  cases hj : judgeFrame f rest with
  | none => rfl
  | some items =>
    dsimp only
    rcases h with h | h | ⟨hown, hlife⟩
    · rw [hj] at h; cases h
    · exact if_pos h
    · split
      · rfl
      · rw [if_pos (show f.source = (s.setRx .skip).own from hown)]
        unfold State.clash
        rcases hlife with hl | hl <;> rw [setRx_station, hl]

/-- A peer's valid frame joins the dispatch list (R45, R46). -/
theorem frameEnd_dispatches {items : List Item} (hj : judgeFrame f rest = some items)
    (hsend : s.contention.state ≠ .sending) (hown : f.source ≠ s.own) :
    ∃ t, exec (.frameEnd rest) s = .next t ∧ t.rx = .skip
      ∧ t.dispatch = (if s.dispatch.dropWhile s.ignores = [] then s.afterFirstTurn items
          else s.dispatch.dropWhile s.ignores ++ items)
      ∧ s.ChangesOnly t [.rx, .dispatch] := by
  refine ⟨(s.setRx .skip).arrive items, ?_, rfl, arrive_dispatch (s.setRx .skip) items, ?_⟩
  · rw [exec_frameEnd_of_expected hrx hhead hlen]
    unfold State.frameEnd
    rw [hj]
    dsimp only
    rw [if_neg (show (s.setRx .skip).contention.state ≠ .sending from hsend),
      if_neg (show f.source ≠ (s.setRx .skip).own from hown)]
  · exact ((setRx_changesOnly s .skip).mono (by decide)).trans ((arrive_changesOnly _ items).mono (by decide))

end FrameEnd

/-! ## The turn of an ignored item -/

theorem dropIgnored_spec (s : State) :
    s.dropIgnored.dispatch = s.afterFirstTurn s.dispatch ∧ s.ChangesOnly s.dropIgnored [.dispatch] :=
  ⟨meetFirst_eq s s.dispatch, setDispatch_changesOnly _ _⟩

/-- Every command of dispatch whose item is not the next one is the turn of an ignored item at the front. -/
theorem exec_dispatch_of_other (s : State) (c : Instr) (hc : c ∈ dispatchCommands)
    (h : ∀ it rest, s.nextItems = it :: rest → s.dispatchedBy it ≠ c) : exec c s = .next s.dropIgnored := by
  have hconsume : ∀ {n d}, s.consume n = some d → s.produce n = none := fun {n d} hd => by
    obtain ⟨e, he, hr⟩ := s.consume_entry n d hd
    simp [State.produce, he, Entry.produce, hr]
  simp only [dispatchCommands, List.mem_cons, List.not_mem_nil, or_false] at hc
  rcases hc with rfl | rfl | rfl | rfl | rfl | rfl | rfl | rfl
  · show execDataRecordAtConsume s = _
    unfold execDataRecordAtConsume
    split
    · next hn =>
      split
      · next hd => exact absurd (by simp [State.dispatchedBy, hconsume hd]) (h _ _ hn)
      · rfl
    · rfl
  · show execDataRecordAtProduce s = _
    unfold execDataRecordAtProduce
    split
    · next hn =>
      split
      · next hp => exact absurd (by simp [State.dispatchedBy, hp]) (h _ _ hn)
      · rfl
    · rfl
  · show execClaimHeard s = _
    unfold execClaimHeard
    split
    · next hn => exact absurd rfl (h _ _ hn)
    · rfl
  · show execDisputeHeard s = _
    unfold execDisputeHeard
    split
    · next hn => exact absurd rfl (h _ _ hn)
    · rfl
  · show execRelinquishHeardAtProduce s = _
    unfold execRelinquishHeardAtProduce
    split
    · next hn =>
      split
      · next hp => exact absurd (by simp [State.dispatchedBy, hp]) (h _ _ hn)
      · rfl
    · rfl
  · show execRelinquishHeardAtConsume s = _
    unfold execRelinquishHeardAtConsume
    split
    · next hn =>
      split
      · next hd => exact absurd (by simp [State.dispatchedBy, hconsume hd]) (h _ _ hn)
      · rfl
    · rfl
  · show execPullHeard s = _
    unfold execPullHeard
    split
    · next hn => exact absurd rfl (h _ _ hn)
    · rfl
  · show execHoldHeard s = _
    unfold execHoldHeard
    split
    · next hn => exact absurd rfl (h _ _ hn)
    · rfl

/-- Settles O36, by the branches of the frame end and by the next item of each command of dispatch. -/
theorem frameEndDisposesOfAFrame : Obligations.FrameEndDisposesOfAFrame := by
  refine ⟨fun s f rest hrx hhead hlen => ⟨frameEnd_discards_of hrx hhead hlen, fun items hj =>
    ⟨judge_items f rest items hj, frameEnd_dispatches hrx hhead hlen hj⟩⟩, fun s c hc h => ?_⟩
  exact ⟨s.dropIgnored, exec_dispatch_of_other s c hc h, dropIgnored_spec s⟩

end Sys2Proof.Machine
end

section
/-! PROOF. SNAPSHOT: the fields of a summary (Tables 1.8 and 11.9) and the buffer it writes (R162, R163). -/

namespace Sys2Proof.Machine

/-! ## The bytes of a summary -/

/-- The places of the flags in the flags byte of a PRODUCE summary. -/
theorem produceFlags_bits : ∀ a b c d e : Bool,
    let x := byteOf (flagBit a 0 + flagBit b 1 + flagBit c 2 + flagBit d 3 + flagBit e 4)
    x.getLsbD 0 = a ∧ x.getLsbD 1 = b ∧ x.getLsbD 2 = c ∧ x.getLsbD 3 = d ∧ x.getLsbD 4 = e ∧ x.toNat < 32 := by
  decide

/-- The places of the flags in the flags byte of a CONSUME summary. -/
theorem consumeFlags_toNat : ∀ a b : Bool,
    (byteOf (flagBit a 5 + flagBit b 6)).toNat = (if a then 32 else 0) + (if b then 64 else 0) := by
  decide

theorem lineCode_lt (l : Option Way) : lineCode l < 3 := by
  rcases l with _ | _ | _ <;> decide

theorem lineCode_eq (l : Option Way) :
    lineCode l = (match l with | none => 0 | some .way0 => 1 | some .way1 => 2) := by
  rcases l with _ | _ | _ <;> rfl

/-- The second byte holds the low four bits of the number, the role, the line and the sequence's presence. -/
theorem lowByte_bits : ∀ (o : Fin 16) (role : Fin 2) (line : Fin 3) (present : Bool),
    let x := byteOf (o * 16 + role * 8 + line * 2 + flagBit present 0)
    x.toNat / 16 = o ∧ (x.getLsbD 3 = true ↔ role = 1) ∧ x.toNat / 2 % 4 = line
      ∧ (x.getLsbD 0 = true ↔ present = true) := by
  decide

theorem summaryLow_bits (n : Nat) (role : Fin 2) (w : Option Way) (seq : Option Byte) :
    let x := byteOf (n % 16 * 16 + role * 8 + lineCode w * 2 + flagBit seq.isSome 0)
    x.toNat / 16 = n % 16 ∧ (x.getLsbD 3 = true ↔ role = 1)
      ∧ x.toNat / 2 % 4 = (match w with | none => 0 | some .way0 => 1 | some .way1 => 2)
      ∧ (x.getLsbD 0 = true ↔ seq ≠ none) := by
  have h := lowByte_bits ⟨n % 16, Nat.mod_lt _ (by decide)⟩ role ⟨lineCode w, lineCode_lt w⟩ seq.isSome
  rw [Option.isSome_iff_ne_none] at h
  exact ⟨h.1, h.2.1, h.2.2.1.trans (lineCode_eq w), h.2.2.2⟩

/-- The first two bytes give the number back (R181). -/
theorem summaryNumber {n : Nat} {low : Byte} (hn : n < 4096) (hlow : low.toNat / 16 = n % 16) :
    ((byteOf (n / 16)).toNat * 256 + low.toNat) / 16 = n := by
  have : (byteOf (n / 16)).toNat = n / 16 := by simp [byteOf]; omega
  have := low.isLt
  omega

theorem producedSummary_reads (o : Nat) (w : Option Way) (p : Produce) (owed : Bool) (l : Option Line) :
    let e : Entry := { object := o, line := w, role := .produce p, tickOwed := owed }
    e.SummaryReads l (e.summary l) := by
  obtain ⟨hnum, hrole, hline, hseq⟩ := summaryLow_bits o 0 w p.committed
  obtain ⟨f0, f1, f2, f3, f4, flt⟩ := produceFlags_bits p.staged p.pending (p.queued != .no)
    (p.queued == .yes true || p.inFlight == .repeating) (p.inFlight != .no)
  refine ⟨fun hn => summaryNumber hn hnum, by simpa [Entry.produce] using hrole, hline, rfl, rfl, hseq, ?_, rfl, rfl,
    ?_, ?_, ?_, ?_, ?_, flt⟩
  · cases p.ownership <;> rfl
  · rw [Produce.summaryFlags, f0]
  · rw [Produce.summaryFlags, f1]
  · rw [Produce.summaryFlags, f2, bne_iff_ne]
  · rw [Produce.summaryFlags, f3]; simp
  · rw [Produce.summaryFlags, f4, bne_iff_ne]

theorem consumedSummary_reads (o : Nat) (w : Option Way) (c : Consume) (owed : Bool) (l : Option Line) :
    let e : Entry := { object := o, line := w, role := .consume c, tickOwed := owed }
    e.SummaryReads l (e.summary l) := by
  obtain ⟨hnum, hrole, hline, hseq⟩ := summaryLow_bits o 1 w c.lastSeq
  refine ⟨fun hn => summaryNumber hn hnum, by simpa [Entry.produce] using hrole, hline, rfl, rfl, hseq, ?_, ?_, rfl,
    ?_⟩
  · cases c.replica <;> cases c.binding <;> cases c.notify <;> rfl
  · cases c.binding <;> rfl
  · rw [Consume.summaryFlags, consumeFlags_toNat]
    cases l <;> cases c.ageRunning <;> simp

/-- Every summary holds its entry's fields (Tables 1.8 and 11.9). -/
theorem summary_reads (e : Entry) (l : Option Line) : e.SummaryReads l (e.summary l) := by
  obtain ⟨o, w, role, owed⟩ := e
  cases role with
  | produce p => exact producedSummary_reads o w p owed l
  | consume c => exact consumedSummary_reads o w c owed l

theorem summary_length (e : Entry) (l : Option Line) : (e.summary l).length = 8 := by
  unfold Entry.summary
  cases e.role <;> rfl

theorem summaries_length (s : State) (es : List Entry) : (s.summaries es).length = 8 * es.length := by
  simp [State.summaries, summary_length, List.length_flatMap, Nat.mul_comm]

/-! ## The buffer -/

/-- A buffer that is good for `n` bytes lies in shared RAM and holds no byte of the slot at the index. -/
theorem buffer_avoids_slot {s : State} {b n : Nat} (hr : s.RingsKept) (hs : s.command.scanning = true)
    (hb : s.BufferGood b n) (hn : n ≠ 0) :
    b + n ≤ Config.ramEnd ∧
      ∀ a, s.slotAddress ≤ a → a < s.slotAddress + 16 → ¬ (b ≤ a ∧ a < b + n) := by
  obtain ⟨-, -, hlow, hhigh⟩ := s.slot_in_ram hr hs
  rcases hb with rfl | ⟨-, hend, havoid⟩
  · exact absurd rfl hn
  · refine ⟨by simp only [Config.ramEnd]; omega, fun a h1 h2 hin => (havoid a hin.1 hin.2).1 ⟨by omega, by omega⟩⟩

/-- The state after the engine's writes, and the completion after it. -/
theorem engineWrites_complete {s : State} (hr : s.RingsKept) (hs : s.command.scanning = true)
    (hw : s.port.waiting = []) {b : Nat} {bytes : List Byte} {n : Nat} (hb : s.BufferGood b n) (hn : n ≠ 0)
    (hle : bytes.length ≤ n) (status : Status) (flags : Byte) (length detail : Nat) :
    let t := (s.setPort (s.port.engineWrites b bytes)).complete status flags length detail
    s.Completed t status flags length detail b bytes.length ∧ t.ramBytes b bytes.length = bytes := by
  obtain ⟨hwait, hram⟩ := s.port.engineWrites_of_none hw b bytes
  obtain ⟨hend, havoid⟩ := buffer_avoids_slot hr hs hb hn
  obtain ⟨-, hfit, -, -⟩ := s.slot_in_ram hr hs
  have hread := s.port.engineWrites_read hw b bytes (by omega)
  refine ⟨State.completed_of s _ status flags length detail b bytes.length rfl rfl hw hram hfit
    fun a ha => (hread a).trans (if_neg ha), ?_⟩
  refine List.ext_getElem (by simp [State.ramBytes]) fun i h1 h2 => ?_
  have hkept := (s.setPort (s.port.engineWrites b bytes)).complete_ramByte status flags length detail hwait hfit
    (b + i)
  have hout : ∀ k < 16, b + i ≠ (s.setPort (s.port.engineWrites b bytes)).slotAddress + k := fun k hk h =>
    havoid _ (Nat.le_add_right _ k) (Nat.add_lt_add_left hk _) (h ▸ ⟨by omega, by omega⟩)
  rw [if_neg (Nat.add_zero _ ▸ hout 0 (by decide)), if_neg (hout 12 (by decide)), if_neg (hout 9 (by decide)),
    if_neg (hout 3 (by decide)), if_neg (hout 2 (by decide)), (s.setPort _).ramByte_of_none hwait] at hkept
  simp only [State.ramBytes, List.getElem_map, List.getElem_range]
  refine (hkept.trans (hread _)).trans ?_
  rw [if_pos ⟨by omega, by omega⟩, Nat.add_sub_cancel_left, List.getD_eq_getElem]

/-- Settles O29: the bytes of the summaries fit the buffer, which the engine's writes reach and the completion
avoids. -/
theorem snapshotWritesSummaries : Obligations.SnapshotWritesSummaries := by
  intro s d hr h
  obtain ⟨⟨hs, hw, -⟩, -, hpass⟩ := id h
  simp only [State.tableChecks, List.forall_mem_cons] at hpass
  obtain ⟨hlen, -, hbuf, -⟩ := hpass
  simp only [not_or, not_not] at hlen hbuf
  obtain ⟨hzero, -⟩ := hlen
  have hshort : (s.summaries ((s.walk d.paramA).take d.length)).length ≤ 8 * d.length := by
    rw [summaries_length, List.length_take]
    omega
  obtain ⟨hdone, hbytes⟩ := engineWrites_complete hr hs hw hbuf (by omega) hshort .ok (descriptorFlags false)
    ((s.walk d.paramA).take d.length).length (if d.length < (s.walk d.paramA).length then 1 else 0)
  rw [summaries_length] at hdone hbytes
  exact ⟨_, exec_snapshot_of_takes s d h, hdone, hbytes, fun e _ => summary_reads e (s.lineOf e),
    ((setPort_changesOnly s _).mono (by decide)).trans (complete_changesOnly _ _ _ _ _)⟩

end Sys2Proof.Machine
end

section
/-! PROOF. The state after reset meets every invariant (Table 8.3, R117, R139). -/

namespace Sys2Proof.Machine

theorem produce_of_empty {t : State} (hd : t.directory = []) (n : Nat) : t.produce n = none := by
  simp [State.produce, State.entry, hd, lookup]

theorem resets_queuedAreOwned {t : State} (ht : t.HasResetValues) : t.QueuedAreOwned := by
  obtain ⟨-, -, -, -, -, -, hpub, -, -, -, hin, -⟩ := ht
  refine ⟨by rw [hpub]; exact List.nodup_nil, fun records h => ?_, fun it hit => ?_⟩
  · rw [hin] at h; cases h
  · rw [hpub] at hit; cases hit

theorem resets_claimsHold {t : State} (ht : t.HasResetValues) : t.ClaimsHold := by
  obtain ⟨-, hd, -, -, hslots, hwait, -⟩ := ht
  refine ⟨fun n p hp => ?_, fun k slot hk => ?_, fun n => ⟨?_, fun hn => ?_⟩⟩
  · rw [produce_of_empty hd] at hp; cases hp
  · rw [hslots] at hk; cases hk
  · rw [hwait]; exact Nat.zero_le _
  · rw [hwait] at hn; cases hn

theorem resets_ringsKept {t : State} (ht : t.HasResetValues) : t.RingsKept := by
  obtain ⟨hst, -, -, -, -, -, -, -, -, -, -, -, -, -, -, hrng, -, -, -, hcmd, hnotice, -⟩ := ht
  refine ⟨fun _ => ⟨by rw [hst], by rw [hcmd], by rw [hnotice]⟩, fun hl => absurd (by rw [hst]) hl, ?_, ?_, ?_, ?_⟩
  · rw [hnotice]; exact Nat.zero_le _
  · rw [hnotice]; exact Nat.zero_le _
  · rw [hnotice]; exact Nat.zero_le _
  · rw [hrng]; decide

theorem resets_queuePlacesKept {t : State} (ht : t.HasResetValues) : t.QueuePlacesKept := by
  obtain ⟨-, -, -, -, -, hwait, -, -, -, -, -, -, hq, hpend, -⟩ := ht
  simp [State.QueuePlacesKept, hwait, hq, hpend]

theorem resets_settled {t : State} (ht : t.HasResetValues) : t.Settled := by
  have hlife : t.station.life = .awaitStart := by rw [ht.1]
  refine ⟨fun _ => hasWork_rest t (by rw [hlife]; rfl), ?_⟩
  simp [State.leaveDone, hlife]

theorem resets_lineFollowsCondition {t : State} (ht : t.HasResetValues) : t.LineFollowsCondition := by
  obtain ⟨hst, -, -, -, -, -, -, -, -, -, -, -, -, -, -, -, -, -, -, -, hnotice, -⟩ := ht
  simp [State.LineFollowsCondition, hst, hnotice]

/-- The model's RAM and lines after reset are zeros (log 15). -/
theorem reset_storageCanonical : State.reset.StorageCanonical := by
  refine ⟨rfl, fun k w => ?_, fun source n rep q payload h => by cases h⟩
  have hset : State.reset.store.get k = .reset := Vector.get_replicate_eq _ k
  have hline : State.reset.lineAt k w = .reset := by
    rw [State.lineAt, hset]
    cases w <;> rfl
  rw [hline]
  refine ⟨Nat.zero_le _, List.length_replicate, fun i _ => ?_⟩
  simp [Line.reset]

/-- Settles O13: each invariant follows from the reset values. -/
theorem resetMeetsEveryInvariant : Obligations.ResetMeetsEveryInvariant :=
  ⟨reset_storageCanonical, directoryOrdered_entryInvariant.reset _ reset_resets, resets_ringsKept reset_resets,
    resets_queuePlacesKept reset_resets, resets_settled reset_resets, resets_lineFollowsCondition reset_resets,
    resets_queuedAreOwned reset_resets, resets_claimsHold reset_resets,
    linesHeld_entryInvariant.reset _ reset_resets, replicasCoherent_entryInvariant.reset _ reset_resets,
    (restsEmpty_keptByHappenings.reset _ reset_resets).2⟩

end Sys2Proof.Machine
end

section
/-! PROOF. The station as a producer: what the invariants about publication, claims and releases speak of, and what
each operation does to it. -/

namespace Sys2Proof.Machine

/-- What the invariants say about a PRODUCE part (R4, Table 1.2): the rest of Table 1.1 plays no part in them. -/
structure Standing where
  ownership : Ownership
  queued : Queued
  inFlight : InFlight
  claimSlot : Option (Fin 4)
  releaseQueued : Bool
  tagged : Bool

def Produce.standing (p : Produce) : Standing :=
  { ownership := p.ownership, queued := p.queued, inFlight := p.inFlight, claimSlot := p.claimSlot
    releaseQueued := p.releaseQueued, tagged := p.releaseTag.isSome }

/-- The entry's in-flight field marks the record (05 section 5.6). -/
def Standing.marks (x : Standing) (r : TxRecord) : Bool :=
  x.inFlight == (if r.rep then .repeating else .tentative r.seq)

section Standing
variable (p : Produce)
@[simp] theorem standing_marks (r : TxRecord) : p.standing.marks r = p.marks r := rfl
@[simp] theorem standing_ownership : p.standing.ownership = p.ownership := rfl
@[simp] theorem standing_queued : p.standing.queued = p.queued := rfl
@[simp] theorem standing_inFlight : p.standing.inFlight = p.inFlight := rfl
@[simp] theorem standing_claimSlot : p.standing.claimSlot = p.claimSlot := rfl
@[simp] theorem standing_releaseQueued : p.standing.releaseQueued = p.releaseQueued := rfl
@[simp] theorem standing_tagged : p.standing.tagged = p.releaseTag.isSome := rfl
end Standing

/-- The records of a DATA frame in hand. -/
def Contention.records (c : Contention) : List TxRecord :=
  match c.inHand with
  | some (.data records) => records
  | _ => []

/-- The object of a RELINQUISH frame. -/
def CtlFrame.released : CtlFrame → Option Nat
  | .relinquish n => some n
  | _ => none

/-- The station as a producer. -/
@[ext] structure Producer where
  entries : Nat → Option Standing
  slots : Fin 4 → Option Nat
  waiting : List Nat
  queue : List PubItem
  records : List TxRecord
  sending : Bool

def State.producer (s : State) : Producer where
  entries n := (s.produce n).map Produce.standing
  slots k := (s.ownership.slots.get k).map ClaimSlot.object
  waiting := s.ownership.waitList.filterMap CtlFrame.released
  queue := s.pubQueue
  records := s.contention.records
  sending := decide (s.contention.state = .sending)

/-! ## Changes of a producer -/

/-- One entry replaced. -/
def Producer.put (v : Producer) (n : Nat) (o : Option Standing) : Producer :=
  { v with entries := Function.update v.entries n o }

/-- A change of one entry. -/
def Producer.upd (v : Producer) (n : Nat) (g : Standing → Standing) : Producer :=
  v.put n ((v.entries n).map g)

/-- One claim slot filled or freed. -/
def Producer.setSlot (v : Producer) (k : Fin 4) (o : Option Nat) : Producer :=
  { v with slots := Function.update v.slots k o }

/-- No frame in hand, and nothing sent. -/
def Producer.dropped (v : Producer) : Producer := { v with records := [], sending := false }

/-- RELINQUISH frames move from the wait list to the control queue (R55, R72). -/
inductive Producer.Moves : Producer → Producer → Prop
  | refl (v : Producer) : v.Moves v
  | move {v w : Producer} {n : Nat} {rest : List Nat} (h : v.waiting = n :: rest)
      (hw : (({ v with waiting := rest }).upd n (fun x => { x with releaseQueued := true })).Moves w) : v.Moves w

/-- What each record does to the entry of its object. -/
def perRecord (l : List TxRecord) (G : TxRecord → Standing → Standing) (n : Nat) (x : Standing) : Standing :=
  match l.find? (fun r => r.object == n) with
  | none => x
  | some r => G r x

/-- The end of a record that leaves its frame for good (R89, R94). -/
def Standing.ended (r : TxRecord) (x : Standing) : Standing :=
  if x.marks r then { x with inFlight := .no } else x

/-- The end of a record that returns to the queue (R90). -/
def Standing.returned (r : TxRecord) (x : Standing) : Standing :=
  if x.marks r then
    { x with inFlight := .no, queued := if x.ownership = .owned ∧ x.queued = .no then .yes r.rep else x.queued }
  else x

/-- A record bundled (R87). -/
def Standing.bundled (r : TxRecord) (x : Standing) : Standing :=
  { x with queued := .no, inFlight := if r.rep then .repeating else .tentative r.seq }

/-- The start of a release (R72). -/
def Standing.release (x : Standing) : Standing :=
  { x with ownership := .relinquishing, tagged := true, releaseQueued := false }

section Fields
variable (v : Producer) (n : Nat) (o : Option Standing) (g : Standing → Standing) (k : Fin 4) (i : Option Nat)

@[simp] theorem put_entries_same : (v.put n o).entries n = o := by simp [Producer.put]
@[simp] theorem put_slots : (v.put n o).slots = v.slots := rfl
@[simp] theorem upd_entries_same : (v.upd n g).entries n = (v.entries n).map g := put_entries_same v n _
@[simp] theorem setSlot_slots_same : (v.setSlot k i).slots k = i := by simp [Producer.setSlot]

variable {m : Nat} {j : Fin 4} {n k}

theorem put_entries_of_ne (hm : m ≠ n) : (v.put n o).entries m = v.entries m := Function.update_of_ne hm _ _
theorem upd_entries_of_ne (hm : m ≠ n) : (v.upd n g).entries m = v.entries m := put_entries_of_ne v _ hm
theorem setSlot_slots_of_ne (hj : j ≠ k) : (v.setSlot k i).slots j = v.slots j := Function.update_of_ne hj _ _

end Fields

@[simp] theorem upd_of_none {v : Producer} {n : Nat} (g : Standing → Standing) (h : v.entries n = none) :
    v.upd n g = v := by
  rw [Producer.upd, h, Option.map_none, ← h, Producer.put, Function.update_eq_self]

theorem upd_of_some {v : Producer} {n : Nat} {x : Standing} (g : Standing → Standing) (h : v.entries n = some x) :
    v.upd n g = v.put n (some (g x)) := by
  rw [Producer.upd, h, Option.map_some]

@[simp] theorem put_put (v : Producer) (n : Nat) (o o' : Option Standing) : (v.put n o).put n o' = v.put n o' := by
  simp [Producer.put]

@[simp] theorem upd_put_none (v : Producer) (n : Nat) (g : Standing → Standing) :
    (v.upd n g).put n none = v.put n none := put_put v n _ none

/-- A change of an entry and a removal of an entry commute. -/
theorem put_none_upd (v : Producer) (n m : Nat) (g : Standing → Standing) :
    (v.put n none).upd m g = (v.upd m g).put n none := by
  by_cases hm : m = n
  · subst hm
    rw [upd_put_none, upd_of_none _ (put_entries_same v m none)]
  · simp [Producer.upd, Producer.put, Function.update_of_ne hm, Function.update_comm hm]

theorem Producer.Moves.trans {u v w : Producer} (h : u.Moves v) (h' : v.Moves w) : u.Moves w := by
  induction h with
  | refl => exact h'
  | move hwait _ ih => exact .move hwait (ih h')

theorem Producer.Moves.queue {v w : Producer} (h : v.Moves w) : w.queue = v.queue := by
  induction h with
  | refl => rfl
  | move _ _ ih => exact ih

theorem Producer.Moves.remove {v w : Producer} (h : v.Moves w) (n : Nat) : (v.put n none).Moves (w.put n none) := by
  induction h with
  | refl => exact .refl _
  | @move v w m rest hwait _ ih =>
    refine .move (v := v.put n none) hwait ?_
    rw [show ({ v.put n none with waiting := rest } : Producer) = ({ v with waiting := rest } : Producer).put n none
      from rfl, put_none_upd]
    exact ih

theorem perRecord_cases (l : List TxRecord) (G : TxRecord → Standing → Standing) (n : Nat) :
    (n ∉ l.map TxRecord.object ∧ perRecord l G n = id) ∨ ∃ r ∈ l, r.object = n ∧ perRecord l G n = G r := by
  cases hf : l.find? (fun r => r.object == n) with
  | none =>
    refine .inl ⟨by simpa using hf, ?_⟩
    funext x
    simp [perRecord, hf]
  | some r =>
    refine .inr ⟨r, List.mem_of_find?_eq_some hf, by simpa using List.find?_some hf, ?_⟩
    funext x
    simp [perRecord, hf]

theorem eq_of_object {l : List TxRecord} (hn : (l.map TxRecord.object).Nodup) {r q : TxRecord} (hr : r ∈ l) (hq : q ∈ l)
    (h : r.object = q.object) : r = q := List.inj_on_of_nodup_map hn hr hq h

theorem perRecord_of_mem {l : List TxRecord} (hn : (l.map TxRecord.object).Nodup) {r : TxRecord} (hr : r ∈ l)
    (G : TxRecord → Standing → Standing) : perRecord l G r.object = G r := by
  obtain ⟨hno, -⟩ | ⟨q, hq, ho, h⟩ := perRecord_cases l G r.object
  · exact absurd (List.mem_map_of_mem hr) hno
  · rw [h, eq_of_object hn hq hr ho]

/-! ## What the operations do -/

theorem SameData.records {c d : Contention} (h : SameData c.inHand d.inHand) : d.records = c.records := by
  obtain hi | ⟨f, v, g, w, hi, hj⟩ := h
  · rw [Contention.records, hi, Contention.records]
  · rw [Contention.records, hj, Contention.records, hi]

section Operations
variable (s : State)

theorem State.ConsumerSide.producer {s t : State} (h : s.ConsumerSide t) : t.producer = s.producer := by
  refine Producer.ext (funext fun m => ?_) ?_ ?_ h.pubQueue h.inHand.records ?_
  · simp only [State.producer, h.produce]
  · simp only [State.producer, h.ownership]
  · simp only [State.producer, h.ownership]
  · simp only [State.producer, h.state]

@[simp] theorem post_producer (n : Notice) : (s.post n).producer = s.producer := (post_consumerSide s n).producer

@[simp] theorem postOwnership_producer (n : Nat) (kind : NoticeKind) (station : Nat) (cause : Cause) (tag : Word16) :
    (s.postOwnership n kind station cause tag).producer = s.producer := post_producer s _

/-- A change of the Contention Unit that keeps the records and whether the unit is SENDING. -/
theorem setContention_producer {x : Contention} (hr : x.records = s.contention.records)
    (hs : x.state = .sending ↔ s.contention.state = .sending) : (s.setContention x).producer = s.producer :=
  Producer.ext rfl rfl rfl rfl hr (decide_eq_decide.mpr hs)

theorem setContention_dropped {x : Contention} (hr : x.inHand = none) (hs : x.state ≠ .sending) :
    (s.setContention x).producer = s.producer.dropped :=
  Producer.ext rfl rfl rfl rfl (by simp [State.producer, Contention.records, hr, Producer.dropped])
    (decide_eq_false hs)

/-- A change that one entry's standing shows. -/
theorem updProduce_producer (n : Nat) {f : Produce → Produce} (g : Standing → Standing)
    (h : ∀ p, (f p).standing = g p.standing) : (s.updProduce n f).producer = s.producer.upd n g := by
  refine Producer.ext (funext fun m => ?_) rfl rfl rfl rfl rfl
  simp only [State.producer, Producer.upd, Producer.put, State.updProduce_produce, Function.update_apply]
  split
  · cases s.produce n <;> simp [h]
  · rfl

theorem upd_id (v : Producer) (n : Nat) : v.upd n id = v := by
  rw [Producer.upd, Option.map_id, id, Producer.put, Function.update_eq_self]

/-- A change that no entry's standing shows. -/
theorem updProduce_producer_same (n : Nat) {f : Produce → Produce} (h : ∀ p, (f p).standing = p.standing) :
    (s.updProduce n f).producer = s.producer := by
  rw [updProduce_producer s n id h, upd_id]

theorem removeEntry_producer (n : Nat) : (s.removeEntry n).producer = s.producer.put n none := by
  have hc := removeEntry_changesOnly s n
  refine Producer.ext (funext fun m => ?_) ?_ ?_ (hc .pubQueue (by decide)) ?_ ?_
  · simp only [State.producer, Producer.put, removeEntry_produce, Function.update_apply]
    split <;> rfl
  · simp only [State.producer, Producer.put, show (s.removeEntry n).ownership = _ from hc .ownership (by decide)]
  · simp only [State.producer, Producer.put, show (s.removeEntry n).ownership = _ from hc .ownership (by decide)]
  · simp only [State.producer, Producer.put, show (s.removeEntry n).contention = _ from hc .contention (by decide)]
  · simp only [State.producer, Producer.put, show (s.removeEntry n).contention = _ from hc .contention (by decide)]

theorem putSlot_producer (k : Fin 4) (x : Option ClaimSlot) :
    (s.putSlot k x).producer = s.producer.setSlot k (x.map ClaimSlot.object) := by
  refine Producer.ext rfl (funext fun j => ?_) rfl rfl rfl rfl
  simp only [State.producer, Producer.setSlot, State.putSlot, setOwnership_ownership, set_get, Function.update_apply]
  split <;> rfl

theorem entries_of_produce {s : State} {n : Nat} {p : Produce} (h : s.produce n = some p) :
    s.producer.entries n = some p.standing := congrArg (Option.map Produce.standing) h

theorem produce_of_entries {s : State} {n : Nat} {x : Standing} (h : s.producer.entries n = some x) :
    ∃ p, s.produce n = some p ∧ p.standing = x := Option.map_eq_some_iff.mp h

/-- The end of a claim's slot, once the entry is gone or replaced (R52). -/
theorem releaseSlot_producer {n : Nat} {p : Produce} {k : Fin 4} (hp : s.produce n = some p) (hk : p.claimSlot = some k) :
    (s.releaseSlot n).producer =
      (s.producer.setSlot k none).put n (some { p.standing with claimSlot := none }) := by
  have hslot : s.releaseSlot n = (s.putSlot k none).updProduce n (fun p => { p with claimSlot := none }) := by
    rw [State.releaseSlot, hp, Option.bind_some, hk]
  rw [hslot, updProduce_producer _ n (fun x => { x with claimSlot := none }) (fun _ => rfl), putSlot_producer]
  exact upd_of_some _ (entries_of_produce (s := s) hp)

/-- The end of a claim's slot leaves the queue, the frames and every other field of the entry. -/
theorem releaseSlot_cases (n : Nat) : (s.releaseSlot n).producer = s.producer ∨
    ∃ k, (s.releaseSlot n).producer = (s.producer.setSlot k none).upd n (fun x => { x with claimSlot := none }) := by
  unfold State.releaseSlot
  split
  · exact .inl rfl
  · next k _ =>
    refine .inr ⟨k, ?_⟩
    rw [updProduce_producer _ n (fun x => { x with claimSlot := none }) (fun _ => rfl), putSlot_producer]
    rfl

/-! ### Control frames -/

theorem noteQueued_producer (f : CtlFrame) : (s.noteQueued f).producer =
    match f.released with
    | none => s.producer
    | some n => s.producer.upd n (fun x => { x with releaseQueued := true }) := by
  cases f with
  | relinquish n => exact updProduce_producer s n _ (fun _ => rfl)
  | claim _ => rfl
  | dispute _ => rfl
  | pull _ => rfl
  | hold _ => rfl

theorem placeCommand_producer (f : CtlFrame) : (s.placeCommand f).producer =
    match f.released with
    | none => s.producer
    | some n => s.producer.upd n (fun x => { x with releaseQueued := true }) := by
  rw [State.placeCommand, noteQueued_producer, setContention_producer s (by rfl) (by rfl)]

theorem moveWaiting_moves : s.producer.Moves s.moveWaiting.producer := by
  unfold State.moveWaiting
  split
  · exact .refl _
  · next f rest hw =>
    rw [placeCommand_producer]
    have hwait : s.producer.waiting = f.released.toList ++ rest.filterMap CtlFrame.released := by
      rw [State.producer, hw, List.filterMap_cons]
      cases f.released <;> rfl
    cases hf : f.released with
    | none =>
      rw [hf] at hwait
      have : (s.setOwnership { s.ownership with waitList := rest }).producer = s.producer :=
        Producer.ext rfl rfl hwait.symm rfl rfl rfl
      rw [this]
      exact .refl _
    | some n =>
      rw [hf] at hwait
      exact .move hwait (.refl _)

theorem placeFreed_moves (f : CtlFrame) : s.producer.Moves (s.placeFreed f).producer := by
  unfold State.placeFreed
  split
  · exact moveWaiting_moves s
  · unfold Contention.placePendingHold
    split <;> exact .refl _

theorem leaveIdle_producer : s.leaveIdle.producer = s.producer := by
  unfold State.leaveIdle
  split
  · next h =>
    refine setContention_producer s rfl ?_
    rw [h.1]
    dsimp only
    split <;> simp
  · rfl

/-- A control frame that is discarded leaves no record (R128). -/
theorem withdrawInHand_producer (f : CtlFrame) : (s.withdrawInHand f).producer = s.producer := by
  unfold State.withdrawInHand
  split
  · next g w hi =>
    have hnone : s.contention.records = [] := by rw [Contention.records, hi]
    split
    · split
      · exact setContention_producer s hnone.symm .rfl
      · next hs =>
        rw [State.discardInHand, leaveIdle_producer]
        exact setContention_producer s hnone.symm (by simp [Contention.dropInHand, hs])
    · rfl
  · rfl
  · rfl

/-- The withdrawal of a CLAIM or DISPUTE moves the frames that waited for its place (R131). -/
theorem withdraw_moves {f : CtlFrame} (hf : f.released = none) : s.producer.Moves (s.withdraw f).producer := by
  unfold State.withdraw
  rw [withdrawInHand_producer]
  have hkept : (s.setOwnership
      { s.ownership with waitList := s.ownership.waitList.filter (· != f) }).producer = s.producer := by
    refine Producer.ext rfl rfl ?_ rfl rfl rfl
    simp only [State.producer, setOwnership_ownership, List.filterMap_filter]
    refine List.filterMap_congr fun g _ => ?_
    by_cases hg : g = f
    · simp [hg, hf]
    · simp [hg]
  unfold State.withdrawQueued
  split
  · have := placeFreed_moves ((s.setOwnership { s.ownership with
      waitList := s.ownership.waitList.filter (· != f) }).setContention { s.contention with
      queue := s.contention.queue.erase f }) f
    rwa [setContention_producer _ (by rfl) (by rfl), hkept] at this
  · rw [hkept]
    exact .refl _

/-- A RELINQUISH frame handed on stands in the control queue or waits (R55, R72). -/
theorem handOn_producer (f : CtlFrame) :
    (s.handOn f).producer = (s.placeCommand f).producer ∨
      (s.handOn f).producer =
        { s.producer with waiting := s.producer.waiting ++ f.released.toList } := by
  unfold State.handOn
  split
  · exact .inl rfl
  · refine .inr (Producer.ext rfl rfl ?_ rfl rfl rfl)
    simp only [State.producer, setOwnership_ownership, List.filterMap_append, List.filterMap_cons, List.filterMap_nil]
    cases f.released <;> rfl

theorem handOn_claim_producer (n : Nat) : (s.handOn (.claim n)).producer = s.producer := by
  obtain h | h := handOn_producer s (.claim n)
  · rw [h, placeCommand_producer]; rfl
  · rw [h]
    exact Producer.ext rfl rfl (List.append_nil _) rfl rfl rfl

/-! ### Publication -/

theorem appendNew_producer (n : Nat) : (s.appendNew n).producer =
    ({ s.producer with queue := s.queueWith n } : Producer).upd n (fun x => { x with queued := .yes false }) := by
  rw [State.appendNew_eq]
  exact updProduce_producer _ n _ (fun _ => rfl)

theorem dequeue_producer (n : Nat) : (s.dequeue n).producer =
    ({ s.producer with queue := s.pubQueue.filter (fun it => it.object != n) } : Producer).upd n
      (fun x => { x with queued := .no }) :=
  updProduce_producer _ n _ (fun _ => rfl)

theorem stage_producer (n : Nat) (payload : List Byte) : (s.stage n payload).producer = s.producer ∨
    ∃ (p : Produce) (t : State), s.produce n = some p ∧ p.ownership = .owned ∧ t.producer = s.producer ∧
      s.stage n payload = t.appendNew n := by
  have hstaged : ((s.storePayload n payload).updProduce n
      (fun p => { p with staged := true, pending := true })).producer = s.producer := by
    rw [updProduce_producer_same _ n (fun _ => by rfl)]
    exact (storePayload_consumerSide s n payload).producer
  unfold State.stage
  dsimp only
  split
  · next h =>
    obtain ⟨p, hp, ho⟩ := Option.map_eq_some_iff.mp h
    exact .inr ⟨p, _, hp, ho, hstaged, rfl⟩
  · exact .inl hstaged

theorem PerRec.producer {F : State → TxRecord → State} {H : TxRecord → Produce → Produce} (h : PerRec F H)
    {G : TxRecord → Standing → Standing} (hG : ∀ r p, (H r p).standing = G r p.standing) {l : List TxRecord}
    (hn : (l.map TxRecord.object).Nodup) : (l.foldl F s).producer =
      { s.producer with entries := fun n => (s.producer.entries n).map (perRecord l G n) } := by
  obtain ⟨hother, hown, hc⟩ := h.fold l s
  refine Producer.ext (funext fun n => ?_) ?_ ?_ (hc .pubQueue (by decide)) ?_ ?_
  · obtain ⟨hno, hid⟩ | ⟨r, hr, rfl, hrec⟩ := perRecord_cases l G n
    · simp only [State.producer, State.produce, hother n hno, hid, Option.map_id, id]
    · simp only [State.producer, State.produce, hown hn r hr, hrec]
      cases he : s.entry r.object with
      | none => rfl
      | some e =>
        obtain ⟨o, line, role, owed⟩ := e
        cases role <;> simp [Entry.mapProduce, Entry.produce, hG]
  · simp only [State.producer, show (l.foldl F s).ownership = _ from hc .ownership (by decide)]
  · simp only [State.producer, show (l.foldl F s).ownership = _ from hc .ownership (by decide)]
  · simp only [State.producer, show (l.foldl F s).contention = _ from hc .contention (by decide)]
  · simp only [State.producer, show (l.foldl F s).contention = _ from hc .contention (by decide)]

theorem standing_ended {f : TxRecord → Produce → Produce}
    (hf : ∀ r p, (f r p).standing = { p.standing with inFlight := .no }) (r : TxRecord) (p : Produce) :
    (if p.marks r = true then f r p else p).standing = p.standing.ended r := by
  rw [Standing.ended, standing_marks]
  split
  · exact hf r p
  · rfl

theorem commitRecords_producer {l : List TxRecord} (hn : (l.map TxRecord.object).Nodup) :
    (l.foldl State.commitRecord s).producer =
      { s.producer with entries := fun n => (s.producer.entries n).map (perRecord l Standing.ended n) } :=
  commit_perRec.producer s (standing_ended fun _ _ => rfl) hn

theorem unsendRecords_producer {l : List TxRecord} (hn : (l.map TxRecord.object).Nodup) :
    (l.foldl State.unsend s).producer =
      { s.producer with entries := fun n => (s.producer.entries n).map (perRecord l Standing.ended n) } :=
  unsend_perRec.producer s (standing_ended fun _ _ => rfl) hn

theorem bundleRecords_producer {l : List TxRecord} (hn : (l.map TxRecord.object).Nodup) :
    (l.foldl (fun t r => t.updProduce r.object (Produce.bundled r)) s).producer =
      { s.producer with entries := fun n => (s.producer.entries n).map (perRecord l Standing.bundled n) } :=
  bundle_perRec.producer s (fun _ _ => rfl) hn

/-- The items that the records of an abandoned frame become (R90). -/
def State.backItems (s : State) (l : List TxRecord) : List PubItem :=
  (l.filter s.returns).map (fun r => { object := r.object, rep := r.rep : PubItem })

theorem returnRecords_producer {l : List TxRecord} (hn : (l.map TxRecord.object).Nodup) :
    (s.returnRecords l).producer =
      { s.producer with
        entries := fun n => (s.producer.entries n).map (perRecord l Standing.returned n)
        queue := s.backItems l ++ s.pubQueue } := by
  refine (return_perRec.producer (G := Standing.returned) (s.setPubQueue (s.backItems l ++ s.pubQueue))
    (fun r p => ?_) hn).trans rfl
  rw [Standing.returned, standing_marks]
  split <;> rfl

theorem keeps_iff (r : TxRecord) : s.keeps r = true ↔
    ∃ x, s.producer.entries r.object = some x ∧ x.marks r = true ∧ x.ownership = .owned := by
  unfold State.keeps State.reached
  cases hp : s.produce r.object with
  | none => simp [State.producer, hp]
  | some p =>
    by_cases hm : p.marks r = true <;> simp [State.producer, hp, hm]

theorem returns_iff (r : TxRecord) : s.returns r = true ↔
    ∃ x, s.producer.entries r.object = some x ∧ x.marks r = true ∧ x.ownership = .owned ∧ x.queued = .no := by
  unfold State.returns State.reached
  cases hp : s.produce r.object with
  | none => simp [State.producer, hp]
  | some p =>
    by_cases hm : p.marks r = true <;> simp [State.producer, hp, hm]

end Operations

end Sys2Proof.Machine
end

section
/-! PROOF. The invariants about publication, claims and releases, as properties of the producer alone, object by
object, and what keeps them (R4, R52, R55, R72, R76, Table 1.2). -/

namespace Sys2Proof.Machine

/-- What is queued is OWNED, once (R76). -/
structure Producer.Queues (v : Producer) : Prop where
  once : (v.queue.map PubItem.object).Nodup
  recordsOnce : (v.records.map TxRecord.object).Nodup
  owned : ∀ it ∈ v.queue, ∃ x, v.entries it.object = some x ∧ x.ownership = .owned ∧ x.queued = .yes it.rep

/-- An in-flight mark has its record in hand, and outlasts ownership only while the frame is sent (05 section 5.6). -/
def Producer.Flies (v : Producer) (n : Nat) (x : Standing) : Prop :=
  x.inFlight ≠ .no → (x.ownership = .owned ∨ v.sending = true) ∧ ∃ r ∈ v.records, r.object = n ∧ x.marks r = true

/-- The fields of an entry by its ownership state (R4, Table 1.2). -/
structure Standing.Fits (x : Standing) : Prop where
  claiming : x.ownership = .claiming → x.queued = .no ∧ x.inFlight = .no
  slotless : x.ownership ≠ .claiming → x.claimSlot = none
  tagged : x.ownership = .relinquishing → x.tagged = true
  untagged : x.ownership ≠ .relinquishing → x.tagged = false ∧ x.releaseQueued = false
  unqueued : x.ownership ≠ .owned → x.queued = .no

/-- The fields that a record does not touch. -/
structure Standing.SameClaim (x y : Standing) : Prop where
  ownership : y.ownership = x.ownership
  claimSlot : y.claimSlot = x.claimSlot
  releaseQueued : y.releaseQueued = x.releaseQueued
  tagged : y.tagged = x.tagged

/-- What slots, wait list and frames say of one object, whose entry is `o`. -/
structure Producer.Holds (v : Producer) (n : Nat) (o : Option Standing) : Prop where
  fits : ∀ x, o = some x → x.Fits
  slot : ∀ x, o = some x → x.ownership = .claiming → ∃ k, x.claimSlot = some k ∧ v.slots k = some n
  flies : ∀ x, o = some x → v.Flies n x
  named : ∀ k, v.slots k = some n → ∃ x, o = some x ∧ x.ownership = .claiming ∧ x.claimSlot = some k
  waits : n ∈ v.waiting → ∃ x, o = some x ∧ x.ownership = .relinquishing ∧ x.releaseQueued = false

/-- Entries, slots, wait list and frames keep to each other (R4, R52, R55, R72). -/
structure Producer.Claims (v : Producer) : Prop where
  waitsOnce : v.waiting.Nodup
  holds : ∀ n, v.Holds n (v.entries n)

/-! ## The invariants of the statement -/

theorem mem_records_iff (c : Contention) (r : TxRecord) :
    r ∈ c.records ↔ ∃ records, c.inHand = some (.data records) ∧ r ∈ records := by
  unfold Contention.records
  split
  · next h => simp [h]
  · next h => simpa using fun records hr => absurd hr (h records)

theorem queuedAreOwned_iff (s : State) : s.QueuedAreOwned ↔ s.producer.Queues := by
  have hrecords : (∀ records, s.contention.inHand = some (.data records) → (records.map TxRecord.object).Nodup) ↔
      (s.contention.records.map TxRecord.object).Nodup := by
    unfold Contention.records
    split
    · next h => simp [h]
    · next h => simpa using fun records hr => absurd hr (h records)
  have howned : (∀ it ∈ s.pubQueue, ∃ p, s.produce it.object = some p ∧ p.ownership = .owned ∧ p.queued = .yes it.rep) ↔
      ∀ it ∈ s.producer.queue, ∃ x, s.producer.entries it.object = some x ∧ x.ownership = .owned ∧
        x.queued = .yes it.rep := by
    simp [State.producer]
  unfold State.QueuedAreOwned
  rw [hrecords, howned]
  exact ⟨fun ⟨h1, h2, h3⟩ => ⟨h1, h2, h3⟩, fun ⟨h1, h2, h3⟩ => ⟨h1, h2, h3⟩⟩

theorem fieldsFit_iff (s : State) (n : Nat) (p : Produce) : s.FieldsFit n p ↔
    p.standing.Fits ∧
      (p.ownership = .claiming → ∃ k, p.claimSlot = some k ∧ s.producer.slots k = some n) ∧
      s.producer.Flies n p.standing := by
  have hslot : (∃ k slot, p.claimSlot = some k ∧ s.ownership.slots.get k = some slot ∧ slot.object = n) ↔
      ∃ k, p.claimSlot = some k ∧ s.producer.slots k = some n := by
    simp [State.producer]
  have hflies : (∃ records r, s.contention.inHand = some (.data records) ∧ r ∈ records ∧ r.object = n
      ∧ p.marks r = true) ↔ ∃ r ∈ s.producer.records, r.object = n ∧ p.standing.marks r = true := by
    simp only [State.producer, mem_records_iff, standing_marks]
    tauto
  have hsending : s.contention.state = .sending ↔ s.producer.sending = true := by simp [State.producer]
  have htag : p.releaseTag ≠ none ↔ p.standing.tagged = true := by simp [Option.isSome_iff_ne_none]
  have hnotag : p.releaseTag = none ↔ p.standing.tagged = false := by simp
  unfold State.FieldsFit
  rw [hslot, hflies, hsending, htag, hnotag]
  constructor
  · rintro ⟨hc, hs, ht, hu, hq, hf⟩
    exact ⟨⟨fun h => ⟨(hc h).1, (hc h).2.1⟩, hs, ht, hu, hq⟩, fun h => (hc h).2.2, hf⟩
  · rintro ⟨⟨hc, hs, ht, hu, hq⟩, hk, hf⟩
    exact ⟨fun h => ⟨(hc h).1, (hc h).2, hk h⟩, hs, ht, hu, hq, hf⟩

theorem waitList_count (l : List CtlFrame) :
    (∀ n, l.count (.relinquish n) ≤ 1) ↔ (l.filterMap CtlFrame.released).Nodup := by
  rw [List.nodup_iff_count_le_one]
  refine forall_congr' fun n => ?_
  suffices h : l.count (.relinquish n) = (l.filterMap CtlFrame.released).count n by rw [h]
  induction l with
  | nil => rfl
  | cons f l ih =>
    rw [List.count_cons, List.filterMap_cons, ih]
    cases f <;> simp [CtlFrame.released, List.count_cons]

theorem mem_waitList (l : List CtlFrame) (n : Nat) : .relinquish n ∈ l ↔ n ∈ l.filterMap CtlFrame.released := by
  rw [List.mem_filterMap]
  constructor
  · exact fun h => ⟨_, h, rfl⟩
  · rintro ⟨f, hf, h⟩
    cases f <;> simp_all [CtlFrame.released]

theorem claimsHold_iff (s : State) : s.ClaimsHold ↔ s.producer.Claims := by
  unfold State.ClaimsHold
  constructor
  · rintro ⟨hfit, hslots, hwait⟩
    refine ⟨(waitList_count _).mp fun n => (hwait n).1, fun n => ⟨?_, ?_, ?_, ?_, ?_⟩⟩
    · intro x hx
      obtain ⟨p, hp, rfl⟩ := produce_of_entries hx
      exact ((fieldsFit_iff s n p).mp (hfit n p hp)).1
    · intro x hx
      obtain ⟨p, hp, rfl⟩ := produce_of_entries hx
      exact ((fieldsFit_iff s n p).mp (hfit n p hp)).2.1
    · intro x hx
      obtain ⟨p, hp, rfl⟩ := produce_of_entries hx
      exact ((fieldsFit_iff s n p).mp (hfit n p hp)).2.2
    · intro k hk
      obtain ⟨slot, hslot, rfl⟩ := Option.map_eq_some_iff.mp hk
      obtain ⟨p, hp, ho, hc⟩ := hslots k slot hslot
      exact ⟨p.standing, entries_of_produce hp, ho, hc⟩
    · intro hn
      obtain ⟨p, hp, ho, hq⟩ := (hwait n).2 ((mem_waitList _ n).mpr hn)
      exact ⟨p.standing, entries_of_produce hp, ho, hq⟩
  · rintro ⟨hwait, hholds⟩
    refine ⟨fun n p hp => ?_, fun k slot hslot => ?_, fun n => ⟨(waitList_count _).mpr hwait n, fun hn => ?_⟩⟩
    · have hx := entries_of_produce hp
      exact (fieldsFit_iff s n p).mpr ⟨(hholds n).fits _ hx, (hholds n).slot _ hx, (hholds n).flies _ hx⟩
    · obtain ⟨x, hx, ho, hc⟩ := (hholds slot.object).named k (congrArg (Option.map ClaimSlot.object) hslot)
      obtain ⟨p, hp, rfl⟩ := produce_of_entries hx
      exact ⟨p, hp, ho, hc⟩
    · obtain ⟨x, hx, ho, hq⟩ := (hholds n).waits ((mem_waitList _ n).mp hn)
      obtain ⟨p, hp, rfl⟩ := produce_of_entries hx
      exact ⟨p, hp, ho, hq⟩

/-! ## What keeps the queue -/

namespace Producer.Queues
variable {v w : Producer} (h : v.Queues)
include h

theorem congr (hq : w.queue = v.queue) (hr : w.records.Sublist v.records)
    (he : ∀ n x, v.entries n = some x → x.ownership = .owned →
      ∃ y, w.entries n = some y ∧ y.ownership = .owned ∧ (x.queued ≠ .no → y.queued = x.queued)) : w.Queues := by
  refine ⟨hq ▸ h.once, h.recordsOnce.sublist (hr.map _), fun it hit => ?_⟩
  obtain ⟨x, hx, ho, hqd⟩ := h.owned it (hq ▸ hit)
  obtain ⟨y, hy, hyo, hyq⟩ := he _ x hx ho
  exact ⟨y, hy, hyo, (hyq (by simp [hqd])).trans hqd⟩

theorem not_queued {n : Nat} {x : Standing} (hx : v.entries n = some x)
    (ho : x.ownership ≠ .owned ∨ x.queued = .no) : ∀ it ∈ v.queue, it.object ≠ n := by
  rintro it hit rfl
  obtain ⟨y, hy, hyo, hyq⟩ := h.owned it hit
  obtain rfl : y = x := Option.some.inj (hy.symm.trans hx)
  obtain ho | ho := ho
  · exact ho hyo
  · rw [ho] at hyq; cases hyq

theorem not_queued_of_none {n : Nat} (hx : v.entries n = none) : ∀ it ∈ v.queue, it.object ≠ n := by
  rintro it hit rfl
  obtain ⟨y, hy, -⟩ := h.owned it hit
  rw [hx] at hy
  cases hy

/-- An entry that is not queued may become anything, or go. -/
theorem put {n : Nat} (hn : ∀ it ∈ v.queue, it.object ≠ n) (o : Option Standing) : (v.put n o).Queues := by
  refine ⟨h.once, h.recordsOnce, fun it hit => ?_⟩
  obtain ⟨x, hx, hxo⟩ := h.owned it hit
  exact ⟨x, (put_entries_of_ne v o (hn it hit)).trans hx, hxo⟩

/-- A change that keeps the entry's ownership and queued field. -/
theorem upd {g : Standing → Standing} (ho : ∀ x, (g x).ownership = x.ownership) (hq : ∀ x, (g x).queued = x.queued)
    (n : Nat) : (v.upd n g).Queues := by
  refine h.congr rfl (.refl _) fun m x hx hxo => ?_
  by_cases hm : m = n
  · subst hm
    exact ⟨g x, by rw [upd_entries_same, hx]; rfl, (ho x).trans hxo, fun _ => hq x⟩
  · exact ⟨x, (upd_entries_of_ne v g hm).trans hx, hxo, fun _ => rfl⟩

theorem moves (hw : v.Moves w) : w.Queues := by
  induction hw with
  | refl => exact h
  | @move v w n rest hwait _ ih =>
    have hrest : ({ v with waiting := rest } : Producer).Queues := ⟨h.once, h.recordsOnce, h.owned⟩
    exact ih (hrest.upd (g := fun x => { x with releaseQueued := true }) (fun _ => rfl) (fun _ => rfl) n)

theorem setSlot (k : Fin 4) (o : Option Nat) : (v.setSlot k o).Queues := ⟨h.once, h.recordsOnce, h.owned⟩

theorem dropped : v.dropped.Queues := ⟨h.once, List.nodup_nil, h.owned⟩

theorem ofRecords (G : TxRecord → Standing → Standing) (l : List TxRecord)
    (ho : ∀ r x, (G r x).ownership = x.ownership) (hq : ∀ r x, (G r x).queued = x.queued) :
    ({ v with entries := fun n => (v.entries n).map (perRecord l G n) } : Producer).Queues := by
  refine h.congr rfl (.refl _) fun n x hx hxo => ⟨perRecord l G n x, congrArg (Option.map _) hx, ?_⟩
  obtain ⟨-, hid⟩ | ⟨r, -, -, hr⟩ := perRecord_cases l G n
  · rw [hid]
    exact ⟨hxo, fun _ => rfl⟩
  · rw [hr]
    exact ⟨(ho r x).trans hxo, fun _ => hq r x⟩

end Producer.Queues

/-! ## What keeps the claims -/

/-- What slots, wait list and frames say of an object does not depend on the other entries. -/
theorem Producer.Holds.congr {v w : Producer} {n : Nat} {o : Option Standing} (h : v.Holds n o)
    (hs : w.slots = v.slots) (hw : w.waiting = v.waiting) (hf : ∀ x, o = some x → w.Flies n x) : w.Holds n o :=
  ⟨h.fits, fun x hx ho => by rw [hs]; exact h.slot x hx ho, hf, fun k hk => h.named k (by rw [← hs]; exact hk),
    fun hn => h.waits (by rw [← hw]; exact hn)⟩

namespace Producer.Claims
variable {v w : Producer} (h : v.Claims)
include h

theorem of_eq (he : w.entries = v.entries) (hs : w.slots = v.slots) (hw : w.waiting = v.waiting)
    (hr : w.records = v.records) (hx : w.sending = v.sending) : w.Claims := by
  refine ⟨hw ▸ h.waitsOnce, fun n => ?_⟩
  rw [he]
  exact (h.holds n).congr hs hw (fun x hxe => by rw [Flies, hr, hx]; exact (h.holds n).flies x hxe)

/-- One entry replaced by what the rest says it may be. -/
theorem put {n : Nat} {o : Option Standing} (ho : v.Holds n o) : (v.put n o).Claims := by
  refine ⟨h.waitsOnce, fun m => ?_⟩
  by_cases hm : m = n
  · subst hm
    rw [put_entries_same]
    exact ho.congr rfl rfl ho.flies
  · rw [put_entries_of_ne v o hm]
    exact (h.holds m).congr rfl rfl (h.holds m).flies

theorem not_named {n : Nat} {x : Standing} (hx : v.entries n = some x) (ho : x.ownership ≠ .claiming) (k : Fin 4) :
    v.slots k ≠ some n := fun hk => by
  obtain ⟨y, hy, hyo, -⟩ := (h.holds n).named k hk
  obtain rfl : y = x := Option.some.inj (hy.symm.trans hx)
  exact ho hyo

theorem not_waiting {n : Nat} {x : Standing} (hx : v.entries n = some x)
    (ho : x.ownership ≠ .relinquishing ∨ x.releaseQueued = true) : n ∉ v.waiting := fun hn => by
  obtain ⟨y, hy, hyo, hyq⟩ := (h.holds n).waits hn
  obtain rfl : y = x := Option.some.inj (hy.symm.trans hx)
  obtain ho | ho := ho
  · exact ho hyo
  · rw [ho] at hyq; cases hyq

/-- An entry that no slot and no waiting frame names may become any that fits. -/
theorem putFree {n : Nat} (hslot : ∀ k, v.slots k ≠ some n) (hwait : n ∉ v.waiting) {o : Option Standing}
    (ho : ∀ x, o = some x → x.Fits ∧ x.ownership ≠ .claiming ∧ v.Flies n x) : (v.put n o).Claims :=
  h.put ⟨fun x hx => (ho x hx).1, fun x hx hc => absurd hc (ho x hx).2.1, fun x hx => (ho x hx).2.2,
    fun k hk => absurd hk (hslot k), fun hn => absurd hn hwait⟩

/-- The removal of an entry that is neither CLAIMING nor waits for its release. -/
theorem remove {n : Nat} {x : Standing} (hx : v.entries n = some x) (hc : x.ownership ≠ .claiming)
    (hr : x.ownership ≠ .relinquishing ∨ x.releaseQueued = true) : (v.put n none).Claims :=
  h.putFree (h.not_named hx hc) (h.not_waiting hx hr) (fun _ hy => by cases hy)

/-- The head of the wait list moves into the control queue (R55, R72). -/
theorem moves (hw : v.Moves w) : w.Claims := by
  induction hw with
  | refl => exact h
  | @move v w n rest hwait _ ih =>
    obtain ⟨hnot, honce⟩ := List.nodup_cons.mp (hwait ▸ h.waitsOnce)
    obtain ⟨x, hx, ho, -⟩ := (h.holds n).waits (by rw [hwait]; exact List.mem_cons_self)
    have hfit := (h.holds n).fits x hx
    have hrest : ({ v with waiting := rest } : Producer).Claims :=
      ⟨honce, fun m => ⟨(h.holds m).fits, (h.holds m).slot, (h.holds m).flies, (h.holds m).named,
        fun hm => (h.holds m).waits (by rw [hwait]; exact List.mem_cons_of_mem _ hm)⟩⟩
    refine ih ?_
    rw [upd_of_some (v := { v with waiting := rest }) _ hx]
    refine hrest.putFree (h.not_named hx (by simp [ho])) hnot fun y hy => ?_
    cases hy
    exact ⟨⟨fun hc => hfit.claiming hc, hfit.slotless, hfit.tagged, fun hc => absurd ho hc, hfit.unqueued⟩,
      by simp [ho], (h.holds n).flies x hx⟩

/-- A move leaves the entries that are not RELINQUISHING. -/
theorem moves_entry (hw : v.Moves w) {n : Nat} {x : Standing} (hx : v.entries n = some x)
    (ho : x.ownership ≠ .relinquishing) : w.entries n = some x := by
  induction hw with
  | refl => exact hx
  | @move v w m rest hwait hmoves ih =>
    have hmoved := h.moves (w := ({ v with waiting := rest }).upd m (fun x => { x with releaseQueued := true }))
      (.move hwait (.refl _))
    have hm : n ≠ m := fun hm => h.not_waiting hx (.inl ho) (by rw [hwait, hm]; exact List.mem_cons_self)
    exact ih hmoved ((upd_entries_of_ne _ _ hm).trans hx)

/-- The end of a claim: its slot is free and its entry gone (R52). -/
theorem endClaim {n : Nat} {x : Standing} {k : Fin 4} (hx : v.entries n = some x) (ho : x.ownership = .claiming)
    (hk : x.claimSlot = some k) : ((v.setSlot k none).put n none).Claims := by
  have hnamed : v.slots k = some n := by
    obtain ⟨j, hj, hn⟩ := (h.holds n).slot x hx ho
    obtain rfl : j = k := Option.some.inj (hj.symm.trans hk)
    exact hn
  have hother : ∀ m, m ≠ n → (v.setSlot k none).Holds m (v.entries m) := fun m hm =>
    ⟨(h.holds m).fits, fun y hy hc => by
      obtain ⟨j, hj, hjm⟩ := (h.holds m).slot y hy hc
      have hjk : j ≠ k := by
        rintro rfl
        exact hm (Option.some.inj (hjm.symm.trans hnamed))
      exact ⟨j, hj, (setSlot_slots_of_ne v none hjk).trans hjm⟩, (h.holds m).flies,
    fun j hj => by
      by_cases hjk : j = k
      · rw [hjk, setSlot_slots_same] at hj; cases hj
      · exact (h.holds m).named j ((setSlot_slots_of_ne v none hjk).symm.trans hj), (h.holds m).waits⟩
  refine ⟨h.waitsOnce, fun m => ?_⟩
  by_cases hm : m = n
  · subst hm
    rw [put_entries_same]
    refine ⟨nofun, nofun, nofun, fun j hj => ?_, fun hn => ?_⟩
    · rw [put_slots] at hj
      by_cases hjk : j = k
      · rw [hjk, setSlot_slots_same] at hj; cases hj
      · obtain ⟨y, hy, -, hyk⟩ := (h.holds m).named j ((setSlot_slots_of_ne v none hjk).symm.trans hj)
        obtain rfl : y = x := Option.some.inj (hy.symm.trans hx)
        exact absurd (Option.some.inj (hyk.symm.trans hk)) hjk
    · exact absurd hn (h.not_waiting hx (.inl (by simp [ho])))
  · rw [put_entries_of_ne _ _ hm]
    exact (hother m hm).congr rfl rfl (hother m hm).flies

/-- A claim takes a free slot for an entry that is new or was DEPOSED (R52, R54). -/
theorem openClaim {n : Nat} {k : Fin 4} (hk : v.slots k = none)
    (hx : ∀ x, v.entries n = some x → x.ownership = .deposed) {y : Standing} (hy : y.Fits)
    (ho : y.ownership = .claiming) (hyk : y.claimSlot = some k) :
    ((v.setSlot k (some n)).put n (some y)).Claims := by
  have hwait : n ∉ v.waiting := fun hn => by
    obtain ⟨x, hxn, hxo, -⟩ := (h.holds n).waits hn
    rw [hx x hxn] at hxo
    cases hxo
  have hnamed : ∀ j, v.slots j ≠ some n := fun j hj => by
    obtain ⟨x, hxn, hxo, -⟩ := (h.holds n).named j hj
    rw [hx x hxn] at hxo
    cases hxo
  have hslots : ∀ j m, (v.setSlot k (some n)).slots j = some m ↔ (j = k ∧ m = n) ∨ (j ≠ k ∧ v.slots j = some m) := by
    intro j m
    by_cases hjk : j = k
    · simp [hjk, eq_comm]
    · simp [hjk, setSlot_slots_of_ne v (some n) hjk]
  refine ⟨h.waitsOnce, fun m => ?_⟩
  by_cases hm : m = n
  · subst hm
    rw [put_entries_same]
    refine ⟨?_, ?_, ?_, fun j hj => ?_, fun hn => absurd hn hwait⟩
    · rintro x ⟨⟩; exact hy
    · rintro x ⟨⟩ -; exact ⟨k, hyk, (hslots k m).mpr (.inl ⟨rfl, rfl⟩)⟩
    · rintro x ⟨⟩ hf; exact absurd (hy.claiming ho).2 hf
    · obtain ⟨rfl, -⟩ | ⟨-, hj⟩ := (hslots j m).mp hj
      · exact ⟨y, rfl, ho, hyk⟩
      · exact absurd hj (hnamed j)
  · have hold : (v.setSlot k (some n)).Holds m (v.entries m) := by
      refine ⟨(h.holds m).fits, fun x hxm hxo => ?_, (h.holds m).flies, fun j hj => ?_, (h.holds m).waits⟩
      · obtain ⟨j, hj, hjm⟩ := (h.holds m).slot x hxm hxo
        have hjk : j ≠ k := by
          rintro rfl
          rw [hk] at hjm
          cases hjm
        exact ⟨j, hj, (hslots j m).mpr (.inr ⟨hjk, hjm⟩)⟩
      · obtain ⟨-, hmn⟩ | ⟨-, hj⟩ := (hslots j m).mp hj
        · exact absurd hmn hm
        · exact (h.holds m).named j hj
    rw [put_entries_of_ne _ _ hm]
    exact hold.congr rfl rfl hold.flies

/-- The RELINQUISH frame of a new release is handed on (R55, R72). -/
theorem wait {n : Nat} {x : Standing} (hx : v.entries n = some x) (ho : x.ownership = .relinquishing)
    (hq : x.releaseQueued = false) (hn : n ∉ v.waiting) :
    ({ v with waiting := v.waiting ++ [n] } : Producer).Claims := by
  refine ⟨by simpa [List.nodup_append] using ⟨h.waitsOnce, fun a ha hae => hn (hae ▸ ha)⟩, fun m => ?_⟩
  refine ⟨(h.holds m).fits, (h.holds m).slot, (h.holds m).flies, (h.holds m).named, fun hm => ?_⟩
  obtain hm | hm := List.mem_append.mp hm
  · exact (h.holds m).waits hm
  · obtain rfl := List.mem_singleton.mp hm
    exact ⟨x, hx, ho, hq⟩

/-- The records change the in-flight marks and the queued fields of OWNED entries alone. -/
theorem reflown {f : Nat → Standing → Standing} (he : ∀ n, w.entries n = (v.entries n).map (f n))
    (hs : w.slots = v.slots) (hw : w.waiting = v.waiting)
    (hsame : ∀ n (x : Standing), x.SameClaim (f n x))
    (hq : ∀ n x, v.entries n = some x → x.ownership ≠ .owned → x.queued = .no → (f n x).queued = .no)
    (hc : ∀ n x, v.entries n = some x → x.ownership = .claiming → x.inFlight = .no → (f n x).inFlight = .no)
    (hf : ∀ n x, v.entries n = some x → w.Flies n (f n x)) : w.Claims := by
  refine ⟨hw ▸ h.waitsOnce, fun n => ?_⟩
  have hold := h.holds n
  have hown := fun n x => (hsame n x).ownership
  have hslot := fun n x => (hsame n x).claimSlot
  have hrel := fun n x => (hsame n x).releaseQueued
  have hentry : ∀ y, w.entries n = some y → ∃ x, v.entries n = some x ∧ f n x = y := fun y hy =>
    Option.map_eq_some_iff.mp ((he n).symm.trans hy)
  refine ⟨fun y hy => ?_, fun y hy ho => ?_, fun y hy => ?_, fun k hk => ?_, fun hn => ?_⟩
  · obtain ⟨x, hx, rfl⟩ := hentry y hy
    have hfit := hold.fits x hx
    refine ⟨fun ho => ?_, ?_, ?_, ?_, fun ho => ?_⟩
    · rw [hown] at ho
      exact ⟨hq n x hx (by simp [ho]) (hfit.claiming ho).1, hc n x hx ho (hfit.claiming ho).2⟩
    · rw [hown, hslot]; exact hfit.slotless
    · rw [hown, (hsame n x).tagged]; exact hfit.tagged
    · rw [hown, (hsame n x).tagged, hrel]; exact hfit.untagged
    · rw [hown] at ho; exact hq n x hx ho (hfit.unqueued ho)
  · obtain ⟨x, hx, rfl⟩ := hentry y hy
    rw [hslot, hs]
    exact hold.slot x hx (by rw [← hown n x]; exact ho)
  · obtain ⟨x, hx, rfl⟩ := hentry y hy
    exact hf n x hx
  · obtain ⟨x, hx, ho, hxk⟩ := hold.named k (by rw [← hs]; exact hk)
    exact ⟨f n x, by rw [he, hx]; rfl, (hown n x).trans ho, (hslot n x).trans hxk⟩
  · obtain ⟨x, hx, ho, hxq⟩ := hold.waits (by rw [← hw]; exact hn)
    exact ⟨f n x, by rw [he, hx]; rfl, (hown n x).trans ho, (hrel n x).trans hxq⟩

/-- Where nothing is in flight the frame in hand does not matter. -/
theorem grounded (hg : ∀ n x, v.entries n = some x → x.inFlight = .no) (he : w.entries = v.entries)
    (hs : w.slots = v.slots) (hw : w.waiting = v.waiting) : w.Claims := by
  refine ⟨hw ▸ h.waitsOnce, fun n => ?_⟩
  rw [he]
  exact (h.holds n).congr hs hw (fun x hx hne => absurd (hg n x hx) hne)

/-- Without records nothing is in flight. -/
theorem grounded_of_noRecords (hr : v.records = []) : ∀ n x, v.entries n = some x → x.inFlight = .no := by
  intro n x hx
  by_contra hne
  obtain ⟨-, r, hmem, -⟩ := (h.holds n).flies x hx hne
  rw [hr] at hmem
  cases hmem

/-- A frame begins to be sent (R123). -/
theorem sends : ({ v with sending := true } : Producer).Claims :=
  ⟨h.waitsOnce, fun n => (h.holds n).congr rfl rfl (fun x hx hne => ⟨.inr rfl, ((h.holds n).flies x hx hne).2⟩)⟩

end Producer.Claims

end Sys2Proof.Machine
end

section
/-! PROOF. What each happening of the commands does to the producer, and what a property of the producer needs so that
every step keeps it. -/

namespace Sys2Proof.Machine

/-! ## Happenings that the producer does not show -/

theorem State.ChangesOnly.producer {s t : State} {l : List Block} (h : s.ChangesOnly t l)
    (hd : .directory ∉ l) (ho : .ownership ∉ l) (hq : .pubQueue ∉ l) (hc : .contention ∉ l) :
    t.producer = s.producer := by
  have hdir : t.directory = s.directory := h .directory hd
  have hown : t.ownership = s.ownership := h .ownership ho
  have hpub : t.pubQueue = s.pubQueue := h .pubQueue hq
  have hct : t.contention = s.contention := h .contention hc
  simp [State.producer, State.produce, State.entry, hdir, hown, hpub, hct]

theorem setOwnership_producer {s : State} {x : OwnershipUnit} (hs : SameButPhases s.ownership.slots x.slots)
    (hw : x.waitList = s.ownership.waitList) : (s.setOwnership x).producer = s.producer :=
  Producer.ext rfl (funext hs) (congrArg (List.filterMap CtlFrame.released) hw) rfl rfl rfl

/-- Entries whose standings stay. -/
theorem mapEntries_producer {s : State} {g : Entry → Entry} (ho : ∀ e : Entry, (g e).object = e.object)
    (hg : ∀ e : Entry, (g e).produce.map Produce.standing = e.produce.map Produce.standing) :
    (s.setDirectory (s.directory.map g)).producer = s.producer := by
  refine Producer.ext (funext fun n => ?_) rfl rfl rfl rfl rfl
  have hentry : (s.setDirectory (s.directory.map g)).entry n = (s.entry n).map g := lookup_map s.directory g ho n
  simp only [State.producer, State.produce, hentry]
  cases s.entry n <;> simp [hg]

theorem Entry.SameButCounter.standing {e f : Entry} (h : e.SameButCounter f) :
    f.produce.map Produce.standing = e.produce.map Produce.standing := by
  obtain ⟨-, -, h⟩ := h
  unfold Entry.produce
  cases he : e.role <;> cases hf : f.role <;> simp only [he, hf] at h
  · rw [h]; rfl
  · rfl

theorem insertEntry_producer {s : State} {e : Entry} (he : s.entry e.object = none) :
    (s.setDirectory (insertEntry s.directory e)).producer =
      s.producer.put e.object (e.produce.map Produce.standing) := by
  refine Producer.ext (funext fun n => ?_) rfl rfl rfl rfl rfl
  have hentry : (s.setDirectory (insertEntry s.directory e)).entry n = if n = e.object then some e else s.entry n :=
    lookup_insertEntry s.directory n e he
  simp only [State.producer, State.produce, hentry, Producer.put, Function.update_apply]
  split <;> rfl

theorem put_self {v : Producer} {n : Nat} {o : Option Standing} (h : v.entries n = o) : v.put n o = v := by
  rw [← h, Producer.put, Function.update_eq_self]

theorem entries_of_none {s : State} {n : Nat} (h : s.produce n = none) : s.producer.entries n = none :=
  congrArg (Option.map Produce.standing) h

theorem dropFrame_producer (s : State) : s.dropFrame.producer = s.producer.dropped :=
  setContention_dropped s rfl nofun

theorem enterDetached_producer {s : State} (hi : s.contention.inHand = none) :
    s.enterDetached.producer = s.producer.dropped := by
  have hleft := post_consumerSide (s.setStation { s.station with life := .detached })
    (s.stationNotice .left s.own 0 s.station.keptTag)
  have hhand := (hleft.quiet rfl).trans rfl
  unfold State.enterDetached
  dsimp only
  split
  · rw [State.postHoldEnded, post_producer, setContention_dropped _ (by rw [hhand]; exact hi) (by simp), post_producer]
    rfl
  · rw [setContention_dropped _ (by rw [hhand]; exact hi) (by simp), post_producer]
    rfl

/-- The end of a happening changes nothing, or ends LEAVING with nothing in hand (R119, R146). -/
theorem settle_producer (s : State) : s.settle.producer = s.producer ∨
    (s.producer.records = [] ∧ s.settle.producer = s.producer.dropped) := by
  unfold State.settle
  split
  · next hdone =>
    simp only [State.leaveDone, Bool.and_eq_true, Option.isNone_iff_eq_none] at hdone
    obtain ⟨-, hi⟩ := hdone
    refine .inr ⟨?_, by rw [leaveIdle_producer, enterDetached_producer hi]⟩
    simp [State.producer, Contention.records, hi]
  · exact .inl (leaveIdle_producer s)

/-! ## Claims and releases -/

/-- The records of the frame in hand are none where it is a control frame or none. -/
theorem records_of_control {s : State} {f : CtlFrame} {w : Bool} (hi : s.contention.inHand = some (.control f w)) :
    s.producer.records = [] := by simp [State.producer, Contention.records, hi]

theorem records_of_none {s : State} (hi : s.contention.inHand = none) : s.producer.records = [] := by
  simp [State.producer, Contention.records, hi]

theorem records_of_data {s : State} {l : List TxRecord} (hi : s.contention.inHand = some (.data l)) :
    s.producer.records = l := by simp [State.producer, Contention.records, hi]

theorem Producer.Moves.records {v w : Producer} (h : v.Moves w) : w.records = v.records := by
  induction h with
  | refl => rfl
  | move _ _ ih => exact ih

theorem Producer.Moves.sending {v w : Producer} (h : v.Moves w) : w.sending = v.sending := by
  induction h with
  | refl => rfl
  | move _ _ ih => exact ih

/-- A release: the entry becomes RELINQUISHING, and its frame stands in the control queue or waits (R55, R72). -/
theorem beginRelease_producer (s : State) (n : Nat) (tag : Word16) :
    (s.beginRelease n tag).producer =
        s.producer.upd n (fun x => { x.release with releaseQueued := true }) ∨
      (s.beginRelease n tag).producer =
        { s.producer.upd n Standing.release with waiting := s.producer.waiting ++ [n] } := by
  have hbegun : (s.updProduce n (fun p => { p with
      ownership := .relinquishing, releaseTag := some tag, releaseQueued := false })).producer =
      s.producer.upd n Standing.release := updProduce_producer s n _ (fun _ => rfl)
  obtain h | h := handOn_producer (s.updProduce n (fun p => { p with
      ownership := .relinquishing, releaseTag := some tag, releaseQueued := false })) (.relinquish n)
  · left
    rw [State.beginRelease, h, placeCommand_producer, hbegun]
    dsimp only [CtlFrame.released]
    rw [Producer.upd, upd_entries_same, Producer.upd, put_put, Option.map_map]
    rfl
  · right
    rw [State.beginRelease, h, hbegun]
    rfl

/-- Stripping leaves a frame that is being sent, and takes an object's record from any other (R93). -/
theorem stripRecord_producer (s : State) (n : Nat) :
    ((s.stripRecord n).producer = s.producer ∧
      (s.producer.sending = true ∨ ∀ r ∈ s.producer.records, r.object ≠ n)) ∨
    (s.producer.sending = false ∧ (s.stripRecord n).producer =
      ({ s.producer with records := s.producer.records.filter (fun r => r.object != n) } : Producer).upd n
        (fun x => { x with inFlight := .no })) := by
  unfold State.stripRecord
  split
  · next records hi =>
    rw [records_of_data hi]
    split
    · next hs => exact .inl ⟨rfl, .inl (by simp [State.producer, hs])⟩
    · next hf _ => exact .inl ⟨rfl, .inr (by simpa using hf)⟩
    · next r hf hs =>
      have hnot : s.contention.state ≠ .sending := fun h => hs h
      refine .inr ⟨by simp [State.producer, hnot], ?_⟩
      rw [updProduce_producer _ n (fun x => { x with inFlight := .no }) (fun _ => rfl)]
      congr 1
      split
      · next hempty =>
        rw [State.discardInHand, leaveIdle_producer, setContention_dropped s rfl (by simp [Contention.dropInHand])]
        have hsend : s.producer.sending = false := by simp [State.producer, hnot]
        rw [Producer.dropped, ← hsend, List.isEmpty_iff.mp hempty]
      · rfl
  · next hi =>
    refine .inl ⟨rfl, .inr fun r hr => ?_⟩
    obtain ⟨records, hrecords, -⟩ := (mem_records_iff s.contention r).mp hr
    exact absurd hrecords (hi records)

theorem failClaim_eq {s : State} {n : Nat} {p : Produce} (hp : s.produce n = some p) (ho : p.ownership = .claiming) :
    (s.failClaim n).producer = ((s.releaseSlot n).withdraw (.dispute n)).producer.put n none := by
  unfold State.failClaim
  rw [hp]
  dsimp only
  rw [if_pos ho, removeEntry_producer, postOwnership_producer]

/-- The end of a RELINQUISH frame removes its entry, or nothing happens (R73). -/
theorem endRelease_producer (s : State) (n : Nat) (cause : Cause) : (s.endRelease n cause).producer = s.producer ∨
    ∃ x, s.producer.entries n = some x ∧ x.ownership = .relinquishing ∧ x.releaseQueued = true ∧
      (s.endRelease n cause).producer = s.producer.put n none := by
  unfold State.endRelease
  split
  · exact .inl rfl
  · next p hp =>
    split
    · next h =>
      exact .inr ⟨p.standing, entries_of_produce hp, h.1, h.2, by rw [removeEntry_producer, postOwnership_producer]⟩
    · exact .inl rfl

/-- The start of a claim's window changes its phase alone (R56). -/
theorem beginWindow_producer (s : State) (n : Nat) : (s.beginWindow n).producer = s.producer := by
  unfold State.beginWindow
  split
  · rfl
  · next p hp =>
    split
    · next k slot _ hk hslot =>
      split
      · rw [putSlot_producer]
        refine Producer.ext rfl (funext fun j => ?_) rfl rfl rfl rfl
        by_cases hj : j = k
        · rw [hj, setSlot_slots_same]
          rw [State.slotOf, hk, Option.bind_some] at hslot
          simp [State.producer, hslot]
        · exact setSlot_slots_of_ne _ _ hj
      · rfl
    · rfl

/-- The own hold is no part of the producer (R135). -/
theorem highMarkTest_producer (s : State) : s.highMarkTest.producer = s.producer := by
  rcases highMarkTest_cases s with h | ⟨-, -, -, h⟩
  · rw [h]
  · rw [h]
    obtain ⟨hs, hd⟩ := requestHold_state s.contention s.cfg.holdLength
    exact setContention_producer s hd.records (by rw [← hs])

theorem setOwnHold_producer (s : State) (h : OwnHold) (e : Nat) : (s.setOwnHold h e).producer = s.producer :=
  setContention_producer s rfl .rfl

theorem holdSucceeded_producer (s : State) (n : Nat) : (s.holdSucceeded n).producer = s.producer := by
  unfold State.holdSucceeded
  split
  · rw [post_producer, setOwnHold_producer]
  · rw [setOwnHold_producer]
  · split
    · rw [highMarkTest_producer, setOwnHold_producer]
    · rfl
  · rfl

theorem holdAbandoned_producer (s : State) (n : Nat) : (s.holdAbandoned n).producer = s.producer := by
  unfold State.holdAbandoned
  split
  · rw [highMarkTest_producer, setOwnHold_producer]
  · rw [highMarkTest_producer, State.postHoldEnded, post_producer, setOwnHold_producer]
  · split
    · rw [highMarkTest_producer, setOwnHold_producer]
    · rfl
  · rfl

theorem postAbandoned_producer (s : State) (l : List TxRecord) (cause : Nat) :
    (s.postAbandoned l cause).producer = s.producer := by
  unfold State.postAbandoned
  split
  · rfl
  · exact post_producer s _

/-- A claim opens in a free slot at an entry that is new or was DEPOSED (R11, R12, R54). -/
def Standing.claimed (k : Fin 4) (q : Queued) : Standing :=
  { ownership := .claiming, queued := q, inFlight := .no, claimSlot := some k, releaseQueued := false, tagged := false }

theorem freeSlot_free {slots : Vector (Option ClaimSlot) 4} {k : Fin 4} (h : freeSlot slots = some k) :
    slots.get k = none := by
  simpa using List.find?_some h

theorem claimEntry_producer {s : State} {d : Descriptor} {k : Fin 4} (hc : ∀ c ∈ s.claimChecks d, c.1 = false) :
    ∃ q, (∀ x, s.producer.entries d.object = some x → x.ownership = .deposed ∧ x.queued = q) ∧
      (s.producer.entries d.object = none → q = .no) ∧
      (s.claimEntry d k).producer = s.producer.put d.object (some (Standing.claimed k q)) := by
  simp [State.claimChecks] at hc
  obtain ⟨-, -, hcons, hdep, -, -, hline⟩ := hc
  unfold State.claimEntry
  cases he : s.entry d.object with
  | some e =>
    cases hp : s.produce d.object with
    | none =>
      have := s.consume_or_produce d.object (by simp [he])
      simp [hp, hcons] at this
    | some p =>
      have hx := entries_of_produce hp
      have ho : p.ownership = .deposed := by simpa [hp] using hdep
      refine ⟨p.queued, fun x h => ?_, fun h => ?_, ?_⟩
      · obtain rfl := Option.some.inj (hx.symm.trans h)
        exact ⟨ho, rfl⟩
      · rw [hx] at h; cases h
      · dsimp only
        rw [updProduce_producer s _ (fun x => Standing.claimed k x.queued) (fun _ => rfl), upd_of_some _ hx]
        rfl
  | none =>
    have hx : s.producer.entries d.object = none := entries_of_none (by simp [State.produce, he])
    refine ⟨.no, fun x h => (by rw [hx] at h; cases h), fun _ => rfl, ?_⟩
    dsimp only
    cases ha : s.allocate d.object true 0 d.tag with
    | none =>
      unfold State.allocate at ha
      split at ha
      · next hnone => exact absurd (hline he) (by simp [hnone])
      · cases ha
    | some a =>
      obtain ⟨w, t⟩ := a
      have hside := (allocate_consumerSide ha).producer
      have hnone : t.entry d.object = none :=
        (entry_none_iff_objects t _).mpr (by
          rw [allocate_objects s t _ _ _ _ w ha]
          exact (entry_none_iff_objects s _).mp he)
      have := insertEntry_producer (e := d.newProduce w k) hnone
      rw [hside] at this
      exact this

theorem takeClaim_producer {s : State} {d : Descriptor} (hc : ∀ c ∈ s.claimChecks d, c.1 = false) :
    ∃ k q, s.producer.slots k = none ∧
      (∀ x, s.producer.entries d.object = some x → x.ownership = .deposed ∧ x.queued = q) ∧
      (s.producer.entries d.object = none → q = .no) ∧
      (s.takeClaim d).producer =
        (s.producer.setSlot k (some d.object)).put d.object (some (Standing.claimed k q)) := by
  have hslot : (freeSlot s.ownership.slots).isSome = true := by
    simp [State.claimChecks] at hc
    obtain ⟨-, -, -, -, h, -⟩ := hc
    exact h
  obtain ⟨k, hk⟩ := Option.isSome_iff_exists.mp hslot
  obtain ⟨q, hold, hnew, hentry⟩ := claimEntry_producer (k := k) hc
  refine ⟨k, q, congrArg (Option.map ClaimSlot.object) (freeSlot_free hk), hold, hnew, ?_⟩
  unfold State.takeClaim
  rw [hk]
  dsimp only
  rw [handOn_claim_producer, putSlot_producer, hentry]
  rfl

/-- A granted claim: its slot is free and its entry OWNED; a staged value is queued (R58). -/
theorem grantClaim_producer {s : State} {k : Fin 4} {slot : ClaimSlot} {p : Produce}
    (hp : s.produce slot.object = some p) : ∃ t : State,
      t.producer = (s.producer.setSlot k none).put slot.object
        (some { p.standing with ownership := .owned, claimSlot := none }) ∧
      (s.grantClaim k slot p = t ∨ s.grantClaim k slot p = t.appendNew slot.object) := by
  refine ⟨((s.putSlot k none).updProduce slot.object (fun p =>
    { p with ownership := .owned, claimSlot := none, refreshCounter := 0 })).postOwnership slot.object .claimGranted
      s.own .ok slot.tag, ?_, ?_⟩
  · rw [postOwnership_producer, updProduce_producer _ _ (fun x =>
      { x with ownership := .owned, claimSlot := none }) (fun _ => rfl), putSlot_producer]
    exact upd_of_some _ (entries_of_produce (s := s) hp)
  · unfold State.grantClaim
    dsimp only
    split
    · exact .inr rfl
    · exact .inl rfl

/-! ## The entry to MUTED -/

/-- The teardown of one entry (R148 step 5). -/
theorem muteEntry_producer (s : State) (n : Nat) : (s.muteEntry n).producer = s.producer ∨
    (∃ p, s.produce n = some p ∧ p.ownership = .claiming ∧
      (s.muteEntry n).producer = (s.releaseSlot n).producer.put n none) ∨
    ∃ p, s.produce n = some p ∧ p.ownership ≠ .claiming ∧ (s.muteEntry n).producer = s.producer.put n none := by
  unfold State.muteEntry
  split
  · exact .inl rfl
  · next p hp =>
    split
    · next ho => exact .inr (.inl ⟨p, hp, ho, by rw [removeEntry_producer, postOwnership_producer]⟩)
    · next ho => exact .inr (.inr ⟨p, hp, ho, by rw [removeEntry_producer, postOwnership_producer]⟩)

/-- Every claim slot in use names an entry that names it. -/
def Producer.Named (v : Producer) : Prop :=
  ∀ k n, v.slots k = some n → ∃ x, v.entries n = some x ∧ x.ownership = .claiming ∧ x.claimSlot = some k

theorem Producer.Claims.slotsNamed {v : Producer} (h : v.Claims) : v.Named := fun k n => (h.holds n).named k

theorem Producer.Named.remove {v : Producer} (h : v.Named) {n : Nat} (hn : ∀ k, v.slots k ≠ some n) :
    (v.put n none).Named := fun k m hk => by
  obtain ⟨x, hx, hxo⟩ := h k m hk
  have hm : m ≠ n := by
    rintro rfl
    exact hn k hk
  exact ⟨x, (put_entries_of_ne v none hm).trans hx, hxo⟩

theorem named_muteEntry {s : State} (h : s.producer.Named) (n : Nat) : (s.muteEntry n).producer.Named := by
  obtain hsame | ⟨p, hp, ho, hend⟩ | ⟨p, hp, ho, hend⟩ := muteEntry_producer s n
  · rw [hsame]; exact h
  · rw [hend]
    have hx := entries_of_produce hp
    cases hk : p.claimSlot with
    | none =>
      have hsame : s.releaseSlot n = s := by rw [State.releaseSlot, hp, Option.bind_some, hk]
      rw [hsame]
      refine h.remove fun j hj => ?_
      obtain ⟨y, hy, -, hyj⟩ := h j n hj
      obtain rfl := Option.some.inj (hy.symm.trans hx)
      rw [standing_claimSlot, hk] at hyj
      cases hyj
    | some k =>
      rw [releaseSlot_producer s hp hk, put_put]
      intro j m hj
      have hjk : j ≠ k := by
        rintro rfl
        rw [put_slots, setSlot_slots_same] at hj
        cases hj
      rw [put_slots, setSlot_slots_of_ne _ _ hjk] at hj
      obtain ⟨y, hy, hyo, hyj⟩ := h j m hj
      have hm : m ≠ n := by
        rintro rfl
        obtain rfl := Option.some.inj (hy.symm.trans hx)
        exact hjk (Option.some.inj (hyj.symm.trans hk))
      exact ⟨y, (put_entries_of_ne _ none hm).trans hy, hyo, hyj⟩
  · rw [hend]
    refine h.remove fun j hj => ?_
    obtain ⟨y, hy, hyo, -⟩ := h j n hj
    obtain rfl := Option.some.inj (hy.symm.trans (entries_of_produce hp))
    exact ho hyo

theorem muteEntry_lists (s : State) (n : Nat) :
    (s.muteEntry n).producer.waiting = s.producer.waiting ∧ (s.muteEntry n).producer.queue = s.producer.queue := by
  obtain hsame | ⟨-, -, -, hend⟩ | ⟨-, -, -, hend⟩ := muteEntry_producer s n
  · rw [hsame]; exact ⟨rfl, rfl⟩
  · rw [hend]
    obtain h | ⟨k, h⟩ := releaseSlot_cases s n <;> rw [h] <;> exact ⟨rfl, rfl⟩
  · rw [hend]; exact ⟨rfl, rfl⟩

/-- What the entry to MUTED leaves of the producer (R148). -/
theorem enterMuted_producer (s : State) :
    (∀ n, s.enterMuted.producer.entries n = none) ∧ s.enterMuted.producer.waiting = [] ∧
      s.enterMuted.producer.queue = [] ∧ s.enterMuted.producer.records = [] ∧
      (s.producer.Named → ∀ k, s.enterMuted.producer.slots k = none) := by
  obtain ⟨-, hdown, hnone⟩ := enterMuted_spec s
  have hentries : ∀ n, s.enterMuted.producer.entries n = none := fun n => entries_of_none (hnone n)
  have hemptied : ∃ t l, s.enterMuted = List.foldl State.muteEntry t l ∧ t.producer.waiting = [] ∧
      t.producer.queue = [] ∧ (s.producer.Named → t.producer.Named) := by
    refine ⟨_, _, rfl, rfl, rfl, fun h => ?_⟩
    have hkept : ∀ t : State, t.ownership = s.ownership → t.directory = s.directory →
        ((t.setOwnership { t.ownership with waitList := [] }).setPubQueue []).producer.Named := by
      intro t hown hdir k n hk
      have := h k n
      simp only [State.producer, State.produce, State.entry, setPubQueue_ownership, setOwnership_ownership, hown] at hk this
      simpa [State.producer, State.produce, State.entry, hdir] using this hk
    have hmuted := (post_changesOnly (s.setStation { s.station with
      life := .muted, joinRunning := false, joinOwed := false })
      (s.stationNotice .numberClash s.own s.station.life.code 0)).trans
        ((muteContention_changesOnly _).mono (l' := [.notice, .contention]) (by decide))
    exact hkept _ (hmuted .ownership (by decide)) (hmuted .directory (by decide))
  obtain ⟨t, l, heq, hwait, hqueue, hnamed⟩ := hemptied
  have hlists : s.enterMuted.producer.waiting = [] ∧ s.enterMuted.producer.queue = [] := by
    rw [heq]
    exact fold_keeps (P := fun t => t.producer.waiting = [] ∧ t.producer.queue = [])
      (fun t n h => ⟨(muteEntry_lists t n).1.trans h.1, (muteEntry_lists t n).2.trans h.2⟩) l ⟨hwait, hqueue⟩
  refine ⟨hentries, hlists.1, hlists.2, records_of_none hdown.inHand, fun h k => ?_⟩
  have hfinal : s.enterMuted.producer.Named := by
    rw [heq]
    exact fold_keeps (P := fun t => t.producer.Named) (fun t n ht => named_muteEntry ht n) l (hnamed h)
  by_contra hk
  obtain ⟨n, hk⟩ := Option.ne_none_iff_exists'.mp hk
  obtain ⟨x, hx, -⟩ := hfinal k n hk
  rw [hentries] at hx
  cases hx

end Sys2Proof.Machine
end

section
/-! PROOF. A property of the producer that its own operations keep holds after every step. -/

namespace Sys2Proof.Machine

/-- A change of the Contention Unit with which it begins to send (R123). -/
theorem setContention_sends {s : State} {x : Contention} (hr : x.records = s.contention.records)
    (hs : x.state = .sending) : (s.setContention x).producer = { s.producer with sending := true } :=
  Producer.ext rfl rfl rfl rfl hr (decide_eq_true hs)

theorem Producer.Moves.entry {v w : Producer} (h : v.Moves w) {n : Nat} {x : Standing} (hx : v.entries n = some x) :
    ∃ y, w.entries n = some y ∧ y.ownership = x.ownership ∧ y.claimSlot = x.claimSlot := by
  induction h generalizing x with
  | refl => exact ⟨x, hx, rfl, rfl⟩
  | @move v w m rest _ _ ih =>
    by_cases hm : n = m
    · subst hm
      exact ih (x := { x with releaseQueued := true }) (by rw [upd_entries_same]; exact congrArg (Option.map _) hx)
    · exact ih ((upd_entries_of_ne _ _ hm).trans hx)

theorem failClaim_records {s : State} (n : Nat) (hr : s.producer.records = []) : (s.failClaim n).producer.records = [] := by
  cases hp : s.produce n with
  | none => unfold State.failClaim; rw [hp]; exact hr
  | some p =>
    by_cases ho : p.ownership = .claiming
    · rw [failClaim_eq hp ho]
      have hslot : (s.releaseSlot n).producer.records = [] := by
        obtain h | ⟨k, h⟩ := releaseSlot_cases s n <;> rw [h] <;> exact hr
      exact (withdraw_moves (s.releaseSlot n) (f := .dispute n) rfl).records.trans hslot
    · unfold State.failClaim
      rw [hp]
      dsimp only
      rw [if_neg ho]
      exact hr

/-- A further attempt keeps its records (R94, R125). -/
theorem retry_data_producer (s : State) (l : List TxRecord) :
    (s.setContention { s.contention with inHand := some (.data l) }).retry.producer =
      { s.producer with records := l, sending := false } :=
  Producer.ext rfl rfl rfl rfl rfl rfl

/-- The entries at the end of the own DATA frame: each record's mark is gone, and some records stay in hand (R89, R94). -/
def Producer.landed (v : Producer) (gone kept : List TxRecord) : Producer :=
  { v with entries := fun n => (v.entries n).map (perRecord gone Standing.ended n), records := kept, sending := false }

/-- A property of the producer that each operation on it keeps. -/
structure ProducerInvariant (Q : Producer → Prop) : Prop where
  reset : ∀ t : State, t.HasResetValues → Q t.producer
  recordsOnce : ∀ {v}, Q v → (v.records.map TxRecord.object).Nodup
  dropped : ∀ {v}, Q v → v.records = [] → Q v.dropped
  sends : ∀ {v}, Q v → Q { v with sending := true }
  moves : ∀ {v w}, Q v → v.Moves w → Q w
  mute : ∀ {s : State}, Q s.producer → Q s.enterMuted.producer
  claim : ∀ {v n k q}, Q v → v.slots k = none →
    (∀ x, v.entries n = some x → x.ownership = .deposed ∧ x.queued = q) → (v.entries n = none → q = .no) →
    Q ((v.setSlot k (some n)).put n (some (Standing.claimed k q)))
  /-- The end of a claim (R52). -/
  freed : ∀ {s : State} {n p}, Q s.producer → s.produce n = some p → p.ownership = .claiming →
    Q ((s.releaseSlot n).producer.put n none)
  /-- A claim that has reached the line is released there (R69). -/
  claimReleased : ∀ {s t : State} {n p tag}, Q s.producer → s.produce n = some p → p.ownership = .claiming →
    t.producer = (s.releaseSlot n).producer → Q (t.beginRelease n tag).producer
  removed : ∀ {v n x}, Q v → v.entries n = some x →
    (x.ownership = .deposed ∨ x.ownership = .relinquishing ∧ x.releaseQueued = true) → Q (v.put n none)
  released : ∀ {s : State} {n p tag}, Q s.producer → s.produce n = some p → p.ownership = .owned →
    Q ((s.stopPublishing n).beginRelease n tag).producer
  deposed : ∀ {s : State} {n p}, Q s.producer → s.produce n = some p → p.ownership = .owned →
    Q ((s.stopPublishing n).producer.upd n (fun x => { x with ownership := .deposed }))
  appendNew : ∀ {s : State} {n x}, Q s.producer → s.producer.entries n = some x → x.ownership = .owned →
    Q (s.appendNew n).producer
  appendRepeat : ∀ {s : State} {n p}, Q s.producer → s.produce n = some p → p.ownership = .owned →
    Q (s.appendRepeat n).producer
  grant : ∀ {v n k x}, Q v → v.entries n = some x → x.ownership = .claiming → x.claimSlot = some k →
    Q ((v.setSlot k none).put n (some { x with ownership := .owned, claimSlot := none }))
  landed : ∀ {s : State}, Q s.producer → Q (s.producer.landed s.producer.records [])
  collided : ∀ {s : State}, Q s.producer → Q (s.producer.landed (s.producer.records.filter (fun r => !s.keeps r))
    (s.producer.records.filter s.keeps))
  returned : ∀ {s : State}, Q s.producer → Q (s.returnRecords s.producer.records).producer.dropped
  bundle : ∀ {s : State}, Q s.producer → s.producer.records = [] → Q s.buildBundle.producer

section Walk
variable {Q : Producer → Prop} (H : ProducerInvariant Q) {s : State} (hs : Q s.producer)
include H hs

theorem ProducerInvariant.settle : Q s.settle.producer := by
  obtain h | ⟨hr, h⟩ := settle_producer s
  · rw [h]; exact hs
  · rw [h]; exact H.dropped hs hr

theorem ProducerInvariant.takeClaim {d : Descriptor} (hc : ∀ c ∈ s.claimChecks d, c.1 = false) :
    Q (s.takeClaim d).producer := by
  obtain ⟨k, q, hk, hold, hnew, heq⟩ := takeClaim_producer hc
  rw [heq]
  exact H.claim hs hk hold hnew

theorem ProducerInvariant.stage (n : Nat) (payload : List Byte) : Q (s.stage n payload).producer := by
  obtain h | ⟨p, t, hp, ho, ht, h⟩ := stage_producer s n payload
  · rw [h]; exact hs
  · rw [h]
    exact H.appendNew (by rw [ht]; exact hs) (by rw [ht]; exact entries_of_produce hp) ho

theorem ProducerInvariant.loseClaim {n : Nat} {p : Produce} (source : Nat) (cause : Cause) (hp : s.produce n = some p)
    (ho : p.ownership = .claiming) : Q (s.loseClaim n source cause).producer := by
  have hmoves := (withdraw_moves s (f := .claim n) rfl).trans (withdraw_moves _ (f := .dispute n) rfl)
  obtain ⟨y, hy, hyo, -⟩ := hmoves.entry (entries_of_produce hp)
  obtain ⟨q, hq, rfl⟩ := produce_of_entries hy
  rw [State.loseClaim, removeEntry_producer, postOwnership_producer]
  exact H.freed (H.moves hs hmoves) hq (hyo.trans ho)

theorem ProducerInvariant.failClaim (n : Nat) : Q (s.failClaim n).producer := by
  cases hp : s.produce n with
  | none => unfold State.failClaim; rw [hp]; exact hs
  | some p =>
    by_cases ho : p.ownership = .claiming
    · rw [failClaim_eq hp ho]
      exact H.moves (H.freed hs hp ho) ((withdraw_moves _ rfl).remove n)
    · unfold State.failClaim
      rw [hp]
      dsimp only
      rw [if_neg ho]
      exact hs

theorem ProducerInvariant.releaseClaim {n : Nat} {p : Produce} (tag : Word16) (hp : s.produce n = some p)
    (ho : p.ownership = .claiming) : Q (s.releaseClaim n p tag).producer := by
  unfold State.releaseClaim
  dsimp only
  split
  · exact H.moves (H.claimReleased hs hp ho (postOwnership_producer _ _ _ _ _ _))
      ((withdraw_moves _ rfl).trans (withdraw_moves _ rfl))
  · rw [removeEntry_producer, postOwnership_producer]
    refine H.moves (H.freed hs hp ho) (Producer.Moves.remove ?_ n)
    rw [← postOwnership_producer (s.releaseSlot n) n .claimFailed noStation .released (s.slotTag p)]
    exact (withdraw_moves _ rfl).trans (withdraw_moves _ rfl)

theorem ProducerInvariant.release (n : Nat) (tag : Word16) : Q (s.release n tag).producer := by
  unfold State.release
  split
  · exact hs
  · next p hp =>
    split
    · next ho => exact H.releaseClaim hs tag hp ho
    · next ho => exact H.released hs hp ho
    · exact hs
    · next ho =>
      rw [removeEntry_producer, postOwnership_producer]
      exact H.removed hs (entries_of_produce hp) (.inl ho)

theorem ProducerInvariant.depose {n : Nat} {p : Produce} (source : Nat) (cause : Cause) (hp : s.produce n = some p)
    (ho : p.ownership = .owned) : Q (s.depose n source cause).producer := by
  rw [State.depose, postOwnership_producer,
    updProduce_producer _ n (fun x => { x with ownership := .deposed }) (fun _ => rfl)]
  exact H.deposed hs hp ho

theorem ProducerInvariant.grantClaim {k : Fin 4} {slot : ClaimSlot} {p : Produce} (hp : s.produce slot.object = some p)
    (ho : p.ownership = .claiming) (hk : p.claimSlot = some k) : Q (s.grantClaim k slot p).producer := by
  obtain ⟨t, ht, heq⟩ := grantClaim_producer (k := k) hp
  have hgranted : Q t.producer := by
    rw [ht]
    exact H.grant hs (entries_of_produce hp) ho hk
  obtain heq | heq := heq
  · rw [heq]; exact hgranted
  · rw [heq]
    exact H.appendNew hgranted (by rw [ht, put_entries_same]) rfl

/-! ### Frames -/

/-- The end of a frame that holds no record. -/
theorem ProducerInvariant.dropControl (hr : s.producer.records = []) : Q s.dropFrame.producer := by
  rw [dropFrame_producer]
  exact H.dropped hs hr

theorem ProducerInvariant.endRelease (n : Nat) (cause : Cause) (hr : s.producer.records = []) :
    Q (s.endRelease n cause).dropFrame.producer := by
  obtain h | ⟨x, hx, ho, hq, h⟩ := endRelease_producer s n cause
  · exact H.dropControl (by rw [h]; exact hs) (by rw [h]; exact hr)
  · exact H.dropControl (by rw [h]; exact H.removed hs hx (.inr ⟨ho, hq⟩)) (by rw [h]; exact hr)

theorem ProducerInvariant.reportAbandonment (cause : Nat) : Q (s.reportAbandonment cause).dropFrame.producer := by
  unfold State.reportAbandonment
  split
  · next hi => exact H.dropControl hs (records_of_none hi)
  · next records hi =>
    rw [dropFrame_producer, postAbandoned_producer, ← records_of_data hi]
    exact H.returned hs
  · next n _ hi =>
    split
    · exact H.dropControl hs (records_of_control hi)
    · exact H.dropControl (H.failClaim hs n) (failClaim_records n (records_of_control hi))
  · next hi => exact H.endRelease hs _ _ (records_of_control hi)
  · next n _ hi =>
    have h := holdAbandoned_producer s n
    exact H.dropControl (by rw [h]; exact hs) (by rw [h]; exact records_of_control hi)
  · next hi => exact H.dropControl hs (records_of_control hi)
  · next hi => exact H.dropControl hs (records_of_control hi)

theorem ProducerInvariant.reportSuccess : Q s.reportSuccess.dropFrame.producer := by
  unfold State.reportSuccess
  split
  · next hi => exact H.dropControl hs (records_of_none hi)
  · next records hi =>
    have hlanded := H.landed hs
    have hn := H.recordsOnce hs
    rw [records_of_data hi] at hlanded hn
    rw [dropFrame_producer, commitRecords_producer s hn]
    exact hlanded
  · next n _ hi =>
    split
    · exact H.dropControl hs (records_of_control hi)
    · have h := beginWindow_producer s n
      exact H.dropControl (by rw [h]; exact hs) (by rw [h]; exact records_of_control hi)
  · next hi => exact H.endRelease hs _ _ (records_of_control hi)
  · next n _ hi =>
    have h := holdSucceeded_producer s n
    exact H.dropControl (by rw [h]; exact hs) (by rw [h]; exact records_of_control hi)
  · next hi => exact H.dropControl hs (records_of_control hi)
  · next hi => exact H.dropControl hs (records_of_control hi)

/-- A retry without records (R125). -/
theorem ProducerInvariant.retryControl (hr : s.producer.records = []) : Q s.retry.producer := by
  have hdropped := H.dropped hs hr
  rw [Producer.dropped, ← hr] at hdropped
  exact hdropped

theorem ProducerInvariant.collideAgain : Q s.collideAgain.producer := by
  unfold State.collideAgain
  split
  · next hi => exact H.dropControl hs (records_of_control hi)
  · next records hi =>
    have hcollided := H.collided hs
    have hn := H.recordsOnce hs
    rw [records_of_data hi] at hcollided hn
    have hstripped := unsendRecords_producer s (hn.sublist (List.filter_sublist (p := fun r => !s.keeps r) |>.map _))
    unfold State.stripAll
    dsimp only
    split
    · next hempty =>
      rw [dropFrame_producer, hstripped]
      rw [List.isEmpty_iff.mp hempty] at hcollided
      exact hcollided
    · rw [retry_data_producer, hstripped]
      exact hcollided
  · next hno hdata =>
    refine H.retryControl hs ?_
    unfold State.producer Contention.records
    split
    · next records hi => exact absurd hi (hdata records)
    · rfl

theorem ProducerInvariant.collide : Q s.collide.producer := by
  have hcounted : (s.setContention { s.contention with attempts := s.contention.attempts + 1 }).producer = s.producer :=
    setContention_producer s rfl .rfl
  unfold State.collide
  dsimp only
  split
  · exact H.reportAbandonment (by rw [hcounted]; exact hs) _
  · exact H.collideAgain (by rw [hcounted]; exact hs)

theorem ProducerInvariant.sendHead (f : CtlFrame) (rest : List CtlFrame) (hi : s.contention.inHand = none) :
    Q (s.sendHead f rest).producer := by
  refine H.moves ?_ (placeFreed_moves _ f)
  rw [setContention_sends (s := s) (by simp [Contention.records, Contention.send, hi]) rfl]
  exact H.sends hs

theorem ProducerInvariant.chooseFrame (hidle : s.contention.state ≠ .sending) : Q s.chooseFrame.producer := by
  have hsend : Q (s.setContention s.contention.send).producer := by
    rw [setContention_sends (by rfl) rfl]
    exact H.sends hs
  unfold State.chooseFrame
  split
  · next records hi =>
    split
    · exact hsend
    · rw [dropFrame_producer, ← records_of_data hi]
      exact H.returned hs
  · exact hsend
  · next hi =>
    split
    · exact H.sendHead hs _ _ hi
    · split
      · exact H.bundle hs (records_of_none hi)
      · have hsame : (s.setContention { s.contention with state := .idle, attempts := 0 }).producer = s.producer :=
          setContention_producer s rfl (by simp [hidle])
        rwa [hsame]

end Walk

/-- The walk of the commands, for a property of the producer. -/
theorem ProducerInvariant.keptByHappenings {Q : Producer → Prop} (H : ProducerInvariant Q) :
    KeptByHappenings (fun s => Q s.producer) where
  reset := H.reset
  aside hs h := by rwa [h.producer (by decide) (by decide) (by decide) (by decide)]
  command hs _ := hs
  station hs _ := hs
  timing hs h := by
    rwa [setContention_producer _ (by rw [Contention.records, h.inHand, Contention.records]) h.sending]
  automatic hs _ hst hd := by rwa [setContention_producer _ hd.records (by rw [hst])]
  phases hs h hw := by rwa [setOwnership_producer h hw]
  counters hs hg := by rwa [mapEntries_producer (fun e => (hg e).1) (fun e => (hg e).standing)]
  settle := H.settle
  mute := H.mute
  subscribe {s d} hs _ _ he _ := by
    have hnone : s.producer.entries d.object = none := entries_of_none (by simp [State.produce, he])
    rw [insertEntry_producer (e := d.newConsume) he]
    exact (put_self hnone).symm ▸ hs
  unsubscribe {s n} hs hp := by
    rw [removeEntry_producer, put_self (entries_of_none hp)]
    exact hs
  unbind {s n} hs := by rwa [(updConsume_consumerSide s n _).producer]
  lock {s n b} hs _ := by rwa [(markLocked_consumerSide s n b).producer]
  pull {s n} hs _ := by rwa [placeCommand_producer]
  claim hs _ hc := H.takeClaim hs hc
  release hs := H.release hs _ _
  stage hs := H.stage hs _ _
  touch {s n} hs := by rwa [(touchLine_consumerSide s n).producer]
  judge hs _ := by rwa [(judgeRecord_consumerSide _ _ _ _ _ _ _).producer]
  lose hs hp ho := H.loseClaim hs _ _ hp ho
  depose hs hp ho := H.depose hs _ _ hp ho
  orphan hs _ := by rwa [(relinquishAtConsume_consumerSide _ _ _ _).producer]
  again hs hp ho := H.appendRepeat hs hp ho
  grant hs _ hp ho hk := H.grantClaim hs hp ho hk
  age hs _ := by rwa [(expireAge_consumerSide _ _ _).producer]
  choose hs hst := H.chooseFrame hs (by simp [hst])
  collide hs _ := H.collide hs
  abandon hs _ := H.reportAbandonment hs _
  succeed hs _ := H.reportSuccess hs

end Sys2Proof.Machine
end

section
/-! PROOF. What is queued is OWNED, once, after every step (R76). -/

namespace Sys2Proof.Machine

/-- No item of the queue is for the object. -/
def Producer.Unqueued (v : Producer) (n : Nat) : Prop := ∀ it ∈ v.queue, it.object ≠ n

/-- The end of a claim's slot, once the entry is gone. -/
theorem freed_cases (s : State) (n : Nat) : ∃ v : Producer, (s.releaseSlot n).producer.put n none = v.put n none ∧
    (v = s.producer ∨ ∃ k, v = s.producer.setSlot k none) := by
  obtain h | ⟨k, h⟩ := releaseSlot_cases s n
  · exact ⟨s.producer, by rw [h], .inl rfl⟩
  · exact ⟨s.producer.setSlot k none, by rw [h, upd_put_none], .inr ⟨k, rfl⟩⟩

theorem Producer.Queues.of_eq {v w : Producer} (h : v.Queues) (he : w.entries = v.entries) (hq : w.queue = v.queue)
    (hr : w.records = v.records) : w.Queues :=
  h.congr hq (hr ▸ .refl _) fun n x hx ho => ⟨x, (congrFun he n).trans hx, ho, fun _ => rfl⟩

theorem Producer.Queues.claimReleased {s t : State} {n : Nat} {p : Produce} {tag : Word16} (h : s.producer.Queues)
    (hp : s.produce n = some p) (ho : p.ownership = .claiming) (ht : t.producer = (s.releaseSlot n).producer) :
    (t.beginRelease n tag).producer.Queues := by
  have hn : s.producer.Unqueued n := h.not_queued (entries_of_produce hp) (.inl (by simp [ho]))
  have hslot : t.producer.Queues ∧ t.producer.Unqueued n := by
    rw [ht]
    obtain hsame | ⟨k, hfree⟩ := releaseSlot_cases s n
    · rw [hsame]; exact ⟨h, hn⟩
    · rw [hfree]; exact ⟨(h.setSlot k none).put hn _, hn⟩
  obtain hr | hr := beginRelease_producer t n tag
  · rw [hr]; exact hslot.1.put hslot.2 _
  · rw [hr]; exact (hslot.1.put hslot.2 _).of_eq rfl rfl rfl

/-! ## The end of publication -/

theorem Producer.Queues.dequeue {s : State} (h : s.producer.Queues) (n : Nat) :
    (s.dequeue n).producer.Queues ∧ (s.dequeue n).producer.Unqueued n := by
  have hunqueued : ∀ it ∈ s.pubQueue.filter (fun it => it.object != n), it.object ≠ n := by simp
  have hfiltered : ({ s.producer with queue := s.pubQueue.filter (fun it => it.object != n) } : Producer).Queues :=
    ⟨h.once.sublist (List.filter_sublist.map _), h.recordsOnce, fun it hit => h.owned it (List.mem_of_mem_filter hit)⟩
  rw [dequeue_producer]
  exact ⟨hfiltered.put hunqueued _, hunqueued⟩

theorem Producer.Queues.strip {s : State} (h : s.producer.Queues) (n : Nat) :
    (s.stripRecord n).producer.Queues ∧ (s.stripRecord n).producer.queue = s.producer.queue := by
  obtain ⟨hsame, -⟩ | ⟨-, hstripped⟩ := stripRecord_producer s n
  · rw [hsame]; exact ⟨h, rfl⟩
  · rw [hstripped]
    have hfiltered : ({ s.producer with
        records := s.producer.records.filter (fun r => r.object != n) } : Producer).Queues :=
      h.congr rfl List.filter_sublist fun _ x hx ho => ⟨x, hx, ho, fun _ => rfl⟩
    exact ⟨hfiltered.upd (g := fun x => { x with inFlight := .no }) (fun _ => rfl) (fun _ => rfl) n, rfl⟩

theorem stopPublishing_moves (s : State) (n : Nat) :
    ((s.dequeue n).stripRecord n).producer.Moves (s.stopPublishing n).producer := withdraw_moves _ rfl

theorem Producer.Queues.stopPublishing {s : State} (h : s.producer.Queues) (n : Nat) :
    (s.stopPublishing n).producer.Queues ∧ (s.stopPublishing n).producer.Unqueued n := by
  obtain ⟨hdequeued, hn⟩ := h.dequeue n
  obtain ⟨hstripped, hqueue⟩ := hdequeued.strip n
  have hmoves := stopPublishing_moves s n
  refine ⟨hstripped.moves hmoves, ?_⟩
  rw [Producer.Unqueued, hmoves.queue, hqueue]
  exact hn

theorem Producer.Queues.beginRelease {s : State} {n : Nat} (h : s.producer.Queues) (hn : s.producer.Unqueued n)
    (tag : Word16) : (s.beginRelease n tag).producer.Queues := by
  obtain hr | hr := beginRelease_producer s n tag
  · rw [hr]; exact h.put hn _
  · rw [hr]; exact (h.put hn _).of_eq rfl rfl rfl

/-! ## Appends -/

theorem queueWith_objects (s : State) (n : Nat) : (s.queueWith n).map PubItem.object =
    if n ∈ s.pubQueue.map PubItem.object then s.pubQueue.map PubItem.object
    else s.pubQueue.map PubItem.object ++ [n] := by
  unfold State.queueWith
  split
  · rw [List.map_map]
    refine List.map_congr_left fun it _ => ?_
    simp only [Function.comp_apply]
    split <;> rfl
  · simp

/-- The items after an append are those of other objects, and the object's own with REPEAT clear (R77). -/
theorem mem_queueWith {s : State} {n : Nat} {it : PubItem} (h : it ∈ s.queueWith n) :
    (it.object = n ∧ it.rep = false) ∨ (it.object ≠ n ∧ it ∈ s.pubQueue) := by
  unfold State.queueWith at h
  split at h
  · obtain ⟨i, hi, rfl⟩ := List.mem_map.mp h
    split
    · next ho => exact .inl ⟨ho, rfl⟩
    · next ho => exact .inr ⟨ho, hi⟩
  · next hn =>
    obtain h | h := List.mem_append.mp h
    · exact .inr ⟨fun ho => hn (ho ▸ List.mem_map_of_mem h), h⟩
    · rw [List.mem_singleton.mp h]; exact .inl ⟨rfl, rfl⟩

theorem Producer.Queues.appendNew {s : State} {n : Nat} {x : Standing} (h : s.producer.Queues)
    (hx : s.producer.entries n = some x) (ho : x.ownership = .owned) : (s.appendNew n).producer.Queues := by
  rw [appendNew_producer]
  refine ⟨?_, h.recordsOnce, fun it hit => ?_⟩
  · show ((s.queueWith n).map PubItem.object).Nodup
    rw [queueWith_objects]
    split
    · exact h.once
    · next hn => exact List.nodup_append.mpr ⟨h.once, List.nodup_singleton n, fun a ha b hb hab =>
        hn (by rwa [← List.mem_singleton.mp hb, ← hab])⟩
  · obtain ⟨rfl, hrep⟩ | ⟨hne, hold⟩ := mem_queueWith hit
    · exact ⟨{ x with queued := .yes false }, by rw [upd_entries_same, hx]; rfl, ho, by rw [hrep]⟩
    · obtain ⟨y, hy, hyo⟩ := h.owned it hold
      exact ⟨y, (upd_entries_of_ne _ _ hne).trans hy, hyo⟩

/-- A refresh or a pull answer is appended where the object is neither queued nor in flight (R84, R85). -/
theorem appendRepeat_cases (s : State) (n : Nat) : (s.appendRepeat n).producer = s.producer ∨
    ∃ x, s.producer.entries n = some x ∧ x.queued = .no ∧ x.inFlight = .no ∧ (s.appendRepeat n).producer =
      ({ s.producer with queue := s.pubQueue ++ [{ object := n, rep := true }] } : Producer).put n
        (some { x with queued := .yes true }) := by
  unfold State.appendRepeat
  split
  · exact .inl rfl
  · next p hp =>
    split
    · next h =>
      simp only [Bool.and_eq_true, beq_iff_eq] at h
      obtain ⟨⟨-, hq⟩, hf⟩ := h
      refine .inr ⟨p.standing, entries_of_produce hp, hq, hf, ?_⟩
      rw [updProduce_producer _ n (fun x => { x with queued := .yes true }) (fun _ => rfl)]
      exact upd_of_some _ (entries_of_produce hp)
    · exact .inl rfl

theorem Producer.Queues.appendRepeat {s : State} {n : Nat} {p : Produce} (h : s.producer.Queues)
    (hp : s.produce n = some p) (ho : p.ownership = .owned) : (s.appendRepeat n).producer.Queues := by
  obtain hsame | ⟨x, hx, hq, -, heq⟩ := appendRepeat_cases s n
  · rw [hsame]; exact h
  · rw [heq]
    have hn := h.not_queued hx (.inr hq)
    have hxo : x.ownership = .owned := by
      rw [← Option.some.inj ((entries_of_produce hp).symm.trans hx)]
      exact ho
    refine ⟨?_, h.recordsOnce, fun it hit => ?_⟩
    · show ((s.pubQueue ++ [({ object := n, rep := true } : PubItem)]).map PubItem.object).Nodup
      rw [List.map_append]
      refine List.nodup_append.mpr ⟨h.once, List.nodup_singleton n, fun a ha b hb hab => ?_⟩
      obtain ⟨it, hit, rfl⟩ := List.mem_map.mp ha
      exact hn it hit (hab.trans (List.mem_singleton.mp hb))
    · obtain hit | hit := List.mem_append.mp hit
      · obtain ⟨y, hy, hyo⟩ := h.owned it hit
        exact ⟨y, (put_entries_of_ne _ _ (hn it hit)).trans hy, hyo⟩
      · rw [List.mem_singleton.mp hit]
        exact ⟨{ x with queued := .yes true }, put_entries_same _ _ _, hxo, rfl⟩

/-! ## DATA frames -/

theorem ended_ownership (r : TxRecord) (x : Standing) : (x.ended r).ownership = x.ownership := by
  unfold Standing.ended; split <;> rfl

theorem ended_queued (r : TxRecord) (x : Standing) : (x.ended r).queued = x.queued := by
  unfold Standing.ended; split <;> rfl

theorem Producer.Queues.landed {v : Producer} (h : v.Queues) (gone : List TxRecord) {kept : List TxRecord}
    (hk : kept.Sublist v.records) : (v.landed gone kept).Queues :=
  (h.ofRecords Standing.ended gone ended_ownership ended_queued).congr (w := v.landed gone kept) rfl hk
    fun _ x hx ho => ⟨x, hx, ho, fun _ => rfl⟩

/-- The items that go back stand for records of OWNED objects that are not queued (R90). -/
theorem mem_backItems {s : State} {l : List TxRecord} {it : PubItem} (h : it ∈ s.backItems l) :
    ∃ r ∈ l, it.object = r.object ∧ it.rep = r.rep ∧ ∃ x, s.producer.entries r.object = some x ∧ x.marks r = true ∧
      x.ownership = .owned ∧ x.queued = .no := by
  obtain ⟨r, hr, rfl⟩ := List.mem_map.mp h
  obtain ⟨hmem, hret⟩ := List.mem_filter.mp hr
  exact ⟨r, hmem, rfl, rfl, (returns_iff s r).mp hret⟩

theorem returned_ownership (r : TxRecord) (x : Standing) : (x.returned r).ownership = x.ownership := by
  unfold Standing.returned; split <;> rfl

/-- A record that returns leaves an item that is queued already (R90). -/
theorem returned_queued {r : TxRecord} {x : Standing} (h : x.ownership ≠ .owned ∨ x.queued ≠ .no) :
    (x.returned r).queued = x.queued := by
  unfold Standing.returned
  split
  · exact if_neg (fun hc => h.elim (fun ho => ho hc.1) (fun hq => hq hc.2))
  · rfl

theorem perRecord_returned_queued (l : List TxRecord) (n : Nat) {x : Standing}
    (h : x.ownership ≠ .owned ∨ x.queued ≠ .no) : (perRecord l Standing.returned n x).queued = x.queued := by
  obtain ⟨-, hid⟩ | ⟨r, -, -, hr⟩ := perRecord_cases l Standing.returned n
  · rw [hid]; rfl
  · rw [hr]; exact returned_queued h

theorem perRecord_returned_ownership (l : List TxRecord) (n : Nat) (x : Standing) :
    (perRecord l Standing.returned n x).ownership = x.ownership := by
  obtain ⟨-, hid⟩ | ⟨r, -, -, hr⟩ := perRecord_cases l Standing.returned n
  · rw [hid]; rfl
  · rw [hr]; exact returned_ownership r x

theorem Producer.Queues.returned {s : State} (h : s.producer.Queues) :
    (s.returnRecords s.producer.records).producer.Queues := by
  have hn := h.recordsOnce
  set l := s.producer.records with hl
  rw [returnRecords_producer s hn]
  refine ⟨?_, hn, fun it hit => ?_⟩
  · show ((s.backItems l ++ s.pubQueue).map PubItem.object).Nodup
    rw [List.map_append]
    refine List.nodup_append.mpr ⟨?_, h.once, fun a ha b hb hab => ?_⟩
    · rw [State.backItems, List.map_map]
      exact hn.sublist (List.filter_sublist.map TxRecord.object)
    · obtain ⟨i, hi, rfl⟩ := List.mem_map.mp ha
      obtain ⟨j, hj, rfl⟩ := List.mem_map.mp hb
      obtain ⟨r, -, hobj, -, x, hx, -, -, hq⟩ := mem_backItems hi
      exact h.not_queued hx (.inr hq) j hj (hab.symm.trans hobj)
  · obtain hit | hit := List.mem_append.mp hit
    · obtain ⟨r, hr, hobj, hrep, x, hx, hm, ho, hq⟩ := mem_backItems hit
      refine ⟨x.returned r, ?_, (returned_ownership r x).trans ho, ?_⟩
      · show (s.producer.entries it.object).map (perRecord l Standing.returned it.object) = _
        rw [hobj, hx, Option.map_some, perRecord_of_mem hn hr]
      · rw [Standing.returned, if_pos hm, hrep]
        exact if_pos ⟨ho, hq⟩
    · obtain ⟨x, hx, ho, hq⟩ := h.owned it hit
      exact ⟨perRecord l Standing.returned it.object x, congrArg (Option.map _) hx,
        (perRecord_returned_ownership l _ x).trans ho,
        (perRecord_returned_queued l _ (.inr (by simp [hq]))).trans hq⟩

/-- A DATA frame begins to be sent (R88, R123). -/
theorem setContention_data (s : State) {x : Contention} {l : List TxRecord} (hi : x.inHand = some (.data l))
    (hs : x.state = .sending) : (s.setContention x).producer = { s.producer with records := l, sending := true } :=
  Producer.ext rfl rfl rfl rfl (by simp [State.producer, Contention.records, hi]) (decide_eq_true hs)

/-- The bundle: the first items of the queue become the records in hand (R86, R87). -/
theorem buildBundle_producer {s : State} (h : s.producer.Queues) : ∃ taken left : List PubItem, ∃ l : List TxRecord,
    s.pubQueue = taken ++ left ∧ l.map TxRecord.object = taken.map PubItem.object ∧
    s.buildBundle.producer =
      { s.producer with
        entries := fun n => (s.producer.entries n).map (perRecord l Standing.bundled n)
        queue := left, records := l, sending := true } := by
  obtain ⟨taken, left, hqueue, hbundle, -⟩ := takeBundle_spec s s.pubQueue 0 0
  have hobjects : (taken.map s.bundleRecord).map TxRecord.object = taken.map PubItem.object := by
    rw [List.map_map]; rfl
  have honce := h.once
  rw [show s.producer.queue = taken ++ left from hqueue, List.map_append] at honce
  refine ⟨taken, left, taken.map s.bundleRecord, hqueue, hobjects, ?_⟩
  have hmarked := bundleRecords_producer (s.setPubQueue left) (l := taken.map s.bundleRecord)
    (by rw [hobjects]; exact honce.of_append_left)
  unfold State.buildBundle
  rw [hbundle]
  dsimp only
  rw [setContention_data _ rfl rfl, hmarked]
  rfl

theorem Producer.Queues.bundle {s : State} (h : s.producer.Queues) : s.buildBundle.producer.Queues := by
  obtain ⟨taken, left, l, hqueue, hobjects, heq⟩ := buildBundle_producer h
  have honce := h.once
  rw [show s.producer.queue = taken ++ left from hqueue, List.map_append] at honce
  obtain ⟨htaken, hleft, hdisj⟩ := List.nodup_append.mp honce
  rw [heq]
  refine ⟨hleft, by rw [hobjects]; exact htaken, fun it hit => ?_⟩
  obtain ⟨x, hx, hxo⟩ := h.owned it (show it ∈ s.pubQueue by rw [hqueue]; exact List.mem_append_right _ hit)
  obtain ⟨-, hid⟩ | ⟨r, hr, hobj, -⟩ := perRecord_cases l Standing.bundled it.object
  · refine ⟨x, ?_, hxo⟩
    show (s.producer.entries it.object).map _ = _
    rw [hid, hx]; rfl
  · exact absurd rfl (hdisj it.object (by rw [← hobjects, ← hobj]; exact List.mem_map_of_mem hr) it.object
      (List.mem_map_of_mem hit))

theorem queues_producerInvariant : ProducerInvariant Producer.Queues where
  reset t ht := (queuedAreOwned_iff t).mp (resets_queuedAreOwned ht)
  recordsOnce h := h.recordsOnce
  dropped h _ := h.dropped
  sends h := h.of_eq rfl rfl rfl
  moves h hw := h.moves hw
  mute {s} _ := by
    obtain ⟨-, -, hq, hr, -⟩ := enterMuted_producer s
    refine ⟨by rw [hq]; exact List.nodup_nil, by rw [hr]; exact List.nodup_nil, fun it hit => ?_⟩
    rw [hq] at hit
    cases hit
  claim {v n k q} h _ hold _ := (h.setSlot k _).put (by
    cases hx : v.entries n with
    | none => exact h.not_queued_of_none hx
    | some x => exact h.not_queued hx (.inl (by simp [(hold x hx).1]))) _
  freed {s n p} h hp ho := by
    have hn := h.not_queued (entries_of_produce hp) (.inl (by simp [ho]))
    obtain ⟨v, heq, rfl | ⟨k, rfl⟩⟩ := freed_cases s n
    · rw [heq]; exact h.put hn _
    · rw [heq]; exact (h.setSlot k none).put hn _
  claimReleased h hp ho ht := h.claimReleased hp ho ht
  removed h hx ho := h.put (h.not_queued hx (.inl (by obtain ho | ⟨ho, -⟩ := ho <;> simp [ho]))) _
  released {s n p tag} h _ _ := by
    obtain ⟨hstopped, hn⟩ := h.stopPublishing n
    exact hstopped.beginRelease hn tag
  deposed {s n p} h _ _ := by
    obtain ⟨hstopped, hn⟩ := h.stopPublishing n
    exact hstopped.put hn _
  appendNew h hx ho := h.appendNew hx ho
  appendRepeat h hp ho := h.appendRepeat hp ho
  grant {v n k x} h hx ho _ := (h.setSlot k none).put (h.not_queued hx (.inl (by simp [ho]))) _
  landed h := h.landed _ (List.nil_sublist _)
  collided h := h.landed _ List.filter_sublist
  returned h := h.returned.dropped
  bundle h _ := h.bundle

end Sys2Proof.Machine
end

section
/-! PROOF. Entries, claim slots, in-flight marks and waiting releases keep to each other after every step (R4, R52, R55,
R72, Table 1.2). -/

namespace Sys2Proof.Machine

/-! ## Claims and releases -/

theorem claimed_fits (k : Fin 4) : (Standing.claimed k .no).Fits :=
  ⟨fun _ => ⟨rfl, rfl⟩, nofun, nofun, fun _ => ⟨rfl, rfl⟩, fun _ => rfl⟩

namespace Producer.Claims
variable {v : Producer} (h : v.Claims)
include h

theorem not_named_of_none {n : Nat} (hx : v.entries n = none) (k : Fin 4) : v.slots k ≠ some n := fun hk => by
  obtain ⟨x, hxn, -⟩ := (h.holds n).named k hk
  rw [hx] at hxn
  cases hxn

theorem not_waiting_of_none {n : Nat} (hx : v.entries n = none) : n ∉ v.waiting := fun hn => by
  obtain ⟨x, hxn, -⟩ := (h.holds n).waits hn
  rw [hx] at hxn
  cases hxn

/-- An absent entry comes into being, OWNED, RELINQUISHING or DEPOSED. -/
theorem putNew {n : Nat} (hx : v.entries n = none) {y : Standing} (hy : y.Fits) (ho : y.ownership ≠ .claiming)
    (hf : v.Flies n y) : (v.put n (some y)).Claims :=
  h.putFree (h.not_named_of_none hx) (h.not_waiting_of_none hx) fun x hxy => by
    cases hxy
    exact ⟨hy, ho, hf⟩

/-- A granted claim (R58). -/
theorem grant {n : Nat} {k : Fin 4} {x : Standing} (hx : v.entries n = some x) (ho : x.ownership = .claiming)
    (hk : x.claimSlot = some k) :
    ((v.setSlot k none).put n (some { x with ownership := .owned, claimSlot := none })).Claims := by
  have hfit := (h.holds n).fits x hx
  have := (h.endClaim hx ho hk).putNew (put_entries_same _ _ _)
    (y := { x with ownership := .owned, claimSlot := none })
    ⟨nofun, fun _ => rfl, nofun, fun _ => hfit.untagged (by simp [ho]), fun hc => absurd rfl hc⟩ nofun
    (fun hf => absurd (hfit.claiming ho).2 hf)
  rwa [put_put] at this

/-- An OWNED entry stays OWNED, whatever its queued field shows. -/
theorem requeue {n : Nat} {x : Standing} (hx : v.entries n = some x) (ho : x.ownership = .owned) (q : Queued)
    (queue : List PubItem) : (({ v with queue := queue } : Producer).put n (some { x with queued := q })).Claims := by
  have hfit := (h.holds n).fits x hx
  have hsame : ({ v with queue := queue } : Producer).Claims := h.of_eq rfl rfl rfl rfl rfl
  refine hsame.putFree (h.not_named hx (by simp [ho])) (h.not_waiting hx (.inl (by simp [ho]))) fun y hy => ?_
  cases hy
  exact ⟨⟨fun hc => by simp [ho] at hc, hfit.slotless, hfit.tagged, hfit.untagged, fun hc => absurd ho hc⟩, by simp [ho],
    (h.holds n).flies x hx⟩

end Producer.Claims

/-- A release begins at an entry that no slot names and whose frame has none but a sent record of it (R69 to R72). -/
theorem beginRelease_claims {t : State} {n : Nat} {x : Standing} (tag : Word16) (h : (t.producer.put n none).Claims)
    (hx : t.producer.entries n = some x) (hk : x.claimSlot = none) (hq : x.queued = .no)
    (hf : x.inFlight ≠ .no → t.producer.sending = true ∧ ∃ r ∈ t.producer.records, r.object = n ∧ x.marks r = true) :
    (t.beginRelease n tag).producer.Claims := by
  have hput : ∀ b, (t.producer.put n (some { x.release with releaseQueued := b })).Claims := fun b => by
    have := h.putNew (put_entries_same _ _ _) (y := { x.release with releaseQueued := b })
      ⟨nofun, fun _ => hk, fun _ => rfl, fun hc => absurd rfl hc, fun _ => hq⟩ nofun
      (fun hc => ⟨.inr (hf hc).1, (hf hc).2⟩)
    rwa [put_put] at this
  obtain hr | hr := beginRelease_producer t n tag
  · rw [hr, upd_of_some _ hx]
    exact hput true
  · rw [hr, upd_of_some _ hx]
    exact (hput false).wait (put_entries_same _ _ _) rfl rfl (h.not_waiting_of_none (put_entries_same _ _ _))

section Freed
variable {s : State} {n : Nat} {p : Produce} (h : s.producer.Claims) (hp : s.produce n = some p)
  (ho : p.ownership = .claiming)
include h hp ho

/-- The end of a claim's slot, where the claim holds. -/
theorem releaseSlot_claims : ∃ k, (s.releaseSlot n).producer =
      (s.producer.setSlot k none).put n (some { p.standing with claimSlot := none }) ∧
    ((s.releaseSlot n).producer.put n none).Claims := by
  have hx := entries_of_produce hp
  obtain ⟨k, hk, -⟩ := (h.holds n).slot _ hx ho
  have heq := releaseSlot_producer s hp hk
  refine ⟨k, heq, ?_⟩
  rw [heq, put_put]
  exact h.endClaim hx ho hk

theorem claimReleased_claims {t : State} {tag : Word16} (ht : t.producer = (s.releaseSlot n).producer) :
    (t.beginRelease n tag).producer.Claims := by
  obtain ⟨k, heq, hfreed⟩ := releaseSlot_claims h hp ho
  obtain ⟨hq, hf⟩ := ((h.holds n).fits _ (entries_of_produce hp)).claiming ho
  refine beginRelease_claims tag (by rw [ht]; exact hfreed) (x := { p.standing with claimSlot := none }) ?_ rfl hq
    (fun hc => absurd hf hc)
  rw [ht, heq, put_entries_same]

end Freed

/-! ## The end of publication -/

/-- What stripping and the withdrawals leave of an OWNED entry that is not queued: a mark only while its frame is
sent. -/
structure Producer.Stopped (v : Producer) (n : Nat) (x : Standing) : Prop where
  entry : v.entries n = some x
  owned : x.ownership = .owned
  unqueued : x.queued = .no
  sent : x.inFlight ≠ .no → v.sending = true

theorem stripRecord_claims {s : State} {n : Nat} {x : Standing} (h : s.producer.Claims)
    (hx : s.producer.entries n = some x) (ho : x.ownership = .owned) (hq : x.queued = .no) :
    (s.stripRecord n).producer.Claims ∧ ∃ y, (s.stripRecord n).producer.Stopped n y := by
  obtain ⟨hsame, hsent | hnone⟩ | ⟨-, hstripped⟩ := stripRecord_producer s n
  · rw [hsame]
    exact ⟨h, x, hx, ho, hq, fun _ => hsent⟩
  · rw [hsame]
    refine ⟨h, x, hx, ho, hq, fun hf => ?_⟩
    obtain ⟨-, r, hr, hobj, -⟩ := (h.holds n).flies x hx hf
    exact absurd hobj (hnone r hr)
  · rw [hstripped]
    refine ⟨?_, { x with inFlight := .no }, by rw [upd_entries_same]; exact congrArg (Option.map _) hx, ho, hq,
      fun hf => absurd rfl hf⟩
    refine h.reflown (f := fun m x => if m = n then { x with inFlight := .no } else x) (fun m => ?_) rfl rfl
      (fun m x => ?_) (fun m x _ _ hxq => ?_) (fun m x _ _ hxf => ?_) (fun m x hxm => ?_)
    · by_cases hm : m = n
      · rw [hm, upd_entries_same]
        simp
      · rw [upd_entries_of_ne _ _ hm]
        simp [hm]
    · split <;> exact ⟨rfl, rfl, rfl, rfl⟩
    · split <;> exact hxq
    · split
      · rfl
      · exact hxf
    · split
      · exact fun hf => absurd rfl hf
      · next hm =>
        intro hf
        obtain ⟨hown, r, hr, hobj, hmark⟩ := (h.holds m).flies x hxm hf
        exact ⟨hown, r, List.mem_filter.mpr ⟨hr, by simpa [hobj] using hm⟩, hobj, hmark⟩

theorem stopPublishing_claims {s : State} {n : Nat} {p : Produce} (h : s.producer.Claims)
    (hp : s.produce n = some p) (ho : p.ownership = .owned) :
    (s.stopPublishing n).producer.Claims ∧ ∃ y, (s.stopPublishing n).producer.Stopped n y := by
  have hx := entries_of_produce hp
  have hdequeued := h.requeue hx ho .no (s.pubQueue.filter (fun it => it.object != n))
  have heq := dequeue_producer s n
  rw [upd_of_some _ (show ({ s.producer with queue := s.pubQueue.filter (fun it => it.object != n) } : Producer).entries n
    = some p.standing from hx)] at heq
  rw [← heq] at hdequeued
  obtain ⟨hstripped, y, hy, hyo, hyq, hysent⟩ := stripRecord_claims hdequeued
    (x := { p.standing with queued := .no }) (by rw [heq, put_entries_same]) ho rfl
  have hmoves := stopPublishing_moves s n
  exact ⟨hstripped.moves hmoves, y, hstripped.moves_entry hmoves hy (by simp [hyo]), hyo, hyq,
    fun hf => hmoves.sending.trans (hysent hf)⟩

theorem stopped_released {s : State} {n : Nat} {x : Standing} (h : s.producer.Claims) (hx : s.producer.Stopped n x)
    (tag : Word16) : (s.beginRelease n tag).producer.Claims :=
  beginRelease_claims tag (h.remove hx.entry (by simp [hx.owned]) (.inl (by simp [hx.owned]))) hx.entry
    (((h.holds n).fits x hx.entry).slotless (by simp [hx.owned])) hx.unqueued
    (fun hf => ⟨hx.sent hf, ((h.holds n).flies x hx.entry hf).2⟩)

theorem Producer.Claims.deposed {v : Producer} {n : Nat} {x : Standing} (h : v.Claims) (hx : v.Stopped n x) :
    (v.upd n (fun x => { x with ownership := .deposed })).Claims := by
  have hfit := (h.holds n).fits x hx.entry
  rw [upd_of_some _ hx.entry]
  refine h.putFree (h.not_named hx.entry (by simp [hx.owned])) (h.not_waiting hx.entry (.inl (by simp [hx.owned])))
    fun y hy => ?_
  cases hy
  exact ⟨⟨nofun, fun _ => hfit.slotless (by simp [hx.owned]), nofun, fun _ => hfit.untagged (by simp [hx.owned]),
    fun _ => hx.unqueued⟩, nofun, fun hf => ⟨.inr (hx.sent hf), ((h.holds n).flies x hx.entry hf).2⟩⟩

/-! ## DATA frames -/

theorem perRecord_ended (l : List TxRecord) (n : Nat) (x : Standing) :
    perRecord l Standing.ended n x = x ∨ perRecord l Standing.ended n x = { x with inFlight := .no } := by
  obtain ⟨-, hid⟩ | ⟨r, -, -, hr⟩ := perRecord_cases l Standing.ended n
  · rw [hid]; exact .inl rfl
  · rw [hr, Standing.ended]
    split
    · exact .inr rfl
    · exact .inl rfl

theorem perRecord_returned (l : List TxRecord) (n : Nat) (x : Standing) :
    perRecord l Standing.returned n x = x ∨
      ∃ q, perRecord l Standing.returned n x = { x with inFlight := .no, queued := q } := by
  obtain ⟨-, hid⟩ | ⟨r, -, -, hr⟩ := perRecord_cases l Standing.returned n
  · rw [hid]; exact .inl rfl
  · rw [hr, Standing.returned]
    split
    · exact .inr ⟨_, rfl⟩
    · exact .inl rfl

/-- A record that ends or returns takes its entry's mark with it. -/
theorem perRecord_grounds {v : Producer} (h : v.Claims) (hn : (v.records.map TxRecord.object).Nodup)
    {G : TxRecord → Standing → Standing} (hG : ∀ r x, x.marks r = true → (G r x).inFlight = .no) {n : Nat}
    {x : Standing} (hx : v.entries n = some x) (hf : x.inFlight ≠ .no) :
    (perRecord v.records G n x).inFlight = .no := by
  obtain ⟨-, r, hr, rfl, hm⟩ := (h.holds n).flies x hx hf
  rw [perRecord_of_mem hn hr]
  exact hG r x hm

theorem ended_inFlight {r : TxRecord} {x : Standing} (h : x.marks r = true) : (x.ended r).inFlight = .no := by
  rw [Standing.ended, if_pos h]

theorem returned_inFlight {r : TxRecord} {x : Standing} (h : x.marks r = true) : (x.returned r).inFlight = .no := by
  rw [Standing.returned, if_pos h]

/-- The end of the own DATA frame, or of an attempt: the records that stay in hand are those of OWNED entries. -/
theorem Producer.Claims.landed {v : Producer} (h : v.Claims) {gone kept : List TxRecord}
    (hn : (gone.map TxRecord.object).Nodup)
    (hpart : ∀ r ∈ v.records, r ∈ gone ∨ r ∈ kept ∧
      ∀ x, v.entries r.object = some x → x.marks r = true → x.ownership = .owned) : (v.landed gone kept).Claims := by
  refine h.reflown (f := perRecord gone Standing.ended) (fun _ => rfl) rfl rfl (fun n x => ?_)
    (fun n x _ _ hq => ?_) (fun n x _ _ hxf => ?_) (fun n x hx hf => ?_)
  · obtain he | he := perRecord_ended gone n x <;> rw [he] <;> exact ⟨rfl, rfl, rfl, rfl⟩
  · obtain he | he := perRecord_ended gone n x <;> rw [he] <;> exact hq
  · obtain he | he := perRecord_ended gone n x
    · rw [he]; exact hxf
    · rw [he]
  · obtain he | he := perRecord_ended gone n x
    · rw [he] at hf ⊢
      obtain ⟨-, r, hr, rfl, hm⟩ := (h.holds n).flies x hx hf
      obtain hgone | ⟨hkept, hown⟩ := hpart r hr
      · rw [← he, perRecord_of_mem hn hgone] at hf
        exact absurd (ended_inFlight hm) hf
      · exact ⟨.inl (hown x hx hm), r, hkept, rfl, hm⟩
    · rw [he] at hf
      exact absurd rfl hf

theorem returnRecords_claims {s : State} (hq : s.producer.Queues) (h : s.producer.Claims) :
    (s.returnRecords s.producer.records).producer.dropped.Claims := by
  rw [returnRecords_producer s hq.recordsOnce]
  refine h.reflown (f := perRecord s.producer.records Standing.returned) (fun _ => rfl) rfl rfl (fun n x => ?_)
    (fun n x _ ho hxq => ?_) (fun n x _ _ hxf => ?_) (fun n x hx hf => ?_)
  · obtain he | ⟨q, he⟩ := perRecord_returned s.producer.records n x <;> rw [he] <;> exact ⟨rfl, rfl, rfl, rfl⟩
  · exact (perRecord_returned_queued _ n (.inl ho)).trans hxq
  · obtain he | ⟨q, he⟩ := perRecord_returned s.producer.records n x
    · rw [he]; exact hxf
    · rw [he]
  · refine absurd ?_ hf
    by_cases hxf : x.inFlight = .no
    · obtain he | ⟨q, he⟩ := perRecord_returned s.producer.records n x
      · rw [he]; exact hxf
      · rw [he]
    · exact perRecord_grounds h hq.recordsOnce (fun _ _ => returned_inFlight) hx hxf

theorem bundle_claims {s : State} (hq : s.producer.Queues) (h : s.producer.Claims) (hr : s.producer.records = []) :
    s.buildBundle.producer.Claims := by
  obtain ⟨taken, left, l, hqueue, hobjects, heq⟩ := buildBundle_producer hq
  have howned : ∀ r ∈ l, ∀ x, s.producer.entries r.object = some x → x.ownership = .owned := by
    intro r hr x hx
    obtain ⟨it, hit, hobj⟩ := List.mem_map.mp (hobjects ▸ List.mem_map_of_mem hr)
    obtain ⟨y, hy, hyo, -⟩ := hq.owned it (show it ∈ s.pubQueue by rw [hqueue]; exact List.mem_append_left _ hit)
    rw [hobj, hx] at hy
    cases hy
    exact hyo
  rw [heq]
  refine h.reflown (f := perRecord l Standing.bundled) (fun _ => rfl) rfl rfl (fun n x => ?_)
    (fun n x _ _ hxq => ?_) (fun n x hx ho hxf => ?_) (fun n x hx hf => ?_) <;>
    obtain ⟨-, hid⟩ | ⟨r, hmem, rfl, hrec⟩ := perRecord_cases l Standing.bundled n
  · rw [hid]; exact ⟨rfl, rfl, rfl, rfl⟩
  · rw [hrec]; exact ⟨rfl, rfl, rfl, rfl⟩
  · rw [hid]; exact hxq
  · rw [hrec]; rfl
  · rw [hid]; exact hxf
  · rw [howned r hmem x hx] at ho; cases ho
  · rw [hid] at hf
    exact absurd (h.grounded_of_noRecords hr n x hx) hf
  · rw [hrec]
    exact ⟨.inr rfl, r, hmem, rfl, by simp [Standing.marks, Standing.bundled]⟩

/-! ## The two invariants together -/

theorem claims_producerInvariant : ProducerInvariant (fun v => v.Queues ∧ v.Claims) where
  reset t ht := ⟨queues_producerInvariant.reset t ht, (claimsHold_iff t).mp (resets_claimsHold ht)⟩
  recordsOnce := fun ⟨hq, _⟩ => hq.recordsOnce
  dropped := fun ⟨hq, h⟩ hr => ⟨hq.dropped, h.grounded (h.grounded_of_noRecords hr) rfl rfl rfl⟩
  sends := fun ⟨hq, h⟩ => ⟨queues_producerInvariant.sends hq, h.sends⟩
  moves := fun ⟨hq, h⟩ hw => ⟨hq.moves hw, h.moves hw⟩
  mute := fun {s} ⟨hq, h⟩ => by
    refine ⟨queues_producerInvariant.mute hq, ?_⟩
    obtain ⟨hnone, hwait, -, -, hslots⟩ := enterMuted_producer s
    refine ⟨by rw [hwait]; exact List.nodup_nil, fun n => ?_⟩
    rw [hnone]
    refine ⟨nofun, nofun, nofun, fun k hk => ?_, fun hn => ?_⟩
    · rw [hslots h.slotsNamed] at hk; cases hk
    · rw [hwait] at hn; cases hn
  claim := fun {v n k q} ⟨hq, h⟩ hk hold hnew => by
    have hqueued : q = .no := by
      cases hx : v.entries n with
      | none => exact hnew hx
      | some x =>
        obtain ⟨ho, rfl⟩ := hold x hx
        exact ((h.holds n).fits x hx).unqueued (by simp [ho])
    refine ⟨queues_producerInvariant.claim hq hk hold hnew, ?_⟩
    rw [hqueued]
    exact h.openClaim hk (fun x hx => (hold x hx).1) (claimed_fits k) rfl rfl
  freed := fun ⟨hq, h⟩ hp ho => by
    obtain ⟨k, -, hfreed⟩ := releaseSlot_claims h hp ho
    exact ⟨queues_producerInvariant.freed hq hp ho, hfreed⟩
  claimReleased := fun ⟨hq, h⟩ hp ho ht => ⟨hq.claimReleased hp ho ht, claimReleased_claims h hp ho ht⟩
  removed := fun ⟨hq, h⟩ hx ho => by
    refine ⟨queues_producerInvariant.removed hq hx ho, ?_⟩
    obtain ho | ⟨ho, hr⟩ := ho
    · exact h.remove hx (by simp [ho]) (.inl (by simp [ho]))
    · exact h.remove hx (by simp [ho]) (.inr hr)
  released := fun ⟨hq, h⟩ hp ho => by
    obtain ⟨hstopped, y, hy⟩ := stopPublishing_claims h hp ho
    exact ⟨queues_producerInvariant.released hq hp ho, stopped_released hstopped hy _⟩
  deposed := fun ⟨hq, h⟩ hp ho => by
    obtain ⟨hstopped, y, hy⟩ := stopPublishing_claims h hp ho
    exact ⟨queues_producerInvariant.deposed hq hp ho, hstopped.deposed hy⟩
  appendNew := fun {s n x} ⟨hq, h⟩ hx ho => by
    refine ⟨hq.appendNew hx ho, ?_⟩
    rw [appendNew_producer, upd_of_some (v := { s.producer with queue := s.queueWith n }) _ hx]
    exact h.requeue hx ho _ _
  appendRepeat := fun {s n p} ⟨hq, h⟩ hp ho => by
    refine ⟨hq.appendRepeat hp ho, ?_⟩
    obtain hsame | ⟨x, hx, -, -, heq⟩ := appendRepeat_cases s n
    · rw [hsame]; exact h
    · rw [heq]
      obtain rfl := Option.some.inj ((entries_of_produce hp).symm.trans hx)
      exact h.requeue hx ho _ _
  grant := fun ⟨hq, h⟩ hx ho hk => ⟨queues_producerInvariant.grant hq hx ho hk, h.grant hx ho hk⟩
  landed := fun ⟨hq, h⟩ => ⟨queues_producerInvariant.landed hq, h.landed hq.recordsOnce fun _ hr => .inl hr⟩
  collided := fun {s} ⟨hq, h⟩ => by
    refine ⟨queues_producerInvariant.collided hq, h.landed (hq.recordsOnce.sublist (List.filter_sublist.map _))
      fun r hr => ?_⟩
    by_cases hk : s.keeps r = true
    · refine .inr ⟨List.mem_filter.mpr ⟨hr, hk⟩, fun x hx _ => ?_⟩
      obtain ⟨y, hy, -, ho⟩ := (keeps_iff s r).mp hk
      rwa [Option.some.inj (hx.symm.trans hy)]
    · exact .inl (List.mem_filter.mpr ⟨hr, by simpa using hk⟩)
  returned := fun ⟨hq, h⟩ => ⟨queues_producerInvariant.returned hq, returnRecords_claims hq h⟩
  bundle := fun ⟨hq, h⟩ hr => ⟨hq.bundle, bundle_claims hq h hr⟩

theorem queuedAreOwned_keptByStep : KeptByStep State.QueuedAreOwned := fun s t h hstep =>
  (queuedAreOwned_iff t).mpr (queues_producerInvariant.keptByHappenings.keptByStep s t ((queuedAreOwned_iff s).mp h) hstep)

/-- Settles O9: what is queued, claimed, in flight and released is a matter of the producer alone, and each operation
on the producer keeps it. -/
theorem queuedObjectsStayOwned : Obligations.QueuedObjectsStayOwned := by
  refine ⟨queuedAreOwned_keptByStep, fun s t ⟨hord, hq, h⟩ hstep => ?_⟩
  obtain ⟨-, hclaims⟩ := claims_producerInvariant.keptByHappenings.keptByStep s t
    ⟨(queuedAreOwned_iff s).mp hq, (claimsHold_iff s).mp h⟩ hstep
  exact ⟨directoryStaysOrdered s t hord hstep, queuedAreOwned_keptByStep s t hq hstep, (claimsHold_iff t).mpr hclaims⟩

end Sys2Proof.Machine
end

section
/-! PROOF. The storage keeps its form (R18, R39, R177): what can write a line, shared RAM or the dispatch list, and the
walk of the commands over them. -/

namespace Sys2Proof.Machine

/-- A line has at most 64 bytes, and its 64 payload bytes are zero from its length on (R18). -/
def Line.Canonical (l : Line) : Prop :=
  l.length ≤ 64 ∧ l.payload.length = 64 ∧ ∀ i, l.length ≤ i → l.payload.getD i 0 = 0

/-- Every line of the store has that form. -/
def State.LinesCanonical (s : State) : Prop := ∀ k w, (s.lineAt k w).Canonical

/-- No record among some items is longer than 64 bytes (R39). -/
def RecordsFit (items : List Item) : Prop :=
  ∀ source n rep q payload, Item.record source n rep q payload ∈ items → payload.length ≤ 64

/-- The storage invariant speaks of shared RAM, of the lines and of the dispatch list apart. -/
theorem storageCanonical_iff (s : State) :
    s.StorageCanonical ↔ Memory.wf s.port.ram = true ∧ s.LinesCanonical ∧ RecordsFit s.dispatch := Iff.rfl

/-! ## Lines -/

theorem Line.store_canonical (l : Line) (payload : List Byte) (h : payload.length ≤ 64) :
    (l.store payload).Canonical := by
  have hlen : (linePayload payload).length = 64 := by
    rw [linePayload_eq payload h, List.length_append, List.length_replicate]
    omega
  refine ⟨h, hlen, fun i hi => ?_⟩
  change payload.length ≤ i at hi
  change (linePayload payload).getD i 0 = 0
  rw [linePayload_eq payload h, List.getD_append_right _ _ _ _ hi]
  simp

theorem Line.allocated_canonical (n : Nat) (pinned : Bool) : (Line.allocated n pinned).Canonical :=
  Line.store_canonical (Line.allocated n pinned) [] (Nat.zero_le _)

section Lines
variable {s : State} (hs : s.LinesCanonical)
include hs

theorem State.LinesCanonical.congr {t : State} (h : t.store = s.store) : t.LinesCanonical := by
  intro k w
  rw [State.lineAt, h]
  exact hs k w

theorem State.LinesCanonical.elsewhere {t : State} {l : List Block} (h : s.ChangesOnly t l) (hl : .store ∉ l) :
    t.LinesCanonical := hs.congr (h .store hl)

/-- One line is replaced by one of the form. -/
theorem State.LinesCanonical.replace {t : State} {k₀ : Fin 64} {w₀ : Way} {l : Line} (hl : l.Canonical)
    (h : ∀ k w, t.lineAt k w = if k = k₀ ∧ w = w₀ then l else s.lineAt k w) : t.LinesCanonical := by
  intro k w
  rw [h]
  split
  · exact hl
  · exact hs k w

theorem State.LinesCanonical.storePayload (n : Nat) {payload : List Byte} (hp : payload.length ≤ 64) :
    (s.storePayload n payload).LinesCanonical := by
  unfold State.storePayload
  split
  · exact hs
  · next w _ => exact hs.replace (Line.store_canonical _ payload hp) (putLine_touch_lineAt s n w _)

theorem State.LinesCanonical.touchLine (n : Nat) : (s.touchLine n).LinesCanonical := by
  unfold State.touchLine
  split
  · exact hs
  · next w _ => exact fun k v => by rw [touch_lineAt]; exact hs k v

theorem State.LinesCanonical.markLocked (n : Nat) (b : Bool) : (s.markLocked n b).LinesCanonical := by
  unfold State.markLocked
  split
  · exact hs
  · next w _ =>
    have hline : ({ (s.setOf n).line w with locked := b } : Line).Canonical := hs (setIndex n) w
    exact hs.replace hline (putLine_lineAt s n w _)

/-- A freed line keeps its value (log 15). -/
theorem State.LinesCanonical.removeEntry (n : Nat) : (s.removeEntry n).LinesCanonical := by
  intro k w
  rw [removeEntry_lineAt]
  split
  · exact hs k w
  · exact hs k w

theorem State.LinesCanonical.allocate {t : State} {n : Nat} {pinned : Bool} {detail : Nat} {tag : Word16} {w : Way}
    (h : s.allocate n pinned detail tag = some (w, t)) : t.LinesCanonical :=
  hs.replace (Line.allocated_canonical n pinned) (allocate_lineAt s n pinned detail tag w t h).2

/-! ## Claims, releases and the entry to MUTED: a line is freed at most -/

theorem State.LinesCanonical.takeClaim (d : Descriptor) : (s.takeClaim d).LinesCanonical := by
  have hentry : ∀ slot, (s.claimEntry d slot).LinesCanonical := fun slot => by
    unfold State.claimEntry
    split
    · exact hs
    · split
      · exact hs
      · next ha => exact (hs.allocate ha).congr rfl
  unfold State.takeClaim
  split
  · exact hs
  · exact ((hentry _).elsewhere (putSlot_changesOnly _ _ _) (by decide)).elsewhere (handOn_changesOnly _ _) (by decide)

/-- An ownership notice is posted and the entry removed. -/
theorem State.LinesCanonical.reportRemove (n : Nat) (kind : NoticeKind) (station : Nat) (cause : Cause) (tag : Word16) :
    ((s.postOwnership n kind station cause tag).removeEntry n).LinesCanonical :=
  (hs.elsewhere (postOwnership_changesOnly s n kind station cause tag) (by decide)).removeEntry n

theorem State.LinesCanonical.releaseSlot (n : Nat) : (s.releaseSlot n).LinesCanonical :=
  hs.elsewhere (releaseSlot_changesOnly s n) (by decide)

theorem State.LinesCanonical.withdraw (f : CtlFrame) : (s.withdraw f).LinesCanonical :=
  hs.elsewhere (withdraw_changesOnly s f) (by decide)

theorem State.LinesCanonical.loseClaim (n source : Nat) (cause : Cause) : (s.loseClaim n source cause).LinesCanonical :=
  (((hs.withdraw _).withdraw _).releaseSlot n).reportRemove n _ _ _ _

theorem State.LinesCanonical.release (n : Nat) (tag : Word16) : (s.release n tag).LinesCanonical := by
  unfold State.release
  split
  · exact hs
  · next p _ =>
    have hfailed : ((s.releaseSlot n).postOwnership n .claimFailed noStation .released (s.slotTag p)).LinesCanonical :=
      (hs.releaseSlot n).elsewhere (postOwnership_changesOnly _ _ _ _ _ _) (by decide)
    split
    · unfold State.releaseClaim
      dsimp only
      split
      · exact ((hfailed.elsewhere (beginRelease_changesOnly _ n tag) (by decide)).withdraw _).withdraw _
      · exact ((hfailed.withdraw _).withdraw _).reportRemove n _ _ _ _
    · exact (hs.elsewhere (stopPublishing_changesOnly s n) (by decide)).elsewhere (beginRelease_changesOnly _ n tag)
        (by decide)
    · exact hs
    · exact hs.reportRemove n _ _ _ _

theorem State.LinesCanonical.failClaim (n : Nat) : (s.failClaim n).LinesCanonical := by
  unfold State.failClaim
  split
  · exact hs
  · split
    · exact ((hs.releaseSlot n).withdraw _).reportRemove n _ _ _ _
    · exact hs

theorem State.LinesCanonical.endRelease (n : Nat) (cause : Cause) : (s.endRelease n cause).LinesCanonical := by
  unfold State.endRelease
  split
  · exact hs
  · split
    · exact hs.reportRemove n _ _ _ _
    · exact hs

theorem State.LinesCanonical.muteEntry (n : Nat) : (s.muteEntry n).LinesCanonical := by
  unfold State.muteEntry
  split
  · exact hs
  · split
    · exact (hs.releaseSlot n).reportRemove n _ _ _ _
    · exact hs.reportRemove n _ _ _ _

theorem State.LinesCanonical.enterMuted : s.enterMuted.LinesCanonical := by
  unfold State.enterMuted
  refine fold_keeps (P := State.LinesCanonical) (fun t n ht => State.LinesCanonical.muteEntry ht n) _ ?_
  have hmuted := hs.congr (t := (s.setStation
    { s.station with life := .muted, joinRunning := false, joinOwed := false }).post
      (s.stationNotice .numberClash s.own s.station.life.code 0)) (by simp)
  exact (hmuted.elsewhere (muteContention_changesOnly _) (by decide)).congr rfl

/-! ## The frame in hand -/

theorem State.LinesCanonical.reportSuccess : s.reportSuccess.LinesCanonical := by
  unfold State.reportSuccess
  split
  · exact hs
  · exact hs.elsewhere (foldl_changesOnly _ commit_perRec.frame _ s) (by decide)
  · split
    · exact hs
    · exact hs.elsewhere (beginWindow_changesOnly s _) (by decide)
  · exact hs.endRelease _ _
  · exact hs.elsewhere (holdSucceeded_changesOnly s _) (by decide)
  all_goals exact hs

theorem State.LinesCanonical.reportAbandonment (cause : Nat) : (s.reportAbandonment cause).LinesCanonical := by
  unfold State.reportAbandonment
  split
  · exact hs
  · exact (hs.elsewhere (returnRecords_spec s _).2.1 (by decide)).elsewhere (postAbandoned_changesOnly _ _ _)
      (by decide)
  · split
    · exact hs
    · exact hs.failClaim _
  · exact hs.endRelease _ _
  · exact hs.elsewhere (holdAbandoned_changesOnly s _) (by decide)
  all_goals exact hs

theorem State.LinesCanonical.collide : s.collide.LinesCanonical := by
  have hcounted : (s.setContention { s.contention with attempts := s.contention.attempts + 1 }).LinesCanonical :=
    hs.congr rfl
  unfold State.collide
  dsimp only
  split
  · exact (hcounted.reportAbandonment 1).congr rfl
  · exact hcounted.elsewhere (collideAgain_changesOnly _) (by decide)

/-! ## A payload written -/

theorem State.LinesCanonical.stage (n : Nat) {payload : List Byte} (hp : payload.length ≤ 64) :
    (s.stage n payload).LinesCanonical := by
  have hstored := hs.storePayload n hp
  unfold State.stage
  dsimp only
  split
  · exact hstored.congr rfl
  · exact hstored.congr rfl

theorem State.LinesCanonical.recordLine {t : State} {n : Nat} (h : s.recordLine n = some t) : t.LinesCanonical := by
  unfold State.recordLine at h
  split at h
  · cases h; exact hs
  · obtain ⟨⟨w, a⟩, ha, rfl⟩ := Option.map_eq_some_iff.mp h
    exact (hs.allocate ha).congr rfl

theorem State.LinesCanonical.accept (n : Nat) (c : Consume) (source : Nat) (rep : Bool) (q : Byte)
    {payload : List Byte} (hp : payload.length ≤ 64) : (s.accept n c source rep q payload).LinesCanonical := by
  unfold State.accept
  split
  · exact hs.elsewhere (post_changesOnly s _) (by decide)
  · next lined hl =>
    have hbound := ((hs.recordLine hl).congr (t := lined.updConsume n (fun c => { c with binding := .bound source }))
      rfl).elsewhere (postBinding_changesOnly _ n source q payload c.binding) (by decide)
    have hwritten := hbound.storePayload n hp
    dsimp only
    split
    · exact hwritten.congr (post_store _ _)
    · exact hwritten.congr rfl

theorem State.LinesCanonical.judgeRecord (n : Nat) (c : Consume) (source : Nat) (rep : Bool) (q : Byte)
    {payload : List Byte} (hp : payload.length ≤ 64) : (s.judgeRecord n c source rep q payload).LinesCanonical := by
  have haccept := hs.accept n c source rep q hp
  have hposted : ∀ x, (s.post x).LinesCanonical := fun x => hs.elsewhere (post_changesOnly s x) (by decide)
  unfold State.judgeRecord
  split
  · exact haccept
  · exact haccept
  · split
    · unfold State.checkSequence
      split
      · exact haccept
      · exact haccept
      · split
        · exact hs.congr rfl
        · split
          · exact haccept
          · exact (hposted _).accept n c source rep q hp
    · split
      · exact haccept
      · exact hposted _

end Lines

/-! ## The three parts after a happening -/

section Parts
variable {s : State} (hs : s.StorageCanonical)
include hs

theorem State.StorageCanonical.elsewhere {t : State} {l : List Block} (h : s.ChangesOnly t l)
    (hl : .port ∉ l ∧ .store ∉ l ∧ .dispatch ∉ l) : t.StorageCanonical := by
  have hport : t.port = s.port := h .port hl.1
  have hdispatch : t.dispatch = s.dispatch := h .dispatch hl.2.2
  exact ⟨by rw [hport]; exact hs.1, State.LinesCanonical.elsewhere hs.2.1 h hl.2.1, by rw [hdispatch]; exact hs.2.2⟩

theorem State.StorageCanonical.withLines {t : State} {l : List Block} (h : s.ChangesOnly t l)
    (hl : .port ∉ l ∧ .dispatch ∉ l) (ht : t.LinesCanonical) : t.StorageCanonical := by
  have hport : t.port = s.port := h .port hl.1
  have hdispatch : t.dispatch = s.dispatch := h .dispatch hl.2
  exact ⟨by rw [hport]; exact hs.1, ht, by rw [hdispatch]; exact hs.2.2⟩

theorem State.StorageCanonical.withPort {x : HostPort} (hx : Memory.wf x.ram = true) : (s.setPort x).StorageCanonical :=
  ⟨hx, hs.2⟩

theorem State.StorageCanonical.withDispatch {x : List Item} (hx : x ⊆ s.dispatch) :
    (s.setDispatch x).StorageCanonical :=
  ⟨hs.1, hs.2.1, fun source n rep q payload h => hs.2.2 source n rep q payload (hx h)⟩

theorem State.StorageCanonical.settle : s.settle.StorageCanonical := hs.elsewhere (settle_changesOnly s) (by decide)

theorem State.StorageCanonical.register {t : State} {via : SpiVia} {w : Bool} {a : Nat}
    (h : s.registerByte via w a = some t) : t.StorageCanonical := by
  have hram := State.registerByte_wf s t via w a h hs.1
  have honly := registerByte_changesOnly s t via w a h
  have hdispatch : t.dispatch = s.dispatch := honly .dispatch (by decide)
  exact ⟨hram, State.LinesCanonical.elsewhere hs.2.1 honly (by decide), by rw [hdispatch]; exact hs.2.2⟩

theorem State.StorageCanonical.complete (status : Status) (flags : Byte) (length detail : Nat) :
    (s.complete status flags length detail).StorageCanonical := by
  unfold State.complete
  refine State.StorageCanonical.elsewhere ?_ (setCommand_changesOnly _ _) (by decide)
  exact hs.withPort (HostPort.drain_wf _ (HostPort.engineWrite_wf _ _ _ (HostPort.engineWrite_wf _ _ _
    (HostPort.engineWrite_wf _ _ _ (HostPort.engineWrite_wf _ _ _ (HostPort.engineWrite_wf _ _ _ hs.1))))))

theorem State.StorageCanonical.finish (d : Descriptor) (status : Status) : (s.finish d status).StorageCanonical :=
  hs.complete _ _ _ _

/-- The sixteen reads of a taking. -/
theorem State.StorageCanonical.taken {d : Descriptor} {t : State} (h : s.taking = some (d, t)) :
    t.StorageCanonical := by
  unfold State.taking at h
  split at h
  · dsimp only at h
    split at h
    · cases h
      exact hs.withPort (HostPort.engineReads_wf _ _ _ hs.1)
    · cases h
  · cases h

theorem State.StorageCanonical.takenCode {code : Byte} {d : Descriptor} {t : State}
    (h : s.takingCode code = some (d, t)) : t.StorageCanonical := by
  obtain ⟨⟨d', t'⟩, ht, hcode⟩ := Option.bind_eq_some_iff.mp h
  dsimp only at hcode
  split at hcode
  · cases hcode
    exact hs.taken ht
  · cases hcode

/-- A ring command: refused, or carried out once it has passed its checks. -/
theorem State.StorageCanonical.perform (d : Descriptor) {checks : List (Bool × Status)} {carryOut : State → State}
    (h : (∀ c ∈ checks, c.1 = false) → (carryOut s).StorageCanonical) :
    (s.perform d checks carryOut).StorageCanonical := by
  unfold State.perform
  split
  · exact hs.finish d _
  · next hc => exact h (firstFailure_none hc)

end Parts

/-! ## The dispatch list and the engine's reads -/

/-- The next item and those behind it wait in the dispatch list. -/
theorem nextItems_subset {s : State} {it : Item} {rest : List Item} (h : s.nextItems = it :: rest) :
    it ∈ s.dispatch ∧ rest ⊆ s.dispatch := by
  have hsub : it :: rest ⊆ s.dispatch := h ▸ (List.dropWhile_suffix _).subset
  exact ⟨hsub List.mem_cons_self, fun x hx => hsub (List.mem_cons_of_mem _ hx)⟩

theorem afterFirstTurn_subset (s : State) (items : List Item) : s.afterFirstTurn items ⊆ items := by
  cases items with
  | nil => exact List.Subset.refl _
  | cons it rest =>
    simp only [State.afterFirstTurn]
    split
    · exact List.subset_cons_self _ _
    · exact List.Subset.refl _

theorem HostPort.engineReads_length (p : HostPort) (a n : Nat) : (p.engineReads a n).1.length = n := by
  induction n generalizing p a with
  | zero => rfl
  | succ n ih => exact congrArg (· + 1) (ih _ _)

/-! ## The host port and the placements -/

theorem slotBoundary_changesOnly (s : State) : s.ChangesOnly s.slotBoundary [.station, .ownership, .contention] :=
  ((setStation_changesOnly _ _).mono (by decide)).trans
    (((setOwnership_changesOnly _ _).mono (by decide)).trans ((setContention_changesOnly _ _).mono (by decide)))

theorem hardReset_storageCanonical (s : State) : s.hardReset.StorageCanonical :=
  ⟨Memory.wf_nil, reset_storageCanonical.2⟩

section Walk
variable {s : State} (hs : s.StorageCanonical)
include hs

theorem State.StorageCanonical.softReset : s.softReset.StorageCanonical :=
  ⟨hs.1, reset_storageCanonical.2⟩

theorem State.StorageCanonical.started (r : StartRecord) : (s.started r).StorageCanonical := ⟨hs.1, hs.2.1, hs.2.2⟩

theorem State.StorageCanonical.startRequest : s.startRequest.StorageCanonical := by
  have hread := hs.withPort (HostPort.drain_wf _ (HostPort.engineReads_wf s.port 0 Config.startRecordEnd hs.1))
  unfold State.startRequest
  dsimp only
  split
  · exact hread.elsewhere (setStation_changesOnly _ _) (by decide)
  · exact hread.started _

theorem State.StorageCanonical.execSoftReset (via : SpiVia) : Ends State.StorageCanonical (execSoftReset via s) := by
  unfold Sys2Proof.Machine.execSoftReset
  split
  · simpa using hs
  · next t ht => simpa using (hs.register ht).softReset

theorem State.StorageCanonical.execStart (via : SpiVia) (during : List RamByte) :
    Ends State.StorageCanonical (execStart via s during) := by
  unfold Sys2Proof.Machine.execStart
  split
  · simpa using hs
  · next t ht =>
    have ht := hs.register ht
    have hmet := ht.withPort (HostPort.acceptBytes_wf t.port during ht.1)
    dsimp only
    split
    · simpa using hmet.startRequest
    · simpa using hmet

theorem State.StorageCanonical.execCmdAdvance (via : SpiVia) (value : Byte) :
    Ends State.StorageCanonical (execCmdAdvance via value s) := by
  unfold Sys2Proof.Machine.execCmdAdvance State.scanRequest
  split
  · simpa using hs
  · next t ht =>
    have ht := hs.register ht
    rw [ends_next]
    split
    · exact ht
    · split
      · exact ht
      · exact ht

theorem State.StorageCanonical.execNoticeTaken (via : SpiVia) (k : Byte) :
    Ends State.StorageCanonical (execNoticeTaken via k s) := by
  unfold Sys2Proof.Machine.execNoticeTaken State.releaseNotices
  split
  · simpa using hs
  · next t ht =>
    have ht := hs.register ht
    rw [ends_next]
    split
    · exact ht
    · exact ht

theorem State.StorageCanonical.execTickHighByteRead (via : SpiVia) :
    Ends State.StorageCanonical (execTickHighByteRead via s) := by
  unfold Sys2Proof.Machine.execTickHighByteRead
  split
  · simpa using hs
  · next t ht =>
    have ht := hs.register ht
    exact (ends_next _ _).mpr (ht.withPort ht.1)

theorem State.StorageCanonical.execRegisterWriteIgnored (via : SpiVia) (addr : Nat) (value : Byte) :
    Ends State.StorageCanonical (execRegisterWriteIgnored via addr value s) := by
  unfold Sys2Proof.Machine.execRegisterWriteIgnored
  split
  · split
    · simpa using hs
    · next t ht => simpa using hs.register ht
  · simpa using hs

theorem State.StorageCanonical.execPlacement : Ends State.StorageCanonical (execPlacement s) := by
  unfold Sys2Proof.Machine.execPlacement
  split
  · simpa using hs
  · next n rest _ =>
    split
    · rw [ends_next]
      have hwritten : (s.writeNotice n).StorageCanonical := hs.withPort
        (HostPort.drain_wf _ (HostPort.engineWrite_wf _ _ _ (HostPort.engineWrites_wf _ _ _ hs.1)))
      have hleft : ((s.writeNotice n).leaveBacklog rest).StorageCanonical := by
        unfold State.leaveBacklog
        split
        · exact hwritten.elsewhere ((setNotice_changesOnly _ _).mono (by decide) |>.trans (reportFall_changesOnly _ _))
            (by decide)
        · exact hwritten.elsewhere (((setNotice_changesOnly _ _).mono (by decide)).trans
            ((reportFall_changesOnly _ _).trans ((highMarkTest_changesOnly _).mono (by decide)))) (by decide)
      exact State.StorageCanonical.settle (hleft.elsewhere
        ((setNotice_changesOnly _ _).trans (setNotice_changesOnly _ _)) (by decide))
    · simpa using hs

/-! ## The command ring -/

theorem State.StorageCanonical.execExamination : Ends State.StorageCanonical (execExamination s) := by
  unfold Sys2Proof.Machine.execExamination
  split
  · dsimp only
    split
    · simpa using hs
    · rw [ends_next]
      exact (hs.withPort (HostPort.drain_wf _ (HostPort.yield_wf _ hs.1))).elsewhere (setCommand_changesOnly _ _)
        (by decide)
  · simpa using hs

theorem State.StorageCanonical.execBadCommand : Ends State.StorageCanonical (execBadCommand s) := by
  unfold Sys2Proof.Machine.execBadCommand
  split
  · simpa using hs
  · next d t ht =>
    split
    · simpa using hs
    · simpa using (hs.taken ht).finish d _

/-- A ring command that is taken. -/
theorem State.StorageCanonical.ring {code : Byte} {d : Descriptor} {t : State} (h : s.takingCode code = some (d, t))
    {checks : List (Bool × Status)} {carryOut : State → State}
    (hk : t.StorageCanonical → (∀ c ∈ checks, c.1 = false) → (carryOut t).StorageCanonical) :
    (t.perform d checks carryOut).StorageCanonical :=
  (hs.takenCode h).perform d (hk (hs.takenCode h))

theorem State.StorageCanonical.execSubscribe : Ends State.StorageCanonical (execSubscribe s) := by
  unfold Sys2Proof.Machine.execSubscribe
  split
  · simpa using hs
  · next d t ht => exact (ends_next _ _).mpr (hs.ring ht fun h _ =>
      (h.elsewhere (setDirectory_changesOnly _ _) (by decide)).finish d _)

theorem State.StorageCanonical.execUnsubscribe : Ends State.StorageCanonical (execUnsubscribe s) := by
  unfold Sys2Proof.Machine.execUnsubscribe
  split
  · simpa using hs
  · next d t ht => exact (ends_next _ _).mpr (hs.ring ht fun h _ =>
      (h.withLines (removeEntry_changesOnly _ _) (by decide) (State.LinesCanonical.removeEntry h.2.1 _)).finish d _)

theorem State.StorageCanonical.execUnbind : Ends State.StorageCanonical (execUnbind s) := by
  unfold Sys2Proof.Machine.execUnbind
  split
  · simpa using hs
  · next d t ht => exact (ends_next _ _).mpr (hs.ring ht fun h _ =>
      (h.elsewhere (updConsume_changesOnly _ _ _) (by decide)).finish d _)

theorem State.StorageCanonical.markLocked (n : Nat) (b : Bool) : (s.markLocked n b).StorageCanonical :=
  hs.withLines (markLocked_changesOnly s n b) (by decide) (State.LinesCanonical.markLocked hs.2.1 n b)

theorem State.StorageCanonical.execLock : Ends State.StorageCanonical (execLock s) := by
  unfold Sys2Proof.Machine.execLock
  split
  · simpa using hs
  · next d t ht => exact (ends_next _ _).mpr (hs.ring ht fun h _ => (h.markLocked _ _).finish d _)

theorem State.StorageCanonical.execUnlock : Ends State.StorageCanonical (execUnlock s) := by
  unfold Sys2Proof.Machine.execUnlock
  split
  · simpa using hs
  · next d t ht => exact (ends_next _ _).mpr (hs.ring ht fun h _ => (h.markLocked _ _).finish d _)

theorem State.StorageCanonical.execPull : Ends State.StorageCanonical (execPull s) := by
  unfold Sys2Proof.Machine.execPull
  split
  · simpa using hs
  · next d t ht => exact (ends_next _ _).mpr (hs.ring ht fun h _ =>
      ((h.elsewhere (placeCommand_changesOnly _ _) (by decide)).finish d _).settle)

theorem State.StorageCanonical.execClaim : Ends State.StorageCanonical (execClaim s) := by
  unfold Sys2Proof.Machine.execClaim
  split
  · simpa using hs
  · next d t ht =>
    refine (ends_next _ _).mpr (hs.ring ht fun h _ => ?_)
    have hclaimed := h.withLines (takeClaim_changesOnly t d) (by decide) (State.LinesCanonical.takeClaim h.2.1 d)
    exact (hclaimed.finish d _).settle

theorem State.StorageCanonical.execRelinquish : Ends State.StorageCanonical (execRelinquish s) := by
  unfold Sys2Proof.Machine.execRelinquish
  split
  · simpa using hs
  · next d t ht =>
    refine (ends_next _ _).mpr (hs.ring ht fun h _ => ?_)
    have hreleased := h.withLines (release_changesOnly t d.object d.tag) (by decide)
      (State.LinesCanonical.release h.2.1 _ _)
    exact (hreleased.finish d _).settle

/-- A WRITE has checked its length before its payload is read (R79). -/
theorem State.StorageCanonical.execWrite : Ends State.StorageCanonical (execWrite s) := by
  unfold Sys2Proof.Machine.execWrite
  split
  · simpa using hs
  · next d t ht =>
    refine (ends_next _ _).mpr (hs.ring ht fun h hc => ?_)
    have hlen : (t.port.engineReads d.buffer d.length).1.length ≤ 64 := by
      have hd := hc (decide (Config.lineBytes < d.length), .badParameter) (by simp [State.writeChecks])
      rw [HostPort.engineReads_length]
      exact Nat.not_lt.mp (of_decide_eq_false hd)
    have hport := h.withPort (HostPort.engineReads_wf t.port d.buffer d.length h.1)
    exact ((hport.withLines (stage_changesOnly _ _ _) (by decide)
      (State.LinesCanonical.stage hport.2.1 _ hlen)).finish d _).settle

theorem State.StorageCanonical.execRead : Ends State.StorageCanonical (execRead s) := by
  unfold Sys2Proof.Machine.execRead
  split
  · simpa using hs
  · next d t ht =>
    refine (ends_next _ _).mpr (hs.ring ht fun h _ => ?_)
    unfold State.readLine
    split
    · next e l _ _ =>
      have hport := h.withPort (HostPort.engineWrites_wf t.port d.buffer l.payload h.1)
      have htouched := hport.withLines (touchLine_changesOnly _ d.object) (by decide)
        (State.LinesCanonical.touchLine hport.2.1 _)
      exact htouched.complete _ _ _ _
    · exact h.complete _ _ _ _

theorem State.StorageCanonical.execSnapshot : Ends State.StorageCanonical (execSnapshot s) := by
  unfold Sys2Proof.Machine.execSnapshot
  split
  · simpa using hs
  · next d t ht => exact (ends_next _ _).mpr (hs.ring ht fun h _ =>
      (h.withPort (HostPort.engineWrites_wf _ _ _ h.1)).complete _ _ _ _)

theorem State.StorageCanonical.execLeave : Ends State.StorageCanonical (execLeave s) := by
  unfold Sys2Proof.Machine.execLeave
  split
  · simpa using hs
  · next d t ht =>
    refine (ends_next _ _).mpr (hs.ring ht fun h _ => ?_)
    have hlines : (t.beginLeave d.tag).LinesCanonical := by
      unfold State.beginLeave
      exact fold_keeps (P := State.LinesCanonical) (fun _ n ht => ht.release n d.tag) _
        (State.LinesCanonical.congr h.2.1 rfl)
    exact ((h.withLines (beginLeave_changesOnly t d.tag) (by decide) hlines).finish d _).settle

theorem State.StorageCanonical.execRejoin : Ends State.StorageCanonical (execRejoin s) := by
  unfold Sys2Proof.Machine.execRejoin
  split
  · simpa using hs
  · next d t ht => exact (ends_next _ _).mpr (hs.ring ht fun h _ =>
      (h.elsewhere (setStation_changesOnly _ _) (by decide)).finish d _)

/-! ## Frames and their items -/

/-- The items of a frame that arrive fit, and so do those that wait before them (R39, R45). -/
theorem State.StorageCanonical.arrive {f : RxFrame} {rest : List Byte} {items : List Item}
    (h : judgeFrame f rest = some items) : (s.arrive items).StorageCanonical := by
  refine ⟨hs.1, hs.2.1, fun source n rep q payload hm => ?_⟩
  have hnew : Item.record source n rep q payload ∈ items → payload.length ≤ 64 :=
    fun hm => ((judge_items f rest items h).2 _ hm).2.2
  rw [arrive_dispatch] at hm
  split at hm
  · exact hnew (afterFirstTurn_subset s items hm)
  · rcases List.mem_append.mp hm with hm | hm
    · exact hs.2.2 source n rep q payload ((List.dropWhile_suffix _).subset hm)
    · exact hnew hm

theorem State.StorageCanonical.execFrameEnd (bytes : List Byte) :
    Ends State.StorageCanonical (execFrameEnd bytes s) := by
  unfold Sys2Proof.Machine.execFrameEnd
  split
  · next f _ =>
    split
    · rw [ends_next]
      have hrx := hs.elsewhere (setRx_changesOnly s .skip) (by decide)
      have hmuted := hrx.withLines (enterMuted_changesOnly _) (by decide) (State.LinesCanonical.enterMuted hrx.2.1)
      unfold State.frameEnd
      split
      · exact hrx
      · next items hj =>
        split
        · exact hrx
        · split
          · unfold State.clash
            split
            all_goals first | exact hmuted | exact hrx
          · exact hrx.arrive hj
    · simpa using hs
  · simpa using hs

theorem State.StorageCanonical.dropIgnored : s.dropIgnored.StorageCanonical :=
  hs.withDispatch (by rw [meetFirst_eq]; exact afterFirstTurn_subset s s.dispatch)

theorem State.StorageCanonical.execDataRecordAtConsume : Ends State.StorageCanonical (execDataRecordAtConsume s) := by
  unfold Sys2Proof.Machine.execDataRecordAtConsume
  split
  · next source n rep q payload rest hn =>
    obtain ⟨hfirst, hrest⟩ := nextItems_subset hn
    have ht := hs.withDispatch hrest
    split
    · rw [ends_next]
      exact (ht.withLines (judgeRecord_changesOnly _ _ _ _ _ _ _) (by decide)
        (State.LinesCanonical.judgeRecord ht.2.1 n _ source rep q (hs.2.2 _ _ _ _ _ hfirst))).settle
    · simpa using hs.dropIgnored
  · simpa using hs.dropIgnored

theorem State.StorageCanonical.loseClaim (n source : Nat) (cause : Cause) :
    (s.loseClaim n source cause).StorageCanonical :=
  hs.withLines (loseClaim_changesOnly s n source cause) (by decide)
    (State.LinesCanonical.loseClaim hs.2.1 n source cause)

theorem State.StorageCanonical.depose (n source : Nat) (cause : Cause) : (s.depose n source cause).StorageCanonical :=
  hs.elsewhere (depose_changesOnly s n source cause) (by decide)

theorem State.StorageCanonical.requestDispute (n : Nat) : (s.requestDispute n).StorageCanonical :=
  hs.elsewhere (setContention_changesOnly s _) (by decide)

theorem State.StorageCanonical.execDataRecordAtProduce : Ends State.StorageCanonical (execDataRecordAtProduce s) := by
  unfold Sys2Proof.Machine.execDataRecordAtProduce
  split
  · next hn =>
    have ht := hs.withDispatch (nextItems_subset hn).2
    split
    · rw [ends_next]
      unfold State.dataAtProduce
      split
      · exact (ht.loseClaim _ _ _).settle
      · split
        · exact (ht.depose _ _ _).settle
        · exact (ht.requestDispute _).settle
      all_goals exact ht.settle
    · simpa using hs.dropIgnored
  · simpa using hs.dropIgnored

theorem State.StorageCanonical.execClaimHeard : Ends State.StorageCanonical (execClaimHeard s) := by
  unfold Sys2Proof.Machine.execClaimHeard
  split
  · next hn =>
    have ht := hs.withDispatch (nextItems_subset hn).2
    split
    · rw [ends_next]
      unfold State.claimAtProduce
      split
      · split
        · exact (ht.requestDispute _).settle
        · exact (ht.loseClaim _ _ _).settle
      · exact (ht.requestDispute _).settle
      all_goals exact ht.settle
    · simpa using hs.dropIgnored
  · simpa using hs.dropIgnored

theorem State.StorageCanonical.execDisputeHeard : Ends State.StorageCanonical (execDisputeHeard s) := by
  unfold Sys2Proof.Machine.execDisputeHeard
  split
  · next hn =>
    have ht := hs.withDispatch (nextItems_subset hn).2
    split
    · rw [ends_next]
      unfold State.disputeAtProduce
      split
      · exact (ht.loseClaim _ _ _).settle
      · split
        · exact (ht.depose _ _ _).settle
        · exact (ht.requestDispute _).settle
      all_goals exact ht.settle
    · simpa using hs.dropIgnored
  · simpa using hs.dropIgnored

theorem State.StorageCanonical.execRelinquishHeardAtProduce :
    Ends State.StorageCanonical (execRelinquishHeardAtProduce s) := by
  unfold Sys2Proof.Machine.execRelinquishHeardAtProduce
  split
  · next hn =>
    split
    · simpa using hs.withDispatch (nextItems_subset hn).2
    · simpa using hs.dropIgnored
  · simpa using hs.dropIgnored

theorem State.StorageCanonical.execRelinquishHeardAtConsume :
    Ends State.StorageCanonical (execRelinquishHeardAtConsume s) := by
  unfold Sys2Proof.Machine.execRelinquishHeardAtConsume
  split
  · next hn =>
    have ht := hs.withDispatch (nextItems_subset hn).2
    split
    · rw [ends_next]
      unfold State.relinquishAtConsume
      split
      · exact ((ht.elsewhere (updConsume_changesOnly _ _ _) (by decide)).elsewhere (post_changesOnly _ _)
          (by decide)).settle
      · exact ht.settle
    · simpa using hs.dropIgnored
  · simpa using hs.dropIgnored

theorem State.StorageCanonical.execPullHeard : Ends State.StorageCanonical (execPullHeard s) := by
  unfold Sys2Proof.Machine.execPullHeard
  split
  · next hn =>
    have ht := hs.withDispatch (nextItems_subset hn).2
    split
    · rw [ends_next]
      unfold State.pullAtProduce
      split
      · exact (ht.elsewhere (appendRepeat_changesOnly _ _) (by decide)).settle
      · exact ht.settle
    · simpa using hs.dropIgnored
  · simpa using hs.dropIgnored

theorem State.StorageCanonical.execHoldHeard : Ends State.StorageCanonical (execHoldHeard s) := by
  unfold Sys2Proof.Machine.execHoldHeard
  split
  · next hn =>
    have ht := hs.withDispatch (nextItems_subset hn).2
    split
    · simpa using (ht.elsewhere (setContention_changesOnly _ _) (by decide)).settle
    · simpa using ht
  · simpa using hs.dropIgnored

/-! ## The line, the timers and the frame in hand -/

theorem State.StorageCanonical.execCarrierBegins : Ends State.StorageCanonical (execCarrierBegins s) := by
  unfold Sys2Proof.Machine.execCarrierBegins
  split
  · simpa using hs
  · exact (ends_next _ _).mpr hs

theorem State.StorageCanonical.execFirstByteCollected (byte : Byte) :
    Ends State.StorageCanonical (execFirstByteCollected byte s) := by
  unfold Sys2Proof.Machine.execFirstByteCollected
  split
  · exact (ends_next _ _).mpr hs
  · simpa using hs

theorem State.StorageCanonical.execHeaderFieldsComplete (byte1 byte2 : Byte) :
    Ends State.StorageCanonical (execHeaderFieldsComplete byte1 byte2 s) := by
  unfold Sys2Proof.Machine.execHeaderFieldsComplete
  split
  · split
    · simpa using hs
    · exact (ends_next _ _).mpr hs
  · simpa using hs

theorem State.StorageCanonical.execSlotBoundary : Ends State.StorageCanonical (execSlotBoundary s) := by
  unfold Sys2Proof.Machine.execSlotBoundary
  split
  · simpa using hs
  · exact (ends_next _ _).mpr ((hs.elsewhere (carryOutSlots_changesOnly s) (by decide)).elsewhere
      (slotBoundary_changesOnly _) (by decide))

theorem State.StorageCanonical.execGrant (slot : Nat) : Ends State.StorageCanonical (execGrant slot s) := by
  unfold Sys2Proof.Machine.execGrant
  split
  · exact (ends_next _ _).mpr (hs.elsewhere (windowEnds_changesOnly s _) (by decide))
  · simpa using hs

theorem State.StorageCanonical.execTick (late : List Nat) (timerLate : Bool) :
    Ends State.StorageCanonical (execTick s late timerLate) := by
  unfold Sys2Proof.Machine.execTick
  split
  · simpa using hs
  · exact (ends_next _ _).mpr ((hs.elsewhere (carryOutTicks_changesOnly s) (by decide)).elsewhere
      (tickAll_changesOnly _ late timerLate) (by decide))

theorem State.StorageCanonical.execRefreshExpiry (n : Nat) : Ends State.StorageCanonical (execRefreshExpiry n s) := by
  unfold Sys2Proof.Machine.execRefreshExpiry
  split
  · simpa using hs
  · exact (ends_next _ _).mpr (hs.elsewhere (tickEntry_changesOnly s n) (by decide))

theorem State.StorageCanonical.execAgeExpiry (n : Nat) : Ends State.StorageCanonical (execAgeExpiry n s) := by
  unfold Sys2Proof.Machine.execAgeExpiry
  split
  · simpa using hs
  · exact (ends_next _ _).mpr (hs.elsewhere (tickEntry_changesOnly s n) (by decide))

theorem State.StorageCanonical.execQuietReached : Ends State.StorageCanonical (execQuietReached s) := by
  unfold Sys2Proof.Machine.execQuietReached
  split
  · exact (ends_next _ _).mpr hs
  · simpa using hs

theorem State.StorageCanonical.execDeferralSlot : Ends State.StorageCanonical (execDeferralSlot s) := by
  unfold Sys2Proof.Machine.execDeferralSlot
  split
  · split
    · exact (ends_next _ _).mpr hs
    · simpa using hs
  · simpa using hs

theorem State.StorageCanonical.execDeferralEnd : Ends State.StorageCanonical (execDeferralEnd s) := by
  unfold Sys2Proof.Machine.execDeferralEnd
  split
  · exact (ends_next _ _).mpr (hs.elsewhere (chooseFrame_changesOnly s) (by decide)).settle
  · simpa using hs

theorem State.StorageCanonical.execCollision : Ends State.StorageCanonical (execCollision s) := by
  unfold Sys2Proof.Machine.execCollision
  split
  · exact (ends_next _ _).mpr
      (hs.withLines (collide_changesOnly s) (by decide) (State.LinesCanonical.collide hs.2.1)).settle
  · simpa using hs

theorem State.StorageCanonical.execLateCollision : Ends State.StorageCanonical (execLateCollision s) := by
  unfold Sys2Proof.Machine.execLateCollision
  split
  · have hreported := hs.withLines (reportAbandonment_changesOnly s 2) (by decide)
      (State.LinesCanonical.reportAbandonment hs.2.1 2)
    exact (ends_next _ _).mpr (hreported.elsewhere (dropFrame_changesOnly _) (by decide)).settle
  · simpa using hs

theorem State.StorageCanonical.execSuccessfulEnd : Ends State.StorageCanonical (execSuccessfulEnd s) := by
  unfold Sys2Proof.Machine.execSuccessfulEnd
  split
  · have hrx := hs.elsewhere (setRx_changesOnly s s.rx.ownEnd) (by decide)
    have hreported := hrx.withLines (reportSuccess_changesOnly _) (by decide)
      (State.LinesCanonical.reportSuccess hrx.2.1)
    exact (ends_next _ _).mpr (hreported.elsewhere (dropFrame_changesOnly _) (by decide)).settle
  · simpa using hs

/-! ## Every command, and the step -/

theorem State.StorageCanonical.exec (c : Instr) : Ends State.StorageCanonical (exec c s) := by
  cases c with
  | hardReset => exact (ends_next _ _).mpr (hardReset_storageCanonical s)
  | softReset via => exact hs.execSoftReset via
  | start via during => exact hs.execStart via during
  | cmdAdvance via value => exact hs.execCmdAdvance via value
  | noticeTaken via k => exact hs.execNoticeTaken via k
  | tickHighByteRead via => exact hs.execTickHighByteRead via
  | registerWriteIgnored via addr value => exact hs.execRegisterWriteIgnored via addr value
  | sharedRamWrite via addr value turn => exact (ends_next _ _).mpr (hs.withPort (HostPort.acceptByte_wf _ _ hs.1))
  | examination => exact hs.execExamination
  | badCommand => exact hs.execBadCommand
  | subscribe => exact hs.execSubscribe
  | unsubscribe => exact hs.execUnsubscribe
  | claim => exact hs.execClaim
  | relinquish => exact hs.execRelinquish
  | write => exact hs.execWrite
  | read => exact hs.execRead
  | pull => exact hs.execPull
  | lock => exact hs.execLock
  | unlock => exact hs.execUnlock
  | unbind => exact hs.execUnbind
  | snapshot => exact hs.execSnapshot
  | leave => exact hs.execLeave
  | rejoin => exact hs.execRejoin
  | carrierBegins => exact hs.execCarrierBegins
  | carrierAbsent => exact (ends_next _ _).mpr hs
  | frameEnd bytes => exact hs.execFrameEnd bytes
  | dataRecordAtConsume => exact hs.execDataRecordAtConsume
  | dataRecordAtProduce => exact hs.execDataRecordAtProduce
  | claimHeard => exact hs.execClaimHeard
  | disputeHeard => exact hs.execDisputeHeard
  | relinquishHeardAtProduce => exact hs.execRelinquishHeardAtProduce
  | relinquishHeardAtConsume => exact hs.execRelinquishHeardAtConsume
  | pullHeard => exact hs.execPullHeard
  | holdHeard => exact hs.execHoldHeard
  | slotBoundary => exact hs.execSlotBoundary
  | grant slot => exact hs.execGrant slot
  | holdEntryRunsOut => exact (ends_next _ _).mpr (hs.elsewhere (lastFall_changesOnly s) (by decide))
  | ownHoldExpires => exact (ends_next _ _).mpr (hs.elsewhere (ownHoldEnds_changesOnly s) (by decide))
  | joinPeriodEnd => exact (ends_next _ _).mpr (hs.elsewhere (joinEnds_changesOnly s) (by decide))
  | tick late timerLate => exact hs.execTick late timerLate
  | refreshExpiry object => exact hs.execRefreshExpiry object
  | ageExpiry object => exact hs.execAgeExpiry object
  | coalescingExpiry => exact (ends_next _ _).mpr (hs.elsewhere (tickTimer_changesOnly s) (by decide))
  | quietReached => exact hs.execQuietReached
  | deferralSlot => exact hs.execDeferralSlot
  | deferralEnd => exact hs.execDeferralEnd
  | collision => exact hs.execCollision
  | lateCollision => exact hs.execLateCollision
  | successfulEnd => exact hs.execSuccessfulEnd
  | placement => exact hs.execPlacement
  | firstByteCollected byte => exact hs.execFirstByteCollected byte
  | headerFieldsComplete byte1 byte2 => exact hs.execHeaderFieldsComplete byte1 byte2
  | resetNReleased => exact (ends_next _ _).mpr (hs.withPort hs.1)

end Walk

/-- Settles O3: shared RAM is written byte by byte, a line takes a payload of at most 64 bytes from a checked WRITE or
from a dispatched record alone, and only a judged frame adds records to the dispatch list. -/
theorem storageStaysCanonical : Obligations.StorageStaysCanonical := by
  intro s t hs ht
  unfold step at ht
  split at ht
  · cases ht; exact hs
  · next c rest _ => exact (hs.elsewhere (setPending_changesOnly s rest) (by decide)).exec c t ht

end Sys2Proof.Machine
end


section
/-! PROOF. LOCK, UNLOCK, WRITE, READ, and the RELINQUISH that ends at once: the lines and entries that they leave, and
the completion (R30 to R32, R71, R77 to R82, R113, R114). -/

namespace Sys2Proof.Machine

/-! ## What a frame leaves -/

section Frame
variable {s t u : State} {l : List Block}

theorem State.ChangesOnly.entry (h : s.ChangesOnly t l) (hl : .directory ∉ l) (m : Nat) : t.entry m = s.entry m := by
  have hd : t.directory = s.directory := h .directory hl
  simp only [State.entry, hd]

theorem State.ChangesOnly.lineAt (h : s.ChangesOnly t l) (hl : .store ∉ l) (k : Fin 64) (w : Way) :
    t.lineAt k w = s.lineAt k w := by
  have hst : t.store = s.store := h .store hl
  simp only [State.lineAt, hst]

theorem State.ChangesOnly.objectLine (h : s.ChangesOnly t l) (hl : .directory ∉ l ∧ .store ∉ l) (n : Nat) :
    t.objectLine n = s.objectLine n := by
  have he := h.entry hl.1 n
  cases hn : s.entry n with
  | none => simp [State.objectLine, he, hn]
  | some e =>
    rw [objectLine_eq s n e hn, objectLine_eq t n e (he.trans hn), funext (h.lineAt hl.2 (setIndex n))]

/-- Line and indicator are told from the store as it was before, too. -/
theorem State.StoreSameBut.of_eq {k : Fin 64} {w : Way} (h : t.StoreSameBut u k w) (ht : t.store = s.store) :
    s.StoreSameBut u k w := by
  unfold State.StoreSameBut State.lineAt at *
  rw [← ht]
  exact h

theorem State.StoreSameBut.congr {k : Fin 64} {w : Way} (h : s.StoreSameBut t k w) (hu : u.store = t.store) :
    s.StoreSameBut u k w := by
  unfold State.StoreSameBut State.lineAt at *
  rw [hu]
  exact h

theorem State.LineFreed.of_eq {n : Nat} (h : t.LineFreed u n)
    (he : (t.entry n).bind Entry.line = (s.entry n).bind Entry.line) (hst : t.store = s.store) : s.LineFreed u n := by
  unfold State.LineFreed State.StoreSameBut State.lineAt at *
  rw [he, hst] at h
  exact h

theorem State.LineFreed.congr {n : Nat} (h : s.LineFreed t n) (hu : u.store = t.store) : s.LineFreed u n := by
  unfold State.LineFreed State.StoreSameBut State.lineAt at *
  rw [hu]
  exact h

end Frame

/-! ## Completion -/

/-- A completion of a command that has left Station Control, the Command Unit and the port to it. -/
theorem finish_completed {s t : State} {d : Descriptor} {l : List Block} (hr : s.RingsKept) (hd : s.Submits d)
    (h : s.ChangesOnly t l) (hl : .station ∉ l ∧ .command ∉ l ∧ .port ∉ l) (status : Status) :
    s.Completed (t.finish d status) status 0 d.length 0 0 0 := by
  obtain ⟨hscan, hwait, -⟩ := hd
  have hport : t.port = s.port := h .port hl.2.2
  have hstation : t.station = s.station := h .station hl.1
  have hcfg : t.cfg = s.cfg := by simp only [State.cfg, hstation]
  exact State.completed_of s t status (descriptorFlags false) d.length 0 0 0 hcfg (h .command hl.2.1) hwait
    (by rw [hport]) (s.slot_in_ram hr hscan).2.1 (fun a _ => by rw [hport])

theorem State.Completed.congr {s t u : State} {status : Status} {flags : Byte} {length detail b n : Nat}
    (h : s.Completed t status flags length detail b n) (hc : u.command = t.command) (hp : u.port = t.port) :
    s.Completed u status flags length detail b n := by
  unfold State.Completed State.ramByte at *
  rw [hc, hp]
  exact h

theorem ramBytes_congr {s t : State} (h : t.port = s.port) (a n : Nat) : t.ramBytes a n = s.ramBytes a n := by
  unfold State.ramBytes State.ramByte
  rw [h]

/-! ## LOCK and UNLOCK -/

section Mark
variable (s : State) (n : Nat) (b : Bool)

theorem markLocked_objectLine :
    (s.markLocked n b).objectLine n = (s.objectLine n).map (fun l => { l with locked := b }) := by
  have hentry := (markLocked_changesOnly s n b).entry (by decide) n
  cases he : s.entry n with
  | none => simp [State.objectLine, hentry, he]
  | some e =>
    rw [objectLine_eq _ n e (hentry.trans he), objectLine_eq s n e he]
    unfold State.markLocked
    rw [he, Option.bind_some]
    cases e.line with
    | none => rfl
    | some w => exact congrArg some ((putLine_lineAt s n w _ _ _).trans (if_pos ⟨rfl, rfl⟩))

theorem markLocked_store (h : s.objectLine n = none) : (s.markLocked n b).store = s.store := by
  unfold State.markLocked
  cases he : s.entry n with
  | none => rfl
  | some e =>
    rw [objectLine_eq s n e he, Option.map_eq_none_iff] at h
    rw [Option.bind_some, h]

/-- The mark of one line alone changes; the indicator stays (R32). -/
theorem markLocked_sameBut {w : Way} (h : (s.entry n).bind Entry.line = some w) :
    s.StoreSameBut (s.markLocked n b) (setIndex n) w ∧
      ((s.markLocked n b).store.get (setIndex n)).older = (s.store.get (setIndex n)).older := by
  unfold State.markLocked
  rw [h]
  refine ⟨putSet_sameBut s n w _ (by rw [ReplicaSet.putLine_line, if_neg w.other_ne]), ?_⟩
  exact (congrArg ReplicaSet.older (putSet_get s n _ _)).trans (by simp [State.setOf])

/-- A LOCK or UNLOCK that is carried out. -/
theorem markLocked_finish {d : Descriptor} (hr : s.RingsKept) (hd : s.Submits d) :
    let t := (s.markLocked d.object b).finish d .ok
    s.Completed t .ok 0 d.length 0 0 0
      ∧ t.objectLine d.object = (s.objectLine d.object).map (fun l => { l with locked := b })
      ∧ (s.objectLine d.object = none → t.store = s.store)
      ∧ (∀ w, (s.entry d.object).bind Entry.line = some w → s.StoreSameBut t (setIndex d.object) w
          ∧ (t.store.get (setIndex d.object)).older = (s.store.get (setIndex d.object)).older)
      ∧ s.ChangesOnly t [.store, .command, .port] := by
  have hmark := markLocked_changesOnly s d.object b
  have hdone := finish_changesOnly (s.markLocked d.object b) d .ok
  refine ⟨finish_completed hr hd hmark (by decide) .ok, ?_, markLocked_store s d.object b, fun w hw => ?_,
    (hmark.mono (by decide)).trans (hdone.mono (by decide))⟩
  · rw [hdone.objectLine (by decide)]
    exact markLocked_objectLine s d.object b
  · obtain ⟨hsame, holder⟩ := markLocked_sameBut s d.object b hw
    exact ⟨hsame.congr (hdone .store (by decide)), holder⟩

end Mark

/-- Settles O23: both commands change the mark of the entry's line alone, and LOCK has found a line. -/
theorem lockAndUnlockMarkTheLine : Obligations.LockAndUnlockMarkTheLine := by
  refine fun s d hr => ⟨fun h => ?_, fun h => ?_⟩
  · obtain ⟨hdone, hline, -, hstore, honly⟩ := markLocked_finish s true hr h.1
    have hheld : s.objectLine d.object ≠ none :=
      h.2.2 (s.objectLine d.object = none, .notResident) (by simp [State.tableChecks])
    obtain ⟨l, hl⟩ := Option.ne_none_iff_exists'.mp hheld
    exact ⟨_, l, exec_lock_of_takes s d h, hdone, hl, by rw [hline, hl]; rfl, hstore, honly⟩
  · exact ⟨_, exec_unlock_of_takes s d h, markLocked_finish s false hr h.1⟩

/-! ## WRITE -/

section Stage
variable (s : State) (n : Nat) (payload : List Byte)

theorem storePayload_lineAt {w : Way} (h : (s.entry n).bind Entry.line = some w) (hp : payload.length ≤ 64) :
    (s.storePayload n payload).lineAt (setIndex n) w = { s.lineAt (setIndex n) w with
        length := payload.length, payload := payload ++ List.replicate (64 - payload.length) 0 }
      ∧ ((s.storePayload n payload).store.get (setIndex n)).older = w.other
      ∧ s.StoreSameBut (s.storePayload n payload) (setIndex n) w := by
  unfold State.storePayload
  rw [h]
  refine ⟨?_, ?_, putSet_sameBut s n w _ ?_⟩
  · refine (putLine_touch_lineAt s n w _ _ _).trans ((if_pos ⟨rfl, rfl⟩).trans ?_)
    rw [← linePayload_eq payload hp]
    rfl
  · exact (congrArg ReplicaSet.older (putSet_get s n _ _)).trans (by simp)
  · rw [ReplicaSet.touch_line, ReplicaSet.putLine_line, if_neg w.other_ne]

/-- The PRODUCE part that a WRITE leaves (R30, R80, R81). -/
def Produce.stagedAnew (p : Produce) : Produce :=
  { p with staged := true, pending := true, queued := if p.ownership = .owned then .yes false else p.queued }

/-- A payload that is staged: the line takes it, the entry is marked, and an OWNED object is queued (R30, R80, R81). -/
theorem stage_spec {e : Entry} {p : Produce} (he : s.entry n = some e) (hr : e.role = .produce p) :
    (s.stage n payload).store = (s.storePayload n payload).store
      ∧ (∀ m, (s.stage n payload).entry m =
          if m = n then some { e with role := .produce p.stagedAnew } else s.entry m)
      ∧ (s.stage n payload).pubQueue = (if p.ownership = .owned then s.queueWith n else s.pubQueue) := by
  have hstored := storePayload_changesOnly s n payload
  have hqueue : (s.storePayload n payload).pubQueue = s.pubQueue := hstored .pubQueue (by decide)
  have hmarked : ∀ m, ((s.storePayload n payload).updProduce n
      (fun p => { p with staged := true, pending := true })).entry m =
        if m = n then some { e with role := .produce { p with staged := true, pending := true } } else s.entry m := by
    intro m
    rw [State.updProduce_entry, hstored.entry (by decide), hstored.entry (by decide), he, Option.map_some,
      Entry.mapProduce_role e p _ hr]
  unfold State.stage Produce.stagedAnew
  rw [State.produce_of_entry s n e p he hr, Option.map_some]
  by_cases ho : p.ownership = .owned
  · dsimp only
    rw [if_pos (congrArg some ho), if_pos ho, if_pos ho, State.appendNew_eq]
    refine ⟨rfl, fun m => ?_, congrArg (fun q => State.queueWith { s with pubQueue := q } n) hqueue⟩
    rw [State.updProduce_entry]
    split
    · exact (congrArg (Option.map _) ((hmarked n).trans (if_pos rfl))).trans rfl
    · next hm => exact (hmarked m).trans (if_neg hm)
  · dsimp only
    rw [if_neg (fun h => ho (Option.some.inj h)), if_neg ho, if_neg ho]
    exact ⟨rfl, hmarked, hqueue⟩

end Stage

/-- The entry of a PRODUCE part holds a line (R2, R19). -/
theorem producer_holds_line {s : State} (hs : s.LinesHeld) {n : Nat} {e : Entry} {p : Produce} (he : s.entry n = some e)
    (hr : e.role = .produce p) : ∃ w, e.line = some w := by
  have hold := (holdsItsLine_iff s e).mp (hs.2.1 e (lookup_mem _ _ _ he))
  cases hw : e.line with
  | some w => exact ⟨w, rfl⟩
  | none =>
    rw [hw] at hold
    simp [Entry.produce, hr] at hold

/-- Settles O27: the checked payload goes to the line that a PRODUCE entry always holds, and the entry and the
publication queue follow its ownership. -/
theorem writeStagesTheValue : Obligations.WriteStagesTheValue := by
  intro s d p hr hlines h hp
  obtain ⟨hd, -, hpass⟩ := id h
  obtain ⟨e, he, hrole⟩ := s.produce_entry d.object p hp
  obtain ⟨w, hw⟩ := producer_holds_line hlines he hrole
  have hlen : d.length ≤ 64 := Nat.not_lt.mp (hpass (64 < d.length, .badParameter) (by simp [State.tableChecks]))
  have hbytes : (s.ramBytes d.buffer d.length).length = d.length := by simp [State.ramBytes]
  have hheld : (s.entry d.object).bind Entry.line = some w := by rw [he]; exact hw
  obtain ⟨hline, holder, hsame⟩ := storePayload_lineAt s d.object _ hheld (hbytes.le.trans hlen)
  obtain ⟨hstore, hentry, hqueue⟩ := stage_spec s d.object (s.ramBytes d.buffer d.length) he hrole
  have hstage := stage_changesOnly s d.object (s.ramBytes d.buffer d.length)
  have hdone := finish_changesOnly (s.stage d.object (s.ramBytes d.buffer d.length)) d .ok
  have hown := (hdone.entry (by decide) d.object).trans ((hentry d.object).trans (if_pos rfl))
  have hstored : ((s.stage d.object (s.ramBytes d.buffer d.length)).finish d .ok).store =
    (s.storePayload d.object (s.ramBytes d.buffer d.length)).store := (hdone .store (by decide)).trans hstore
  refine ⟨_, w, exec_write_of_takes s d (s.slot_in_ram hr hd.1).1 h, finish_completed hr hd hstage (by decide) .ok,
    State.produce_of_entry _ _ _ _ hown rfl, fun m hm => ?_, ?_, hheld, by rw [hown]; exact hw, ?_,
    by rw [hstored, holder], hsame.congr hstored, (hstage.mono (by decide)).trans (hdone.mono (by decide))⟩
  · rw [hdone.entry (by decide), hentry, if_neg hm]
  · exact (hdone .pubQueue (by decide)).trans hqueue
  · rw [State.lineAt, hstored]
    rw [hbytes] at hline
    exact hline

/-! ## READ -/

/-- A completion and a touch of a line speak of different blocks. -/
theorem complete_touchLine (t : State) (n : Nat) (status : Status) (flags : Byte) (length detail : Nat) :
    (t.touchLine n).complete status flags length detail = (t.complete status flags length detail).touchLine n := by
  unfold State.touchLine
  rw [show (t.complete status flags length detail).entry n = t.entry n from rfl]
  cases (t.entry n).bind Entry.line <;> rfl

theorem touchLine_spec (t : State) (n : Nat) {w : Way} (h : (t.entry n).bind Entry.line = some w) :
    (∀ k v, (t.touchLine n).lineAt k v = t.lineAt k v) ∧ ((t.touchLine n).store.get (setIndex n)).older = w.other
      ∧ t.StoreSameBut (t.touchLine n) (setIndex n) w := by
  unfold State.touchLine
  rw [h]
  exact ⟨touch_lineAt t n w, (congrArg ReplicaSet.older (putSet_get t n _ _)).trans (by simp),
    putSet_sameBut t n w _ (ReplicaSet.touch_line _ _ _)⟩

/-- A READ that finds no line. -/
theorem readLine_of_none {s : State} {d : Descriptor} {e : Entry} (he : s.entry d.object = some e)
    (hw : e.line = none) : s.readLine d = s.complete .notResident (descriptorFlags false) 0 0 := by
  have hl : s.objectLine d.object = none := by rw [objectLine_eq s d.object e he, hw]; rfl
  unfold State.readLine
  rw [he, hl]

/-- A READ that finds a line: the copy, the completion, and the touch (R31, R82). -/
theorem readLine_of_line {s : State} {d : Descriptor} {e : Entry} {w : Way} (he : s.entry d.object = some e)
    (hw : e.line = some w) : s.readLine d =
      ((s.setPort (s.port.engineWrites d.buffer (s.lineAt (setIndex d.object) w).payload)).complete e.readReport.1
        e.readReport.2.1 (s.lineAt (setIndex d.object) w).length e.readReport.2.2).touchLine d.object := by
  have hl : s.objectLine d.object = some (s.lineAt (setIndex d.object) w) := by
    rw [objectLine_eq s d.object e he, hw]; rfl
  rw [← complete_touchLine]
  unfold State.readLine
  rw [he, hl]

/-- What a READ with a line reports for a PRODUCE entry (R82). -/
theorem readReport_of_produce {e : Entry} {p : Produce} (h : e.role = .produce p) :
    e.readReport = (.ok, if p.committed = none then 1 else 0, (p.committed.map BitVec.toNat).getD 0) := by
  have hflags : descriptorFlags p.committed.isNone = if p.committed = none then 1 else 0 := by
    cases p.committed <;> rfl
  rw [Entry.readReport, h, ← hflags]

/-- What a READ with a line reports for a CONSUME entry (R113). -/
theorem readReport_of_consume {e : Entry} {c : Consume} (h : e.role = .consume c) :
    e.readReport = (if c.replica = .stale then .stale else .ok, 0, (c.lastSeq.map BitVec.toNat).getD 0) := by
  rw [Entry.readReport, h]
  rfl

/-- Settles O28: the line's 64 bytes reach the checked buffer, which the completion avoids, and the touch changes the
indicator alone. -/
theorem readCopiesTheLine : Obligations.ReadCopiesTheLine := by
  intro s d e hr hs h he
  obtain ⟨hd, -, hpass⟩ := id h
  obtain ⟨hscan, hwait, -⟩ := id hd
  have hbuf : s.BufferGood d.buffer 64 :=
    not_not.mp (hpass (¬ s.BufferGood d.buffer 64, .badBuffer) (by simp [State.tableChecks]))
  cases hw : e.line with
  | none =>
    refine ⟨_, exec_read_of_takes s d h, ?_⟩
    rw [readLine_of_none he hw]
    have hdone : s.Completed (s.complete .notResident (descriptorFlags false) 0 0) .notResident 0 0 0 0 0 :=
      State.completed_of s s _ _ 0 0 0 0 rfl rfl hwait rfl (s.slot_in_ram hr hscan).2.1 (fun _ _ => rfl)
    exact ⟨hdone.1, hdone, complete_changesOnly s _ _ _ _⟩
  | some w =>
    have hlen : (s.lineAt (setIndex d.object) w).payload.length = 64 := (hs.2.1 _ _).2.1
    obtain ⟨hdone, hbytes⟩ := engineWrites_complete hr hscan hwait hbuf (by decide) hlen.le e.readReport.1
      e.readReport.2.1 (s.lineAt (setIndex d.object) w).length e.readReport.2.2
    have hcopied : s.ChangesOnly ((s.setPort (s.port.engineWrites d.buffer
        (s.lineAt (setIndex d.object) w).payload)).complete e.readReport.1 e.readReport.2.1
          (s.lineAt (setIndex d.object) w).length e.readReport.2.2) [.command, .port] :=
      ((setPort_changesOnly s _).mono (by decide)).trans (complete_changesOnly _ _ _ _ _)
    rw [hlen] at hdone hbytes
    refine ⟨_, exec_read_of_takes s d h, ?_⟩
    rw [readLine_of_line he hw]
    revert hdone hbytes hcopied
    dsimp only
    generalize (s.setPort _).complete _ _ _ _ = copied
    intro hdone hbytes hcopied
    have htouch := touchLine_changesOnly copied d.object
    have hport : (copied.touchLine d.object).port = copied.port := htouch .port (by decide)
    have hcommand : (copied.touchLine d.object).command = copied.command := htouch .command (by decide)
    obtain ⟨hlines, holder, hsame⟩ := touchLine_spec copied d.object (w := w)
      (by rw [hcopied.entry (by decide), he]; exact hw)
    refine ⟨hcommand.trans hdone.1, ?_, by rw [ramBytes_congr hport]; exact hbytes, fun k v => ?_,
      holder, ?_, (hcopied.mono (by decide)).trans (htouch.mono (by decide))⟩
    · have hreport := hdone.congr hcommand hport
      cases hrole : e.role with
      | produce p => rw [readReport_of_produce hrole] at hreport; exact hreport
      | consume c => rw [readReport_of_consume hrole] at hreport; exact hreport
    · rw [hlines, hcopied.lineAt (by decide)]
    · exact hsame.of_eq (hcopied .store (by decide))

/-! ## RELINQUISH of a DEPOSED or RELINQUISHING entry -/

/-- An entry goes with a report of its value: the two steps that end most claims and releases (R33, R74). -/
theorem reportRemove_spec {s : State} {n : Nat} {p : Produce} (hs : s.StorageCanonical) (hp : s.produce n = some p)
    (kind : NoticeKind) (station : Nat) (cause : Cause) (tag : Word16) :
    let t := (s.postOwnership n kind station cause tag).removeEntry n
    t.entry n = none ∧ (∀ m, m ≠ n → t.entry m = s.entry m) ∧ s.LineFreed t n
      ∧ t.notice = s.notice.posted (s.valueNotice kind n station (p.committed.getD 0) cause.code (s.value n) tag)
      ∧ s.AfterPosts t ∧ s.ChangesOnly t [.directory, .store, .contention, .notice] := by
  have hpost := postOwnership_changesOnly s n kind station cause tag
  have hremove := removeEntry_changesOnly (s.postOwnership n kind station cause tag) n
  obtain ⟨hnone, hothers, hfreed, -⟩ := removeEntry_removes (s.postOwnership n kind station cause tag) n
  refine ⟨hnone, fun m hm => (hothers m hm).trans (hpost.entry (by decide) m), ?_, ?_, ?_,
    (hpost.mono (by decide)).trans (hremove.mono (by decide))⟩
  · exact hfreed.of_eq (congrArg (·.bind Entry.line) (hpost.entry (by decide) n)) (hpost .store (by decide))
  · refine (hremove .notice (by decide)).trans ?_
    rw [State.postOwnership, post_notice, ownershipNotice_eq s n p kind station cause tag hs hp]
  · exact (post_afterPosts s _).congr rfl rfl rfl (hremove .notice (by decide)) (hremove .contention (by decide))

/-- Settles O32: a DEPOSED entry is reported and removed, a RELINQUISHING one is left as it is. -/
theorem relinquishOfADeposedOrReleasingEntry : Obligations.RelinquishOfADeposedOrReleasingEntry := by
  intro s d p hr hs h hp
  have hexec := exec_relinquish_of_takes s d h
  refine ⟨fun ho => ?_, fun ho => ?_⟩
  · have hrelease : s.release d.object d.tag =
        (s.postOwnership d.object .relinquished noStation .ok d.tag).removeEntry d.object := by
      unfold State.release
      rw [hp]
      dsimp only
      rw [ho]
    obtain ⟨hnone, hothers, hfreed, hnotice, hposts, honly⟩ :=
      reportRemove_spec hs hp .relinquished noStation .ok d.tag
    rw [← hrelease] at hnone hothers hfreed hnotice hposts honly
    have hdone := finish_changesOnly (s.release d.object d.tag) d .ok
    refine ⟨_, hexec, finish_completed hr h.1 honly (by decide) .ok, (hdone.entry (by decide) _).trans hnone,
      fun m hm => (hdone.entry (by decide) m).trans (hothers m hm), hfreed.congr (hdone .store (by decide)),
      (hdone .notice (by decide)).trans hnotice,
      hposts.congr rfl rfl rfl (hdone .notice (by decide)) (hdone .contention (by decide)),
      (honly.mono (by decide)).trans (hdone.mono (by decide))⟩
  · have hrelease : s.release d.object d.tag = s := by
      unfold State.release
      rw [hp]
      dsimp only
      rw [ho]
    rw [hrelease] at hexec
    exact ⟨_, hexec, fun hsettled => settle_of_settled _ hsettled,
      finish_completed hr h.1 (.refl s []) (by decide) .ok, finish_changesOnly s d .ok⟩

end Sys2Proof.Machine
end


section
/-! PROOF. An allocation: the way that it chooses, the line that it leaves, and the holder that it evicts (R24 to
R26). -/

namespace Sys2Proof.Machine

/-! ## The way -/

section Choose
variable {x : ReplicaSet} {w : Way}

theorem eligible_iff (l : Line) : l.eligible = true ↔ l.pinned = false ∧ l.locked = false := by
  simp [Line.eligible]

/-- What the choice finds, by its cases in their order (R24). -/
theorem choose_cases (x : ReplicaSet) :
    (x.way0.valid = false ∧ x.choose = some .way0)
      ∨ (x.way0.valid = true ∧ x.way1.valid = false ∧ x.choose = some .way1)
      ∨ (x.way0.valid = true ∧ x.way1.valid = true ∧
          ((x.way0.eligible = true ∧ x.way1.eligible = true ∧ x.choose = some x.older)
            ∨ (x.way0.eligible = true ∧ x.way1.eligible = false ∧ x.choose = some .way0)
            ∨ (x.way0.eligible = false ∧ x.way1.eligible = true ∧ x.choose = some .way1)
            ∨ (x.way0.eligible = false ∧ x.way1.eligible = false ∧ x.choose = none))) := by
  unfold ReplicaSet.choose
  cases h0 : x.way0.valid with
  | false => exact .inl ⟨rfl, rfl⟩
  | true =>
    cases h1 : x.way1.valid with
    | false => exact .inr (.inl ⟨rfl, rfl, rfl⟩)
    | true => cases x.way0.eligible <;> cases x.way1.eligible <;> simp

/-- An allocation fails exactly where both ways are valid and marked (R24). -/
theorem choose_none_iff (x : ReplicaSet) : x.choose = none ↔
    ∀ w, (x.line w).valid = true ∧ ((x.line w).pinned = true ∨ (x.line w).locked = true) := by
  have hmarked : ∀ l : Line, l.eligible = false ↔ (l.pinned = true ∨ l.locked = true) := fun l => by
    cases hp : l.pinned <;> cases hl : l.locked <;> simp [Line.eligible, hp, hl]
  have hways : (∀ w, (x.line w).valid = true ∧ ((x.line w).pinned = true ∨ (x.line w).locked = true)) ↔
      (x.way0.valid = true ∧ x.way0.eligible = false) ∧ (x.way1.valid = true ∧ x.way1.eligible = false) := by
    simp only [hmarked]
    exact ⟨fun h => ⟨h .way0, h .way1⟩, fun h w => by cases w; exacts [h.1, h.2]⟩
  rw [hways]
  rcases choose_cases x with ⟨h0, hc⟩ | ⟨h0, h1, hc⟩ | ⟨h0, h1, h⟩
  · simp [h0, hc]
  · simp [h1, hc]
  · rcases h with ⟨e0, e1, hc⟩ | ⟨e0, e1, hc⟩ | ⟨e0, e1, hc⟩ | ⟨e0, e1, hc⟩ <;> simp [h0, h1, e0, e1, hc]

/-- The way that is chosen (R24): an invalid one, way 0 first; else an eligible one, the older of two. -/
theorem choose_some (h : x.choose = some w) :
    (x.way0.valid = false → w = .way0) ∧ (x.way0.valid = true → x.way1.valid = false → w = .way1)
      ∧ ((x.line w).valid = true → (x.line w).eligible = true ∧ ((x.line w.other).eligible = true → w = x.older)) := by
  have hway : ∀ v, x.choose = some v → w = v := fun v hc => Option.some.inj (h.symm.trans hc)
  rcases choose_cases x with ⟨h0, hc⟩ | ⟨h0, h1, hc⟩ | ⟨h0, h1, hm⟩
  · obtain rfl := hway _ hc
    exact ⟨fun _ => rfl, fun hv => absurd hv (by simp [h0]), fun hv => absurd (h0.symm.trans hv) (by simp)⟩
  · obtain rfl := hway _ hc
    exact ⟨fun hv => absurd hv (by simp [h0]), fun _ _ => rfl, fun hv => absurd (h1.symm.trans hv) (by simp)⟩
  · refine ⟨fun hv => absurd hv (by simp [h0]), fun _ hv => absurd hv (by simp [h1]), fun _ => ?_⟩
    rcases hm with ⟨e0, e1, hc⟩ | ⟨e0, e1, hc⟩ | ⟨e0, e1, hc⟩ | ⟨-, -, hc⟩
    · have hboth : ∀ v, (x.line v).eligible = true := fun v => by cases v; exacts [e0, e1]
      exact ⟨hboth w, fun _ => hway _ hc⟩
    · obtain rfl := hway _ hc
      exact ⟨e0, fun he => absurd (e1.symm.trans he) (by simp)⟩
    · obtain rfl := hway _ hc
      exact ⟨e1, fun he => absurd (e0.symm.trans he) (by simp)⟩
    · rw [hc] at h; cases h

end Choose

/-! ## The line and the evicted holder -/

section Allocate
variable {s t : State} {n : Nat} {pinned : Bool} {detail : Nat} {tag : Word16} {w : Way}

/-- An allocation is the eviction of a valid line's holder and then the new line, touched (R24 to R26). -/
theorem allocate_eq (h : s.allocate n pinned detail tag = some (w, t)) :
    ∃ c, (c = if (s.lineAt (setIndex n) w).valid then s.evict (s.lineAt (setIndex n) w) detail tag else s)
      ∧ c.store = s.store ∧ t = c.putSet n (((c.setOf n).putLine w (Line.allocated n pinned)).touch w) := by
  unfold State.allocate at h
  split at h
  · cases h
  · simp only [Option.some.injEq, Prod.mk.injEq] at h
    obtain ⟨rfl, rfl⟩ := h
    refine ⟨_, rfl, ?_, rfl⟩
    split
    · exact evict_changesOnly s _ detail tag .store (by decide)
    · rfl

theorem allocate_none_iff : s.allocate n pinned detail tag = none ↔ (s.setOf n).choose = none := by
  unfold State.allocate
  cases (s.setOf n).choose <;> simp

/-- The set after an allocation (R23, R25). -/
theorem allocate_set (h : s.allocate n pinned detail tag = some (w, t)) :
    t.lineAt (setIndex n) w = Line.allocated n pinned ∧ (t.store.get (setIndex n)).older = w.other
      ∧ s.StoreSameBut t (setIndex n) w := by
  have hline := (allocate_lineAt s n pinned detail tag w t h).2
  obtain ⟨c, -, hstore, rfl⟩ := allocate_eq h
  refine ⟨(hline _ _).trans (if_pos ⟨rfl, rfl⟩),
    (congrArg ReplicaSet.older (putSet_get c n _ _)).trans (by simp), ?_⟩
  refine State.StoreSameBut.of_eq (putSet_sameBut c n w _ ?_) hstore
  rw [ReplicaSet.touch_line, ReplicaSet.putLine_line, if_neg w.other_ne]

/-- The holder of a valid line that is taken (R26, Table 2.4). -/
theorem allocate_evicts (hs : s.StorageCanonical) (h : s.allocate n pinned detail tag = some (w, t))
    {m : Nat} {e : Entry} {c : Consume} (hv : (s.lineAt (setIndex n) w).valid = true)
    (hm : (s.lineAt (setIndex n) w).object = m) (he : s.entry m = some e) (hr : e.role = .consume c) :
    t.entry m = some { e with line := none, role := .consume { c with replica := .absent, lastSeq := none } }
      ∧ (∀ j, j ≠ m → t.entry j = s.entry j)
      ∧ t.notice = (if c.notify = .none then s.notice
          else s.notice.posted (s.valueNotice .evicted m c.binding.station (c.lastSeq.getD 0) detail
            ((s.lineAt (setIndex n) w).payload.take (s.lineAt (setIndex n) w).length) tag))
      ∧ s.AfterPosts t := by
  have hc : s.consume m = some c := s.consume_of_entry m e c he hr
  have hentry := allocate_entry s n pinned detail tag w t h
  rw [hm, hc] at hentry
  have hcut : cutEntry e =
      { e with line := none, role := .consume { c with replica := .absent, lastSeq := none } } := by
    rw [cutEntry, Entry.mapConsume_role e c _ hr]
  refine ⟨by rw [hentry, if_pos ⟨hv, rfl, rfl⟩, he, Option.map_some, hcut], fun j hj => ?_, ?_⟩
  · rw [hentry, if_neg (fun hn => hj hn.2.2)]
  · obtain ⟨a, ha, -, rfl⟩ := allocate_eq h
    rw [if_pos hv, evict_some _ _ _ _ c (by rw [hm]; exact hc)] at ha
    dsimp only at ha
    obtain ⟨h0, h1, h2⟩ := hs.2.1 (setIndex n) w
    have hnotice : s.evictedNotice (s.lineAt (setIndex n) w) c detail tag =
        s.valueNotice .evicted m c.binding.station (c.lastSeq.getD 0) detail
          ((s.lineAt (setIndex n) w).payload.take (s.lineAt (setIndex n) w).length) tag := by
      rw [valueNotice_of_line s _ _ m _ _ _ tag h0 h1 h2, ← hm]
      rfl
    by_cases hq : c.notify = .none
    · rw [if_pos hq] at ha
      rw [if_pos hq, ha]
      exact ⟨rfl, .of_eq rfl rfl⟩
    · rw [if_neg hq, hnotice] at ha
      rw [if_neg hq, ha]
      exact ⟨post_notice _ _,
        (post_afterPosts (s.setDirectory (updateEntry s.directory _ cutEntry)) _).congr rfl rfl rfl rfl rfl⟩

end Allocate

/-- Settles O25, by the cases of the choice and the two steps of an allocation. -/
theorem allocationChoosesAWay : Obligations.AllocationChoosesAWay := by
  intro s n pinned detail tag hs
  refine ⟨allocate_none_iff.trans (choose_none_iff _), fun w t h => ?_⟩
  obtain ⟨hway0, hway1, hvalid⟩ := choose_some (allocate_lineAt s n pinned detail tag w t h).1
  obtain ⟨hline, holder, hsame⟩ := allocate_set h
  refine ⟨hway0, hway1, fun hv => ?_, hline, holder, hsame, fun m e c hv hm he hr => allocate_evicts hs h hv hm he hr,
    fun hv => ?_, (allocate_changesOnly s n pinned detail tag w t h).mono (by decide)⟩
  · obtain ⟨hchosen, hboth⟩ := hvalid hv
    obtain ⟨hp, hl⟩ := (eligible_iff _).mp hchosen
    exact ⟨hp, hl, fun hp' hl' => hboth ((eligible_iff _).mpr ⟨hp', hl'⟩)⟩
  · obtain ⟨c, hc, -, rfl⟩ := allocate_eq h
    rw [hv] at hc
    obtain rfl : c = s := hc
    exact putSet_changesOnly _ _ _

end Sys2Proof.Machine
end


section
/-! PROOF. A claim that is lost: withdrawal of its frames, its slot, its notice and its entry (R60 to R62, R65), and
what posts and withdrawals leave of the other control frames. -/

namespace Sys2Proof.Machine

/-! ## Control frames under posts -/

/-- A HOLD request keeps the places of every frame that is not a HOLD (R130). -/
theorem requestHold_count (c : Contention) (k : Nat) {f : CtlFrame} (hf : f.isHold = false) :
    (c.requestHold k).queue.count f = c.queue.count f := by
  have hne : f ≠ .hold k := by rintro rfl; cases hf
  have relabelled (q : List CtlFrame) : (q.map (fun g => if g.isHold then .hold k else g)).count f = q.count f := by
    rw [List.count_eq_countP, List.count_eq_countP, List.countP_map]
    refine List.countP_congr fun g _ => ?_
    cases hg : g.isHold
    · simp [hg]
    · have hgf : g ≠ f := by rintro rfl; rw [hf] at hg; cases hg
      simp [hg, hgf, hne.symm]
  unfold Contention.requestHold
  split_ifs
  · exact relabelled _
  all_goals simp [hne.symm]

/-- A HOLD request leaves a frame in hand that is not a HOLD. -/
theorem requestHold_inHand (c : Contention) (k : Nat) (h : ∀ m w, c.inHand ≠ some (.control (.hold m) w)) :
    (c.requestHold k).inHand = c.inHand := by
  have hnone : c.holdInHand = false := by
    unfold Contention.holdInHand
    cases hi : c.inHand with
    | none => simp
    | some i =>
      cases i with
      | data records => simp
      | control f w => cases f <;> simp_all [CtlFrame.isHold]
  unfold Contention.requestHold
  rw [hnone, if_neg Bool.false_ne_true]
  split_ifs <;> rfl

section Post
variable (s : State) (x : Notice)

theorem post_count {f : CtlFrame} (hf : f.isHold = false) :
    (s.post x).contention.queue.count f = s.contention.queue.count f := by
  rcases post_contention_cases s x with h | ⟨-, -, -, h⟩
  · rw [h]
  · rw [h]
    exact requestHold_count s.contention _ hf

theorem post_inHand (h : ∀ m w, s.contention.inHand ≠ some (.control (.hold m) w)) :
    (s.post x).contention.inHand = s.contention.inHand := by
  rcases post_contention_cases s x with hc | ⟨-, -, -, hc⟩
  · rw [hc]
  · rw [hc]
    exact requestHold_inHand s.contention _ h

end Post

/-! ## What the report of a claim shows -/

/-- The entry of `n` keeps its line and its committed value, and the store and the time stand. -/
def State.KeepsValue (s t : State) (n : Nat) : Prop :=
  (t.entry n).bind Entry.line = (s.entry n).bind Entry.line
    ∧ (t.produce n).bind Produce.committed = (s.produce n).bind Produce.committed
    ∧ t.store = s.store ∧ t.station = s.station

section KeepsValue
variable {s t u : State} {n : Nat}

theorem State.KeepsValue.trans (h : s.KeepsValue t n) (h' : t.KeepsValue u n) : s.KeepsValue u n := by
  obtain ⟨hline, hcommitted, hstore, hstation⟩ := h
  obtain ⟨hline', hcommitted', hstore', hstation'⟩ := h'
  exact ⟨hline'.trans hline, hcommitted'.trans hcommitted, hstore'.trans hstore, hstation'.trans hstation⟩

/-- A change of the PRODUCE part that keeps the committed value. -/
theorem State.KeepsValue.of_map {f : Produce → Produce} {l : List Block} (h : s.ChangesOnly t l)
    (hl : .store ∉ l ∧ .station ∉ l) (hf : ∀ p, (f p).committed = p.committed)
    (he : t.entry n = (s.entry n).map (Entry.mapProduce f)) : s.KeepsValue t n := by
  refine ⟨?_, ?_, h .store hl.1, h .station hl.2⟩
  · rw [he]
    cases s.entry n <;> simp
  · simp only [State.produce, he]
    cases s.entry n with
    | none => rfl
    | some e =>
      simp only [Option.map_some, Option.bind_some, Entry.mapProduce_produce]
      cases e.produce with
      | none => rfl
      | some p => exact hf p

theorem State.KeepsValue.of_eq {l : List Block} (h : s.ChangesOnly t l) (hl : .store ∉ l ∧ .station ∉ l)
    (he : t.entry n = s.entry n) : s.KeepsValue t n :=
  ⟨by rw [he], by simp only [State.produce, he], h .store hl.1, h .station hl.2⟩

/-- An ownership notice shows nothing else (R74). -/
theorem State.KeepsValue.ownershipNotice (h : s.KeepsValue t n) (kind : NoticeKind) (station : Nat) (cause : Cause)
    (tag : Word16) : t.ownershipNotice n kind station cause tag = s.ownershipNotice n kind station cause tag := by
  obtain ⟨hline, hcommitted, hstore, hstation⟩ := h
  have hobject : t.objectLine n = s.objectLine n := by
    have heq (v : State) : v.objectLine n = ((v.entry n).bind Entry.line).map (v.lineAt (setIndex n)) := by
      cases he : v.entry n with
      | none => simp [State.objectLine, he]
      | some e => exact objectLine_eq v n e he
    have hat : t.lineAt = s.lineAt := by unfold State.lineAt; rw [hstore]
    rw [heq, heq, hline, hat]
  unfold State.ownershipNotice State.stamp
  rw [hcommitted, hobject, hstation]

theorem State.KeepsValue.lineFreed (h : s.KeepsValue t n) (hf : t.LineFreed u n) : s.LineFreed u n :=
  hf.of_eq h.1 h.2.2.1

end KeepsValue

/-! ## The steps of a claim's end -/

section Steps
variable (s : State) (n : Nat)

/-- A withdrawal marks an entry's release at most (R55). -/
theorem withdraw_produce (f : CtlFrame) {p : Produce} (hp : s.produce n = some p) :
    ∃ b, (s.withdraw f).produce n = some { p with releaseQueued := b } := by
  obtain ⟨-, hentries, -⟩ := withdraw_spec s f
  obtain ⟨e, he, hr⟩ := s.produce_entry n p hp
  rcases hentries n with h | h
  · exact ⟨p.releaseQueued, by rw [State.produce, h]; exact hp⟩
  · refine ⟨true, ?_⟩
    rw [State.produce, h, he]
    simp [Entry.mapProduce_role e p _ hr, Entry.produce]

theorem withdraw_keepsValue (f : CtlFrame) : s.KeepsValue (s.withdraw f) n := by
  obtain ⟨honly, hentries, -⟩ := withdraw_spec s f
  rcases hentries n with h | h
  · exact .of_eq honly (by decide) h
  · exact .of_map honly (by decide) (f := fun p => { p with releaseQueued := true }) (fun _ => rfl) h

/-- A withdrawal of an automatic frame leaves the directory and the command-originated frames (R131). -/
theorem withdraw_dispute :
    let t := s.withdraw (.dispute n)
    s.ChangesOnly t [.ownership, .contention]
      ∧ t.ownership.waitList = s.ownership.waitList.filter (· ≠ .dispute n)
      ∧ t.contention.queue.count (.dispute n) = s.contention.queue.count (.dispute n) - 1
      ∧ (∀ m, t.contention.queue.count (.claim m) = s.contention.queue.count (.claim m)) := by
  obtain ⟨honly, -, -, -, -, -, -, more, hqueue, hmore⟩ := withdraw_spec s (.dispute n)
  have hfacts : (s.withdraw (.dispute n)).directory = s.directory
      ∧ (s.withdraw (.dispute n)).ownership.waitList = s.ownership.waitList.filter (· ≠ .dispute n)
      ∧ ∀ f : CtlFrame, f.isHold = false → more.count f = 0 := by
    rcases hmore with ⟨rfl, hwait, hdir⟩ | ⟨hcommand, -⟩ | ⟨-, rfl, hwait, hdir⟩
    · exact ⟨hdir, hwait, fun _ _ => rfl⟩
    · cases hcommand
    · refine ⟨hdir, hwait, fun f hf => List.count_eq_zero.mpr fun hmem => ?_⟩
      obtain ⟨k, -, rfl⟩ : ∃ k, s.contention.pendingHold = some k ∧ CtlFrame.hold k = f := by simpa using hmem
      cases hf
  obtain ⟨hdir, hwait, hnew⟩ := hfacts
  refine ⟨fun b hb => ?_, hwait, ?_, fun m => ?_⟩
  · by_cases hd : b = .directory
    · subst hd
      exact hdir
    · exact honly b (by revert hb hd; cases b <;> decide)
  · rw [hqueue, List.count_append, hnew _ rfl, List.count_erase_self, Nat.add_zero]
  · rw [hqueue, List.count_append, hnew _ rfl, List.count_erase_of_ne (by simp), Nat.add_zero]

/-- Of the wait list only the claim's own frame goes, and at most its head moves on (R55, R65). -/
theorem withdraw_claim (hw : ∀ f ∈ s.ownership.waitList, f.fromCommand = true) :
    let t := s.withdraw (.claim n)
    .claim n ∉ t.ownership.waitList
      ∧ t.contention.queue.count (.claim n) = s.contention.queue.count (.claim n) - 1
      ∧ (∀ m, t.contention.queue.count (.dispute m) = s.contention.queue.count (.dispute m)) := by
  obtain ⟨-, -, -, -, -, -, -, more, hqueue, hmore⟩ := withdraw_spec s (.claim n)
  have hgone : .claim n ∉ s.ownership.waitList.filter (· ≠ .claim n) := by simp
  have hfacts : .claim n ∉ (s.withdraw (.claim n)).ownership.waitList
      ∧ ∀ g ∈ more, g ∈ s.ownership.waitList.filter (· ≠ .claim n) := by
    rcases hmore with ⟨rfl, hwait, -⟩ | ⟨-, rfl, hwait⟩ | ⟨hautomatic, -⟩
    · exact ⟨hwait ▸ hgone, fun g hg => absurd hg List.not_mem_nil⟩
    · exact ⟨fun hmem => hgone (List.mem_of_mem_drop (hwait ▸ hmem)), fun g hg => List.mem_of_mem_take hg⟩
    · cases hautomatic
  obtain ⟨hwait, hmoved⟩ := hfacts
  refine ⟨hwait, ?_, fun m => ?_⟩
  · rw [hqueue, List.count_append, List.count_eq_zero.mpr (fun h => hgone (hmoved _ h)), List.count_erase_self,
      Nat.add_zero]
  · have hnone : more.count (.dispute m) = 0 :=
      List.count_eq_zero.mpr fun h => nomatch hw _ (List.mem_filter.mp (hmoved _ h)).1
    rw [hqueue, List.count_append, hnone, List.count_erase_of_ne (by simp), Nat.add_zero]

/-- A claim's slot is freed (R52). -/
theorem releaseSlot_spec {p : Produce} {k : Fin 4} (hp : s.produce n = some p) (hk : p.claimSlot = some k) :
    let t := s.releaseSlot n
    t.ownership.slots.get k = none ∧ (∀ j, j ≠ k → t.ownership.slots.get j = s.ownership.slots.get j)
      ∧ t.ownership.waitList = s.ownership.waitList
      ∧ (∀ m, m ≠ n → t.entry m = s.entry m) ∧ s.KeepsValue t n := by
  have hslot : s.releaseSlot n = (s.putSlot k none).updProduce n (fun p => { p with claimSlot := none }) := by
    simp [State.releaseSlot, hp, hk]
  have honly := releaseSlot_changesOnly s n
  rw [hslot] at honly ⊢
  refine ⟨(set_get s.ownership.slots k k none).trans (if_pos rfl),
    fun j hj => (set_get s.ownership.slots k j none).trans (if_neg hj), rfl, fun m hm => ?_, ?_⟩
  · rw [State.updProduce_entry, if_neg hm]
    rfl
  · exact .of_map honly (by decide) (f := fun p => { p with claimSlot := none }) (fun _ => rfl)
      (by rw [State.updProduce_entry, if_pos rfl]; rfl)

end Steps

/-! ## A claim that is lost -/

/-- The claim of `n` once its frames are withdrawn and its slot is free (R65). -/
def State.dropClaim (s : State) (n : Nat) : State :=
  ((s.withdraw (.claim n)).withdraw (.dispute n)).releaseSlot n

section DropClaim
variable {s : State} {n : Nat} {p : Produce} {k : Fin 4}

/-- The slot that the claim still names once its frames are withdrawn. -/
theorem releaseSlot_of_withdrawn (hp : s.produce n = some p) (hk : p.claimSlot = some k) :
    let b := (s.withdraw (.claim n)).withdraw (.dispute n)
    (s.dropClaim n).ownership.slots.get k = none
      ∧ (∀ j, j ≠ k → (s.dropClaim n).ownership.slots.get j = b.ownership.slots.get j)
      ∧ (s.dropClaim n).ownership.waitList = b.ownership.waitList
      ∧ (∀ m, m ≠ n → (s.dropClaim n).entry m = b.entry m) ∧ b.KeepsValue (s.dropClaim n) n := by
  obtain ⟨x, hx⟩ := withdraw_produce s n (.claim n) hp
  obtain ⟨y, hy⟩ := withdraw_produce (s.withdraw (.claim n)) n (.dispute n) hx
  exact releaseSlot_spec _ n hy hk

theorem dropClaim_changesOnly (s : State) (n : Nat) :
    s.ChangesOnly (s.dropClaim n) [.directory, .ownership, .contention] :=
  ((withdraw_changesOnly _ _).mono (by decide)).trans
    (((withdraw_changesOnly _ _).mono (by decide)).trans ((releaseSlot_changesOnly _ _).mono (by decide)))

theorem dropClaim_directory (hp : s.produce n = some p) (hk : p.claimSlot = some k) :
    s.KeepsValue (s.dropClaim n) n ∧ s.OthersKept (s.dropClaim n) n := by
  obtain ⟨-, -, -, hothers, hvalue⟩ := releaseSlot_of_withdrawn hp hk
  have hclaim := (withdraw_spec s (.claim n)).2.1
  have hdispute := (withdraw_dispute (s.withdraw (.claim n)) n).1
  refine ⟨((withdraw_keepsValue s n _).trans (withdraw_keepsValue _ n _)).trans hvalue, fun m hm => ?_⟩
  rw [hothers m hm, hdispute.entry (by decide)]
  exact hclaim m

theorem dropClaim_ownership (hw : ∀ f ∈ s.ownership.waitList, f.fromCommand = true) (hp : s.produce n = some p)
    (hk : p.claimSlot = some k) :
    (s.dropClaim n).ownership.slots.get k = none
      ∧ (∀ j, j ≠ k → (s.dropClaim n).ownership.slots.get j = s.ownership.slots.get j)
      ∧ .claim n ∉ (s.dropClaim n).ownership.waitList := by
  obtain ⟨hfree, hslots, hwait, -⟩ := releaseSlot_of_withdrawn hp hk
  obtain ⟨-, -, hclaim, -⟩ := withdraw_spec s (.claim n)
  obtain ⟨-, -, hdispute, -⟩ := withdraw_spec (s.withdraw (.claim n)) (.dispute n)
  refine ⟨hfree, fun j hj => by rw [hslots j hj, hdispute, hclaim], ?_⟩
  rw [hwait, (withdraw_dispute (s.withdraw (.claim n)) n).2.1]
  exact fun hmem => (withdraw_claim s n hw).1 (List.mem_filter.mp hmem).1

/-- Both frames leave the queue. A CLAIM in hand is marked or discarded, and the later withdrawal of the DISPUTE, which
is then not in hand, leaves it so (R64, R65, R128). -/
theorem dropClaim_contention (hw : ∀ f ∈ s.ownership.waitList, f.fromCommand = true) :
    let c := (s.dropClaim n).contention
    c.queue.count (.claim n) = s.contention.queue.count (.claim n) - 1
      ∧ c.queue.count (.dispute n) = s.contention.queue.count (.dispute n) - 1
      ∧ s.WithdrawnInHand (s.dropClaim n) (.claim n) ∧ s.contention.SameButFrames c := by
  have hslot : (s.dropClaim n).contention = ((s.withdraw (.claim n)).withdraw (.dispute n)).contention :=
    releaseSlot_changesOnly _ n .contention (by decide)
  obtain ⟨-, -, -, hsame, -, hhand, -⟩ := withdraw_spec s (.claim n)
  obtain ⟨-, -, -, hsame', -, -, hhand', -⟩ := withdraw_spec (s.withdraw (.claim n)) (.dispute n)
  obtain ⟨-, hclaims, hdisputes⟩ := withdraw_claim s n hw
  obtain ⟨-, -, hdisputes', hclaims'⟩ := withdraw_dispute (s.withdraw (.claim n)) n
  rw [State.WithdrawnInHand, hslot]
  refine ⟨by rw [hclaims', hclaims], by rw [hdisputes', hdisputes], fun w hi => ?_, hsame.trans hsame'⟩
  have hnow := hhand w hi
  have hother : ∀ v, (s.withdraw (.claim n)).contention.inHand ≠ some (.control (.dispute n) v) := by
    intro v
    rw [hnow]
    split <;> simp
  rw [hhand' hother]
  exact hnow

/-- The five steps of a lost claim; the notice shows the value as it stood before them (R65, R74). -/
theorem loseClaim_eq {slot : ClaimSlot} (source : Nat) (cause : Cause) (hp : s.produce n = some p)
    (hk : p.claimSlot = some k) (hslot : s.ownership.slots.get k = some slot) :
    s.loseClaim n source cause =
      ((s.dropClaim n).post (s.ownershipNotice n .claimLost source cause slot.tag)).removeEntry n := by
  have htag : ((s.produce n).map s.slotTag).getD 0 = slot.tag := by
    simp [hp, State.slotTag, State.slotOf, hk, hslot]
  have hnotice := (dropClaim_directory hp hk).1.ownershipNotice .claimLost source cause slot.tag
  rw [← hnotice, ← htag]
  rfl

end DropClaim

/-! ## Items heard at a claim -/

/-- The cause with which an item of a kind ends ownership (Table 4.4). -/
def HeardKind.reason : HeardKind → Cause
  | .data => .data
  | .claim => .claim
  | .dispute => .dispute

theorem HeardKind.reason_code (h : HeardKind) : h.reason.code = h.cause := by cases h <;> rfl

/-- Only a claim is lost (Table 4.2). -/
theorem claiming_of_lost {own source : Nat} {h : HeardKind} {o : Ownership}
    (hlost : heardOutcome own source h o = .lost) :
    o = .claiming := by
  cases o with
  | claiming => rfl
  | owned => cases h <;> simp [heardOutcome, ite_eq_iff] at hlost
  | relinquishing => cases h <;> cases hlost
  | deposed => cases h <;> cases hlost

/-- The turn of an item that Table 4.2 calls lost (R60 to R62). -/
theorem exec_of_lost {s : State} {h : HeardKind} {source n : Nat} {p : Produce} {rest : List Item}
    (hears : s.Hears h source n p rest) (hlost : heardOutcome s.own source h p.ownership = .lost) :
    exec h.command s = .next ((s.setDispatch rest).loseClaim n source h.reason).settle := by
  obtain ⟨it, hnext, hmatch, hp⟩ := hears
  have ho := claiming_of_lost hlost
  cases it with
  | record source' n' rep q payload =>
    obtain ⟨rfl, rfl, rfl⟩ := hmatch
    show execDataRecordAtProduce s = _
    unfold execDataRecordAtProduce
    rw [hnext]
    dsimp only
    rw [hp]
    dsimp only
    rw [State.dataAtProduce, ho]
    rfl
  | claim source' n' =>
    obtain ⟨rfl, rfl, rfl⟩ := hmatch
    have hlower : ¬ s.own < source' := by
      intro hless
      rw [ho, heardOutcome, if_pos hless] at hlost
      cases hlost
    show execClaimHeard s = _
    unfold execClaimHeard
    rw [hnext]
    dsimp only
    rw [hp]
    dsimp only
    rw [State.claimAtProduce, ho]
    dsimp only
    rw [if_neg (show ¬ (s.setDispatch rest).own < source' from hlower)]
    rfl
  | dispute source' n' =>
    obtain ⟨rfl, rfl, rfl⟩ := hmatch
    show execDisputeHeard s = _
    unfold execDisputeHeard
    rw [hnext]
    dsimp only
    rw [hp]
    dsimp only
    rw [State.disputeAtProduce, ho]
    rfl
  | relinquish _ _ => exact hmatch.elim
  | pull _ _ => exact hmatch.elim
  | hold _ _ => exact hmatch.elim

/-- Settles O44: the five steps of R65, each with what it leaves of the frames, the slots, the entries and the line. -/
theorem heardItemsEndAClaim : Obligations.HeardItemsEndAClaim := by
  intro s h source n p rest k slot hs hplaces hears hlost hk hslot
  obtain ⟨-, -, -, hw, -, -⟩ := hplaces
  have hp : s.produce n = some p := hears.choose_spec.2.2
  have hnotice : s.valueNotice .claimLost n source (p.committed.getD 0) h.cause (s.value n) slot.tag =
      (s.setDispatch rest).ownershipNotice n .claimLost source h.reason slot.tag := by
    rw [← h.reason_code]
    exact (ownershipNotice_eq s n p .claimLost source h.reason slot.tag hs hp).symm
  have hwhole : s.ChangesOnly ((s.setDispatch rest).loseClaim n source h.reason)
      [.dispatch, .directory, .store, .ownership, .contention, .notice] :=
    ((setDispatch_changesOnly s rest).mono (by decide)).trans
      ((loseClaim_changesOnly _ n source h.reason).mono (by decide))
  have hdispatch : ((s.setDispatch rest).loseClaim n source h.reason).dispatch = rest :=
    loseClaim_changesOnly (s.setDispatch rest) n source h.reason .dispatch (by decide)
  have hlose := loseClaim_eq (s := s.setDispatch rest) source h.reason hp hk hslot
  obtain ⟨hvalue, hothers⟩ := dropClaim_directory (s := s.setDispatch rest) hp hk
  obtain ⟨hfree, hslots, hwait⟩ := dropClaim_ownership (s := s.setDispatch rest) hw hp hk
  obtain ⟨hclaims, hdisputes, hhand, hsame⟩ := dropClaim_contention (s := s.setDispatch rest) (n := n) hw
  obtain ⟨hnone, hkept, hfreed, honly⟩ := removeEntry_removes ((s.setDispatch rest).dropClaim n |>.post
    ((s.setDispatch rest).ownershipNotice n .claimLost source h.reason slot.tag)) n
  have hposted := (dropClaim_changesOnly (s.setDispatch rest) n) .notice (by decide)
  dsimp only
  rw [hnotice]
  refine ⟨_, exec_of_lost hears hlost, hdispatch, ?_⟩
  rw [hlose] at hwhole ⊢
  have hownership := (honly .ownership (by decide)).trans (post_ownership _ _)
  have hcontention := honly .contention (by decide)
  refine ⟨hnone, fun m hm => ?_, ?_, ?_, fun j hj => ?_, ?_, ?_, ?_, fun w hi => ?_, ?_, ?_,
    ⟨_, _, _, _, withdraw_withdraws _ _, withdraw_withdraws _ _, releaseSlot_freesSlot _ _, post_posts _ _,
      removeEntry_removes _ _⟩, hwhole⟩
  · rw [hkept m hm, post_entry]
    exact hothers m hm
  · exact hvalue.lineFreed (hfreed.of_eq (by rw [post_entry]) (post_store _ _))
  · rw [hownership]
    exact hfree
  · rw [hownership]
    exact hslots j hj
  · rw [hownership]
    exact hwait
  · rw [hcontention, post_count _ _ rfl]
    exact hclaims
  · rw [hcontention, post_count _ _ rfl]
    exact hdisputes
  · have hnow := hhand w hi
    rw [hcontention, post_inHand _ _ fun m v => by rw [hnow]; split <;> simp]
    exact hnow
  · rw [hcontention]
    exact hsame.trans (post_afterPosts _ _).same
  · rw [honly .notice (by decide), post_notice, hposted]
    rfl

end Sys2Proof.Machine
end


section
/-! PROOF. The ends of CLAIM, RELINQUISH, DISPUTE and PULL frames (R56, R64, R73, R127, R128, Table 7.4). -/

namespace Sys2Proof.Machine

/-! ## The two ends of a frame -/

/-- The attempt that a collision counts (R125). -/
def State.counted (s : State) : State :=
  s.setContention { s.contention with attempts := s.contention.attempts + 1 }

section Ends
variable {s : State}

theorem exec_successfulEnd_of_sending (h : s.contention.state = .sending) :
    exec .successfulEnd s = .next (s.setRx s.rx.ownEnd).reportSuccess.dropFrame.settle := by
  show execSuccessfulEnd s = _
  rw [execSuccessfulEnd, if_pos h]

theorem exec_collision_of_limit (h : s.contention.state = .sending)
    (hl : s.cfg.retryLimit < s.contention.attempts + 1) :
    exec .collision s = .next (s.counted.reportAbandonment 1).dropFrame.settle := by
  show execCollision s = _
  rw [execCollision, if_pos h, State.collide]
  dsimp only
  rw [if_pos hl]
  rfl

/-- The reports of the frames with a block that acts on their end (Table 7.4). -/
theorem reports_of_claim {n : Nat} (h : s.contention.inHand = some (.control (.claim n) false)) (cause : Nat) :
    s.reportSuccess = s.beginWindow n ∧ s.reportAbandonment cause = s.failClaim n := by
  unfold State.reportSuccess State.reportAbandonment
  rw [h]
  exact ⟨rfl, rfl⟩

theorem reports_of_relinquish {n : Nat} {w : Bool} (h : s.contention.inHand = some (.control (.relinquish n) w))
    (cause : Nat) :
    s.reportSuccess = s.endRelease n .ok ∧ s.reportAbandonment cause = s.endRelease n .trunkFail := by
  unfold State.reportSuccess State.reportAbandonment
  rw [h]
  exact ⟨rfl, rfl⟩

/-- A DISPUTE, a PULL and a withdrawn CLAIM report nothing (R128, Table 7.4). -/
theorem reports_of_silent {f : CtlFrame} {w : Bool} (h : s.contention.inHand = some (.control f w))
    (hf : ∃ n, f = .dispute n ∨ f = .pull n ∨ f = .claim n ∧ w = true) (cause : Nat) :
    s.reportSuccess = s ∧ s.reportAbandonment cause = s := by
  unfold State.reportSuccess State.reportAbandonment
  obtain ⟨n, rfl | rfl | ⟨rfl, rfl⟩⟩ := hf <;> rw [h] <;> exact ⟨rfl, rfl⟩

end Ends

/-! ## The end of a CLAIM -/

section Claim
variable {s : State} {n : Nat} {p : Produce} {k : Fin 4} {slot : ClaimSlot}

/-- The window of an unmarked CLAIM that is sent begins (R56). -/
theorem beginWindow_eq (hp : s.produce n = some p) (ho : p.ownership = .claiming) (hk : p.claimSlot = some k)
    (hslot : s.ownership.slots.get k = some slot) (hphase : slot.phase = .awaitSend) :
    s.beginWindow n = s.putSlot k (some { slot with phase := .window s.cfg.claimWindow }) := by
  have hof : s.slotOf p = some slot := by rw [State.slotOf, hk, Option.bind_some, hslot]
  unfold State.beginWindow
  rw [hp]
  dsimp only
  rw [ho, hk, hof]
  dsimp only
  rw [if_pos hphase]

/-- The four steps of a failed claim; the notice shows the value as it stood before them (R56, R74). -/
theorem failClaim_steps (hp : s.produce n = some p) (ho : p.ownership = .claiming) (hk : p.claimSlot = some k)
    (hslot : s.ownership.slots.get k = some slot) :
    s.failClaim n = (((s.releaseSlot n).withdraw (.dispute n)).post
      (s.ownershipNotice n .claimFailed noStation .trunkFail slot.tag)).removeEntry n := by
  have htag : s.slotTag p = slot.tag := by simp [State.slotTag, State.slotOf, hk, hslot]
  have hnotice := ((releaseSlot_spec s n hp hk).2.2.2.2.trans (withdraw_keepsValue _ n (.dispute n))).ownershipNotice
    .claimFailed noStation .trunkFail slot.tag
  unfold State.failClaim
  rw [hp]
  dsimp only
  rw [if_pos ho, htag, ← hnotice]
  rfl

theorem failClaim_chain (hp : s.produce n = some p) (ho : p.ownership = .claiming) (hk : p.claimSlot = some k)
    (hslot : s.ownership.slots.get k = some slot) :
    ∃ a b c, s.FreesSlot a n ∧ a.Withdraws b (.dispute n)
      ∧ b.Posts c [s.ownershipNotice n .claimFailed noStation .trunkFail slot.tag] ∧ c.Removes (s.failClaim n) n := by
  rw [failClaim_steps hp ho hk hslot]
  exact ⟨_, _, _, releaseSlot_freesSlot s n, withdraw_withdraws _ _, post_posts _ _, removeEntry_removes _ _⟩

/-- What the failed claim leaves of its slot, its DISPUTE and its entry. -/
theorem failClaim_spec (hp : s.produce n = some p) (ho : p.ownership = .claiming) (hk : p.claimSlot = some k)
    (hslot : s.ownership.slots.get k = some slot) :
    (s.failClaim n).entry n = none ∧ s.LineFreed (s.failClaim n) n ∧ s.OthersKept (s.failClaim n) n
      ∧ (s.failClaim n).ownership.slots.get k = none
      ∧ (s.failClaim n).contention.queue.count (.dispute n) = s.contention.queue.count (.dispute n) - 1
      ∧ (s.failClaim n).notice =
          s.notice.posted (s.ownershipNotice n .claimFailed noStation .trunkFail slot.tag) := by
  obtain ⟨hfree, -, -, hothers, hvalue⟩ := releaseSlot_spec s n hp hk
  have hslots := (withdraw_spec (s.releaseSlot n) (.dispute n)).2.2.1
  obtain ⟨honly, -, hcount, -⟩ := withdraw_dispute (s.releaseSlot n) n
  have hrelease := releaseSlot_changesOnly s n
  rw [failClaim_steps hp ho hk hslot]
  obtain ⟨hnone, hkept, hfreed, hremove⟩ := removeEntry_removes (((s.releaseSlot n).withdraw (.dispute n)).post
    (s.ownershipNotice n .claimFailed noStation .trunkFail slot.tag)) n
  refine ⟨hnone, ?_, fun m hm => .inl ?_, ?_, ?_, ?_⟩
  · exact (hvalue.trans (withdraw_keepsValue _ n _)).lineFreed (hfreed.of_eq (by rw [post_entry]) (post_store _ _))
  · rw [hkept m hm, post_entry, honly.entry (by decide), hothers m hm]
  · rw [(hremove .ownership (by decide)).trans (post_ownership _ _), hslots, hfree]
  · rw [show _ = _ from hremove .contention (by decide), post_count _ _ rfl, hcount,
      show _ = _ from hrelease .contention (by decide)]
  · rw [show _ = _ from hremove .notice (by decide), post_notice, show _ = _ from honly .notice (by decide),
      show _ = _ from hrelease .notice (by decide)]

end Claim

/-! ## The end of a RELINQUISH -/

section Release
variable {s t u v : State} {n : Nat}

/-- A HOLD request does not look at the attempts. -/
theorem requestHold_attempts (c : Contention) (a m : Nat) :
    { c with attempts := a }.requestHold m = { c.requestHold m with attempts := a } := by
  unfold Contention.requestHold Contention.holdInHand
  dsimp only
  split_ifs <;> rfl

theorem tested_attempts (c : Contention) (a : Nat) (life : Life) (r : StartRecord) (b : Nat) :
    ({ c with attempts := a }.tested life r b).ended = (c.tested life r b).ended := by
  unfold Contention.tested
  dsimp only
  split
  · rw [requestHold_attempts]
    rfl
  · rfl

/-- The unit that a frame's end leaves does not depend on the attempts before the report. -/
theorem testedAfter_ended {a : Nat} (hstation : t.station = s.station) (hnotice : t.notice = s.notice)
    (hattempts : t.contention = { s.contention with attempts := a }) (huv : u.notice = v.notice) :
    (t.testedAfter u t.contention).ended = (s.testedAfter v s.contention).ended := by
  unfold State.testedAfter State.cfg
  rw [hstation, hnotice, hattempts, huv]
  split
  · exact tested_attempts _ _ _ _ _
  · rfl

/-- A release ends with its frame: the entry goes, RELINQUISHED is posted, and the hand is empty (R73, R127). -/
theorem endRelease_dropFrame {p : Produce} {tag : Word16} {a : Nat} (cause : Cause) (hs : s.StorageCanonical)
    (hp : s.produce n = some p) (ho : p.ownership = .relinquishing) (hq : p.releaseQueued = true)
    (htag : p.releaseTag = some tag) (ht : s.ChangesOnly t [.rx, .contention])
    (hattempts : t.contention = { s.contention with attempts := a }) :
    let u := (t.endRelease n cause).dropFrame
    u.contention = (s.testedAfter u s.contention).ended ∧ u.rx = t.rx
      ∧ u.entry n = none ∧ s.LineFreed u n ∧ (∀ m, m ≠ n → u.entry m = s.entry m)
      ∧ u.notice = s.notice.posted
          (s.valueNotice .relinquished n noStation (p.committed.getD 0) cause.code (s.value n) tag)
      ∧ s.ChangesOnly u [.rx, .directory, .store, .contention, .notice] := by
  have hstation : t.station = s.station := ht .station (by decide)
  have hnotice : t.notice = s.notice := ht .notice (by decide)
  have hentry := ht.entry (by decide)
  have hpt : t.produce n = some p := by rw [State.produce, hentry]; exact hp
  have hends : t.endRelease n cause = (t.postOwnership n .relinquished noStation cause tag).removeEntry n := by
    unfold State.endRelease
    rw [hpt]
    dsimp only
    rw [if_pos ⟨ho, hq⟩, htag]
    rfl
  have hvalue : t.value n = s.value n := value_congr s t n (hentry n) (ht.lineAt (by decide) _)
  have hwords : t.valueNotice .relinquished n noStation (p.committed.getD 0) cause.code (t.value n) tag =
      s.valueNotice .relinquished n noStation (p.committed.getD 0) cause.code (s.value n) tag := by
    unfold State.valueNotice
    rw [hvalue, hstation]
  obtain ⟨hnone, hothers, hfreed, hposted, hafter, honly⟩ :=
    reportRemove_spec (hs.elsewhere ht (by decide)) hpt .relinquished noStation cause tag
  rw [← hends] at hnone hothers hfreed hposted hafter honly
  have hdrop := dropFrame_changesOnly (t.endRelease n cause)
  refine ⟨?_, honly .rx (by decide), hnone, ?_, fun m hm => (hothers m hm).trans (hentry m), ?_,
    (ht.mono (by decide)).trans ((honly.mono (by decide)).trans (hdrop.mono (by decide)))⟩
  · exact (congrArg Contention.ended hafter).trans (testedAfter_ended hstation hnotice hattempts rfl)
  · exact (hfreed.of_eq (by rw [hentry]) (ht .store (by decide))).congr rfl
  · exact hposted.trans (by rw [hwords, hnotice])

end Release

/-! ## The statement -/

/-- The frame heard is discarded at the end of the own frame (R44). -/
theorem setRx_ownEnd_changesOnly (s : State) : s.ChangesOnly (s.setRx s.rx.ownEnd) [.rx, .contention] :=
  (setRx_changesOnly s _).mono (by decide)

theorem counted_changesOnly (s : State) : s.ChangesOnly s.counted [.contention] := setContention_changesOnly s _

/-- Settles O57, by the frame in hand and its end. -/
theorem claimAndReleaseFramesEnd : Obligations.ClaimAndReleaseFramesEnd := by
  intro s hs hsend heard counted
  have hheard : s.rx.ownEnd = heard := by
    simp only [heard]
    cases s.rx <;> rfl
  refine ⟨fun n p k slot hp hi ho hk hslot hphase => ⟨?_, fun hlimit => ?_⟩,
    fun n p tag w hp hi ho hq htag cmd cause hend => ?_, fun f w hi hf => ⟨?_, fun hlimit => ?_⟩⟩
  · refine ⟨_, exec_successfulEnd_of_sending hsend, ?_⟩
    rw [(reports_of_claim (s := s.setRx s.rx.ownEnd) hi 1).1,
      beginWindow_eq (s := s.setRx s.rx.ownEnd) hp ho hk hslot hphase]
    refine ⟨rfl, hheard, ?_, fun j hj => ?_, rfl, ?_⟩
    · exact (set_get s.ownership.slots k k _).trans (if_pos rfl)
    · exact (set_get s.ownership.slots k j _).trans (if_neg hj)
    · exact ((setRx_changesOnly _ _).mono (by decide)).trans (((putSlot_changesOnly _ _ _).mono (by decide)).trans
        ((dropFrame_changesOnly _).mono (by decide)))
  · have hexec := exec_collision_of_limit hsend hlimit
    rw [(reports_of_claim (s := s.counted) hi 1).2] at hexec
    obtain ⟨hnone, hfreed, hothers, hfree, hcount, hposted⟩ := failClaim_spec (s := s.counted) hp ho hk hslot
    obtain ⟨a, b, c, hslotted, hwithdrawn, hreport, hremoved⟩ := failClaim_chain (s := s.counted) hp ho hk hslot
    have honly := failClaim_changesOnly s.counted n
    intro failed
    have hfailed : s.counted.ownershipNotice n .claimFailed noStation .trunkFail slot.tag = failed :=
      ownershipNotice_eq s n p .claimFailed noStation .trunkFail slot.tag hs hp
    rw [hfailed] at hposted hreport
    generalize s.counted.failClaim n = d at hexec hnone hfreed hothers hfree hcount hposted hremoved honly
    exact ⟨a, b, c, d, d.dropFrame, hexec, hslotted, hwithdrawn, hreport, hremoved, rfl, ⟨rfl, rfl, rfl⟩, hnone,
      hfreed.congr rfl, hothers, hfree, fun _ => hcount, hposted, ((counted_changesOnly s).mono (by decide)).trans
        (honly.trans ((dropFrame_changesOnly d).mono (by decide)))⟩
  · rcases hend with ⟨rfl, rfl⟩ | ⟨rfl, hlimit, rfl⟩
    · have hexec := exec_successfulEnd_of_sending hsend
      rw [(reports_of_relinquish (s := s.setRx s.rx.ownEnd) hi 1).1] at hexec
      obtain ⟨hc, hrx, hrest⟩ := endRelease_dropFrame (t := s.setRx s.rx.ownEnd) .ok hs hp ho hq htag
        (setRx_ownEnd_changesOnly s) rfl
      exact ⟨_, hexec, hc, hrx.trans (by rw [if_pos rfl]; exact hheard), hrest⟩
    · have hexec := exec_collision_of_limit hsend hlimit
      rw [(reports_of_relinquish (s := s.counted) hi 1).2] at hexec
      obtain ⟨hc, hrx, hrest⟩ := endRelease_dropFrame (t := s.counted) .trunkFail hs hp ho hq htag
        ((counted_changesOnly s).mono (by decide)) rfl
      exact ⟨_, hexec, hc, hrx.trans (by rw [if_neg (by decide)]; rfl), hrest⟩
  · refine ⟨_, exec_successfulEnd_of_sending hsend, ?_⟩
    rw [(reports_of_silent (s := s.setRx s.rx.ownEnd) hi hf 1).1]
    exact ⟨rfl, hheard, (setRx_ownEnd_changesOnly s).trans ((dropFrame_changesOnly _).mono (by decide))⟩
  · refine ⟨_, exec_collision_of_limit hsend hlimit, ?_⟩
    rw [(reports_of_silent (s := s.counted) hi hf 1).2]
    exact ⟨rfl, (counted_changesOnly s).trans (dropFrame_changesOnly _)⟩

end Sys2Proof.Machine
end

section
/-! PROOF. The receive states as carrier, the first byte and the header bytes come (R36, R42, R120, Tables 3.2 and 3.5). -/

namespace Sys2Proof.Machine

/-- The headers that Table 3.5 rules out, by kind and body length (R42). -/
theorem headerBad_iff (b1 b2 : Byte) : headerBad b1 b2 = true ↔
    b1.toNat / 32 = 0 ∨ b1.toNat / 32 = 7 ∨ 128 < b2.toNat
      ∨ (b1.toNat / 32 = 1 ∧ b2 = 0) ∨ (b1.toNat / 32 ≠ 1 ∧ b2 ≠ 2) := by
  have hzero : b2.toNat = 0 ↔ b2 = 0 := by rw [BitVec.toNat_eq]; rfl
  have htwo : b2.toNat = 2 ↔ b2 = 2 := by rw [BitVec.toNat_eq]; rfl
  have hbody : Config.maxBody < b2.toNat ↔ 128 < b2.toNat := Iff.rfl
  simp [headerBad, headerKind, kindData, hbody, hzero, htwo, or_assoc]

section Line
variable (s : State)

/-- Carrier comes to the Receive Path and to a deferral (R36, R120). -/
theorem exec_carrierBegins_of_absent (h : s.contention.carrier = false) :
    exec .carrierBegins s = .next ((s.setRx s.rx.carrierBegins).setContention
      { s.contention with carrier := true, quiet := false, state := s.contention.state.carrierBegins }) := by
  show execCarrierBegins s = _
  rw [execCarrierBegins, h]
  rfl

theorem exec_firstByteCollected_of_collecting (b : Byte) (h : s.rx = .listen true) :
    exec (.firstByteCollected b) s = .next (s.setRx (if b = Config.opener then .frame RxFrame.opened else .skip)) := by
  show execFirstByteCollected b s = _
  rw [execFirstByteCollected, h]

theorem exec_headerFieldsComplete_of_opened (f : RxFrame) (b1 b2 : Byte) (h : s.rx = .frame f) (hf : f.header = none) :
    exec (.headerFieldsComplete b1 b2) s = .next (s.setRx (if headerBad b1 b2 then .skip
      else .frame { f with header := some (b1, b2), crc := crcRun f.crc [b1, b2], expected := b2.toNat + 2 })) := by
  show execHeaderFieldsComplete b1 b2 s = _
  rw [execHeaderFieldsComplete, h]
  dsimp only
  rw [hf]

end Line

/-- The line's happenings change the Receive Path and the Contention Unit alone. -/
theorem setRx_setContention_changesOnly (s : State) (x : Rx) (c : Contention) :
    s.ChangesOnly ((s.setRx x).setContention c) [.rx, .contention] :=
  ((setRx_changesOnly s x).mono (by decide)).trans ((setContention_changesOnly _ c).mono (by decide))

/-- Settles O35, by the receive state and the contention state that each happening finds. -/
theorem receiveStatesFollowTheLine : Obligations.ReceiveStatesFollowTheLine := by
  intro s
  refine ⟨fun hcarrier => ?_, ?_, fun b hrx => ?_, fun f b1 b2 hrx hheader => ?_⟩
  · refine ⟨_, exec_carrierBegins_of_absent s hcarrier, ?_, ?_, setRx_setContention_changesOnly s _ _⟩
    · show s.rx.carrierBegins = _
      cases s.rx <;> rfl
    · show { s.contention with carrier := true, quiet := false, state := s.contention.state.carrierBegins } = _
      cases s.contention.state <;> rfl
  · refine ⟨_, rfl, ?_, rfl, fun hcarrier => ?_, setRx_setContention_changesOnly s _ _⟩
    · show s.rx.carrierAbsent = _
      cases s.rx <;> rfl
    · show (s.contention.quiet && !s.contention.carrier) = false
      rw [hcarrier, Bool.not_true, Bool.and_false]
  · exact ⟨_, exec_firstByteCollected_of_collecting s b hrx, rfl, setRx_changesOnly s _⟩
  · refine ⟨_, exec_headerFieldsComplete_of_opened s f b1 b2 hrx hheader, ?_, setRx_changesOnly s _⟩
    simp only [setRx_rx, headerBad_iff]

end Sys2Proof.Machine
end

section
/-! PROOF. The ends of the station's own HOLD frames (R127, R134, R135, Table 7.6). -/

namespace Sys2Proof.Machine

/-- The unit with its own hold in a state, and an expiry (Table 7.5). -/
def Contention.withHold (c : Contention) (h : OwnHold) (expiry : Nat) : Contention :=
  { c with ownHold := h, ownExpiry := expiry, expiryOwed := false }

section Hold
variable {s : State} {n : Nat}

theorem setOwnHold_contention (s : State) (h : OwnHold) (expiry : Nat) :
    (s.setOwnHold h expiry).contention = s.contention.withHold h expiry := rfl

/-- Both ends of a HOLD frame are reported to the own hold (Table 7.4). -/
theorem reports_of_hold {w : Bool} (h : s.contention.inHand = some (.control (.hold n) w)) (cause : Nat) :
    s.reportSuccess = s.holdSucceeded n ∧ s.reportAbandonment cause = s.holdAbandoned n := by
  unfold State.reportSuccess State.reportAbandonment
  rw [h]
  exact ⟨rfl, rfl⟩

/-- The high-mark test of an own hold that has become OFF (R134). -/
theorem holdOff_contention (s : State) : (s.setOwnHold .off 0).highMarkTest.dropFrame.contention =
    ((s.contention.withHold .off 0).tested s.station.life s.cfg s.notice.backlog.length).ended :=
  congrArg Contention.ended (highMarkTest_contention (s.setOwnHold .off 0))

theorem holdOff_changesOnly (s : State) :
    s.ChangesOnly (s.setOwnHold .off 0).highMarkTest.dropFrame [.contention] :=
  (setContention_changesOnly s _).trans ((highMarkTest_changesOnly _).trans (dropFrame_changesOnly _))

/-- HOLD_STARTED is posted while the own hold is ON, so that it asks for no HOLD (R134). -/
theorem holdStarted_spec (s : State) (x : Notice) (expiry : Nat) :
    let u := ((s.setOwnHold .on expiry).post x).dropFrame
    u.contention = (s.contention.withHold .on expiry).ended ∧ u.notice = s.notice.posted x
      ∧ s.ChangesOnly u [.contention, .notice] :=
  ⟨congrArg Contention.ended (post_contention_quiet (s.setOwnHold .on expiry) x (.inl nofun)), post_notice _ x,
    ((setContention_changesOnly s _).mono (by decide)).trans (((post_changesOnly _ x).mono (by decide)).trans
      ((dropFrame_changesOnly _).mono (by decide)))⟩

/-- The test at the post of HOLD_ENDED and the test of the hold that is OFF make one test (R134). -/
theorem holdEnded_spec (s : State) (x : Notice) :
    let u := ((s.setOwnHold .off 0).post x).highMarkTest.dropFrame
    u.contention = ((s.contention.withHold .off 0).tested s.station.life s.cfg u.notice.backlog.length).ended
      ∧ u.notice = s.notice.posted x ∧ s.ChangesOnly u [.contention, .notice] := by
  have hnotice : ((s.setOwnHold .off 0).post x).highMarkTest.notice = s.notice.posted x := by
    rw [highMarkTest_notice, post_notice]
    rfl
  refine ⟨?_, hnotice, ?_⟩
  · refine congrArg Contention.ended ?_
    have hposted : ((s.setOwnHold .off 0).post x).notice = s.notice.posted x := post_notice _ x
    rw [highMarkTest_contention, post_cfg, post_station, post_afterPosts, State.testedAfter, hposted,
      setOwnHold_contention]
    show _ = (s.contention.withHold .off 0).tested s.station.life s.cfg _
    rw [show (((s.setOwnHold .off 0).post x).highMarkTest.dropFrame).notice = s.notice.posted x from hnotice]
    split
    · exact tested_tested _ _ _ _ _ le_rfl
    · rfl
  · exact ((setContention_changesOnly s _).mono (by decide)).trans (((post_changesOnly _ x).mono (by decide)).trans
      (((highMarkTest_changesOnly _).mono (by decide)).trans ((dropFrame_changesOnly _).mono (by decide))))

end Hold

/-- Settles O58, by the state of the own hold that each end finds. -/
theorem ownHoldFollowsItsFrames : Obligations.OwnHoldFollowsItsFrames := by
  intro s n w hsend hi on off
  refine ⟨⟨_, exec_successfulEnd_of_sending hsend, ?_⟩, fun hlimit => ⟨_, exec_collision_of_limit hsend hlimit, ?_⟩⟩
  · have hrx := (setRx_changesOnly s s.rx.ownEnd).mono (l' := [.rx, .contention]) (by decide)
    have hdrop := (dropFrame_changesOnly (s.setRx s.rx.ownEnd)).mono (l' := [.rx, .contention]) (by decide)
    rw [(reports_of_hold (s := s.setRx s.rx.ownEnd) hi 1).1]
    constructor
    · rw [show _ = _ from dropFrame_changesOnly _ .rx (by decide),
        show _ = _ from holdSucceeded_changesOnly _ _ .rx (by decide)]
      show s.rx.ownEnd = _
      cases s.rx <;> rfl
    · unfold State.holdSucceeded
      rw [setRx_contention]
      cases s.contention.ownHold with
      | off => exact ⟨rfl, hrx.trans hdrop⟩
      | on => exact ⟨rfl, hrx.trans hdrop⟩
      | starting =>
        obtain ⟨hc, hn, honly⟩ := holdStarted_spec (s.setRx s.rx.ownEnd)
          (s.stationNotice .holdStarted s.own 0 0) s.cfg.holdLength
        exact ⟨hc, hn, (hrx.mono (by decide)).trans (honly.mono (by decide))⟩
      | renewing =>
        exact ⟨rfl, hrx.trans (((setContention_changesOnly _ _).mono (by decide)).trans
          ((dropFrame_changesOnly _).mono (by decide)))⟩
      | stopping =>
        dsimp only
        split
        · exact ⟨holdOff_contention (s.setRx s.rx.ownEnd), hrx.trans ((holdOff_changesOnly _).mono (by decide))⟩
        · exact ⟨rfl, hrx.trans hdrop⟩
  · have hcount := counted_changesOnly s
    have hdrop := hcount.trans (dropFrame_changesOnly s.counted)
    have hoff : s.counted.ChangesOnly (s.counted.setOwnHold .off 0).highMarkTest.dropFrame [.contention] ∧
        (s.counted.setOwnHold .off 0).highMarkTest.dropFrame.contention =
          (off.tested s.station.life s.cfg s.notice.backlog.length).ended :=
      ⟨holdOff_changesOnly _, (holdOff_contention s.counted).trans (tested_attempts off _ _ _ _)⟩
    rw [(reports_of_hold (s := s.counted) hi 1).2]
    unfold State.holdAbandoned
    rw [show s.counted.contention.ownHold = s.contention.ownHold from rfl]
    cases s.contention.ownHold with
    | off => exact ⟨rfl, hdrop⟩
    | on => exact ⟨rfl, hdrop⟩
    | starting => exact ⟨hoff.2, hcount.trans hoff.1⟩
    | renewing =>
      obtain ⟨hc, hn, honly⟩ := holdEnded_spec s.counted (s.stationNotice .holdEnded s.own 2 0)
      exact ⟨hc.trans (tested_attempts off _ _ _ _), hn, (hcount.mono (by decide)).trans honly⟩
    | stopping =>
      dsimp only
      split
      · exact ⟨hoff.2, hcount.trans hoff.1⟩
      · exact ⟨rfl, hdrop⟩

end Sys2Proof.Machine
end

section
/-! PROOF. The ends of a DATA frame: its records commit at success, and return to the queue at abandonment (R89 to R91,
R125 to R127). -/

namespace Sys2Proof.Machine

/-! ## The entries that records reach -/

/-- A change of the marked part leaves the entry that a record does not reach. -/
theorem map_of_reached_none {s : State} {r : TxRecord} (h : s.reached r = none) (K : Produce → Produce) :
    (s.entry r.object).map (Entry.mapProduce (fun p => if p.marks r = true then K p else p)) = s.entry r.object := by
  refine map_id_of _ _ fun e he => ?_
  cases hr : e.role with
  | consume c => simp only [Entry.mapProduce, hr]
  | produce p =>
    have hunmarked : ¬ p.marks r = true := fun hm => by
      have hreached := (reached_some s r p).mpr ⟨State.produce_of_entry _ _ _ _ he hr, hm⟩
      rw [h] at hreached
      cases hreached
    simp only [Entry.mapProduce, hr, if_neg hunmarked]
    rw [← hr]

theorem produce_of_map {s t : State} {n : Nat} {p : Produce} {f : Produce → Produce} (hp : s.produce n = some p)
    (h : t.entry n = (s.entry n).map (Entry.mapProduce f)) : t.produce n = some (f p) := by
  obtain ⟨e, he, hr⟩ := s.produce_entry n p hp
  have hpart : e.produce = some p := by rw [Entry.produce, hr]
  rw [State.produce, h, he, Option.map_some, Option.bind_some, Entry.mapProduce_produce, hpart, Option.map_some]

/-- One change for each record that reaches its entry; the others leave theirs (05 section 5.6). -/
theorem PerRec.fold_reached {F : State → TxRecord → State} {K : TxRecord → Produce → Produce}
    (h : PerRec F (fun r p => if p.marks r = true then K r p else p)) {l : List TxRecord}
    (hl : (l.map TxRecord.object).Nodup) (t : State) :
    (∀ x ∈ l, ∀ p, t.reached x = some p → (l.foldl F t).produce x.object = some (K x p))
      ∧ (∀ x ∈ l, t.reached x = none → (l.foldl F t).entry x.object = t.entry x.object) := by
  obtain ⟨-, hentry, -⟩ := h.fold l t
  refine ⟨fun x hx p hp => ?_, fun x hx hnone => (hentry hl x hx).trans (map_of_reached_none hnone (K x))⟩
  obtain ⟨hp, hm⟩ := (reached_some t x p).mp hp
  rw [produce_of_map hp (hentry hl x hx), if_pos hm]

/-! ## The two ends -/

section Ends
variable {s : State} {records : List TxRecord}

theorem reports_of_data (h : s.contention.inHand = some (.data records)) (cause : Nat) :
    s.reportSuccess = records.foldl State.commitRecord s
      ∧ s.reportAbandonment cause = (s.returnRecords records).postAbandoned records cause := by
  unfold State.reportSuccess State.reportAbandonment
  rw [h]
  exact ⟨rfl, rfl⟩

/-- Only a frame longer than the collision window meets a late collision (R124, R126). -/
theorem exec_lateCollision_of_data (hsend : s.contention.state = .sending)
    (hi : s.contention.inHand = some (.data records)) (hlong : 17 < (InHand.data records).body.length + 5) :
    exec .lateCollision s = .next (s.reportAbandonment 2).dropFrame.settle := by
  show execLateCollision s = _
  rw [execLateCollision, pastWindow_of_inHand s _ hi]
  exact if_pos ⟨hsend, decide_eq_true hlong⟩

/-- What the abandonment of a DATA frame leaves, whatever the attempts are (R90, R91). -/
theorem abandonRecords_spec (first : TxRecord) (more : List TxRecord) (hn : ((first :: more).map TxRecord.object).Nodup)
    (attempts cause : Nat) :
    let u := (((s.setContention { s.contention with attempts := attempts }).returnRecords
      (first :: more)).postAbandoned (first :: more) cause).dropFrame
    u.contention = (s.testedAfter u s.contention).ended
      ∧ (∀ x ∈ first :: more, ∀ p, s.reached x = some p → u.produce x.object = some { p with
          inFlight := .no, pending := p.pending || !x.rep
          queued := if p.ownership = .owned ∧ p.queued = .no then .yes x.rep else p.queued })
      ∧ (∀ x ∈ first :: more, s.reached x = none → u.entry x.object = s.entry x.object)
      ∧ (∀ m, m ∉ (first :: more).map TxRecord.object → u.entry m = s.entry m)
      ∧ u.pubQueue = ((first :: more).filter s.returns).map
          (fun x => { object := x.object, rep := x.rep : PubItem }) ++ s.pubQueue
      ∧ u.notice = s.notice.posted (s.valueNotice .txAbandoned first.object s.own first.seq cause first.payload 0)
      ∧ s.ChangesOnly u [.directory, .pubQueue, .contention, .notice] := by
  set t := s.setContention { s.contention with attempts := attempts }
  obtain ⟨hqueue, honly, hothers, -⟩ := returnRecords_spec t (first :: more)
  obtain ⟨hreached, hunreached⟩ := return_perRec.fold_reached hn (t.setPubQueue
    (((first :: more).filter t.returns).map (fun x => { object := x.object, rep := x.rep : PubItem }) ++ t.pubQueue))
  change ∀ x ∈ _, ∀ p, s.reached x = some p → (t.returnRecords (first :: more)).produce x.object = _ at hreached
  change ∀ x ∈ _, s.reached x = none → (t.returnRecords (first :: more)).entry x.object = s.entry x.object at hunreached
  generalize t.returnRecords (first :: more) = v at *
  have hstation : v.station = s.station := honly .station (by decide)
  have hnotice : v.notice = s.notice := honly .notice (by decide)
  have hwords : v.valueNotice .txAbandoned first.object v.own first.seq cause first.payload 0 =
      s.valueNotice .txAbandoned first.object s.own first.seq cause first.payload 0 := by
    unfold State.valueNotice State.own State.cfg
    rw [hstation]
  intro u
  have hu : u = (v.post (s.valueNotice .txAbandoned first.object s.own first.seq cause first.payload 0)).dropFrame := by
    rw [← hwords]
    rfl
  have hdrop := dropFrame_changesOnly (v.post
    (s.valueNotice .txAbandoned first.object s.own first.seq cause first.payload 0))
  rw [← hu] at hdrop
  have hentry : ∀ m, u.entry m = v.entry m := fun m => (hdrop.entry (by decide) m).trans (post_entry _ _ m)
  refine ⟨?_, fun x hx p hp => ?_, fun x hx hp => (hentry _).trans (hunreached x hx hp),
    fun m hm => (hentry m).trans (hothers m hm), ?_, ?_, ?_⟩
  · rw [hu]
    exact (congrArg Contention.ended (post_afterPosts v _)).trans
      (testedAfter_ended hstation hnotice (honly .contention (by decide)) rfl)
  · rw [State.produce, hentry]
    exact hreached x hx p hp
  · rw [show _ = _ from hdrop .pubQueue (by decide), post_pubQueue, hqueue]
    rfl
  · rw [show _ = _ from hdrop .notice (by decide), post_notice, hnotice]
  · exact ((setContention_changesOnly s _).mono (by decide)).trans ((honly.mono (by decide)).trans
      (((post_changesOnly v _).mono (by decide)).trans (hdrop.mono (by decide))))

end Ends

/-- Settles O56, by the two ends of the frame. -/
theorem dataFramesCommitOrReturn : Obligations.DataFramesCommitOrReturn := by
  intro s records hq hsend hi
  have hn := hq.2.1 records hi
  refine ⟨⟨_, exec_successfulEnd_of_sending hsend, ?_⟩, ?_⟩
  · rw [(reports_of_data (s := s.setRx s.rx.ownEnd) hi 1).1]
    obtain ⟨hothers, -, honly⟩ := commit_perRec.fold records (s.setRx s.rx.ownEnd)
    obtain ⟨hreached, hunreached⟩ := commit_perRec.fold_reached hn (s.setRx s.rx.ownEnd)
    refine ⟨congrArg Contention.ended (honly .contention (by decide)), ?_, hreached, hunreached, hothers, ?_⟩
    · refine Eq.trans (honly .rx (by decide)) ?_
      show s.rx.ownEnd = _
      cases s.rx <;> rfl
    · exact ((setRx_changesOnly s _).mono (by decide)).trans ((honly.mono (by decide)).trans
        ((dropFrame_changesOnly _).mono (by decide)))
  · rintro cmd cause first more rfl hend
    rcases hend with ⟨rfl, hlimit, rfl⟩ | ⟨rfl, hlong, rfl⟩
    · refine ⟨_, exec_collision_of_limit hsend hlimit, ?_⟩
      rw [(reports_of_data (s := s.counted) hi 1).2]
      exact abandonRecords_spec first more hn (s.contention.attempts + 1) 1
    · refine ⟨_, exec_lateCollision_of_data hsend hi hlong, ?_⟩
      rw [(reports_of_data hi 2).2]
      exact abandonRecords_spec first more hn s.contention.attempts 2

end Sys2Proof.Machine
end

section
/-! PROOF. Every command answers a next state with the queue of commands as it was (R41, R141, R160, R177): command by
command, from the blocks that the operations of each can change. -/

namespace Sys2Proof.Machine

/-- The outcome is a next state in which the same commands wait. -/
def State.KeepsQueue (s : State) (o : Host.Outcome State Fault Refusal) : Prop :=
  ∃ t, o = .next t ∧ t.pending = s.pending

theorem State.ChangesOnly.pending {s t : State} {l : List Block} (h : s.ChangesOnly t l) (hl : .pending ∉ l) :
    t.pending = s.pending := h .pending hl

theorem State.KeepsQueue.next {s t : State} (h : t.pending = s.pending) : s.KeepsQueue (.next t) := ⟨t, rfl, h⟩

theorem State.KeepsQueue.of_changesOnly {s t : State} {l : List Block} (h : s.ChangesOnly t l) (hl : .pending ∉ l) :
    s.KeepsQueue (.next t) := .next (h.pending hl)

/-- A command whose happening cannot take place (log 1). -/
theorem State.KeepsQueue.self (s : State) : s.KeepsQueue (.next s) := .next rfl

/-- The end of a happening waits for no command (R119, R146). -/
theorem State.KeepsQueue.settled {s t : State} {l : List Block} (h : s.ChangesOnly t l) (hl : .pending ∉ l) :
    s.KeepsQueue (.next t.settle) := .next ((settle_pending t).trans (h.pending hl))

section Commands
variable (s : State)

/-! ## The host port -/

section Port
variable {s}

/-- What follows a register access (R176). -/
theorem State.KeepsQueue.register {via : SpiVia} {w : Bool} {a : Nat} {t u : State}
    (h : s.registerByte via w a = some t) (hu : u.pending = t.pending) : s.KeepsQueue (.next u) :=
  .next (hu.trans ((registerByte_changesOnly _ _ _ _ _ h).pending (by decide)))

end Port

theorem started_pending (r : StartRecord) : (s.started r).pending = s.pending := rfl

theorem startRequest_pending : s.startRequest.pending = s.pending := by
  have hread := setPort_pending s (s.port.engineReads 0 Config.startRecordEnd).2.drain
  unfold State.startRequest
  dsimp only
  split
  · exact (setStation_pending _ _).trans hread
  · exact (started_pending _ _).trans hread

theorem scanRequest_pending : s.scanRequest.pending = s.pending := by
  unfold State.scanRequest
  split_ifs <;> rfl

theorem releaseNotices_pending (k : Nat) : (s.releaseNotices k).pending = s.pending := by
  unfold State.releaseNotices
  split <;> rfl

theorem execSoftReset_keepsQueue (via : SpiVia) : s.KeepsQueue (execSoftReset via s) := by
  unfold execSoftReset
  split
  · exact .self s
  · next ht => exact .register ht rfl

theorem execStart_keepsQueue (via : SpiVia) (during : List RamByte) : s.KeepsQueue (execStart via s during) := by
  unfold execStart
  split
  · exact .self s
  · next ht =>
    dsimp only
    split
    · exact .register ht (startRequest_pending _)
    · exact .register ht rfl

theorem execCmdAdvance_keepsQueue (via : SpiVia) (value : Byte) : s.KeepsQueue (execCmdAdvance via value s) := by
  unfold execCmdAdvance
  split
  · exact .self s
  · next ht => exact .register ht (scanRequest_pending _)

theorem execNoticeTaken_keepsQueue (via : SpiVia) (k : Byte) : s.KeepsQueue (execNoticeTaken via k s) := by
  unfold execNoticeTaken
  split
  · exact .self s
  · next ht => exact .register ht (releaseNotices_pending _ _)

theorem execTickHighByteRead_keepsQueue (via : SpiVia) : s.KeepsQueue (execTickHighByteRead via s) := by
  unfold execTickHighByteRead
  split
  · exact .self s
  · next ht => exact .register ht rfl

theorem execRegisterWriteIgnored_keepsQueue (via : SpiVia) (addr : Nat) (value : Byte) :
    s.KeepsQueue (execRegisterWriteIgnored via addr value s) := by
  unfold execRegisterWriteIgnored
  split
  · split
    · exact .self s
    · next ht => exact .register ht rfl
  · exact .self s

/-! ## The command ring -/

section Ring
variable {s}

/-- A completion is a write of shared RAM and an advance of the index (R158). -/
theorem perform_pending (d : Descriptor) (checks : List (Bool × Status)) {carryOut : State → State}
    (h : (carryOut s).pending = s.pending) : (s.perform d checks carryOut).pending = s.pending := by
  unfold State.perform
  split
  · exact (finish_changesOnly _ _ _).pending (by decide)
  · exact h

/-- A command of the ring, taken and refused or carried out (R157, R160). -/
theorem State.KeepsQueue.perform {code : Byte} {d : Descriptor} {t : State} (h : s.takingCode code = some (d, t))
    (checks : List (Bool × Status)) {carryOut : State → State} (hc : (carryOut t).pending = t.pending) :
    s.KeepsQueue (.next (t.perform d checks carryOut)) :=
  .next ((perform_pending d checks hc).trans ((takingCode_changesOnly _ _ _ _ h).pending (by decide)))

theorem complete_pending {t : State} {l : List Block} (h : s.ChangesOnly t l) (hl : .pending ∉ l) (status : Status)
    (flags : Byte) (length detail : Nat) : (t.complete status flags length detail).pending = s.pending :=
  ((complete_changesOnly _ _ _ _ _).pending (by decide)).trans (h.pending hl)

theorem finish_pending {t : State} {l : List Block} (h : s.ChangesOnly t l) (hl : .pending ∉ l) (d : Descriptor)
    (status : Status) : (t.finish d status).pending = s.pending := complete_pending h hl _ _ _ _

/-- A change, its completion, and the end of the happening. -/
theorem finish_settle_pending {t : State} {l : List Block} (h : s.ChangesOnly t l) (hl : .pending ∉ l) (d : Descriptor)
    (status : Status) : (t.finish d status).settle.pending = s.pending :=
  (settle_pending _).trans (finish_pending h hl d status)

end Ring

theorem execExamination_keepsQueue : s.KeepsQueue (execExamination s) := by
  unfold execExamination
  dsimp only
  split_ifs
  · exact .self s
  all_goals exact .next rfl

theorem execBadCommand_keepsQueue : s.KeepsQueue (execBadCommand s) := by
  unfold execBadCommand
  split
  · exact .self s
  · next ht =>
    split
    · exact .self s
    · exact .next ((finish_changesOnly _ _ _).pending (by decide) |>.trans
        ((taking_changesOnly _ _ _ ht).pending (by decide)))

theorem execSubscribe_keepsQueue : s.KeepsQueue (execSubscribe s) := by
  unfold execSubscribe
  split
  · exact .self s
  · next ht => exact .perform ht _ rfl

theorem execUnsubscribe_keepsQueue : s.KeepsQueue (execUnsubscribe s) := by
  unfold execUnsubscribe
  split
  · exact .self s
  · next ht => exact .perform ht _ (finish_pending (removeEntry_changesOnly _ _) (by decide) _ _)

theorem execUnbind_keepsQueue : s.KeepsQueue (execUnbind s) := by
  unfold execUnbind
  split
  · exact .self s
  · next ht => exact .perform ht _ rfl

theorem execLock_keepsQueue : s.KeepsQueue (execLock s) := by
  unfold execLock
  split
  · exact .self s
  · next ht => exact .perform ht _ (finish_pending (markLocked_changesOnly _ _ _) (by decide) _ _)

theorem execUnlock_keepsQueue : s.KeepsQueue (execUnlock s) := by
  unfold execUnlock
  split
  · exact .self s
  · next ht => exact .perform ht _ (finish_pending (markLocked_changesOnly _ _ _) (by decide) _ _)

theorem execPull_keepsQueue : s.KeepsQueue (execPull s) := by
  unfold execPull
  split
  · exact .self s
  · next ht => exact .perform ht _ (finish_settle_pending (placeCommand_changesOnly _ _) (by decide) _ _)

theorem execClaim_keepsQueue : s.KeepsQueue (execClaim s) := by
  unfold execClaim
  split
  · exact .self s
  · next ht => exact .perform ht _ (finish_settle_pending (takeClaim_changesOnly _ _) (by decide) _ _)

theorem execRelinquish_keepsQueue : s.KeepsQueue (execRelinquish s) := by
  unfold execRelinquish
  split
  · exact .self s
  · next ht => exact .perform ht _ (finish_settle_pending (release_changesOnly _ _ _) (by decide) _ _)

theorem execWrite_keepsQueue : s.KeepsQueue (execWrite s) := by
  unfold execWrite
  split
  · exact .self s
  · next t ht =>
    refine .perform ht _ (finish_settle_pending (l := [.directory, .store, .pubQueue, .port]) ?_ (by decide) _ _)
    exact ((setPort_changesOnly _ _).mono (by decide)).trans ((stage_changesOnly _ _ _).mono (by decide))

theorem execRead_keepsQueue : s.KeepsQueue (execRead s) := by
  unfold execRead
  split
  · exact .self s
  · next ht => exact .perform ht _ ((readLine_changesOnly _ _).pending (by decide))

theorem execSnapshot_keepsQueue : s.KeepsQueue (execSnapshot s) := by
  unfold execSnapshot
  split
  · exact .self s
  · next ht => exact .perform ht _ (complete_pending (setPort_changesOnly _ _) (by decide) _ _ _ _)

theorem execLeave_keepsQueue : s.KeepsQueue (execLeave s) := by
  unfold execLeave
  split
  · exact .self s
  · next ht => exact .perform ht _ (finish_settle_pending (beginLeave_changesOnly _ _) (by decide) _ _)

theorem execRejoin_keepsQueue : s.KeepsQueue (execRejoin s) := by
  unfold execRejoin
  split
  · exact .self s
  · next ht => exact .perform ht _ rfl

/-! ## The line and the dispatched items -/

theorem clash_changesOnly : s.ChangesOnly s.clash
    [.station, .pubQueue, .directory, .store, .ownership, .contention, .notice] := by
  unfold State.clash
  split
  case h_5 | h_6 => exact .refl _ _
  all_goals exact enterMuted_changesOnly s

theorem execCarrierBegins_keepsQueue : s.KeepsQueue (execCarrierBegins s) := by
  unfold execCarrierBegins
  split
  · exact .self s
  · exact .next rfl

theorem execFrameEnd_keepsQueue (bytes : List Byte) : s.KeepsQueue (execFrameEnd bytes s) := by
  unfold execFrameEnd
  split
  · split
    · unfold State.frameEnd
      split
      · exact .next rfl
      · split_ifs
        · exact .next rfl
        · exact .next ((clash_changesOnly _).pending (by decide))
        · exact .next rfl
    · exact .self s
  · exact .self s

theorem execFirstByteCollected_keepsQueue (byte : Byte) : s.KeepsQueue (execFirstByteCollected byte s) := by
  unfold execFirstByteCollected
  split <;> exact .next rfl

theorem execHeaderFieldsComplete_keepsQueue (b1 b2 : Byte) : s.KeepsQueue (execHeaderFieldsComplete b1 b2 s) := by
  unfold execHeaderFieldsComplete
  split
  · split <;> exact .next rfl
  · exact .self s

section Dispatch
variable {s}

/-- An item at the block that it is handed to, its turn over. -/
theorem State.KeepsQueue.dispatched {rest : List Item} {t : State} {l : List Block}
    (h : (s.setDispatch rest).ChangesOnly t l) (hl : .pending ∉ l) : s.KeepsQueue (.next t.settle) :=
  .next ((settle_pending t).trans (h.pending hl))

/-- The turn of an ignored item. -/
theorem State.KeepsQueue.ignored : s.KeepsQueue (.next s.dropIgnored) := .next rfl

end Dispatch

theorem requestDispute_changesOnly (n : Nat) : s.ChangesOnly (s.requestDispute n) [.contention] :=
  setContention_changesOnly _ _

theorem dataAtProduce_changesOnly (n source : Nat) (p : Produce) : s.ChangesOnly (s.dataAtProduce n source p)
    [.pubQueue, .directory, .store, .ownership, .contention, .notice] := by
  unfold State.dataAtProduce
  split
  · exact (loseClaim_changesOnly _ _ _ _).mono (by decide)
  · split
    · exact (depose_changesOnly _ _ _ _).mono (by decide)
    · exact (requestDispute_changesOnly _ _).mono (by decide)
  all_goals exact .refl _ _

theorem claimAtProduce_changesOnly (n source : Nat) (p : Produce) : s.ChangesOnly (s.claimAtProduce n source p)
    [.directory, .store, .ownership, .contention, .notice] := by
  unfold State.claimAtProduce
  split
  · split
    · exact (requestDispute_changesOnly _ _).mono (by decide)
    · exact loseClaim_changesOnly _ _ _ _
  · exact (requestDispute_changesOnly _ _).mono (by decide)
  all_goals exact .refl _ _

theorem disputeAtProduce_changesOnly (n source : Nat) (p : Produce) : s.ChangesOnly (s.disputeAtProduce n source p)
    [.pubQueue, .directory, .store, .ownership, .contention, .notice] := by
  unfold State.disputeAtProduce
  split
  · exact (loseClaim_changesOnly _ _ _ _).mono (by decide)
  · split
    · exact (depose_changesOnly _ _ _ _).mono (by decide)
    · exact (requestDispute_changesOnly _ _).mono (by decide)
  all_goals exact .refl _ _

theorem relinquishAtConsume_changesOnly (n source : Nat) (c : Consume) :
    s.ChangesOnly (s.relinquishAtConsume n source c) [.directory, .contention, .notice] := by
  unfold State.relinquishAtConsume
  split
  · exact ((updConsume_changesOnly _ _ _).mono (by decide)).trans ((post_changesOnly _ _).mono (by decide))
  · exact .refl _ _

theorem pullAtProduce_changesOnly (n : Nat) (p : Produce) :
    s.ChangesOnly (s.pullAtProduce n p) [.pubQueue, .directory] := by
  unfold State.pullAtProduce
  split
  · exact appendRepeat_changesOnly _ _
  · exact .refl _ _

theorem execDataRecordAtConsume_keepsQueue : s.KeepsQueue (execDataRecordAtConsume s) := by
  unfold execDataRecordAtConsume
  split
  · split
    · exact .dispatched (judgeRecord_changesOnly _ _ _ _ _ _ _) (by decide)
    · exact .ignored
  · exact .ignored

theorem execDataRecordAtProduce_keepsQueue : s.KeepsQueue (execDataRecordAtProduce s) := by
  unfold execDataRecordAtProduce
  split
  · split
    · exact .dispatched (dataAtProduce_changesOnly _ _ _ _) (by decide)
    · exact .ignored
  · exact .ignored

theorem execClaimHeard_keepsQueue : s.KeepsQueue (execClaimHeard s) := by
  unfold execClaimHeard
  split
  · split
    · exact .dispatched (claimAtProduce_changesOnly _ _ _ _) (by decide)
    · exact .ignored
  · exact .ignored

theorem execDisputeHeard_keepsQueue : s.KeepsQueue (execDisputeHeard s) := by
  unfold execDisputeHeard
  split
  · split
    · exact .dispatched (disputeAtProduce_changesOnly _ _ _ _) (by decide)
    · exact .ignored
  · exact .ignored

theorem execRelinquishHeardAtProduce_keepsQueue : s.KeepsQueue (execRelinquishHeardAtProduce s) := by
  unfold execRelinquishHeardAtProduce
  split
  · split
    · exact .next rfl
    · exact .ignored
  · exact .ignored

theorem execRelinquishHeardAtConsume_keepsQueue : s.KeepsQueue (execRelinquishHeardAtConsume s) := by
  unfold execRelinquishHeardAtConsume
  split
  · split
    · exact .dispatched (relinquishAtConsume_changesOnly _ _ _ _) (by decide)
    · exact .ignored
  · exact .ignored

theorem execPullHeard_keepsQueue : s.KeepsQueue (execPullHeard s) := by
  unfold execPullHeard
  split
  · split
    · exact .dispatched (pullAtProduce_changesOnly _ _ _) (by decide)
    · exact .ignored
  · exact .ignored

theorem execHoldHeard_keepsQueue : s.KeepsQueue (execHoldHeard s) := by
  unfold execHoldHeard
  split
  · split
    · exact .dispatched (setContention_changesOnly _ _) (by decide)
    · exact .next rfl
  · exact .ignored

/-! ## The timers -/

theorem execSlotBoundary_keepsQueue : s.KeepsQueue (execSlotBoundary s) := by
  unfold execSlotBoundary
  split
  · exact .self s
  · exact .of_changesOnly (l := [.station, .directory, .ownership, .pubQueue, .contention, .notice])
      ((carryOutSlots_changesOnly s).trans ((slotBoundary_changesOnly _).mono (by decide))) (by decide)

theorem execGrant_keepsQueue (slot : Nat) : s.KeepsQueue (execGrant slot s) := by
  unfold execGrant
  split
  · exact .of_changesOnly (windowEnds_changesOnly _ _) (by decide)
  · exact .self s

theorem execTick_keepsQueue (late : List Nat) (timerLate : Bool) : s.KeepsQueue (execTick s late timerLate) := by
  unfold execTick
  split
  · exact .self s
  · exact .of_changesOnly (l := [.station, .directory, .pubQueue, .contention, .notice])
      ((carryOutTicks_changesOnly s).trans ((tickAll_changesOnly _ _ _).mono (by decide))) (by decide)

theorem execRefreshExpiry_keepsQueue (n : Nat) : s.KeepsQueue (execRefreshExpiry n s) := by
  unfold execRefreshExpiry
  split
  · exact .self s
  · exact .of_changesOnly (tickEntry_changesOnly s n) (by decide)

theorem execAgeExpiry_keepsQueue (n : Nat) : s.KeepsQueue (execAgeExpiry n s) := by
  unfold execAgeExpiry
  split
  · exact .self s
  · exact .of_changesOnly (tickEntry_changesOnly s n) (by decide)

/-! ## The Contention Unit and the placements -/

theorem execQuietReached_keepsQueue : s.KeepsQueue (execQuietReached s) := by
  unfold execQuietReached
  split <;> exact .next rfl

theorem execDeferralSlot_keepsQueue : s.KeepsQueue (execDeferralSlot s) := by
  unfold execDeferralSlot
  split
  · split <;> exact .next rfl
  · exact .self s

theorem execDeferralEnd_keepsQueue : s.KeepsQueue (execDeferralEnd s) := by
  unfold execDeferralEnd
  split
  · exact .settled (chooseFrame_changesOnly s) (by decide)
  · exact .self s

theorem execCollision_keepsQueue : s.KeepsQueue (execCollision s) := by
  unfold execCollision
  split
  · exact .settled (collide_changesOnly s) (by decide)
  · exact .self s

theorem execLateCollision_keepsQueue : s.KeepsQueue (execLateCollision s) := by
  unfold execLateCollision
  split
  · exact .settled ((reportAbandonment_changesOnly s 2).trans ((dropFrame_changesOnly _).mono (by decide))) (by decide)
  · exact .self s

theorem execSuccessfulEnd_keepsQueue : s.KeepsQueue (execSuccessfulEnd s) := by
  unfold execSuccessfulEnd
  split
  · exact .next ((settle_pending _).trans ((reportSuccess_changesOnly (s.setRx s.rx.ownEnd)).pending (by decide)))
  · exact .self s

theorem writeNotice_changesOnly (n : Notice) : s.ChangesOnly (s.writeNotice n) [.port, .notice] :=
  ((setPort_changesOnly _ _).mono (by decide)).trans ((setNotice_changesOnly _ _).mono (by decide))

theorem leaveBacklog_changesOnly (rest : List Notice) :
    s.ChangesOnly (s.leaveBacklog rest) [.notice, .contention] := by
  have hplaced (u : NoticeUnit) : s.ChangesOnly (s.setNotice u) [.notice, .contention] :=
    (setNotice_changesOnly s u).mono (by decide)
  unfold State.leaveBacklog
  split
  · exact (hplaced _).trans (reportFall_changesOnly _ _)
  · exact (hplaced _).trans ((reportFall_changesOnly _ _).trans ((highMarkTest_changesOnly _).mono (by decide)))

theorem execPlacement_keepsQueue : s.KeepsQueue (execPlacement s) := by
  unfold execPlacement
  split
  · exact .self s
  · split
    · exact .settled (l := [.port, .notice, .contention]) (((writeNotice_changesOnly s _).mono (by decide)).trans
        (((leaveBacklog_changesOnly _ _).mono (by decide)).trans ((setNotice_changesOnly _ _).trans
          (setNotice_changesOnly _ _) |>.mono (by decide)))) (by decide)
    · exact .self s

end Commands

/-- Settles O2, command by command. -/
theorem everyCommandAnswersNext : Obligations.EveryCommandAnswersNext := by
  intro c s
  change s.KeepsQueue (exec c s)
  cases c with
  | hardReset => exact .next rfl
  | softReset via => exact execSoftReset_keepsQueue s via
  | start via during => exact execStart_keepsQueue s via during
  | cmdAdvance via value => exact execCmdAdvance_keepsQueue s via value
  | noticeTaken via k => exact execNoticeTaken_keepsQueue s via k
  | tickHighByteRead via => exact execTickHighByteRead_keepsQueue s via
  | registerWriteIgnored via addr value => exact execRegisterWriteIgnored_keepsQueue s via addr value
  | sharedRamWrite via addr value turn => exact .next rfl
  | examination => exact execExamination_keepsQueue s
  | badCommand => exact execBadCommand_keepsQueue s
  | subscribe => exact execSubscribe_keepsQueue s
  | unsubscribe => exact execUnsubscribe_keepsQueue s
  | claim => exact execClaim_keepsQueue s
  | relinquish => exact execRelinquish_keepsQueue s
  | write => exact execWrite_keepsQueue s
  | read => exact execRead_keepsQueue s
  | pull => exact execPull_keepsQueue s
  | lock => exact execLock_keepsQueue s
  | unlock => exact execUnlock_keepsQueue s
  | unbind => exact execUnbind_keepsQueue s
  | snapshot => exact execSnapshot_keepsQueue s
  | leave => exact execLeave_keepsQueue s
  | rejoin => exact execRejoin_keepsQueue s
  | carrierBegins => exact execCarrierBegins_keepsQueue s
  | carrierAbsent => exact .next rfl
  | frameEnd bytes => exact execFrameEnd_keepsQueue s bytes
  | dataRecordAtConsume => exact execDataRecordAtConsume_keepsQueue s
  | dataRecordAtProduce => exact execDataRecordAtProduce_keepsQueue s
  | claimHeard => exact execClaimHeard_keepsQueue s
  | disputeHeard => exact execDisputeHeard_keepsQueue s
  | relinquishHeardAtProduce => exact execRelinquishHeardAtProduce_keepsQueue s
  | relinquishHeardAtConsume => exact execRelinquishHeardAtConsume_keepsQueue s
  | pullHeard => exact execPullHeard_keepsQueue s
  | holdHeard => exact execHoldHeard_keepsQueue s
  | slotBoundary => exact execSlotBoundary_keepsQueue s
  | grant slot => exact execGrant_keepsQueue s slot
  | holdEntryRunsOut => exact .of_changesOnly (lastFall_changesOnly s) (by decide)
  | ownHoldExpires => exact .of_changesOnly (ownHoldEnds_changesOnly s) (by decide)
  | joinPeriodEnd => exact .of_changesOnly (joinEnds_changesOnly s) (by decide)
  | tick late timerLate => exact execTick_keepsQueue s late timerLate
  | refreshExpiry object => exact execRefreshExpiry_keepsQueue s object
  | ageExpiry object => exact execAgeExpiry_keepsQueue s object
  | coalescingExpiry => exact .of_changesOnly (tickTimer_changesOnly s) (by decide)
  | quietReached => exact execQuietReached_keepsQueue s
  | deferralSlot => exact execDeferralSlot_keepsQueue s
  | deferralEnd => exact execDeferralEnd_keepsQueue s
  | collision => exact execCollision_keepsQueue s
  | lateCollision => exact execLateCollision_keepsQueue s
  | successfulEnd => exact execSuccessfulEnd_keepsQueue s
  | placement => exact execPlacement_keepsQueue s
  | firstByteCollected byte => exact execFirstByteCollected_keepsQueue s byte
  | headerFieldsComplete byte1 byte2 => exact execHeaderFieldsComplete_keepsQueue s byte1 byte2
  | resetNReleased => exact .next rfl

end Sys2Proof.Machine
end

section
/-! PROOF. The CRC's division (R40). -/

namespace Sys2Proof.Machine

/-! ## One step of the division -/

/-- A step without a bit taken: the bit that leaves returns at the powers of the generator. -/
theorem crcShift_getLsbD (r : Word16) {i : Nat} (hi : i < 16) : (crcShift r).getLsbD i =
    if i = 0 then r.getLsbD 15 else if i = 5 ∨ i = 12 then r.getLsbD (i - 1) ^^ r.getLsbD 15
      else r.getLsbD (i - 1) := by
  have hmsb : r.msb = r.getLsbD 15 := by simp [BitVec.msb_eq_getLsbD_last]
  have hgenerator : ∀ i < 16, (0x1021 : Word16).getLsbD i = decide (i = 0 ∨ i = 5 ∨ i = 12) := by decide
  have hshift : (r <<< 1).getLsbD i = (!decide (i = 0) && r.getLsbD (i - 1)) := by
    rw [BitVec.getLsbD_shiftLeft]
    simp [hi]
  unfold crcShift
  rw [hmsb]
  cases r.getLsbD 15
  · rw [if_neg Bool.false_ne_true, hshift]
    by_cases h0 : i = 0 <;> simp [h0]
  · rw [if_pos rfl, BitVec.getLsbD_xor, hshift, hgenerator i hi]
    by_cases h0 : i = 0
    · simp [h0]
    · by_cases h5 : i = 5 ∨ i = 12 <;> simp [h0, h5]

/-- The division loses nothing. -/
theorem crcShift_injective : Function.Injective crcShift := by
  intro r t h
  have hbit : ∀ i < 16, (crcShift r).getLsbD i = (crcShift t).getLsbD i := fun i _ => by rw [h]
  have htop : r.getLsbD 15 = t.getLsbD 15 := by
    have h0 := hbit 0 (by decide)
    rwa [crcShift_getLsbD r (by decide), crcShift_getLsbD t (by decide), if_pos rfl, if_pos rfl] at h0
  refine BitVec.eq_of_getLsbD_eq fun i hi => ?_
  by_cases hlast : i = 15
  · rw [hlast]; exact htop
  · have hnext := hbit (i + 1) (by omega)
    rw [crcShift_getLsbD r (by omega), crcShift_getLsbD t (by omega), htop] at hnext
    simp only [Nat.add_one_ne_zero, if_false, Nat.add_sub_cancel] at hnext
    split at hnext
    · exact (Bool.xor_left_inj).mp hnext
    · exact hnext

/-! ## One byte of the division -/

/-- A byte at the upper end of the register, as the division takes it. -/
def atTop (b : Byte) : Word16 := b.setWidth 16 <<< 8

theorem crcByte_eq (r : Word16) (b : Byte) : crcByte r b = crcShift^[8] (r ^^^ atTop b) := rfl

/-- The register once `k` bits of a byte have been taken: the division runs on with the whole byte added at its start,
and this is what it holds without the bits still to come. -/
def bitsTaken (r : Word16) (b : Byte) (k : Nat) : Word16 := crcShift^[k] (r ^^^ atTop b) ^^^ (b.setWidth 16 <<< (8 + k))

theorem bitsTaken_zero (r : Word16) (b : Byte) : bitsTaken r b 0 = r := by
  simp [bitsTaken, atTop]

theorem bitsTaken_eight (r : Word16) (b : Byte) : bitsTaken r b 8 = crcByte r b := by
  have hgone : b.setWidth 16 <<< (8 + 8) = (0 : Word16) := BitVec.shiftLeft_eq_zero (by decide)
  rw [bitsTaken, hgone, crcByte_eq]
  exact BitVec.xor_zero

/-- The bits come most significant first (R40). -/
theorem bitsTaken_takesBit (r : Word16) (b : Byte) {k : Nat} (hk : k < 8) :
    CrcTakesBit (bitsTaken r b k) (b.getLsbD (7 - k)) (bitsTaken r b (k + 1)) := by
  intro i hi
  have hnext : (b.setWidth 16 <<< (8 + (k + 1)) : Word16).getLsbD i
      = (!decide (i = 0) && (b.setWidth 16 <<< (8 + k) : Word16).getLsbD (i - 1)) := by
    simp only [BitVec.getLsbD_shiftLeft, BitVec.getLsbD_setWidth]
    by_cases h0 : i = 0
    · simp [h0]
    · rw [show i - (8 + (k + 1)) = i - 1 - (8 + k) by omega,
        show decide (i < 8 + (k + 1)) = decide (i - 1 < 8 + k) by simp; omega]
      simp [h0, hi, show i - 1 < 16 by omega]
  have htop : (b.setWidth 16 <<< (8 + k) : Word16).getLsbD 15 = b.getLsbD (7 - k) := by
    simp only [BitVec.getLsbD_shiftLeft, BitVec.getLsbD_setWidth, show 15 - (8 + k) = 7 - k by omega]
    simp [show ¬ 15 < 8 + k by omega, show 7 - k < 16 by omega]
  have hfed : ((bitsTaken r b k).getLsbD 15 ^^ b.getLsbD (7 - k)) = (crcShift^[k] (r ^^^ atTop b)).getLsbD 15 := by
    simp only [bitsTaken, BitVec.getLsbD_xor, htop, Bool.xor_assoc, Bool.xor_self, Bool.xor_false]
  rw [hfed]
  simp only [bitsTaken, BitVec.getLsbD_xor, hnext, Function.iterate_succ_apply', crcShift_getLsbD _ hi]
  by_cases h0 : i = 0
  · simp [h0]
  · by_cases h5 : i = 5 ∨ i = 12
    · simp only [if_neg h0, if_pos h5, decide_eq_false h0, Bool.not_false, Bool.true_and]
      rw [Bool.xor_right_comm]
    · simp [h0, h5]

/-! ## The register after two check bytes -/

theorem crcShift_iterate_zero (k : Nat) : crcShift^[k] 0 = 0 :=
  Function.iterate_fixed (by decide) k

/-- A register whose upper byte is clear shifts without feedback. -/
theorem crcShift_iterate_low (b : Byte) {k : Nat} (hk : k ≤ 8) : crcShift^[k] (b.setWidth 16) = b.setWidth 16 <<< k := by
  induction k with
  | zero => simp
  | succ k ih =>
    have htop : (b.setWidth 16 <<< k : Word16).msb = false := by
      rw [BitVec.msb_eq_getLsbD_last, BitVec.getLsbD_shiftLeft, BitVec.getLsbD_setWidth,
        BitVec.getLsbD_of_ge b _ (by omega)]
      simp
    rw [Function.iterate_succ_apply', ih (by omega), crcShift, htop, if_neg Bool.false_ne_true, BitVec.shiftLeft_add]

theorem crcByte_eq_zero_iff (r : Word16) (b : Byte) : crcByte r b = 0 ↔ r = atTop b := by
  rw [crcByte_eq, ← crcShift_iterate_zero 8, (crcShift_injective.iterate 8).eq_iff]
  exact BitVec.xor_eq_zero_iff

theorem atTop_xor_toNat (high low : Byte) :
    (low.setWidth 16 ^^^ atTop high : Word16).toNat = number high low := by
  have happend : (low.setWidth 16 ^^^ atTop high : Word16) = high ++ low := by
    refine BitVec.eq_of_getLsbD_eq fun i hi => ?_
    simp only [atTop, BitVec.getLsbD_xor, BitVec.getLsbD_shiftLeft, BitVec.getLsbD_setWidth, BitVec.getLsbD_append, hi]
    by_cases hlow : i < 8
    · simp [hlow]
    · simp [hlow, BitVec.getLsbD_of_ge low i (by omega), show i - 8 < 16 by omega]
  rw [happend, BitVec.toNat_append, ← Nat.shiftLeft_add_eq_or_of_lt low.isLt, Nat.shiftLeft_eq]
  rfl

/-- Two bytes carry a number exactly when they are its bytes (R181). -/
theorem number_eq_iff (high low : Byte) {n : Nat} (hn : n < 65536) : number high low = n ↔ [high, low] = twoBytes n := by
  have := high.isLt
  have := low.isLt
  simp only [twoBytes, List.cons.injEq, and_true, BitVec.toNat_eq, highByte, byteOf, BitVec.toNat_ofNat, number]
  omega

/-- Two bytes bring the register to 0 exactly when they are what it holds, high byte first (R40). -/
theorem crcRun_two_eq_zero_iff (r : Word16) (high low : Byte) :
    crcRun r [high, low] = 0 ↔ [high, low] = twoBytes r.toNat := by
  have hlow : crcShift^[8] (low.setWidth 16) = atTop low := crcShift_iterate_low low le_rfl
  calc crcRun r [high, low] = 0
      ↔ crcByte r high = atTop low := crcByte_eq_zero_iff _ _
    _ ↔ r ^^^ atTop high = low.setWidth 16 := by rw [crcByte_eq, ← hlow, (crcShift_injective.iterate 8).eq_iff]
    _ ↔ r = low.setWidth 16 ^^^ atTop high := by
        constructor
        · intro h; rw [← h, BitVec.xor_assoc, BitVec.xor_self, BitVec.xor_zero]
        · intro h; rw [h, BitVec.xor_assoc, BitVec.xor_self, BitVec.xor_zero]
    _ ↔ number high low = r.toNat := by rw [BitVec.toNat_eq, atTop_xor_toNat, eq_comm]
    _ ↔ [high, low] = twoBytes r.toNat := number_eq_iff _ _ r.isLt

theorem crcRun_append (r : Word16) (a b : List Byte) : crcRun r (a ++ b) = crcRun (crcRun r a) b := List.foldl_append

theorem crcRun_checked_iff (bytes : List Byte) (high low : Byte) :
    crcRun crcStart (bytes ++ [high, low]) = 0 ↔ [high, low] = twoBytes (crcOf bytes).toNat := by
  rw [crcRun_append]
  exact crcRun_two_eq_zero_iff _ _ _

end Sys2Proof.Machine
end

section
/-! PROOF. A frame as it is driven, and what its receiver makes of it (R35 to R42, R88, R129, Tables 11.3 to 11.5). -/

namespace Sys2Proof.Machine

theorem byteOf_toNat {n : Nat} (h : n < 256) : (byteOf n).toNat = n := Nat.mod_eq_of_lt h

/-! ## Kind and length -/

theorem InHand.kind_bounds (f : InHand) : 1 ≤ f.kind ∧ f.kind ≤ 6 := by
  cases f with
  | control g w => cases g <;> simp [InHand.kind, CtlFrame.kind]
  | data records => simp [InHand.kind, kindData]

theorem dataBody_length (records : List TxRecord) :
    (InHand.data records).body.length = (records.map (fun r => 4 + r.payload.length)).sum := by
  simp only [InHand.body, List.length_flatMap]
  congr 1
  refine List.map_congr_left fun r _ => ?_
  simp only [TxRecord.bytes, List.length_append, List.length_cons, List.length_nil]

theorem wellFormed_data {records : List TxRecord} (h : (InHand.data records).wellFormed = true) :
    records ≠ [] ∧ records.length ≤ 8 ∧ (∀ r ∈ records, r.object < 4096 ∧ r.payload.length ≤ 64)
      ∧ (records.map (fun r => 4 + r.payload.length)).sum ≤ 128 := by
  simpa [InHand.wellFormed, and_assoc] using h

theorem body_length_bounds {f : InHand} (h : f.wellFormed = true) : f.body.length ≤ 128
    ∧ (f.kind = 1 → f.body.length ≠ 0) ∧ (f.kind ≠ 1 → f.body.length = 2) := by
  cases f with
  | control g w => exact ⟨by simp [InHand.body, twoBytes], by cases g <;> nofun, fun _ => rfl⟩
  | data records =>
    obtain ⟨hne, -, -, hsum⟩ := wellFormed_data h
    obtain ⟨r, more, rfl⟩ := List.exists_cons_of_ne_nil hne
    rw [dataBody_length]
    refine ⟨hsum, fun _ => ?_, fun hk => absurd rfl hk⟩
    rw [List.map_cons, List.sum_cons]
    omega

/-! ## The frame as it is driven -/

section Driven
variable {f : InHand} {source : Nat}

theorem bytes_eq (f : InHand) (source : Nat) : f.bytes source = Config.opener :: byteOf (f.kind * 32 + source)
    :: byteOf f.body.length :: (f.body ++ twoBytes (crcOf (f.covered source)).toNat) := rfl

theorem firstByte_toNat (f : InHand) (hs : source < 32) :
    (byteAt (f.bytes source) 1).toNat = 32 * f.kind + source := by
  have := f.kind_bounds
  exact (byteOf_toNat (by omega)).trans (by omega)

theorem secondByte_toNat (hf : f.wellFormed = true) : (byteAt (f.bytes source) 2).toNat = f.body.length :=
  byteOf_toNat (Nat.lt_of_le_of_lt (body_length_bounds hf).1 (by decide))

/-- The header of a frame that the spec allows passes (R42). -/
theorem header_passes (hf : f.wellFormed = true) (hs : source < 32) :
    headerBad (byteAt (f.bytes source) 1) (byteAt (f.bytes source) 2) = false := by
  obtain ⟨hlength, hdata, hcontrol⟩ := body_length_bounds hf
  have hkind := f.kind_bounds
  have hfirst : (byteAt (f.bytes source) 1).toNat / 32 = f.kind := by rw [firstByte_toNat f hs]; omega
  have hsecond := secondByte_toNat (source := source) hf
  rw [Bool.eq_false_iff, Ne, headerBad_iff, hfirst, hsecond]
  rintro (h | h | h | ⟨h, hzero⟩ | ⟨h, htwo⟩)
  · omega
  · omega
  · omega
  · rw [hzero] at hsecond
    exact hdata h hsecond.symm
  · exact htwo (BitVec.eq_of_toNat_eq (hsecond.trans (hcontrol h)))

end Driven

/-! ## Its items -/

/-- A record is read as it is driven (R39, Table 11.5). -/
theorem parseRecords_cons (source fuel : Nat) (r : TxRecord) (rest : List Byte) (ho : r.object < 4096)
    (hp : r.payload.length ≤ 64) : parseRecords source (fuel + 1) (r.bytes ++ rest) =
      (parseRecords source fuel rest).map (.record source r.object r.rep r.seq r.payload :: ·) := by
  have hhigh : (byteOf (r.object / 16)).toNat = r.object / 16 := byteOf_toNat (by omega)
  have hlow : (byteOf (r.object % 16 * 16 + if r.rep then 8 else 0)).toNat =
      r.object % 16 * 16 + if r.rep then 8 else 0 := byteOf_toNat (by split <;> omega)
  have hlength : (byteOf r.payload.length).toNat = r.payload.length := byteOf_toNat (by omega)
  have hobject : r.object / 16 * 16 + (r.object % 16 * 16 + if r.rep then 8 else 0) / 16 = r.object := by
    split <;> omega
  have hrep : ((r.object % 16 * 16 + if r.rep then 8 else 0) / 8 % 2 == 1) = r.rep := by
    cases r.rep <;> simp <;> omega
  simp only [TxRecord.bytes, List.cons_append, List.nil_append, parseRecords, hhigh, hlow, hlength, hobject, hrep,
    List.take_left, List.drop_left]
  refine if_pos ⟨by split <;> omega, hp, ?_⟩
  rw [List.length_append]
  omega

theorem parseRecords_of_records (source : Nat) (records : List TxRecord) {fuel : Nat} (hfuel : records.length ≤ fuel)
    (h : ∀ r ∈ records, r.object < 4096 ∧ r.payload.length ≤ 64) :
    parseRecords source fuel (records.flatMap TxRecord.bytes) =
      some (records.map (fun r => .record source r.object r.rep r.seq r.payload)) := by
  induction records generalizing fuel with
  | nil => rw [List.flatMap_nil, parseRecords]; rfl
  | cons r more ih =>
    obtain ⟨fuel, rfl⟩ := Nat.exists_eq_add_one_of_ne_zero (Nat.ne_zero_of_lt hfuel)
    obtain ⟨ho, hp⟩ := h r (by simp)
    rw [List.flatMap_cons, parseRecords_cons source fuel r _ ho hp,
      ih (Nat.le_of_succ_le_succ hfuel) (fun x hx => h x (by simp [hx]))]
    rfl

theorem numberAt_twoBytes {n : Nat} (h : n < 65536) : numberAt (twoBytes n) 0 = n := (number_eq_iff _ _ h).mpr rfl

/-- The field of a control frame is read in its range (R38, Table 3.5). -/
theorem parseControl_of_wellFormed {g : CtlFrame} {w : Bool} (source : Nat)
    (h : (InHand.control g w).wellFormed = true) : g.value < 65536
      ∧ (parseControl g.kind source g.value).map ([·]) = some ((InHand.control g w).items source) := by
  cases g with
  | hold n =>
    have hn : n < 1024 := of_decide_eq_true h
    exact ⟨Nat.lt_trans hn (by decide), by simp [parseControl, CtlFrame.kind, CtlFrame.value, InHand.items, hn]⟩
  | _ n =>
    have hn : n < Config.objectCount := of_decide_eq_true h
    exact ⟨Nat.lt_trans hn (by decide), by simp [parseControl, CtlFrame.kind, CtlFrame.value, InHand.items, hn]⟩

/-- The body of a frame that the spec allows is read as its items (R38, R39, Table 3.6). -/
theorem parseBody_of_wellFormed {f : InHand} (source : Nat) (hf : f.wellFormed = true) :
    parseBody f.kind source f.body = some (f.items source) := by
  cases f with
  | data records =>
    obtain ⟨-, hcount, hrecords, -⟩ := wellFormed_data hf
    exact parseRecords_of_records source records hcount hrecords
  | control g w =>
    obtain ⟨hvalue, hitems⟩ := parseControl_of_wellFormed source hf
    have hkind : g.kind ≠ kindData := by cases g <;> simp [CtlFrame.kind, kindData]
    show parseBody g.kind source (twoBytes g.value) = _
    rw [parseBody, if_neg hkind, numberAt_twoBytes hvalue]
    exact hitems

/-! ## Reception -/

section Received
variable {f : InHand} {source : Nat}

/-- The receiver's judgement of the body and two bytes more. -/
theorem judge_received (hf : f.wellFormed = true) (hs : source < 32) (high low : Byte) :
    judgeFrame (f.received source) (f.body ++ [high, low]) =
      if [high, low] = twoBytes (crcOf (f.covered source)).toNat then some (f.items source) else none := by
  have hkind : headerKind (byteAt (f.bytes source) 1) = f.kind := by
    rw [headerKind, firstByte_toNat f hs]; omega
  have hsource : headerSource (byteAt (f.bytes source) 1) = source := by
    rw [headerSource, firstByte_toNat f hs]; omega
  have hcrc : crcRun (f.received source).crc (f.body ++ [high, low]) = crcRun crcStart (f.covered source ++ [high, low]) :=
    rfl
  have hbody : (((f.received source).body ++ (f.body ++ [high, low])).take (byteAt (f.bytes source) 2).toNat) = f.body := by
    rw [secondByte_toNat hf]
    exact List.take_left
  unfold judgeFrame
  rw [hcrc]
  show (if _ then parseBody _ _ _ else none) = _
  rw [hkind, hsource, hbody, parseBody_of_wellFormed source hf]
  simp only [crcRun_checked_iff]

end Received

/-- Settles O38, by the division bit by bit and the layout of each kind of frame. -/
theorem sentFramesAreReceived : Obligations.SentFramesAreReceived := by
  refine ⟨fun s f hi hf hown => ?_, fun r b => ⟨bitsTaken r b, bitsTaken_zero r b, bitsTaken_eight r b,
    fun k hk => bitsTaken_takesBit r b hk⟩, fun r bytes b => ⟨rfl, crcRun_append r bytes [b]⟩,
    fun bytes high low => ⟨rfl, crcRun_checked_iff bytes high low⟩, fun f source hf hs => ?_⟩
  · refine ⟨_, drivenFrame_of_inHand s f hi, firstByte_toNat f hown, secondByte_toNat hf, f.bytes_length s.own,
      ?_, ?_, ?_⟩
    · exact List.take_left
    · have hcovered : ((f.bytes s.own).drop 1).take (f.body.length + 2) = f.covered s.own :=
        List.take_left' rfl
      rw [hcovered]
      exact List.drop_left
    · rintro records rfl
      exact ⟨rfl, dataBody_length records, rfl⟩
  · have hlast : (f.bytes source).drop ((f.bytes source).length - 2) = twoBytes (crcOf (f.covered source)).toNat := by
      rw [f.bytes_length]
      exact List.drop_left
    refine ⟨rfl, header_passes hf hs, ?_, ?_, fun high low hne => ?_⟩
    · simp [bytes_eq, InHand.received, twoBytes]
    · exact (judge_received hf hs _ _).trans (if_pos rfl)
    · rw [judge_received hf hs, if_neg (by rwa [← hlast])]

end Sys2Proof.Machine
end

section
/-! PROOF. A number clash: what the teardown of the PRODUCE entries leaves, entry by entry, and what comes before it
(R47, R148, R137). -/

namespace Sys2Proof.Machine

/-! ## Lines and values -/

section Freed
variable {s t : State} {n : Nat}

@[simp] theorem Line.freed_freed (l : Line) : l.freed.freed = l.freed := rfl

/-- The one line that is freed, and all the others (R33). -/
theorem State.LineFreed.lineAt {e : Entry} (h : s.LineFreed t n) (he : s.entry n = some e) (k : Fin 64) (w : Way) :
    t.lineAt k w = if setIndex n = k ∧ e.line = some w then (s.lineAt k w).freed else s.lineAt k w := by
  unfold State.LineFreed at h
  rw [he, Option.bind_some] at h
  cases hl : e.line with
  | none =>
    rw [hl] at h
    simp only [reduceCtorEq, and_false, if_false]
    unfold State.lineAt
    rw [show t.store = s.store from h]
  | some v =>
    rw [hl] at h
    obtain ⟨hfreed, -, hother, hsets⟩ := h
    by_cases hk : setIndex n = k
    · subst hk
      rcases w.eq_or_other v with rfl | rfl
      · rw [if_pos ⟨rfl, rfl⟩]
        exact hfreed
      · rw [if_neg (by simp [v.other_ne.symm])]
        exact hother
    · rw [if_neg (fun hc => hk hc.1)]
      unfold State.lineAt
      rw [hsets k (Ne.symm hk)]

theorem State.LineFreed.older (h : s.LineFreed t n) (k : Fin 64) : (t.store.get k).older = (s.store.get k).older := by
  unfold State.LineFreed at h
  split at h
  · rw [h]
  · obtain ⟨-, hset, -, hsets⟩ := h
    by_cases hk : k = setIndex n
    · rw [hk]; exact hset
    · rw [hsets k hk]

/-- A line that is freed keeps its value (log 15). -/
theorem value_of_lines {m : Nat} (he : t.entry m = s.entry m)
    (h : ∀ k w, t.lineAt k w = (s.lineAt k w).freed ∨ t.lineAt k w = s.lineAt k w) : t.value m = s.value m := by
  unfold State.value
  cases hm : s.entry m with
  | none => simp [State.objectLine, he, hm]
  | some e =>
    rw [objectLine_eq s m e hm, objectLine_eq t m e (he.trans hm)]
    cases e.line with
    | none => rfl
    | some w =>
      rw [Option.map_some, Option.map_some]
      rcases h (setIndex m) w with hw | hw <;> rw [hw]
      rfl

theorem valueNotice_congr (h : t.station.tickCount = s.station.tickCount) (kind : NoticeKind) (object station : Nat)
    (seq : Byte) (detail : Nat) (value : List Byte) (tag : Word16) :
    t.valueNotice kind object station seq detail value tag = s.valueNotice kind object station seq detail value tag := by
  simp only [State.valueNotice, h]

end Freed

theorem slotTag_eq_claimTag (s : State) (p : Produce) : s.slotTag p = s.claimTag p := by
  unfold State.slotTag State.slotOf State.claimTag
  cases p.claimSlot with
  | none => rfl
  | some k => cases hk : s.ownership.slots.get k <;> simp [hk]

/-! ## The teardown of one entry (R148 step 5) -/

/-- What the teardown posts for the PRODUCE entry `p` of `n`. -/
def State.muteNotice (s : State) (n : Nat) (p : Produce) : Notice :=
  if p.ownership = .claiming then
    s.valueNotice .claimFailed n 0xFF (p.committed.getD 0) 6 (s.value n) (s.claimTag p)
  else s.valueNotice .ownershipLost n 0xFF (p.committed.getD 0) 6 (s.value n) 0

/-- A CLAIMING entry has a slot of its own. -/
def State.ClaimsNamed (s : State) (n : Nat) (p : Produce) : Prop :=
  p.ownership = .claiming →
    ∃ k slot, p.claimSlot = some k ∧ s.ownership.slots.get k = some slot ∧ slot.object = n

/-- Slots of other objects stay. -/
def State.KeepsSlots (s t : State) (n : Nat) : Prop :=
  ∀ k slot, s.ownership.slots.get k = some slot → slot.object ≠ n → t.ownership.slots.get k = some slot

section Entry
variable {s : State} {n : Nat} {p : Produce}

/-- A report and a removal, seen from a state in which the entry shows the same value. -/
theorem report_remove_spec {t : State} (hs : s.StorageCanonical) (hp : s.produce n = some p) (hkeeps : s.KeepsValue t n)
    (hnotice : t.notice = s.notice) (kind : NoticeKind) (cause : Cause) (tag : Word16) :
    let u := (t.postOwnership n kind noStation cause tag).removeEntry n
    s.LineFreed u n ∧ u.notice = s.notice.posted
        (s.valueNotice kind n noStation (p.committed.getD 0) cause.code (s.value n) tag) := by
  intro u
  obtain ⟨-, -, hfreed, honly⟩ := removeEntry_removes (t.postOwnership n kind noStation cause tag) n
  constructor
  · exact hkeeps.lineFreed (hfreed.of_eq (by rw [State.postOwnership, post_entry]) (post_store _ _))
  · rw [show u.notice = _ from honly .notice (by decide), State.postOwnership, post_notice, hnotice,
      hkeeps.ownershipNotice, ownershipNotice_eq s n p kind noStation cause tag hs hp]

theorem muteEntry_spec (hs : s.StorageCanonical) (hp : s.produce n = some p) (hclaim : s.ClaimsNamed n p) :
    let u := s.muteEntry n
    (∀ m, u.entry m = if m = n then none else s.entry m) ∧ s.LineFreed u n
      ∧ u.notice = s.notice.posted (s.muteNotice n p) ∧ s.KeepsSlots u n := by
  have hremoved (t : State) (x : Notice) (ht : ∀ m, m ≠ n → t.entry m = s.entry m) (m : Nat) :
      ((t.post x).removeEntry n).entry m = if m = n then none else s.entry m := by
    rw [removeEntry_entry]
    split
    · rfl
    · next hm => rw [post_entry, ht m hm]
  have hslots (t : State) (x : Notice) : ((t.post x).removeEntry n).ownership = t.ownership :=
    (removeEntry_changesOnly _ n .ownership (by decide)).trans (post_ownership t x)
  unfold State.muteEntry State.muteNotice
  rw [hp]
  dsimp only
  by_cases ho : p.ownership = .claiming
  · rw [if_pos ho, if_pos ho]
    obtain ⟨k, slot, hk, hslot, hobject⟩ := hclaim ho
    obtain ⟨-, hothers, -, hentries, hkeeps⟩ := releaseSlot_spec s n hp hk
    obtain ⟨hfreed, hposted⟩ := report_remove_spec hs hp hkeeps (releaseSlot_changesOnly s n .notice (by decide))
      .claimFailed .muted (s.slotTag p)
    refine ⟨hremoved _ _ hentries, hfreed, by rw [hposted, slotTag_eq_claimTag]; rfl, fun j other hj hne => ?_⟩
    have hjk : j ≠ k := by
      rintro rfl
      rw [hslot] at hj
      exact hne (Option.some.inj hj ▸ hobject)
    rw [State.postOwnership, hslots, hothers j hjk]
    exact hj
  · rw [if_neg ho, if_neg ho]
    obtain ⟨hfreed, hposted⟩ := report_remove_spec hs hp ⟨rfl, rfl, rfl, rfl⟩ rfl .ownershipLost .muted 0
    refine ⟨hremoved _ _ (fun _ _ => rfl), hfreed, hposted, fun j other hj _ => ?_⟩
    rw [State.postOwnership, hslots]
    exact hj

end Entry

/-! ## The teardown of the directory's entries -/

/-- What the teardown of some entries needs to find. -/
structure State.Mutable (s : State) (d : List Entry) : Prop where
  storage : s.StorageCanonical
  distinct : d.Pairwise (fun e f => e.object ≠ f.object)
  found : ∀ e ∈ d, s.entry e.object = some e
  claims : ∀ e ∈ d, ∀ p, e.produce = some p → s.ClaimsNamed e.object p

/-- What the teardown of some entries leaves: the PRODUCE ones are gone, their lines are freed, and the notices are
posted in the order of the entries. -/
structure State.Muted (s t : State) (d : List Entry) : Prop where
  entry : ∀ m, t.entry m = if ∃ e ∈ d, e.produce.isSome = true ∧ e.object = m then none else s.entry m
  freed : ∀ k w, (∃ e ∈ d, e.produce.isSome = true ∧ setIndex e.object = k ∧ e.line = some w) →
    t.lineAt k w = (s.lineAt k w).freed
  kept : ∀ k w, (∀ e ∈ d, e.produce.isSome = true → setIndex e.object = k → e.line ≠ some w) →
    t.lineAt k w = s.lineAt k w
  older : ∀ k, (t.store.get k).older = (s.store.get k).older
  notice : t.notice = s.notice.postedAll (d.filterMap (fun e => e.produce.map (s.muteNotice e.object)))

section Teardown
variable {s t u : State} {e : Entry} {p : Produce} {rest : List Entry}

/-- After one entry the teardown of the others finds what it needs, and posts what it would have posted before. -/
theorem State.Mutable.muteEntry (h : s.Mutable (e :: rest)) (hp : e.produce = some p) :
    (s.muteEntry e.object).Mutable rest ∧
      ∀ f ∈ rest, ∀ q, f.produce = some q →
        (s.muteEntry e.object).muteNotice f.object q = s.muteNotice f.object q := by
  obtain ⟨hne, hdistinct⟩ := List.pairwise_cons.mp h.distinct
  have hfound := h.found e (by simp)
  have hproduce : s.produce e.object = some p := by rw [State.produce, hfound]; exact hp
  obtain ⟨hentry, hfreed, -, hslots⟩ := muteEntry_spec h.storage hproduce (h.claims e (by simp) p hp)
  have honly := muteEntry_changesOnly s e.object
  have hkept : ∀ f ∈ rest, (s.muteEntry e.object).entry f.object = s.entry f.object := fun f hf => by
    rw [hentry, if_neg (hne f hf).symm]
  have hclaims : ∀ f ∈ rest, ∀ q, f.produce = some q → q.ownership = .claiming → ∃ k slot, q.claimSlot = some k
      ∧ s.ownership.slots.get k = some slot ∧ (s.muteEntry e.object).ownership.slots.get k = some slot
      ∧ slot.object = f.object := fun f hf q hq ho => by
    obtain ⟨k, slot, hk, hslot, hobject⟩ := h.claims f (by simp [hf]) q hq ho
    exact ⟨k, slot, hk, hslot, hslots k slot hslot (by rw [hobject]; exact (hne f hf).symm), hobject⟩
  refine ⟨⟨?_, hdistinct, fun f hf => (hkept f hf).trans (h.found f (by simp [hf])), fun f hf q hq ho => ?_⟩,
    fun f hf q hq => ?_⟩
  · exact h.storage.withLines honly (by decide) (State.LinesCanonical.muteEntry h.storage.2.1 _)
  · obtain ⟨k, slot, hk, -, hslot, hobject⟩ := hclaims f hf q hq ho
    exact ⟨k, slot, hk, hslot, hobject⟩
  · have htick : (s.muteEntry e.object).station.tickCount = s.station.tickCount :=
      congrArg Station.tickCount (honly .station (by decide))
    have hvalue : (s.muteEntry e.object).value f.object = s.value f.object :=
      value_of_lines (hkept f hf) fun k w => by
        rw [hfreed.lineAt hfound k w]
        split
        · exact .inl rfl
        · exact .inr rfl
    unfold State.muteNotice
    rw [valueNotice_congr htick, valueNotice_congr htick, hvalue]
    split
    · next ho =>
      obtain ⟨k, slot, hk, hslot, hslot', -⟩ := hclaims f hf q hq ho
      simp only [State.claimTag, hk, hslot, hslot']
    · rfl

/-- One entry more at the front. -/
theorem State.Muted.cons (h : s.Mutable (e :: rest)) (hp : e.produce = some p)
    (ht : (s.muteEntry e.object).Muted t rest) : s.Muted t (e :: rest) := by
  have hfound := h.found e (by simp)
  have hproduce : s.produce e.object = some p := by rw [State.produce, hfound]; exact hp
  have hsome : e.produce.isSome = true := by rw [hp]; rfl
  obtain ⟨hentry, hfreed, hposted, -⟩ := muteEntry_spec h.storage hproduce (h.claims e (by simp) p hp)
  obtain ⟨-, hsame⟩ := h.muteEntry hp
  have hline := hfreed.lineAt hfound
  refine ⟨fun m => ?_, fun k w hc => ?_, fun k w hc => ?_, fun k => (ht.older k).trans (hfreed.older k), ?_⟩
  · rw [ht.entry, hentry]
    by_cases hm : e.object = m
    · rw [if_pos hm.symm, ite_self]
      exact (if_pos ⟨e, by simp, hsome, hm⟩).symm
    · rw [if_neg (Ne.symm hm)]
      simp only [List.exists_mem_cons_iff, hm, and_false, false_or]
  · by_cases hlater : ∃ f ∈ rest, f.produce.isSome = true ∧ setIndex f.object = k ∧ f.line = some w
    · rw [ht.freed k w hlater, hline]
      split <;> rfl
    · obtain ⟨-, hk, hw⟩ := (List.exists_mem_cons_iff _ _ _).mp hc |>.resolve_right hlater
      rw [ht.kept k w (fun f hf hs hk hw => hlater ⟨f, hf, hs, hk, hw⟩), hline, if_pos ⟨hk, hw⟩]
  · obtain ⟨hfirst, hlater⟩ := List.forall_mem_cons.mp hc
    rw [ht.kept k w hlater, hline, if_neg (fun hkw => hfirst hsome hkw.1 hkw.2)]
  · rw [ht.notice, hposted, List.filterMap_cons_some (by rw [hp, Option.map_some]), postedAll_cons]
    congr 1
    refine List.filterMap_congr fun f hf => ?_
    cases hq : f.produce with
    | none => rfl
    | some q => rw [Option.map_some, Option.map_some, hsame f hf q hq]

/-- The teardown, in the order of the directory (R148 step 5). -/
theorem muteEntries_muted {d : List Entry} (h : s.Mutable d) :
    s.Muted (((d.filter (fun e => e.produce.isSome)).map Entry.object).foldl State.muteEntry s) d := by
  induction d generalizing s with
  | nil => exact ⟨fun m => by simp, fun k w hc => by simp at hc, fun k w _ => rfl, fun k => rfl, rfl⟩
  | cons e rest ih =>
    cases hp : e.produce with
    | some p =>
      rw [List.filter_cons_of_pos (by rw [hp]; rfl), List.map_cons, List.foldl_cons]
      exact .cons h hp (ih (h.muteEntry hp).1)
    | none =>
      have hnone : e.produce.isSome = false := by rw [hp]; rfl
      obtain ⟨hentry, hfreed, hkept, holder, hnotice⟩ := ih ⟨h.storage, (List.pairwise_cons.mp h.distinct).2,
        fun f hf => h.found f (by simp [hf]), fun f hf => h.claims f (by simp [hf])⟩
      rw [List.filter_cons_of_neg (by rw [hp]; nofun)]
      refine ⟨fun m => ?_, fun k w hc => hfreed k w ?_, fun k w hc => hkept k w (List.forall_mem_cons.mp hc).2, holder, ?_⟩
      · rw [hentry]
        simp only [List.exists_mem_cons_iff, hnone, Bool.false_eq_true, false_and, false_or]
      · simpa only [List.exists_mem_cons_iff, hnone, Bool.false_eq_true, false_and, false_or] using hc
      · rw [hnotice, List.filterMap_cons_none (by rw [hp]; rfl)]

end Teardown

/-! ## The entry to MUTED -/

/-- The station once it is MUTED and its Contention Unit, wait list and publication queue are cleared (R148 steps 1
to 4). -/
def State.silenced (s : State) : State :=
  let silent := ((s.setStation { s.station with life := .muted, joinRunning := false, joinOwed := false }).post
    (s.stationNotice .numberClash s.own s.station.life.code 0)).muteContention
  (silent.setOwnership { silent.ownership with waitList := [] }).setPubQueue []

theorem enterMuted_eq (s : State) : s.enterMuted = s.silenced.producedObjects.foldl State.muteEntry s.silenced := rfl

/-- The Contention Unit as the entry to MUTED leaves it (R148 step 3, R137). -/
def Contention.muted (c : Contention) : Contention :=
  { c with
    inHand := none, attempts := 0, state := .idle, queue := [], pendingHold := none, ownHold := .off, ownExpiry := 0
    expiryOwed := false }

/-- HOLD_ENDED, if a hold was in effect. -/
def State.heldNotice (s : State) : List Notice :=
  if s.contention.ownHold = .on ∨ s.contention.ownHold = .renewing then
    [s.valueNotice .holdEnded 0 s.own 0 3 [] 0] else []

/-- A station that does not transmit asks for no HOLD as it is silenced (R134). -/
theorem muteContention_spec (s : State) (hl : s.station.life.transmits = false) :
    s.muteContention.contention = s.contention.muted ∧ s.muteContention.notice = s.notice.postedAll s.heldNotice := by
  unfold State.muteContention State.heldNotice
  dsimp only
  split
  · exact ⟨post_contention_quiet _ _ (.inr hl), post_notice _ _⟩
  · exact ⟨rfl, rfl⟩

theorem silenced_spec (s : State) :
    s.silenced.station = { s.station with life := .muted, joinRunning := false, joinOwed := false }
      ∧ s.silenced.contention = s.contention.muted
      ∧ s.silenced.notice = s.notice.postedAll
          (s.valueNotice .numberClash 0 s.own 0 s.station.life.code [] 0 :: s.heldNotice)
      ∧ s.silenced.ownership.slots = s.ownership.slots
      ∧ s.ChangesOnly s.silenced [.station, .ownership, .pubQueue, .contention, .notice] := by
  unfold State.silenced
  set a := s.setStation { s.station with life := .muted, joinRunning := false, joinOwed := false }
  set x := s.stationNotice .numberClash s.own s.station.life.code 0
  have hstation : (a.post x).station = a.station := post_station a x
  have hcontention : (a.post x).contention = s.contention := post_contention_quiet a x (.inr rfl)
  obtain ⟨hmuted, hposted⟩ := muteContention_spec (a.post x) (by rw [hstation]; rfl)
  have honly := muteContention_changesOnly (a.post x)
  have hheld : (a.post x).heldNotice = s.heldNotice := by
    unfold State.heldNotice State.valueNotice State.own State.cfg
    rw [hcontention, hstation]
    rfl
  dsimp only
  generalize (a.post x).muteContention = silent at hmuted hposted honly ⊢
  have hownership : silent.ownership = s.ownership := (honly .ownership (by decide)).trans (post_ownership a x)
  have hslots : silent.ownership.slots = s.ownership.slots := by rw [hownership]
  refine ⟨(honly .station (by decide)).trans hstation, hmuted.trans (congrArg Contention.muted hcontention), ?_,
    hslots, ?_⟩
  · refine hposted.trans ?_
    rw [hheld, post_notice]
    rfl
  · exact ((setStation_changesOnly s _).mono (by decide)).trans (((post_changesOnly a x).mono (by decide)).trans
      ((honly.mono (by decide)).trans (((setOwnership_changesOnly _ _).mono (by decide)).trans
        ((setPubQueue_changesOnly _ _).mono (by decide)))))

/-- The teardown finds every entry in its place, and every claim in a slot of its own. -/
theorem silenced_mutable {s : State} (ho : s.DirectoryOrdered) (hs : s.StorageCanonical) (hc : s.ClaimsHold) :
    s.silenced.Mutable s.directory := by
  obtain ⟨-, -, -, hslots, honly⟩ := silenced_spec s
  have hentry := honly.entry (by decide)
  have hfound : ∀ e ∈ s.directory, s.entry e.object = some e := fun e he => lookup_of_mem s.directory ho.1 e he
  refine ⟨hs.elsewhere honly (by decide), ho.1.imp Nat.ne_of_lt, fun e he => (hentry _).trans (hfound e he),
    fun e he p hp hclaiming => ?_⟩
  have hproduce : s.produce e.object = some p := by rw [State.produce, hfound e he]; exact hp
  obtain ⟨-, -, k, slot, hk, hslot, hobject⟩ := (hc.1 e.object p hproduce).1 hclaiming
  exact ⟨k, slot, hk, by rw [hslots]; exact hslot, hobject⟩

/-- What the teardown posts, as the statement writes it. -/
theorem muteNotices_eq {s t : State} (htick : t.station.tickCount = s.station.tickCount)
    (hvalue : ∀ n, t.value n = s.value n) (hslots : t.ownership.slots = s.ownership.slots) (d : List Entry) :
    d.filterMap (fun e => e.produce.map (t.muteNotice e.object)) = d.filterMap (fun e =>
      match e.role with
      | .produce p => some
        (if p.ownership = .claiming then
          s.valueNotice .claimFailed e.object 0xFF (p.committed.getD 0) 6 (s.value e.object) (s.claimTag p)
         else s.valueNotice .ownershipLost e.object 0xFF (p.committed.getD 0) 6 (s.value e.object) 0)
      | .consume _ => none) := by
  refine List.filterMap_congr fun e _ => ?_
  unfold Entry.produce
  cases e.role with
  | consume c => rfl
  | produce p =>
    simp only [Option.map_some, State.muteNotice, valueNotice_congr htick, hvalue, State.claimTag, hslots]

section Clash
variable {s : State} {f : RxFrame} {rest : List Byte} {items : List Item}

theorem header_of_judged (h : judgeFrame f rest = some items) : f.header.isSome = true := by
  unfold judgeFrame at h
  split at h
  · cases h
  · next hheader => rw [hheader]; rfl

theorem clash_eq_enterMuted (hstart : s.station.life ≠ .awaitStart) (hmuted : s.station.life ≠ .muted) :
    s.clash = s.enterMuted := by
  unfold State.clash
  cases hl : s.station.life with
  | awaitStart => exact absurd hl hstart
  | muted => exact absurd hl hmuted
  | _ => rfl

/-- A valid frame with the own number is a clash (R47, R148). -/
theorem exec_frameEnd_of_clash (hrx : s.rx = .frame f) (hlen : rest.length = f.expected)
    (hj : judgeFrame f rest = some items) (hsend : s.contention.state ≠ .sending) (hown : f.source = s.own)
    (hstart : s.station.life ≠ .awaitStart) (hmuted : s.station.life ≠ .muted) :
    exec (.frameEnd rest) s = .next (s.setRx .skip).enterMuted := by
  rw [exec_frameEnd_of_expected hrx (header_of_judged hj) hlen]
  unfold State.frameEnd
  rw [hj]
  dsimp only
  rw [if_neg (show (s.setRx .skip).contention.state ≠ .sending from hsend),
    if_pos (show f.source = (s.setRx .skip).own from hown)]
  exact congrArg _ (clash_eq_enterMuted (s := s.setRx .skip) hstart hmuted)

end Clash

/-- The fold over the PRODUCE entries, from the silenced station (R148 step 5). -/
theorem enterMuted_muted {s : State} (ho : s.DirectoryOrdered) (hs : s.StorageCanonical) (hc : s.ClaimsHold) :
    s.silenced.Muted s.enterMuted s.directory := by
  obtain ⟨-, -, -, -, honly⟩ := silenced_spec s
  have hdirectory : s.silenced.directory = s.directory := honly .directory (by decide)
  rw [enterMuted_eq, State.producedObjects, hdirectory]
  exact muteEntries_muted (silenced_mutable ho hs hc)

theorem muteEntry_waitList (s : State) (n : Nat) : (s.muteEntry n).ownership.waitList = s.ownership.waitList := by
  have hremoved (t : State) (x : Notice) : ((t.post x).removeEntry n).ownership = t.ownership :=
    (removeEntry_changesOnly _ n .ownership (by decide)).trans (post_ownership t x)
  have hslot : (s.releaseSlot n).ownership.waitList = s.ownership.waitList := by
    unfold State.releaseSlot
    split <;> rfl
  unfold State.muteEntry State.postOwnership
  split
  · rfl
  · split
    · rw [hremoved, hslot]
    · rw [hremoved]

/-- What the entry to MUTED leaves outside the entries, the lines and the notices (R148). -/
theorem enterMuted_rest (s : State) :
    s.enterMuted.station = { s.station with life := .muted, joinRunning := false, joinOwed := false }
      ∧ s.enterMuted.contention = s.contention.muted ∧ s.enterMuted.ownership.waitList = []
      ∧ s.enterMuted.pubQueue = [] := by
  obtain ⟨hstation, hcontention, -⟩ := silenced_spec s
  obtain ⟨rstation, rcontention, -⟩ := muteEntries_rest s.silenced.producedObjects s.silenced (by rw [hstation]; rfl)
  refine ⟨rstation.trans hstation, rcontention.trans hcontention, ?_, ?_⟩
  · exact fold_keeps (P := fun t => t.ownership.waitList = []) (fun t n h => (muteEntry_waitList t n).trans h) _ rfl
  · exact foldl_changesOnly _ muteEntry_changesOnly s.silenced.producedObjects s.silenced .pubQueue (by decide)

theorem slot_free_of_producer {s : State} {k : Fin 4} (h : s.producer.slots k = none) :
    s.ownership.slots.get k = none := Option.map_eq_none_iff.mp h

/-- A PRODUCE entry, by the directory and by its object number. -/
theorem exists_produce_iff {s : State} (ho : s.DirectoryOrdered) (n : Nat) :
    (∃ e ∈ s.directory, e.produce.isSome = true ∧ e.object = n) ↔ (s.produce n).isSome = true := by
  constructor
  · rintro ⟨e, he, hp, rfl⟩
    rw [State.produce, (mem_directory_iff s ho e).mp he]
    exact hp
  · intro h
    obtain ⟨p, hp⟩ := Option.isSome_iff_exists.mp h
    obtain ⟨e, he, hr⟩ := s.produce_entry n p hp
    exact ⟨e, lookup_mem _ _ _ he, by simp [Entry.produce, hr], lookup_object _ _ _ he⟩

/-- Settles O37, by the steps of the entry to MUTED. -/
theorem numberClashMutesTheStation : Obligations.NumberClashMutesTheStation := by
  intro s f rest items ho hs hc hrx hlen hj hsend hown hstart hmuted held removed
  refine ⟨_, exec_frameEnd_of_clash hrx hlen hj hsend hown hstart hmuted, ?_⟩
  set a := s.setRx .skip
  have ho' : a.DirectoryOrdered := ho
  obtain ⟨hstation, -, hnotice, hslots, honly⟩ := silenced_spec a
  obtain ⟨rstation, rcontention, rwaits, rqueue⟩ := enterMuted_rest a
  obtain ⟨hentry, hfreed, hkept, holder, hposted⟩ := enterMuted_muted ho' hs hc
  obtain ⟨-, -, -, -, hslot⟩ := enterMuted_producer a
  have hmute := enterMuted_changesOnly a
  refine ⟨hmute .rx (by decide), rstation, rcontention, rwaits, fun k => ?_, rqueue, ?_, fun n => ?_,
    fun k w => ⟨fun h => ?_, fun h => ?_⟩, fun k => ?_, ?_, ?_⟩
  · exact slot_free_of_producer (hslot ((claimsHold_iff a).mp hc).slotsNamed k)
  · exact producedObjects_of_produce (directoryOrdered_entryInvariant.keptByHappenings.mute ho')
      (enterMuted_spec a).2.2
  · rw [hentry, if_congr (exists_produce_iff ho' n) rfl rfl, honly.entry (by decide)]
    rfl
  · rw [hfreed k w h, honly.lineAt (by decide)]
    rfl
  · rw [hkept k w h, honly.lineAt (by decide)]
    rfl
  · rw [holder, show a.silenced.store = a.store from honly .store (by decide)]
    rfl
  · have htick : a.silenced.station.tickCount = a.station.tickCount := by rw [hstation]
    have hvalue : ∀ n, a.silenced.value n = a.value n := fun n =>
      value_congr a a.silenced n (honly.entry (by decide) n) (honly.lineAt (by decide) _)
    rw [hposted, hnotice, ← postedAll_append, muteNotices_eq htick hvalue hslots]
    rfl
  · exact ((setRx_changesOnly s .skip).mono (by decide)).trans (hmute.mono (by decide))

end Sys2Proof.Machine
end


section
/-! PROOF. The places of the control queue, the wait list and the pending HOLD (R55, R129 to R131): what each change of
them keeps. -/

namespace Sys2Proof.Machine

/-- The places taken by command-originated frames (R129). -/
def commands (queue : List CtlFrame) : Nat := queue.countP CtlFrame.fromCommand

/-- The places taken by automatic frames (R129). -/
def automatics (queue : List CtlFrame) : Nat := queue.countP (fun f => !f.fromCommand)

/-- The places taken by HOLD frames (R130). -/
def holds (queue : List CtlFrame) : Nat := queue.countP CtlFrame.isHold

/-- The bounds of R55 and R129 to R131 for a control queue, a pending HOLD and a wait list. -/
structure PlacesKept (queue : List CtlFrame) (pendingHold : Option Nat) (waitList : List CtlFrame) : Prop where
  sixCommands : commands queue ≤ 6
  twoAutomatics : automatics queue ≤ 2
  oneHold : holds queue ≤ 1
  waits : ∀ f ∈ waitList, f.fromCommand = true
  full : waitList ≠ [] → commands queue = 6
  pending : pendingHold ≠ none → automatics queue = 2 ∧ holds queue = 0

theorem holds_eq_zero_iff (q : List CtlFrame) : holds q = 0 ↔ ¬ q.any CtlFrame.isHold = true := by
  simp [holds, List.countP_eq_zero]

theorem queuePlacesKept_iff (s : State) :
    s.QueuePlacesKept ↔ PlacesKept s.contention.queue s.contention.pendingHold s.ownership.waitList := by
  unfold State.QueuePlacesKept
  rw [← List.countP_eq_length_filter, ← List.countP_eq_length_filter, ← List.countP_eq_length_filter,
    ← Bool.not_eq_true, ← holds_eq_zero_iff]
  exact ⟨fun ⟨hc, ha, hh, hw, hf, hp⟩ => ⟨hc, ha, hh, hw, hf, hp⟩,
    fun ⟨hc, ha, hh, hw, hf, hp⟩ => ⟨hc, ha, hh, hw, hf, hp⟩⟩

theorem commandPlaceFree_iff (q : List CtlFrame) : commandPlaceFree q = true ↔ commands q < 6 := by
  rw [commands, List.countP_eq_length_filter]
  exact decide_eq_true_iff

theorem automaticPlaceFree_iff (q : List CtlFrame) : automaticPlaceFree q = true ↔ automatics q < 2 := by
  rw [automatics, List.countP_eq_length_filter]
  exact decide_eq_true_iff

/-! ## Counts -/

section Counts
variable (q : List CtlFrame) {f : CtlFrame}

theorem isHold_of_command (hf : f.fromCommand = true) : f.isHold = false := by
  cases f <;> simp_all [CtlFrame.fromCommand, CtlFrame.isHold]

theorem counts_concat_command (hf : f.fromCommand = true) : commands (q ++ [f]) = commands q + 1
    ∧ automatics (q ++ [f]) = automatics q ∧ holds (q ++ [f]) = holds q := by
  simp [commands, automatics, holds, hf, isHold_of_command hf]

theorem counts_concat_hold (n : Nat) : commands (q ++ [.hold n]) = commands q
    ∧ automatics (q ++ [.hold n]) = automatics q + 1 ∧ holds (q ++ [.hold n]) = holds q + 1 := by
  simp [commands, automatics, holds, CtlFrame.fromCommand, CtlFrame.isHold]

theorem counts_concat_dispute (n : Nat) : commands (q ++ [.dispute n]) = commands q
    ∧ automatics (q ++ [.dispute n]) = automatics q + 1 ∧ holds (q ++ [.dispute n]) = holds q := by
  simp [commands, automatics, holds, CtlFrame.fromCommand, CtlFrame.isHold]

/-- A frame that leaves takes with it what it counted for. -/
theorem countP_erase_add (p : CtlFrame → Bool) (h : f ∈ q) :
    (q.erase f).countP p + (if p f then 1 else 0) = q.countP p := by
  rw [(List.perm_cons_erase h).countP_eq p, List.countP_cons]

theorem counts_erase_command (h : f ∈ q) (hf : f.fromCommand = true) : commands (q.erase f) + 1 = commands q
    ∧ automatics (q.erase f) = automatics q ∧ holds (q.erase f) = holds q := by
  have hc := countP_erase_add q CtlFrame.fromCommand h
  have ha := countP_erase_add q (fun f => !f.fromCommand) h
  have hh := countP_erase_add q CtlFrame.isHold h
  rw [if_pos hf] at hc
  rw [if_neg (by simp [hf])] at ha
  rw [if_neg (by simp [isHold_of_command hf])] at hh
  exact ⟨hc, ha, hh⟩

theorem counts_erase_automatic (h : f ∈ q) (hf : ¬ f.fromCommand = true) : commands (q.erase f) = commands q
    ∧ automatics (q.erase f) + 1 = automatics q ∧ holds (q.erase f) ≤ holds q := by
  have hc := countP_erase_add q CtlFrame.fromCommand h
  have ha := countP_erase_add q (fun f => !f.fromCommand) h
  rw [if_neg hf] at hc
  rw [if_pos (by simp [hf])] at ha
  exact ⟨hc, ha, (countP_erase_add q CtlFrame.isHold h).le.trans' (Nat.le_add_right _ _)⟩

/-- A new length for the HOLD in the queue (R130). -/
theorem counts_relabel (n : Nat) : let r := q.map (fun f => if f.isHold then .hold n else f)
    commands r = commands q ∧ automatics r = automatics q ∧ holds r = holds q := by
  have same (p : CtlFrame → Bool) (hp : ∀ m, p (.hold m) = p (.hold n)) :
      (q.map (fun f => if f.isHold then .hold n else f)).countP p = q.countP p := by
    rw [List.countP_map]
    refine List.countP_congr fun f _ => ?_
    cases f <;> simp [CtlFrame.isHold, hp]
  exact ⟨same _ fun _ => rfl, same _ fun _ => rfl, same _ fun _ => rfl⟩

end Counts

/-! ## Changes of the places -/

section Changes
variable {q w : List CtlFrame} {p : Option Nat} {f : CtlFrame} (h : PlacesKept q p w)
include h

/-- A command-originated frame takes a free place (R129). -/
theorem PlacesKept.place (hf : f.fromCommand = true) (hfree : commands q < 6) : PlacesKept (q ++ [f]) p w := by
  obtain ⟨hc, ha, hh⟩ := counts_concat_command q hf
  exact ⟨hc ▸ hfree, ha ▸ h.twoAutomatics, hh ▸ h.oneHold, h.waits, fun hw => absurd (h.full hw) hfree.ne,
    fun hp => ha.symm ▸ hh.symm ▸ h.pending hp⟩

/-- A command-originated frame joins the wait list while no place is free (R55). -/
theorem PlacesKept.wait (hf : f.fromCommand = true) (hfull : ¬ commands q < 6) : PlacesKept q p (w ++ [f]) := by
  refine ⟨h.sixCommands, h.twoAutomatics, h.oneHold, fun g hg => ?_,
    fun _ => Nat.le_antisymm h.sixCommands (not_lt.mp hfull), h.pending⟩
  rcases List.mem_append.mp hg with hg | hg
  · exact h.waits g hg
  · rwa [List.mem_singleton.mp hg]

/-- Frames leave the wait list by withdrawal (R65). -/
theorem PlacesKept.strike (keep : CtlFrame → Bool) : PlacesKept q p (w.filter keep) :=
  ⟨h.sixCommands, h.twoAutomatics, h.oneHold, fun f hf => h.waits f (List.mem_filter.mp hf).1,
    fun hw => h.full (fun hnil => hw (by rw [hnil, List.filter_nil])), h.pending⟩

/-- A command-originated frame leaves the control queue, and the head of the wait list, which waits only while all
command places are taken, takes its place (R55, R131). -/
theorem PlacesKept.leaveCommand (hmem : f ∈ q) (hf : f.fromCommand = true) :
    PlacesKept (q.erase f ++ w.take 1) p (w.drop 1) := by
  obtain ⟨ec, ea, eh⟩ := counts_erase_command q hmem hf
  have hsix := h.sixCommands
  cases w with
  | nil =>
    rw [List.take_nil, List.append_nil, List.drop_nil]
    exact ⟨by omega, ea ▸ h.twoAutomatics, eh ▸ h.oneHold, h.waits, fun hw => absurd rfl hw,
      fun hp => ea.symm ▸ eh.symm ▸ h.pending hp⟩
  | cons g rest =>
    have hfull := h.full (List.cons_ne_nil g rest)
    obtain ⟨ac, aa, ah⟩ := counts_concat_command (q.erase f) (h.waits g List.mem_cons_self)
    rw [ea] at aa
    rw [eh] at ah
    exact ⟨by simp only [List.take_succ_cons, List.take_zero]; omega, aa.trans_le h.twoAutomatics,
      ah.trans_le h.oneHold, fun k hk => h.waits k (List.mem_cons_of_mem g hk),
      fun _ => by simp only [List.take_succ_cons, List.take_zero]; omega,
      fun hp => ⟨aa.trans (h.pending hp).1, ah.trans (h.pending hp).2⟩⟩

/-- An automatic frame leaves the control queue, and the pending HOLD, which waits only while both automatic places are
taken and none holds a HOLD, takes its place (R131). -/
theorem PlacesKept.leaveAutomatic (hmem : f ∈ q) (hf : ¬ f.fromCommand = true) :
    PlacesKept (q.erase f ++ (p.map CtlFrame.hold).toList) none w := by
  obtain ⟨ec, ea, eh⟩ := counts_erase_automatic q hmem hf
  have htwo := h.twoAutomatics
  cases p with
  | none =>
    rw [Option.map_none, Option.toList_none, List.append_nil]
    exact ⟨ec ▸ h.sixCommands, by omega, eh.trans h.oneHold, h.waits, fun hw => ec.trans (h.full hw),
      fun hp => absurd rfl hp⟩
  | some n =>
    obtain ⟨-, hnone⟩ := h.pending (Option.some_ne_none n)
    obtain ⟨ac, aa, ah⟩ := counts_concat_hold (q.erase f) n
    rw [ec] at ac
    exact ⟨ac.trans_le h.sixCommands, (aa.trans ea).trans_le htwo,
      by simp only [Option.map_some, Option.toList_some]; omega, h.waits, fun hw => ac.trans (h.full hw),
      fun hp => absurd rfl hp⟩

end Changes

/-- Nothing waits once the queue is cleared (R137). -/
theorem placesKept_nil : PlacesKept [] none [] :=
  ⟨by decide, by decide, by decide, fun _ h => (nomatch h), fun h => absurd rfl h, fun h => absurd rfl h⟩

section Requests
variable {c : Contention} {w : List CtlFrame} (h : PlacesKept c.queue c.pendingHold w) (n : Nat)
include h

/-- A HOLD request, by the cases of R130. -/
theorem PlacesKept.requestHold : PlacesKept (c.requestHold n).queue (c.requestHold n).pendingHold w := by
  unfold Contention.requestHold
  split_ifs with hqueued hhand hpending hfree
  · obtain ⟨rc, ra, rh⟩ := counts_relabel c.queue n
    exact ⟨rc.trans_le h.sixCommands, ra.trans_le h.twoAutomatics, rh.trans_le h.oneHold, h.waits,
      fun hw => rc.trans (h.full hw), fun hp => absurd hqueued ((holds_eq_zero_iff _).mp (h.pending hp).2)⟩
  · exact h
  · exact ⟨h.sixCommands, h.twoAutomatics, h.oneHold, h.waits, h.full,
      fun _ => h.pending (Option.isSome_iff_ne_none.mp hpending)⟩
  · have hless := (automaticPlaceFree_iff c.queue).mp hfree
    have hnone := (holds_eq_zero_iff c.queue).mpr hqueued
    obtain ⟨ac, aa, ah⟩ := counts_concat_hold c.queue n
    exact ⟨ac.trans_le h.sixCommands, aa.trans_le hless, (ah.trans (by rw [hnone])).le, h.waits,
      fun hw => ac.trans (h.full hw), fun hp => absurd (h.pending hp).1 hless.ne⟩
  · have hleast := not_lt.mp (mt (automaticPlaceFree_iff c.queue).mpr hfree)
    exact ⟨h.sixCommands, h.twoAutomatics, h.oneHold, h.waits, h.full,
      fun _ => ⟨Nat.le_antisymm h.twoAutomatics hleast, (holds_eq_zero_iff c.queue).mpr hqueued⟩⟩

/-- A DISPUTE request (R64, R130). -/
theorem PlacesKept.requestDispute : PlacesKept (c.requestDispute n).queue (c.requestDispute n).pendingHold w := by
  unfold Contention.requestDispute
  split_ifs with hdropped
  · exact h
  · have hless : automatics c.queue < 2 := by
      simp only [Bool.or_eq_true, not_or, Bool.not_eq_true, Bool.not_eq_false'] at hdropped
      exact (automaticPlaceFree_iff c.queue).mp hdropped.2
    obtain ⟨ac, aa, ah⟩ := counts_concat_dispute c.queue n
    exact ⟨ac.trans_le h.sixCommands, aa.trans_le hless, ah.trans_le h.oneHold, h.waits,
      fun hw => ac.trans (h.full hw), fun hp => absurd (h.pending hp).1 hless.ne⟩

end Requests

end Sys2Proof.Machine
end


section
/-! PROOF. The places stay kept through every operation that the commands share (R55, R129 to R131). -/

namespace Sys2Proof.Machine

section Operations
variable {s : State} {n m source station detail b : Nat} {kind : NoticeKind} {cause : Cause} {tag : Word16} {q : Byte}
  {payload : List Byte} {rep : Bool} {c : Consume} {p : Produce} {f : CtlFrame}

/-! ## Blocks and requests -/

/-- The queue, the pending HOLD and the wait list are as they were. -/
theorem State.QueuePlacesKept.congr {t : State} (hs : s.QueuePlacesKept) (hq : t.contention.queue = s.contention.queue)
    (hp : t.contention.pendingHold = s.contention.pendingHold) (hw : t.ownership.waitList = s.ownership.waitList) :
    t.QueuePlacesKept := by
  unfold State.QueuePlacesKept at *
  rw [hq, hp, hw]
  exact hs

theorem State.QueuePlacesKept.elsewhere {t : State} {l : List Block} (hs : s.QueuePlacesKept) (h : s.ChangesOnly t l)
    (hl : .contention ∉ l ∧ .ownership ∉ l) : t.QueuePlacesKept := by
  have hc : t.contention = s.contention := h .contention hl.1
  have ho : t.ownership = s.ownership := h .ownership hl.2
  exact hs.congr (by rw [hc]) (by rw [hc]) (by rw [ho])

/-- A HOLD request, whatever becomes of the own hold with it (R130, R134, R135). -/
theorem State.QueuePlacesKept.hold {x : Contention} (hs : s.QueuePlacesKept)
    (hq : x.queue = (s.contention.requestHold n).queue)
    (hp : x.pendingHold = (s.contention.requestHold n).pendingHold) : (s.setContention x).QueuePlacesKept := by
  rw [queuePlacesKept_iff] at *
  have h := hs.requestHold n
  rw [← hq, ← hp] at h
  exact h

theorem State.QueuePlacesKept.dispute (hs : s.QueuePlacesKept) : (s.requestDispute n).QueuePlacesKept := by
  rw [queuePlacesKept_iff] at *
  show PlacesKept (s.contention.requestDispute n).queue (s.contention.requestDispute n).pendingHold
    s.ownership.waitList
  exact hs.requestDispute n

theorem State.QueuePlacesKept.highMarkTest (hs : s.QueuePlacesKept) : s.highMarkTest.QueuePlacesKept := by
  rcases highMarkTest_cases s with h | ⟨-, -, -, h⟩
  · rw [h]; exact hs
  · rw [h]; exact hs.hold rfl rfl

theorem State.QueuePlacesKept.post {x : Notice} (hs : s.QueuePlacesKept) : (s.post x).QueuePlacesKept := by
  unfold State.post
  split
  · exact .highMarkTest hs
  · exact hs

theorem State.QueuePlacesKept.postOwnership
    (hs : s.QueuePlacesKept) : (s.postOwnership n kind station cause tag).QueuePlacesKept := hs.post

theorem State.QueuePlacesKept.postHoldEnded (hs : s.QueuePlacesKept) :
    (s.postHoldEnded detail).QueuePlacesKept := hs.post

theorem State.QueuePlacesKept.reportFall (hs : s.QueuePlacesKept) : (s.reportFall b).QueuePlacesKept := by
  unfold State.reportFall
  split
  · exact .postHoldEnded (hs.hold rfl rfl)
  · exact hs

/-- A report about an entry, and its removal (R33, R74). -/
theorem State.QueuePlacesKept.reportRemove (hs : s.QueuePlacesKept) :
    ((s.postOwnership n kind station cause tag).removeEntry m).QueuePlacesKept :=
  hs.postOwnership.elsewhere (removeEntry_changesOnly _ m) (by decide)

/-! ## Frames placed and withdrawn -/

theorem State.QueuePlacesKept.placeCommand (hs : s.QueuePlacesKept) (hf : f.fromCommand = true)
    (hfree : commandPlaceFree s.contention.queue = true) : (s.placeCommand f).QueuePlacesKept := by
  have ho : (s.placeCommand f).ownership = s.ownership := placeCommand_changesOnly s f .ownership (by decide)
  rw [queuePlacesKept_iff] at *
  rw [placeCommand_contention, ho]
  exact hs.place hf ((commandPlaceFree_iff _).mp hfree)

theorem State.QueuePlacesKept.handOn (hs : s.QueuePlacesKept) (hf : f.fromCommand = true) :
    (s.handOn f).QueuePlacesKept := by
  unfold State.handOn
  split
  · next hfree => exact hs.placeCommand hf hfree
  · next hfull =>
    rw [queuePlacesKept_iff] at *
    exact hs.wait hf (mt (commandPlaceFree_iff _).mpr hfull)

/-- Frame `f` has left the control queue, and its place is filled again (R131). -/
theorem State.QueuePlacesKept.placeFreed {t : State} (hs : s.QueuePlacesKept) (hmem : f ∈ s.contention.queue)
    (hq : t.contention.queue = s.contention.queue.erase f) (hp : t.contention.pendingHold = s.contention.pendingHold)
    (hw : t.ownership.waitList = s.ownership.waitList) : (t.placeFreed f).QueuePlacesKept := by
  have hfilled := placeFreed_placeFreed t f
  rw [queuePlacesKept_iff] at *
  unfold State.PlaceFreed at hfilled
  split at hfilled
  · next hf =>
    obtain ⟨hc, ho, -⟩ := hfilled
    rw [hc, ho, hq, hp, hw]
    exact hs.leaveCommand hmem hf
  · next hf =>
    obtain ⟨hc, honly⟩ := hfilled
    have ho : (t.placeFreed f).ownership = t.ownership := honly .ownership (by decide)
    rw [hc, ho, hq, hp, hw]
    exact hs.leaveAutomatic hmem hf

theorem State.QueuePlacesKept.leaveIdle (hs : s.QueuePlacesKept) : s.leaveIdle.QueuePlacesKept := by
  rw [leaveIdle_eq]
  exact hs

theorem State.QueuePlacesKept.discardInHand (hs : s.QueuePlacesKept) : s.discardInHand.QueuePlacesKept :=
  .leaveIdle (hs.congr rfl rfl rfl)

theorem State.QueuePlacesKept.withdrawQueued (hs : s.QueuePlacesKept) : (s.withdrawQueued f).QueuePlacesKept := by
  unfold State.withdrawQueued
  split
  · next hmem => exact hs.placeFreed (by simpa using hmem) rfl rfl rfl
  · exact hs

theorem State.QueuePlacesKept.withdrawInHand (hs : s.QueuePlacesKept) : (s.withdrawInHand f).QueuePlacesKept := by
  unfold State.withdrawInHand
  split
  · split
    · split
      · exact hs
      · exact hs.discardInHand
    · exact hs
  · exact hs
  · exact hs

theorem State.QueuePlacesKept.withdraw (hs : s.QueuePlacesKept) : (s.withdraw f).QueuePlacesKept := by
  have hstruck : (s.setOwnership
      { s.ownership with waitList := s.ownership.waitList.filter (· != f) }).QueuePlacesKept := by
    rw [queuePlacesKept_iff] at *
    exact hs.strike _
  exact hstruck.withdrawQueued.withdrawInHand

theorem State.QueuePlacesKept.stripRecord (hs : s.QueuePlacesKept) : (s.stripRecord n).QueuePlacesKept := by
  unfold State.stripRecord
  split
  · split
    · exact hs
    · exact hs
    · dsimp only
      split
      · exact hs.discardInHand
      · exact hs
  · exact hs

/-! ## Claims and releases -/

theorem State.QueuePlacesKept.releaseSlot (hs : s.QueuePlacesKept) : (s.releaseSlot n).QueuePlacesKept := by
  unfold State.releaseSlot
  split
  · exact hs
  · exact hs

theorem State.QueuePlacesKept.stopPublishing (hs : s.QueuePlacesKept) : (s.stopPublishing n).QueuePlacesKept :=
  .withdraw (.stripRecord (hs.congr (t := s.dequeue n) rfl rfl rfl))

theorem State.QueuePlacesKept.loseClaim (hs : s.QueuePlacesKept) : (s.loseClaim n source cause).QueuePlacesKept :=
  .reportRemove (.releaseSlot (.withdraw hs.withdraw))

theorem State.QueuePlacesKept.depose (hs : s.QueuePlacesKept) : (s.depose n source cause).QueuePlacesKept :=
  .postOwnership (hs.stopPublishing.congr (t := (s.stopPublishing n).updProduce n _) rfl rfl rfl)

theorem State.QueuePlacesKept.beginRelease (hs : s.QueuePlacesKept) : (s.beginRelease n tag).QueuePlacesKept :=
  .handOn (hs.congr (t := s.updProduce n _) rfl rfl rfl) rfl

theorem State.QueuePlacesKept.releaseClaim (hs : s.QueuePlacesKept) :
    (s.releaseClaim n p tag).QueuePlacesKept := by
  unfold State.releaseClaim
  dsimp only
  split
  · exact .withdraw (.withdraw (.beginRelease (.postOwnership hs.releaseSlot)))
  · exact .reportRemove (.withdraw (.withdraw (.postOwnership hs.releaseSlot)))

theorem State.QueuePlacesKept.release (hs : s.QueuePlacesKept) : (s.release n tag).QueuePlacesKept := by
  unfold State.release
  split
  · exact hs
  · split
    · exact hs.releaseClaim
    · exact hs.stopPublishing.beginRelease
    · exact hs
    · exact hs.reportRemove

theorem State.QueuePlacesKept.failClaim (hs : s.QueuePlacesKept) : (s.failClaim n).QueuePlacesKept := by
  unfold State.failClaim
  split
  · exact hs
  · split
    · exact .reportRemove hs.releaseSlot.withdraw
    · exact hs

theorem State.QueuePlacesKept.endRelease (hs : s.QueuePlacesKept) : (s.endRelease n cause).QueuePlacesKept := by
  unfold State.endRelease
  split
  · exact hs
  · split
    · exact hs.reportRemove
    · exact hs

theorem State.QueuePlacesKept.beginWindow (hs : s.QueuePlacesKept) : (s.beginWindow n).QueuePlacesKept := by
  unfold State.beginWindow
  split
  · exact hs
  · split
    · split
      · exact hs
      · exact hs
    · exact hs

theorem State.QueuePlacesKept.grantClaim {k : Fin 4} {slot : ClaimSlot} (hs : s.QueuePlacesKept) :
    (s.grantClaim k slot p).QueuePlacesKept := by
  have howned := hs.congr (t := (s.putSlot k none).updProduce slot.object (fun p =>
    { p with ownership := .owned, claimSlot := none, refreshCounter := 0 })) rfl rfl rfl
  unfold State.grantClaim
  dsimp only
  split
  · exact howned.postOwnership.elsewhere (appendNew_changesOnly _ _) (by decide)
  · exact howned.postOwnership

/-! ## Evictions, acceptances and expiries -/

theorem State.QueuePlacesKept.evict {l : Line} (hs : s.QueuePlacesKept) : (s.evict l detail tag).QueuePlacesKept := by
  unfold State.evict
  split
  · exact hs
  · dsimp only
    split
    · exact hs
    · exact .post (hs.congr rfl rfl rfl)

theorem State.QueuePlacesKept.allocate {t : State} {pinned : Bool} {w : Way} (hs : s.QueuePlacesKept)
    (h : s.allocate n pinned detail tag = some (w, t)) : t.QueuePlacesKept := by
  obtain ⟨c, hc, -, rfl⟩ := allocate_eq h
  have hkept : c.QueuePlacesKept := by
    rw [hc]
    split
    · exact hs.evict
    · exact hs
  exact hkept.congr rfl rfl rfl

theorem State.QueuePlacesKept.takeClaim {d : Descriptor} (hs : s.QueuePlacesKept) :
    (s.takeClaim d).QueuePlacesKept := by
  have hentry (k : Fin 4) : (s.claimEntry d k).QueuePlacesKept := by
    unfold State.claimEntry
    split
    · exact hs
    · split
      · exact hs
      · next h => exact (hs.allocate h).congr rfl rfl rfl
  unfold State.takeClaim
  split
  · exact hs
  · next k _ => exact .handOn ((hentry k).congr rfl rfl rfl) rfl

theorem State.QueuePlacesKept.recordLine {t : State} (hs : s.QueuePlacesKept) (h : s.recordLine n = some t) :
    t.QueuePlacesKept := by
  unfold State.recordLine at h
  split at h
  · cases h; exact hs
  · obtain ⟨⟨w, a⟩, ha, rfl⟩ := Option.map_eq_some_iff.mp h
    exact (hs.allocate ha).congr rfl rfl rfl

theorem State.QueuePlacesKept.postBinding {b : Binding} (hs : s.QueuePlacesKept) :
    (s.postBinding n source q payload b).QueuePlacesKept := by
  unfold State.postBinding
  split
  · exact hs.post
  · exact hs.post
  · split
    · exact hs
    · exact hs.post

theorem State.QueuePlacesKept.accept (hs : s.QueuePlacesKept) :
    (s.accept n c source rep q payload).QueuePlacesKept := by
  unfold State.accept
  split
  · exact hs.post
  · next lined h =>
    have hbound := State.QueuePlacesKept.postBinding (n := n) (source := source) (q := q) (payload := payload)
      (b := c.binding) ((hs.recordLine h).congr (t := lined.updConsume n (fun c => { c with binding := .bound source }))
        rfl rfl rfl)
    have hwritten := hbound.elsewhere (storePayload_changesOnly _ n payload) (by decide)
    dsimp only
    split
    · exact .post (hwritten.congr rfl rfl rfl)
    · exact hwritten.congr rfl rfl rfl

theorem State.QueuePlacesKept.judgeRecord (hs : s.QueuePlacesKept) :
    (s.judgeRecord n c source rep q payload).QueuePlacesKept := by
  have hsequence : (s.checkSequence n c source rep q payload).QueuePlacesKept := by
    unfold State.checkSequence
    split
    · exact hs.accept
    · exact hs.accept
    · split
      · exact hs
      · split
        · exact hs.accept
        · exact hs.post.accept
  unfold State.judgeRecord
  split
  · exact hs.accept
  · exact hs.accept
  · split
    · exact hsequence
    · split
      · exact hs.accept
      · exact hs.post

theorem State.QueuePlacesKept.relinquishAtConsume (hs : s.QueuePlacesKept) :
    (s.relinquishAtConsume n source c).QueuePlacesKept := by
  unfold State.relinquishAtConsume
  split
  · exact .post (hs.congr rfl rfl rfl)
  · exact hs

theorem State.QueuePlacesKept.expireAge (hs : s.QueuePlacesKept) : (s.expireAge n c).QueuePlacesKept := by
  unfold State.expireAge
  dsimp only
  split
  · exact .post (hs.congr rfl rfl rfl)
  · exact .post (hs.congr rfl rfl rfl)
  · exact .post (hs.congr rfl rfl rfl)
  · exact .post (hs.congr rfl rfl rfl)
  all_goals exact hs

/-! ## The frame in hand and the end of a happening -/

theorem State.QueuePlacesKept.holdSucceeded (hs : s.QueuePlacesKept) : (s.holdSucceeded n).QueuePlacesKept := by
  unfold State.holdSucceeded
  split
  · exact .post (hs.congr rfl rfl rfl)
  · exact hs
  · split
    · exact .highMarkTest (hs.congr rfl rfl rfl)
    · exact hs
  · exact hs

theorem State.QueuePlacesKept.holdAbandoned (hs : s.QueuePlacesKept) : (s.holdAbandoned n).QueuePlacesKept := by
  unfold State.holdAbandoned
  split
  · exact .highMarkTest (hs.congr rfl rfl rfl)
  · exact .highMarkTest (.postHoldEnded (hs.congr rfl rfl rfl))
  · split
    · exact .highMarkTest (hs.congr rfl rfl rfl)
    · exact hs
  · exact hs

theorem State.QueuePlacesKept.reportSuccess (hs : s.QueuePlacesKept) : s.reportSuccess.QueuePlacesKept := by
  unfold State.reportSuccess
  split
  · exact hs
  · exact hs.elsewhere (foldl_changesOnly _ commit_perRec.frame _ s) (by decide)
  · split
    · exact hs
    · exact hs.beginWindow
  · exact hs.endRelease
  · exact hs.holdSucceeded
  · exact hs
  · exact hs

theorem State.QueuePlacesKept.reportAbandonment {cause : Nat} (hs : s.QueuePlacesKept) :
    (s.reportAbandonment cause).QueuePlacesKept := by
  unfold State.reportAbandonment
  split
  · exact hs
  · next records _ =>
    have hreturned := hs.elsewhere (returnRecords_spec s records).2.1 (by decide)
    unfold State.postAbandoned
    split
    · exact hreturned
    · exact hreturned.post
  · split
    · exact hs
    · exact hs.failClaim
  · exact hs.endRelease
  · exact hs.holdAbandoned
  · exact hs
  · exact hs

theorem State.QueuePlacesKept.dropFrame (hs : s.QueuePlacesKept) : s.dropFrame.QueuePlacesKept := hs

/-- A further attempt draws anew, and a discarded frame leaves the places alone (R125). -/
theorem State.QueuePlacesKept.collideAgain (hs : s.QueuePlacesKept) : s.collideAgain.QueuePlacesKept := by
  unfold State.collideAgain
  split
  · exact hs
  · have hstripped (l : List TxRecord) := hs.elsewhere (foldl_changesOnly _ unsend_perRec.frame l s) (by decide)
    dsimp only
    split
    · exact (hstripped _).congr rfl rfl rfl
    · exact (hstripped _).congr rfl rfl rfl
  · exact hs

theorem State.QueuePlacesKept.collide (hs : s.QueuePlacesKept) : s.collide.QueuePlacesKept := by
  unfold State.collide
  dsimp only
  split
  · exact .dropFrame (.reportAbandonment (hs.congr rfl rfl rfl))
  · exact .collideAgain (hs.congr rfl rfl rfl)

theorem State.QueuePlacesKept.chooseFrame (hs : s.QueuePlacesKept) : s.chooseFrame.QueuePlacesKept := by
  unfold State.chooseFrame
  split
  · next records _ =>
    split
    · exact hs
    · exact (hs.elsewhere (returnRecords_spec s records).2.1 (by decide)).dropFrame
  · exact hs
  · split
    · next f rest hq =>
      exact hs.placeFreed (by rw [hq]; exact List.mem_cons_self) (by rw [hq, List.erase_cons_head]; rfl) rfl rfl
    · split
      · have hmarked := (hs.congr (t := s.setPubQueue (s.takeBundle s.pubQueue 0 0).2) rfl rfl rfl).elsewhere
          (foldl_changesOnly _ bundle_perRec.frame (s.takeBundle s.pubQueue 0 0).1 _) (by decide)
        exact hmarked.congr rfl rfl rfl
      · exact hs

/-- The entry to DETACHED posts, and leaves the places to its posts (R134, R146). -/
theorem State.QueuePlacesKept.enterDetached (hs : s.QueuePlacesKept) : s.enterDetached.QueuePlacesKept := by
  have hleft : ((s.setStation { s.station with life := .detached }).post
      (s.stationNotice .left s.own 0 s.station.keptTag)).QueuePlacesKept := .post (hs.congr rfl rfl rfl)
  unfold State.enterDetached
  dsimp only
  split
  · exact .postHoldEnded (hleft.congr rfl rfl rfl)
  · exact hleft.congr rfl rfl rfl

theorem State.QueuePlacesKept.settle (hs : s.QueuePlacesKept) : s.settle.QueuePlacesKept := by
  unfold State.settle
  split
  · exact hs.enterDetached.leaveIdle
  · exact hs.leaveIdle

end Operations

/-- The teardown leaves nothing that waits (R148). -/
theorem enterMuted_queuePlacesKept (s : State) : s.enterMuted.QueuePlacesKept := by
  obtain ⟨-, hcontention, hwait, -⟩ := enterMuted_rest s
  rw [queuePlacesKept_iff, hcontention, hwait]
  exact placesKept_nil

end Sys2Proof.Machine
end


section
/-! PROOF. The places of the control queue stay kept after every command and step (R55, R129 to R131). -/

namespace Sys2Proof.Machine

section Commands
variable {s : State}

/-! ## The host port -/

theorem State.QueuePlacesKept.register {t : State} {via : SpiVia} {w : Bool} {a : Nat} (hs : s.QueuePlacesKept)
    (h : s.registerByte via w a = some t) : t.QueuePlacesKept :=
  hs.elsewhere (registerByte_changesOnly s t via w a h) (by decide)

theorem State.QueuePlacesKept.startRequest (hs : s.QueuePlacesKept) : s.startRequest.QueuePlacesKept := by
  unfold State.startRequest
  dsimp only
  split
  · exact hs
  · exact hs

theorem State.QueuePlacesKept.execSoftReset (hs : s.QueuePlacesKept) (via : SpiVia) :
    Ends State.QueuePlacesKept (execSoftReset via s) := by
  unfold Sys2Proof.Machine.execSoftReset
  split
  · simpa using hs
  · simpa using resets_queuePlacesKept (softReset_resets _)

theorem State.QueuePlacesKept.execStart (hs : s.QueuePlacesKept) (via : SpiVia) (during : List RamByte) :
    Ends State.QueuePlacesKept (execStart via s during) := by
  unfold Sys2Proof.Machine.execStart
  split
  · simpa using hs
  · next t ht =>
    have hmet : (t.setPort (t.port.acceptBytes during)).QueuePlacesKept := (hs.register ht).congr rfl rfl rfl
    dsimp only
    split
    · simpa using hmet.startRequest
    · simpa using hmet

theorem State.QueuePlacesKept.execCmdAdvance (hs : s.QueuePlacesKept) (via : SpiVia) (value : Byte) :
    Ends State.QueuePlacesKept (execCmdAdvance via value s) := by
  unfold Sys2Proof.Machine.execCmdAdvance State.scanRequest
  split
  · simpa using hs
  · next t ht =>
    have ht := hs.register ht
    rw [ends_next]
    split
    · exact ht
    · split
      · exact ht
      · exact ht

theorem State.QueuePlacesKept.execNoticeTaken (hs : s.QueuePlacesKept) (via : SpiVia) (k : Byte) :
    Ends State.QueuePlacesKept (execNoticeTaken via k s) := by
  unfold Sys2Proof.Machine.execNoticeTaken State.releaseNotices
  split
  · simpa using hs
  · next t ht =>
    have ht := hs.register ht
    rw [ends_next]
    split
    · exact ht
    · exact ht

theorem State.QueuePlacesKept.execTickHighByteRead (hs : s.QueuePlacesKept) (via : SpiVia) :
    Ends State.QueuePlacesKept (execTickHighByteRead via s) := by
  unfold Sys2Proof.Machine.execTickHighByteRead
  split
  · simpa using hs
  · next t ht =>
    have ht := hs.register ht
    exact (ends_next _ _).mpr ht

theorem State.QueuePlacesKept.execRegisterWriteIgnored (hs : s.QueuePlacesKept) (via : SpiVia) (addr : Nat)
    (value : Byte) : Ends State.QueuePlacesKept (execRegisterWriteIgnored via addr value s) := by
  unfold Sys2Proof.Machine.execRegisterWriteIgnored
  split
  · split
    · simpa using hs
    · next t ht => simpa using hs.register ht
  · simpa using hs

/-- The fall of the backlog and the rise that NOTICES_LOST makes of it are reported (R134, R170). -/
theorem State.QueuePlacesKept.execPlacement (hs : s.QueuePlacesKept) :
    Ends State.QueuePlacesKept (execPlacement s) := by
  have hleft (n : Notice) (rest : List Notice) : ((s.writeNotice n).leaveBacklog rest).QueuePlacesKept := by
    unfold State.leaveBacklog
    split
    · exact .reportFall (hs.congr rfl rfl rfl)
    · exact .highMarkTest (.reportFall (hs.congr rfl rfl rfl))
  unfold Sys2Proof.Machine.execPlacement
  split
  · simpa using hs
  · split
    · rw [ends_next]
      exact .settle (.congr (hleft _ _) rfl rfl rfl)
    · simpa using hs

/-! ## The command ring -/

theorem State.QueuePlacesKept.finish {d : Descriptor} {status : Status} (hs : s.QueuePlacesKept) :
    (s.finish d status).QueuePlacesKept := hs

theorem State.QueuePlacesKept.execExamination (hs : s.QueuePlacesKept) :
    Ends State.QueuePlacesKept (execExamination s) := by
  unfold Sys2Proof.Machine.execExamination
  split
  · dsimp only
    split
    · simpa using hs
    · exact (ends_next _ _).mpr hs
  · simpa using hs

theorem State.QueuePlacesKept.execBadCommand (hs : s.QueuePlacesKept) :
    Ends State.QueuePlacesKept (execBadCommand s) := by
  unfold Sys2Proof.Machine.execBadCommand
  split
  · simpa using hs
  · next d t ht =>
    split
    · simpa using hs
    · rw [ends_next]
      exact .finish (hs.elsewhere (taking_changesOnly _ _ _ ht) (by decide))

/-- A ring command that is taken: refused, or carried out once it has passed its checks (R157). -/
theorem State.QueuePlacesKept.ring {code : Byte} {d : Descriptor} {t : State} {checks : List (Bool × Status)}
    {carryOut : State → State} (hs : s.QueuePlacesKept) (h : s.takingCode code = some (d, t))
    (hk : t.QueuePlacesKept → (∀ c ∈ checks, c.1 = false) → (carryOut t).QueuePlacesKept) :
    (t.perform d checks carryOut).QueuePlacesKept := by
  have ht := hs.elsewhere (takingCode_changesOnly _ _ _ _ h) (by decide)
  unfold State.perform
  split
  · exact ht.finish
  · next hc => exact hk ht (firstFailure_none hc)

theorem State.QueuePlacesKept.execSubscribe (hs : s.QueuePlacesKept) :
    Ends State.QueuePlacesKept (execSubscribe s) := by
  unfold Sys2Proof.Machine.execSubscribe
  split
  · simpa using hs
  · next d t ht => exact (ends_next _ _).mpr (hs.ring ht fun h _ => h)

theorem State.QueuePlacesKept.execUnsubscribe (hs : s.QueuePlacesKept) :
    Ends State.QueuePlacesKept (execUnsubscribe s) := by
  unfold Sys2Proof.Machine.execUnsubscribe
  split
  · simpa using hs
  · next d t ht => exact (ends_next _ _).mpr (hs.ring ht fun h _ =>
      .finish (h.elsewhere (removeEntry_changesOnly _ _) (by decide)))

theorem State.QueuePlacesKept.execUnbind (hs : s.QueuePlacesKept) : Ends State.QueuePlacesKept (execUnbind s) := by
  unfold Sys2Proof.Machine.execUnbind
  split
  · simpa using hs
  · next d t ht => exact (ends_next _ _).mpr (hs.ring ht fun h _ => h)

theorem State.QueuePlacesKept.execLock (hs : s.QueuePlacesKept) : Ends State.QueuePlacesKept (execLock s) := by
  unfold Sys2Proof.Machine.execLock
  split
  · simpa using hs
  · next d t ht => exact (ends_next _ _).mpr (hs.ring ht fun h _ =>
      .finish (h.elsewhere (markLocked_changesOnly _ _ _) (by decide)))

theorem State.QueuePlacesKept.execUnlock (hs : s.QueuePlacesKept) : Ends State.QueuePlacesKept (execUnlock s) := by
  unfold Sys2Proof.Machine.execUnlock
  split
  · simpa using hs
  · next d t ht => exact (ends_next _ _).mpr (hs.ring ht fun h _ =>
      .finish (h.elsewhere (markLocked_changesOnly _ _ _) (by decide)))

/-- PULL has checked that a command place is free (R115). -/
theorem State.QueuePlacesKept.execPull (hs : s.QueuePlacesKept) : Ends State.QueuePlacesKept (execPull s) := by
  unfold Sys2Proof.Machine.execPull
  split
  · simpa using hs
  · next d t ht =>
    refine (ends_next _ _).mpr (hs.ring ht fun h hc => .settle (.finish (h.placeCommand rfl ?_)))
    simpa using hc (!commandPlaceFree t.contention.queue, .queueFull) (by simp [State.pullChecks])

theorem State.QueuePlacesKept.execClaim (hs : s.QueuePlacesKept) : Ends State.QueuePlacesKept (execClaim s) := by
  unfold Sys2Proof.Machine.execClaim
  split
  · simpa using hs
  · next d t ht => exact (ends_next _ _).mpr (hs.ring ht fun h _ => .settle (.finish h.takeClaim))

theorem State.QueuePlacesKept.execRelinquish (hs : s.QueuePlacesKept) :
    Ends State.QueuePlacesKept (execRelinquish s) := by
  unfold Sys2Proof.Machine.execRelinquish
  split
  · simpa using hs
  · next d t ht => exact (ends_next _ _).mpr (hs.ring ht fun h _ => .settle (.finish h.release))

theorem State.QueuePlacesKept.execWrite (hs : s.QueuePlacesKept) : Ends State.QueuePlacesKept (execWrite s) := by
  unfold Sys2Proof.Machine.execWrite
  split
  · simpa using hs
  · next d t ht =>
    refine (ends_next _ _).mpr (hs.ring ht fun h _ => ?_)
    have hread : (t.setPort (t.port.engineReads d.buffer d.length).2).QueuePlacesKept := h
    exact .settle (.finish (hread.elsewhere (stage_changesOnly _ _ _) (by decide)))

theorem State.QueuePlacesKept.execRead (hs : s.QueuePlacesKept) : Ends State.QueuePlacesKept (execRead s) := by
  unfold Sys2Proof.Machine.execRead
  split
  · simpa using hs
  · next d t ht => exact (ends_next _ _).mpr (hs.ring ht fun h _ =>
      h.elsewhere (readLine_changesOnly _ _) (by decide))

theorem State.QueuePlacesKept.execSnapshot (hs : s.QueuePlacesKept) :
    Ends State.QueuePlacesKept (execSnapshot s) := by
  unfold Sys2Proof.Machine.execSnapshot
  split
  · simpa using hs
  · next d t ht =>
    refine (ends_next _ _).mpr (hs.ring ht fun h _ => ?_)
    have hwritten (x : HostPort) : (t.setPort x).QueuePlacesKept := h
    exact (hwritten _).elsewhere (complete_changesOnly _ _ _ _ _) (by decide)

theorem State.QueuePlacesKept.beginLeave {tag : Word16} (hs : s.QueuePlacesKept) :
    (s.beginLeave tag).QueuePlacesKept := by
  unfold State.beginLeave
  exact fold_keeps (fun _ _ hu => hu.release) _ (s := s.setStation _) hs

theorem State.QueuePlacesKept.execLeave (hs : s.QueuePlacesKept) : Ends State.QueuePlacesKept (execLeave s) := by
  unfold Sys2Proof.Machine.execLeave
  split
  · simpa using hs
  · next d t ht => exact (ends_next _ _).mpr (hs.ring ht fun h _ => .settle (.finish h.beginLeave))

theorem State.QueuePlacesKept.execRejoin (hs : s.QueuePlacesKept) : Ends State.QueuePlacesKept (execRejoin s) := by
  unfold Sys2Proof.Machine.execRejoin
  split
  · simpa using hs
  · next d t ht => exact (ends_next _ _).mpr (hs.ring ht fun h _ => h)

/-! ## The line -/

theorem State.QueuePlacesKept.execCarrierBegins (hs : s.QueuePlacesKept) :
    Ends State.QueuePlacesKept (execCarrierBegins s) := by
  unfold Sys2Proof.Machine.execCarrierBegins
  split
  · simpa using hs
  · exact (ends_next _ _).mpr hs

theorem State.QueuePlacesKept.execFrameEnd (hs : s.QueuePlacesKept) (bytes : List Byte) :
    Ends State.QueuePlacesKept (execFrameEnd bytes s) := by
  have hclash : (s.setRx .skip).clash.QueuePlacesKept := by
    unfold State.clash
    split
    · exact enterMuted_queuePlacesKept _
    · exact enterMuted_queuePlacesKept _
    · exact enterMuted_queuePlacesKept _
    · exact enterMuted_queuePlacesKept _
    · exact hs
    · exact hs
  unfold Sys2Proof.Machine.execFrameEnd State.frameEnd
  split
  · split
    · rw [ends_next]
      split
      · exact hs
      · split
        · exact hs
        · split
          · exact hclash
          · exact hs
    · simpa using hs
  · simpa using hs

theorem State.QueuePlacesKept.execFirstByteCollected (hs : s.QueuePlacesKept) (byte : Byte) :
    Ends State.QueuePlacesKept (execFirstByteCollected byte s) := by
  unfold Sys2Proof.Machine.execFirstByteCollected
  split
  · exact (ends_next _ _).mpr hs
  · simpa using hs

theorem State.QueuePlacesKept.execHeaderFieldsComplete (hs : s.QueuePlacesKept) (byte1 byte2 : Byte) :
    Ends State.QueuePlacesKept (execHeaderFieldsComplete byte1 byte2 s) := by
  unfold Sys2Proof.Machine.execHeaderFieldsComplete
  split
  · split
    · simpa using hs
    · exact (ends_next _ _).mpr hs
  · simpa using hs

/-! ## The dispatched items -/

theorem State.QueuePlacesKept.dropIgnored (hs : s.QueuePlacesKept) : s.dropIgnored.QueuePlacesKept := hs

theorem State.QueuePlacesKept.execDataRecordAtConsume (hs : s.QueuePlacesKept) :
    Ends State.QueuePlacesKept (execDataRecordAtConsume s) := by
  unfold Sys2Proof.Machine.execDataRecordAtConsume
  split
  · split
    · exact (ends_next _ _).mpr (.settle (.judgeRecord hs))
    · exact (ends_next _ _).mpr hs.dropIgnored
  · exact (ends_next _ _).mpr hs.dropIgnored

theorem State.QueuePlacesKept.execDataRecordAtProduce (hs : s.QueuePlacesKept) :
    Ends State.QueuePlacesKept (execDataRecordAtProduce s) := by
  unfold Sys2Proof.Machine.execDataRecordAtProduce State.dataAtProduce
  split
  · split
    · refine (ends_next _ _).mpr (.settle ?_)
      split
      · exact .loseClaim hs
      · split
        · exact .depose hs
        · exact .dispute hs
      · exact hs
      · exact hs
    · exact (ends_next _ _).mpr hs.dropIgnored
  · exact (ends_next _ _).mpr hs.dropIgnored

theorem State.QueuePlacesKept.execClaimHeard (hs : s.QueuePlacesKept) :
    Ends State.QueuePlacesKept (execClaimHeard s) := by
  unfold Sys2Proof.Machine.execClaimHeard State.claimAtProduce
  split
  · split
    · refine (ends_next _ _).mpr (.settle ?_)
      split
      · split
        · exact .dispute hs
        · exact .loseClaim hs
      · exact .dispute hs
      · exact hs
      · exact hs
    · exact (ends_next _ _).mpr hs.dropIgnored
  · exact (ends_next _ _).mpr hs.dropIgnored

theorem State.QueuePlacesKept.execDisputeHeard (hs : s.QueuePlacesKept) :
    Ends State.QueuePlacesKept (execDisputeHeard s) := by
  unfold Sys2Proof.Machine.execDisputeHeard State.disputeAtProduce
  split
  · split
    · refine (ends_next _ _).mpr (.settle ?_)
      split
      · exact .loseClaim hs
      · split
        · exact .depose hs
        · exact .dispute hs
      · exact hs
      · exact hs
    · exact (ends_next _ _).mpr hs.dropIgnored
  · exact (ends_next _ _).mpr hs.dropIgnored

theorem State.QueuePlacesKept.execRelinquishHeardAtProduce (hs : s.QueuePlacesKept) :
    Ends State.QueuePlacesKept (execRelinquishHeardAtProduce s) := by
  unfold Sys2Proof.Machine.execRelinquishHeardAtProduce
  split
  · split
    · exact (ends_next _ _).mpr hs
    · exact (ends_next _ _).mpr hs.dropIgnored
  · exact (ends_next _ _).mpr hs.dropIgnored

theorem State.QueuePlacesKept.execRelinquishHeardAtConsume (hs : s.QueuePlacesKept) :
    Ends State.QueuePlacesKept (execRelinquishHeardAtConsume s) := by
  unfold Sys2Proof.Machine.execRelinquishHeardAtConsume
  split
  · split
    · exact (ends_next _ _).mpr (.settle (.relinquishAtConsume hs))
    · exact (ends_next _ _).mpr hs.dropIgnored
  · exact (ends_next _ _).mpr hs.dropIgnored

theorem State.QueuePlacesKept.execPullHeard (hs : s.QueuePlacesKept) :
    Ends State.QueuePlacesKept (execPullHeard s) := by
  unfold Sys2Proof.Machine.execPullHeard State.pullAtProduce
  split
  · next rest _ =>
    split
    · refine (ends_next _ _).mpr (.settle ?_)
      split
      · exact State.QueuePlacesKept.elsewhere (s := s.setDispatch rest) hs (appendRepeat_changesOnly _ _) (by decide)
      · exact hs
    · exact (ends_next _ _).mpr hs.dropIgnored
  · exact (ends_next _ _).mpr hs.dropIgnored

theorem State.QueuePlacesKept.execHoldHeard (hs : s.QueuePlacesKept) :
    Ends State.QueuePlacesKept (execHoldHeard s) := by
  unfold Sys2Proof.Machine.execHoldHeard
  split
  · split
    · exact (ends_next _ _).mpr (.settle (hs.congr rfl rfl rfl))
    · exact (ends_next _ _).mpr hs
  · exact (ends_next _ _).mpr hs.dropIgnored

/-! ## The timers -/

theorem State.QueuePlacesKept.windowEnds {k : Fin 4} (hs : s.QueuePlacesKept) : (s.windowEnds k).QueuePlacesKept := by
  unfold State.windowEnds
  split
  · exact hs
  · split
    · exact hs
    · split
      · exact hs.grantClaim.settle
      · exact hs

theorem State.QueuePlacesKept.lastFall (hs : s.QueuePlacesKept) : s.lastFall.QueuePlacesKept := by
  unfold State.lastFall
  split
  · exact hs
  · exact .settle (hs.congr rfl rfl rfl)

theorem State.QueuePlacesKept.ownHoldEnds (hs : s.QueuePlacesKept) : s.ownHoldEnds.QueuePlacesKept := by
  unfold State.ownHoldEnds State.expireOwnHold
  split
  · refine .settle ?_
    split
    · exact hs.hold rfl rfl
    · exact .postHoldEnded (hs.congr rfl rfl rfl)
  · exact hs

theorem State.QueuePlacesKept.joinEnds (hs : s.QueuePlacesKept) : s.joinEnds.QueuePlacesKept := by
  unfold State.joinEnds State.enterActive
  split
  · refine .settle (.highMarkTest (.post ?_))
    exact hs
  · exact hs

/-- A boundary lowers the hold table and the own-hold expiry alone (R132, R135, R143). -/
theorem State.QueuePlacesKept.slotBoundary (hs : s.QueuePlacesKept) : s.slotBoundary.QueuePlacesKept := by
  obtain ⟨-, -, htable⟩ := slotTable_spec s.contention
  have hlists : s.contention.slotTable.slotExpiry.queue = s.contention.queue
      ∧ s.contention.slotTable.slotExpiry.pendingHold = s.contention.pendingHold := by
    rw [slotExpiry_eq, htable]
    exact ⟨rfl, rfl⟩
  exact hs.congr hlists.1 hlists.2 rfl

theorem State.QueuePlacesKept.carryOutSlots (hs : s.QueuePlacesKept) : s.carryOutSlots.QueuePlacesKept := by
  have hgrants := fold_keeps (F := State.windowEnds) (fun _ _ hu => State.QueuePlacesKept.windowEnds hu) [0, 1, 2, 3] hs
  exact hgrants.lastFall.ownHoldEnds.joinEnds

theorem State.QueuePlacesKept.execSlotBoundary (hs : s.QueuePlacesKept) :
    Ends State.QueuePlacesKept (execSlotBoundary s) := by
  unfold Sys2Proof.Machine.execSlotBoundary
  split
  · simpa using hs
  · exact (ends_next _ _).mpr hs.carryOutSlots.slotBoundary

theorem State.QueuePlacesKept.execGrant (hs : s.QueuePlacesKept) (slot : Nat) :
    Ends State.QueuePlacesKept (execGrant slot s) := by
  unfold Sys2Proof.Machine.execGrant
  split
  · simpa using hs.windowEnds
  · simpa using hs

theorem State.QueuePlacesKept.tickEntry {n : Nat} (hs : s.QueuePlacesKept) : (s.tickEntry n).QueuePlacesKept := by
  unfold State.tickEntry
  split
  · exact hs
  · split
    · dsimp only
      have hmet : (s.setDirectory
          (updateEntry s.directory n (fun e => { e with tickOwed := false }))).QueuePlacesKept := hs
      split
      · split
        · exact .settle (hmet.elsewhere (expireRefresh_changesOnly _ n) (by decide))
        · exact hmet.expireAge.settle
      · exact hs
    · exact hs

theorem State.QueuePlacesKept.tickTimer (hs : s.QueuePlacesKept) : s.tickTimer.QueuePlacesKept :=
  hs.elsewhere (tickTimer_changesOnly s) (by decide)

theorem State.QueuePlacesKept.execTick (hs : s.QueuePlacesKept) (late : List Nat) (timerLate : Bool) :
    Ends State.QueuePlacesKept (execTick s late timerLate) := by
  have howed : s.carryOutTicks.QueuePlacesKept :=
    .tickTimer (fold_keeps (P := State.QueuePlacesKept) (fun _ _ hu => hu.tickEntry) _ hs)
  unfold Sys2Proof.Machine.execTick
  split
  · simpa using hs
  · exact (ends_next _ _).mpr (howed.elsewhere (tickAll_changesOnly _ late timerLate) (by decide))

theorem State.QueuePlacesKept.execRefreshExpiry (hs : s.QueuePlacesKept) (n : Nat) :
    Ends State.QueuePlacesKept (execRefreshExpiry n s) := by
  unfold Sys2Proof.Machine.execRefreshExpiry
  split
  · simpa using hs
  · simpa using hs.tickEntry

theorem State.QueuePlacesKept.execAgeExpiry (hs : s.QueuePlacesKept) (n : Nat) :
    Ends State.QueuePlacesKept (execAgeExpiry n s) := by
  unfold Sys2Proof.Machine.execAgeExpiry
  split
  · simpa using hs
  · simpa using hs.tickEntry

/-! ## The Contention Unit -/

theorem State.QueuePlacesKept.execQuietReached (hs : s.QueuePlacesKept) :
    Ends State.QueuePlacesKept (execQuietReached s) := by
  unfold Sys2Proof.Machine.execQuietReached
  split
  · exact (ends_next _ _).mpr hs
  · simpa using hs

theorem State.QueuePlacesKept.execDeferralSlot (hs : s.QueuePlacesKept) :
    Ends State.QueuePlacesKept (execDeferralSlot s) := by
  unfold Sys2Proof.Machine.execDeferralSlot
  split
  · split
    · exact (ends_next _ _).mpr hs
    · simpa using hs
  · simpa using hs

theorem State.QueuePlacesKept.execDeferralEnd (hs : s.QueuePlacesKept) :
    Ends State.QueuePlacesKept (execDeferralEnd s) := by
  unfold Sys2Proof.Machine.execDeferralEnd
  split
  · exact (ends_next _ _).mpr hs.chooseFrame.settle
  · simpa using hs

theorem State.QueuePlacesKept.execCollision (hs : s.QueuePlacesKept) :
    Ends State.QueuePlacesKept (execCollision s) := by
  unfold Sys2Proof.Machine.execCollision
  split
  · exact (ends_next _ _).mpr hs.collide.settle
  · simpa using hs

theorem State.QueuePlacesKept.execLateCollision (hs : s.QueuePlacesKept) :
    Ends State.QueuePlacesKept (execLateCollision s) := by
  unfold Sys2Proof.Machine.execLateCollision
  split
  · exact (ends_next _ _).mpr hs.reportAbandonment.dropFrame.settle
  · simpa using hs

theorem State.QueuePlacesKept.execSuccessfulEnd (hs : s.QueuePlacesKept) :
    Ends State.QueuePlacesKept (execSuccessfulEnd s) := by
  unfold Sys2Proof.Machine.execSuccessfulEnd
  split
  · exact (ends_next _ _).mpr (.settle (.dropFrame (.reportSuccess hs)))
  · simpa using hs

/-! ## Every command, and the step -/

theorem State.QueuePlacesKept.exec (hs : s.QueuePlacesKept) (c : Instr) : Ends State.QueuePlacesKept (exec c s) := by
  cases c with
  | hardReset => exact (ends_next _ _).mpr (resets_queuePlacesKept (hardReset_resets s))
  | softReset via => exact hs.execSoftReset via
  | start via during => exact hs.execStart via during
  | cmdAdvance via value => exact hs.execCmdAdvance via value
  | noticeTaken via k => exact hs.execNoticeTaken via k
  | tickHighByteRead via => exact hs.execTickHighByteRead via
  | registerWriteIgnored via addr value => exact hs.execRegisterWriteIgnored via addr value
  | sharedRamWrite via addr value turn => exact (ends_next _ _).mpr hs
  | examination => exact hs.execExamination
  | badCommand => exact hs.execBadCommand
  | subscribe => exact hs.execSubscribe
  | unsubscribe => exact hs.execUnsubscribe
  | claim => exact hs.execClaim
  | relinquish => exact hs.execRelinquish
  | write => exact hs.execWrite
  | read => exact hs.execRead
  | pull => exact hs.execPull
  | lock => exact hs.execLock
  | unlock => exact hs.execUnlock
  | unbind => exact hs.execUnbind
  | snapshot => exact hs.execSnapshot
  | leave => exact hs.execLeave
  | rejoin => exact hs.execRejoin
  | carrierBegins => exact hs.execCarrierBegins
  | carrierAbsent => exact (ends_next _ _).mpr hs
  | frameEnd bytes => exact hs.execFrameEnd bytes
  | dataRecordAtConsume => exact hs.execDataRecordAtConsume
  | dataRecordAtProduce => exact hs.execDataRecordAtProduce
  | claimHeard => exact hs.execClaimHeard
  | disputeHeard => exact hs.execDisputeHeard
  | relinquishHeardAtProduce => exact hs.execRelinquishHeardAtProduce
  | relinquishHeardAtConsume => exact hs.execRelinquishHeardAtConsume
  | pullHeard => exact hs.execPullHeard
  | holdHeard => exact hs.execHoldHeard
  | slotBoundary => exact hs.execSlotBoundary
  | grant slot => exact hs.execGrant slot
  | holdEntryRunsOut => exact (ends_next _ _).mpr hs.lastFall
  | ownHoldExpires => exact (ends_next _ _).mpr hs.ownHoldEnds
  | joinPeriodEnd => exact (ends_next _ _).mpr hs.joinEnds
  | tick late timerLate => exact hs.execTick late timerLate
  | refreshExpiry object => exact hs.execRefreshExpiry object
  | ageExpiry object => exact hs.execAgeExpiry object
  | coalescingExpiry => exact (ends_next _ _).mpr hs.tickTimer
  | quietReached => exact hs.execQuietReached
  | deferralSlot => exact hs.execDeferralSlot
  | deferralEnd => exact hs.execDeferralEnd
  | collision => exact hs.execCollision
  | lateCollision => exact hs.execLateCollision
  | successfulEnd => exact hs.execSuccessfulEnd
  | placement => exact hs.execPlacement
  | firstByteCollected byte => exact hs.execFirstByteCollected byte
  | headerFieldsComplete byte1 byte2 => exact hs.execHeaderFieldsComplete byte1 byte2
  | resetNReleased => exact (ends_next _ _).mpr hs

end Commands

/-- Settles O6: the counts of the queue's frames by origin, kept by every placement, withdrawal and request, and so by
every command. -/
theorem queuePlacesStayKept : Obligations.QueuePlacesStayKept := by
  intro s t hs ht
  unfold step at ht
  split at ht
  · cases ht
    exact hs
  · next c rest _ =>
    have hrest : State.QueuePlacesKept { s with pending := rest } := hs
    exact hrest.exec c t ht

end Sys2Proof.Machine
end


section
/-! PROOF. Items heard at a PRODUCE entry: Table 4.2 as one case split, and the DISPUTE requests that it asks for
(R60 to R64, R130). -/

namespace Sys2Proof.Machine

/-- What an item of a kind does at a PRODUCE entry (R60 to R62). -/
def State.heardAt (s : State) (k : HeardKind) (n source : Nat) (p : Produce) : State :=
  match k with
  | .data => s.dataAtProduce n source p
  | .claim => s.claimAtProduce n source p
  | .dispute => s.disputeAtProduce n source p

/-- What an outcome of Table 4.2 makes of the entry (R64 to R66). -/
def State.afterHeard (s : State) (n source : Nat) (cause : Cause) : Heard → State
  | .lost => s.loseClaim n source cause
  | .deposed => s.depose n source cause
  | .disputes => s.requestDispute n
  | .ignored => s

/-- The three rules together are Table 4.2. -/
theorem heardAt_eq (s : State) (k : HeardKind) (n source : Nat) (p : Produce) :
    s.heardAt k n source p = s.afterHeard n source k.reason (heardOutcome s.own source k p.ownership) := by
  cases k with
  | data =>
    unfold State.heardAt State.dataAtProduce heardOutcome
    cases p.ownership with
    | owned => dsimp only; split <;> rfl
    | _ => rfl
  | claim =>
    unfold State.heardAt State.claimAtProduce heardOutcome
    cases p.ownership with
    | claiming => dsimp only; split <;> rfl
    | _ => rfl
  | dispute =>
    unfold State.heardAt State.disputeAtProduce heardOutcome
    cases p.ownership with
    | owned => dsimp only; split <;> rfl
    | _ => rfl

section Hears
variable {s : State} {k : HeardKind} {source n : Nat} {p : Produce} {rest : List Item}

theorem State.Hears.produce (h : s.Hears k source n p rest) : s.produce n = some p := by
  obtain ⟨-, -, -, hp⟩ := h
  exact hp

/-- The command of a heard item carries out Table 4.2 on the state without it. -/
theorem exec_of_hears (h : s.Hears k source n p rest) :
    exec k.command s = .next ((s.setDispatch rest).afterHeard n source k.reason
      (heardOutcome s.own source k p.ownership)).settle := by
  have htable := heardAt_eq (s.setDispatch rest) k n source p
  rw [show (s.setDispatch rest).own = s.own from rfl] at htable
  rw [← htable]
  obtain ⟨it, hnext, hmatch, hp⟩ := h
  cases it with
  | record source' n' rep q payload =>
    obtain ⟨rfl, rfl, rfl⟩ := hmatch
    show execDataRecordAtProduce s = _
    unfold execDataRecordAtProduce
    rw [hnext]
    dsimp only
    rw [hp]
    rfl
  | claim source' n' =>
    obtain ⟨rfl, rfl, rfl⟩ := hmatch
    show execClaimHeard s = _
    unfold execClaimHeard
    rw [hnext]
    dsimp only
    rw [hp]
    rfl
  | dispute source' n' =>
    obtain ⟨rfl, rfl, rfl⟩ := hmatch
    show execDisputeHeard s = _
    unfold execDisputeHeard
    rw [hnext]
    dsimp only
    rw [hp]
    rfl
  | relinquish _ _ => exact hmatch.elim
  | pull _ _ => exact hmatch.elim
  | hold _ _ => exact hmatch.elim

end Hears

/-! ## DISPUTE requests -/

theorem disputeInHand_iff (c : Contention) (n : Nat) : c.disputeInHand n = true ↔
    c.state ≠ .sending ∧ ∃ w, c.inHand = some (.control (.dispute n) w) := by
  unfold Contention.disputeInHand
  rw [Bool.and_eq_true, bne_iff_ne]
  refine and_congr_right fun _ => ?_
  cases c.inHand with
  | none => simp
  | some i => cases i <;> simp

theorem automaticPlaceFull_iff (q : List CtlFrame) :
    (!automaticPlaceFree q) = true ↔ 2 ≤ (q.filter (fun f => !f.fromCommand)).length := by
  rw [Bool.not_eq_true', ← Bool.not_eq_true, automaticPlaceFree_iff, not_lt, automatics, List.countP_eq_length_filter]

/-- A DISPUTE request is dropped for one of three reasons (R130). -/
theorem requestDispute_queue (c : Contention) (n : Nat) : (c.requestDispute n).queue =
    if .dispute n ∈ c.queue ∨ (c.state ≠ .sending ∧ ∃ w, c.inHand = some (.control (.dispute n) w))
        ∨ 2 ≤ (c.queue.filter (fun f => !f.fromCommand)).length
      then c.queue else c.queue ++ [.dispute n] := by
  have hdropped : (c.queue.contains (.dispute n) || c.disputeInHand n || !automaticPlaceFree c.queue) = true ↔
      .dispute n ∈ c.queue ∨ (c.state ≠ .sending ∧ ∃ w, c.inHand = some (.control (.dispute n) w))
        ∨ 2 ≤ (c.queue.filter (fun f => !f.fromCommand)).length := by
    rw [Bool.or_eq_true, Bool.or_eq_true, List.contains_iff_mem, disputeInHand_iff, automaticPlaceFull_iff, or_assoc]
  unfold Contention.requestDispute
  rw [apply_ite Contention.queue]
  exact if_congr hdropped rfl rfl

/-- It changes nothing else. -/
theorem requestDispute_same (c : Contention) (n : Nat) :
    c.requestDispute n = { c with queue := (c.requestDispute n).queue } := by
  unfold Contention.requestDispute
  split <;> rfl

/-- Settles O43: the two rows of Table 4.2 that leave the ownership as it is. -/
theorem heardItemsAreIgnoredOrDisputed : Obligations.HeardItemsAreIgnoredOrDisputed := by
  intro s k source n p rest hears
  have hexec := exec_of_hears hears
  refine ⟨fun hignored => ?_, fun hdisputes => ?_⟩
  · rw [hignored] at hexec
    exact ⟨_, hexec, rfl, setDispatch_changesOnly s rest⟩
  · rw [hdisputes] at hexec
    exact ⟨_, hexec, rfl, requestDispute_queue s.contention n, requestDispute_same s.contention n,
      ((setDispatch_changesOnly s rest).mono (by decide)).trans ((requestDispute_changesOnly _ n).mono (by decide))⟩

end Sys2Proof.Machine
end


section
/-! PROOF. A RELINQUISH and a PULL heard at a PRODUCE entry (R63, R85). -/

namespace Sys2Proof.Machine

/-! ## RELINQUISH and PULL -/

/-- A value can be repeated: it is committed, and its object neither queued nor in flight (R84, R85). -/
def Produce.repeatable (p : Produce) : Prop := p.committed ≠ none ∧ p.queued = .no ∧ p.inFlight = .no

section Repeat
variable {s : State} {n : Nat} {p : Produce} (hp : s.produce n = some p)
include hp

/-- A value that can be repeated joins the tail of the publication queue with REPEAT set (R85). -/
theorem appendRepeat_of_repeatable (h : p.repeatable) :
    (s.appendRepeat n).pubQueue = s.pubQueue ++ [{ object := n, rep := true }]
      ∧ (s.appendRepeat n).produce n = some { p with queued := .yes true }
      ∧ ∀ m, m ≠ n → (s.appendRepeat n).entry m = s.entry m := by
  obtain ⟨hcommitted, hqueued, hflight⟩ := h
  have happend : s.appendRepeat n = (s.setPubQueue (s.pubQueue ++ [{ object := n, rep := true }])).updProduce n
      (fun p => { p with queued := .yes true }) := by
    unfold State.appendRepeat
    rw [hp]
    dsimp only
    rw [if_pos (by simp [Option.isSome_iff_ne_none, hcommitted, hqueued, hflight])]
  obtain ⟨e, he, hr⟩ := s.produce_entry n p hp
  have hchange := updProduce_becomes (s.setPubQueue (s.pubQueue ++ [{ object := n, rep := true }])) n
    (fun p => { p with queued := .yes true })
  rw [happend]
  exact ⟨rfl, State.produce_of_entry _ _ _ _ (hchange.own he hr) rfl, fun m hm => hchange.other hm⟩

theorem appendRepeat_of_not (h : ¬ p.repeatable) : s.appendRepeat n = s := by
  unfold State.appendRepeat
  rw [hp]
  dsimp only
  refine if_neg fun hc => h ?_
  simp only [Bool.and_eq_true, beq_iff_eq, Option.isSome_iff_ne_none] at hc
  exact ⟨hc.1.1, hc.1.2, hc.2⟩

end Repeat

/-- The turn of a RELINQUISH at a PRODUCE entry. -/
theorem exec_relinquishHeard_of_next {s : State} {source n : Nat} {rest : List Item} {p : Produce}
    (hp : s.produce n = some p) (hnext : s.nextItems = .relinquish source n :: rest) :
    exec .relinquishHeardAtProduce s = .next (s.setDispatch rest) := by
  show execRelinquishHeardAtProduce s = _
  unfold execRelinquishHeardAtProduce
  rw [hnext]
  dsimp only
  rw [hp]

/-- The turn of a PULL. -/
theorem exec_pullHeard_of_next {s : State} {source n : Nat} {rest : List Item} {p : Produce}
    (hp : s.produce n = some p) (hnext : s.nextItems = .pull source n :: rest) :
    exec .pullHeard s = .next ((s.setDispatch rest).pullAtProduce n p).settle := by
  show execPullHeard s = _
  unfold execPullHeard
  rw [hnext]
  dsimp only
  rw [hp]

/-- Settles O46: the source is not looked at, and only a value that can be repeated is appended. -/
theorem relinquishAndPullHeardAtAProduceEntry : Obligations.RelinquishAndPullHeardAtAProduceEntry := by
  intro s source n rest p hp
  have hdropped := setDispatch_changesOnly s rest
  refine ⟨fun hnext => ⟨_, exec_relinquishHeard_of_next hp hnext, rfl, hdropped⟩, fun hnext =>
    ⟨_, exec_pullHeard_of_next hp hnext, ?_⟩⟩
  unfold State.pullAtProduce
  by_cases howned : p.ownership = .owned
  · have honly := appendRepeat_changesOnly (s.setDispatch rest) n
    rw [if_pos howned]
    refine ⟨honly .dispatch (by decide), ?_⟩
    by_cases hrepeat : p.repeatable
    · obtain ⟨hqueue, hentry, hothers⟩ := appendRepeat_of_repeatable (s := s.setDispatch rest) hp hrepeat
      rw [if_pos ⟨howned, hrepeat⟩]
      exact ⟨hqueue, hentry, hothers, (hdropped.mono (by decide)).trans (honly.mono (by decide))⟩
    · rw [if_neg (fun h => hrepeat h.2), appendRepeat_of_not (s := s.setDispatch rest) hp hrepeat]
      exact ⟨fun hsettled => settle_of_settled (s.setDispatch rest) hsettled, hdropped⟩
  · rw [if_neg howned, if_neg (fun h => howned h.1)]
    exact ⟨rfl, fun hsettled => settle_of_settled (s.setDispatch rest) hsettled, hdropped⟩

end Sys2Proof.Machine
end


section
/-! PROOF. The grant of a claim whose window has run out (R58, R77). -/

namespace Sys2Proof.Machine

section Grant
variable {s : State} {k : Fin 4} {slot : ClaimSlot} {p : Produce}

/-- The entry of a granted claim, its slot freed (R58). -/
def State.granted (s : State) (k : Fin 4) (n : Nat) : State :=
  (s.putSlot k none).updProduce n (fun p => { p with ownership := .owned, claimSlot := none, refreshCounter := 0 })

theorem exec_grant_of_ended (hslot : s.ownership.slots.get k = some slot) (hphase : slot.phase = .window 0)
    (hp : s.produce slot.object = some p) (hclaiming : p.ownership = .claiming) (hk : p.claimSlot = some k) :
    exec (.grant k) s = .next (s.grantClaim k slot p).settle := by
  show execGrant k s = _
  unfold execGrant State.windowEnds
  rw [dif_pos k.isLt]
  simp only [Fin.eta]
  rw [hslot]
  dsimp only
  rw [hp]
  dsimp only
  rw [if_pos ⟨hphase, hclaiming, hk⟩]

theorem granted_becomes (s : State) (k : Fin 4) (n : Nat) :
    (s.putSlot k none).EntryBecomes (s.granted k n) n
      (fun p => { p with ownership := .owned, claimSlot := none, refreshCounter := 0 }) :=
  updProduce_becomes (s.putSlot k none) n _

/-- The state once CLAIM_GRANTED is posted (R58, R74). -/
def State.grantPosted (s : State) (k : Fin 4) (slot : ClaimSlot) : State :=
  (s.granted k slot.object).post (s.ownershipNotice slot.object .claimGranted s.own .ok slot.tag)

/-- The grant posts CLAIM_GRANTED with the value as it stood, and appends a staged value (R58, R74, R77). -/
theorem grantClaim_eq : s.grantClaim k slot p =
    if p.staged then (s.grantPosted k slot).appendNew slot.object else s.grantPosted k slot := by
  have hchange := granted_becomes s k slot.object
  have honly : s.ChangesOnly (s.granted k slot.object) [.ownership, .directory] :=
    ((putSlot_changesOnly s k none).mono (by decide)).trans (hchange.2.mono (by decide))
  have hvalue : s.KeepsValue (s.granted k slot.object) slot.object :=
    .of_map (f := fun p => { p with ownership := .owned, claimSlot := none, refreshCounter := 0 })
      honly (by decide) (fun _ => rfl) ((hchange.1 _).trans (if_pos rfl))
  unfold State.grantPosted
  rw [← hvalue.ownershipNotice]
  rfl

/-- What the state is before a staged value is appended. -/
theorem grantPosted_spec (hp : s.produce slot.object = some p) :
    let t := s.grantPosted k slot
    (∃ e, t.entry slot.object = some e
        ∧ e.role = .produce { p with ownership := .owned, claimSlot := none, refreshCounter := 0 })
      ∧ (∀ m, m ≠ slot.object → t.entry m = s.entry m)
      ∧ t.ownership = (s.putSlot k none).ownership ∧ t.pubQueue = s.pubQueue
      ∧ s.AfterPosts t ∧ s.ChangesOnly t [.directory, .ownership, .contention, .notice] := by
  obtain ⟨e, he, hr⟩ := s.produce_entry _ p hp
  have hchange := granted_becomes s k slot.object
  refine ⟨⟨_, (post_entry _ _ _).trans (hchange.own he hr), rfl⟩,
    fun m hm => (post_entry _ _ _).trans (hchange.other hm), post_ownership _ _, post_pubQueue _ _, ?_, ?_⟩
  · exact (post_afterPosts _ _).congr (a := s.granted k slot.object) rfl rfl rfl rfl rfl
  · exact ((putSlot_changesOnly s k none).mono (by decide)).trans
      ((hchange.2.mono (by decide)).trans ((post_changesOnly _ _).mono (by decide)))

/-- A staged value joins the queue (R58, R77). -/
theorem appendNew_spec {n : Nat} {e : Entry} (he : s.entry n = some e) (hr : e.role = .produce p) :
    (s.appendNew n).pubQueue = s.queueWith n
      ∧ (s.appendNew n).produce n = some { p with queued := .yes false }
      ∧ ∀ m, m ≠ n → (s.appendNew n).entry m = s.entry m := by
  have hchange := updProduce_becomes (s.setPubQueue (s.queueWith n)) n (fun p => { p with queued := .yes false })
  rw [State.appendNew_eq]
  exact ⟨rfl, State.produce_of_entry _ _ _ _ (hchange.own he hr) rfl, fun m hm => hchange.other hm⟩

end Grant

/-- Settles O48: the slot, the entry, the post and the append, one after the other. -/
theorem grantMakesTheEntryOwned : Obligations.GrantMakesTheEntryOwned := by
  intro s k slot p hs hslot hphase hp hclaiming hk
  refine ⟨_, exec_grant_of_ended hslot hphase hp hclaiming hk, ?_⟩
  obtain ⟨⟨e, he, hr⟩, hothers, howner, hqueue, hposts, honly⟩ := grantPosted_spec (s := s) (k := k) hp
  have hfreed : (s.grantPosted k slot).ownership.slots.get k = none := by
    rw [howner]
    exact (set_get s.ownership.slots k k none).trans (if_pos rfl)
  have hslots (j : Fin 4) (hj : j ≠ k) :
      (s.grantPosted k slot).ownership.slots.get j = s.ownership.slots.get j := by
    rw [howner]
    exact (set_get s.ownership.slots k j none).trans (if_neg hj)
  have hwait : (s.grantPosted k slot).ownership.waitList = s.ownership.waitList := by
    rw [howner]
    rfl
  have hnotice : (s.grantPosted k slot).notice = s.notice.posted (s.valueNotice .claimGranted slot.object s.own
      (p.committed.getD 0) 0 (s.value slot.object) slot.tag) := by
    rw [show (0 : Nat) = Cause.ok.code from rfl, ← ownershipNotice_eq s _ p _ _ _ _ hs hp]
    exact post_notice _ _
  rw [grantClaim_eq]
  by_cases hstaged : p.staged
  · obtain ⟨happended, hown, hrest⟩ := appendNew_spec he hr
    have happend := appendNew_changesOnly (s.grantPosted k slot) slot.object
    have hown' := happend .ownership (by decide)
    have hsame : (s.grantPosted k slot).queueWith slot.object = s.queueWith slot.object := by
      unfold State.queueWith
      rw [hqueue]
    simp only [if_pos hstaged]
    refine ⟨hown, fun m hm => (hrest m hm).trans (hothers m hm), ?_, ?_, ?_, happended.trans hsame, hnotice, ?_, ?_⟩
    · rw [hown']; exact hfreed
    · rw [hown']; exact hslots
    · rw [hown']; exact hwait
    · exact hposts.congr rfl rfl rfl (happend .notice (by decide)) (happend .contention (by decide))
    · exact (honly.mono (by decide)).trans (happend.mono (by decide))
  · simp only [if_neg hstaged]
    exact ⟨State.produce_of_entry _ _ _ _ he hr, hothers, hfreed, hslots, hwait, hqueue, hnotice, hposts,
      honly.mono (by decide)⟩

end Sys2Proof.Machine
end


section
/-! PROOF. An OWNED entry that is deposed (R60, R62, R66), and what a stopped publication keeps through later steps. -/

namespace Sys2Proof.Machine

/-! ## A stopped publication -/

section Stopped
variable {s t u : State} {n : Nat} {e : Entry} {p q r : Produce}

theorem OwnershipUnit.ext {a b : OwnershipUnit} (hslots : a.slots = b.slots) (hwait : a.waitList = b.waitList) :
    a = b := by
  cases a
  cases b
  exact congrArg₂ OwnershipUnit.mk hslots hwait

/-- A DISPUTE is never on the wait list, so that a stop leaves the Ownership Unit (R55, R66). -/
theorem stopPublishing_ownership (hplaces : s.QueuePlacesKept) (he : s.entry n = some e) (hr : e.role = .produce p) :
    (s.stopPublishing n).ownership = s.ownership := by
  obtain ⟨-, -, -, hw, -, -⟩ := hplaces
  obtain ⟨-, -, -, -, -, hslots, hwait, -, -, -⟩ := stopPublishing_spec s n e p he hr
  have hnone : s.ownership.waitList.filter (· ≠ .dispute n) = s.ownership.waitList :=
    List.filter_eq_self.mpr fun f hf => decide_eq_true fun hd => by
      have hcommand := hw f hf
      rw [hd] at hcommand
      cases hcommand
  exact OwnershipUnit.ext hslots (hwait.trans hnone)

/-- What a later step may do to the frames of a stopped publication. -/
structure State.KeepsStop (t u : State) (n : Nat) : Prop where
  pubQueue : u.pubQueue = t.pubQueue
  inHand : (∀ m w, t.contention.inHand ≠ some (.control (.hold m) w)) → u.contention.inHand = t.contention.inHand
  disputes : u.contention.queue.count (.dispute n) = t.contention.queue.count (.dispute n)
  same : t.contention.SameButFrames u.contention
  timing : u.contention.state = t.contention.state ∧ u.contention.attempts = t.contention.attempts
    ∧ u.contention.rng = t.contention.rng

theorem State.KeepsStop.post (t : State) (x : Notice) (n : Nat) : t.KeepsStop (t.post x) n where
  pubQueue := post_pubQueue t x
  inHand := post_inHand t x
  disputes := post_count t x rfl
  same := (post_afterPosts t x).same
  timing := by
    rcases post_contention_cases t x with h | ⟨-, -, -, h⟩
    · rw [h]
      exact ⟨rfl, rfl, rfl⟩
    · rw [h, Contention.requestHold_frame]
      exact ⟨rfl, rfl, rfl⟩

theorem State.KeepsStop.of_eq (hpub : u.pubQueue = t.pubQueue) (hc : u.contention = t.contention) (n : Nat) :
    t.KeepsStop u n where
  pubQueue := hpub
  inHand := fun _ => congrArg Contention.inHand hc
  disputes := by rw [hc]
  same := hc ▸ .refl _
  timing := by
    rw [hc]
    exact ⟨rfl, rfl, rfl⟩

/-- A stopped publication stays stopped: what the stop leaves in hand is no HOLD. -/
theorem State.PublicationStops.later (h : s.PublicationStops t n p q) (hlater : t.KeepsStop u n)
    (hr : r.queued = q.queued ∧ r.inFlight = q.inFlight ∧ r.pending = q.pending) : s.PublicationStops u n p r := by
  obtain ⟨hqueued, hpub, hfields, hdata, hcount, hhand, hsame, htiming⟩ := h
  obtain ⟨hqueued', hinFlight', hpending'⟩ := hr
  obtain ⟨hstate, hattempts, hrng⟩ := hlater.timing
  refine ⟨hqueued'.trans hqueued, hlater.pubQueue.trans hpub, ?_, fun records hi => ?_, hlater.disputes.trans hcount,
    fun w hi => ?_, hsame.trans hlater.same, fun hunsent hnone => ?_⟩
  · rw [hinFlight', hpending']
    exact hfields
  · have hnow := hdata records hi
    exact (hlater.inHand fun m w => by rw [hnow]; split_ifs <;> simp).trans hnow
  · have hnow := hhand w hi
    exact (hlater.inHand fun m w => by rw [hnow]; split_ifs <;> simp).trans hnow
  · rw [hstate, hattempts, hrng]
    exact htiming hunsent hnone

end Stopped

/-! ## The deposition -/

section Depose
variable {s : State} {n source : Nat} {cause : Cause} {p : Produce}

/-- The state before OWNERSHIP_LOST is posted (R66). -/
def State.deposed (s : State) (n : Nat) : State :=
  (s.stopPublishing n).updProduce n (fun p => { p with ownership := .deposed })

theorem deposed_becomes (s : State) (n : Nat) :
    (s.stopPublishing n).EntryBecomes (s.deposed n) n (fun p => { p with ownership := .deposed }) :=
  updProduce_becomes (s.stopPublishing n) n _

/-- What a deposition does to the entry and its publication (R66). -/
theorem deposed_spec (hplaces : s.QueuePlacesKept) (hp : s.produce n = some p) :
    let t := s.deposed n
    ∃ q, t.produce n = some q ∧ s.PublicationStops t n p q
      ∧ q = { p with ownership := .deposed, queued := q.queued, inFlight := q.inFlight, pending := q.pending }
      ∧ (∀ m, m ≠ n → t.entry m = s.entry m) ∧ s.KeepsValue t n
      ∧ s.ChangesOnly t [.directory, .pubQueue, .contention] := by
  obtain ⟨e, he, hr⟩ := s.produce_entry n p hp
  obtain ⟨q, hentry, hq, hstops, hothers, -, -, -, -, honly⟩ := stopPublishing_spec s n e p he hr
  have hchange := deposed_becomes s n
  have hnow := hchange.own hentry rfl
  have hpart : (s.deposed n).produce n = some { q with ownership := .deposed } :=
    State.produce_of_entry _ _ _ _ hnow rfl
  have hwhole : s.ChangesOnly (s.deposed n) [.directory, .pubQueue, .ownership, .contention] :=
    honly.trans (hchange.2.mono (by decide))
  refine ⟨{ q with ownership := .deposed }, hpart, ?_, ?_, fun m hm => (hchange.other hm).trans (hothers m hm),
    ⟨?_, ?_, hwhole .store (by decide), hwhole .station (by decide)⟩, fun b hb => ?_⟩
  · exact hstops.later (.of_eq (hchange.2 .pubQueue (by decide)) (hchange.2 .contention (by decide)) n)
      ⟨rfl, rfl, rfl⟩
  · rw [hq]
  · rw [hnow, he]
    rfl
  · rw [hpart, hp, hq]
    rfl
  · by_cases howner : b = .ownership
    · subst howner
      exact (hchange.2 .ownership (by decide)).trans (stopPublishing_ownership hplaces he hr)
    · exact hwhole b (by revert hb howner; cases b <;> decide)

end Depose

/-- Settles O45: a deposition is a stopped publication, a change of the entry and a post. -/
theorem heardItemsDeposeAnOwner : Obligations.HeardItemsDeposeAnOwner := by
  intro s k source n p rest hs hplaces hears hdeposed
  have hexec := exec_of_hears hears
  rw [hdeposed] at hexec
  have hp : (s.setDispatch rest).produce n = some p := hears.produce
  obtain ⟨q, hpart, hstops, hq, hothers, hvalue, honly⟩ := deposed_spec (s := s.setDispatch rest) hplaces hp
  have hnotice : ((s.setDispatch rest).deposed n).ownershipNotice n .ownershipLost source k.reason 0 =
      s.valueNotice .ownershipLost n source (p.committed.getD 0) k.cause (s.value n) 0 := by
    rw [hvalue.ownershipNotice, ← k.reason_code]
    exact ownershipNotice_eq s n p _ _ _ _ hs hears.produce
  have hdepose : (s.setDispatch rest).depose n source k.reason = ((s.setDispatch rest).deposed n).post
      (s.valueNotice .ownershipLost n source (p.committed.getD 0) k.cause (s.value n) 0) :=
    congrArg _ hnotice
  have hlost := post_posts ((s.setDispatch rest).deposed n)
    (s.valueNotice .ownershipLost n source (p.committed.getD 0) k.cause (s.value n) 0)
  rw [State.afterHeard, hdepose] at hexec
  refine ⟨_, q, hexec, ?_, (post_produce _ _ _).trans hpart, ?_, hq,
    fun m hm => (post_entry _ _ _).trans (hothers m hm), ?_,
    ⟨_, _, stopPublishing_stops _ _, deposed_becomes _ _, hlost⟩, ?_⟩
  · exact (post_dispatch _ _).trans (honly .dispatch (by decide))
  · exact hstops.later (.post _ _ n) ⟨rfl, rfl, rfl⟩
  · exact (post_notice _ _).trans (congrArg (NoticeUnit.posted · _) (honly .notice (by decide)))
  · exact ((setDispatch_changesOnly s rest).mono (by decide)).trans
      ((honly.mono (by decide)).trans (hlost.2.2.mono (by decide)))

end Sys2Proof.Machine
end


section
/-! PROOF. RELINQUISH of an OWNED entry (R55, R70, R72). -/

namespace Sys2Proof.Machine

/-! ## The start of a release -/

section Begin
variable {s : State} {n : Nat} {e : Entry} {p : Produce}

/-- A release starts with the entry and the place of its frame (R55, R70, R72). -/
theorem beginRelease_spec (tag : Word16) (he : s.entry n = some e) (hr : e.role = .produce p) :
    let t := s.beginRelease n tag
    (∃ b, t.entry n = some { e with role := .produce { p with
          ownership := .relinquishing, releaseTag := some tag, releaseQueued := b } }
        ∧ (if (s.contention.queue.filter CtlFrame.fromCommand).length < 6 then
            b = true ∧ t.contention = { s.contention with queue := s.contention.queue ++ [.relinquish n] }
              ∧ t.ownership = s.ownership
          else b = false ∧ t.contention = s.contention
            ∧ t.ownership = { s.ownership with waitList := s.ownership.waitList ++ [.relinquish n] }))
      ∧ (∀ m, m ≠ n → t.entry m = s.entry m) ∧ s.ChangesOnly t [.directory, .ownership, .contention] := by
  obtain ⟨a, hchange, hhanded⟩ := beginRelease_begins s n tag
  have hown := hchange.own he hr
  have hcontention : a.contention = s.contention := hchange.2 .contention (by decide)
  have howner : a.ownership = s.ownership := hchange.2 .ownership (by decide)
  unfold State.HandsOn at hhanded
  rw [hcontention] at hhanded
  by_cases hfree : (s.contention.queue.filter CtlFrame.fromCommand).length < 6
  · rw [if_pos hfree] at hhanded
    obtain ⟨hqueue, hentries, honly⟩ := hhanded
    refine ⟨⟨true, ?_, ?_⟩, fun m hm => ?_, (hchange.2.mono (by decide)).trans (honly.mono (by decide))⟩
    · rw [hentries, if_pos rfl, hown]
      rfl
    · rw [if_pos hfree]
      exact ⟨rfl, hqueue, (honly .ownership (by decide)).trans howner⟩
    · rw [hentries, if_neg (by simpa using Ne.symm hm), hchange.other hm]
  · rw [if_neg hfree] at hhanded
    obtain ⟨hwait, honly⟩ := hhanded
    refine ⟨⟨false, (honly.entry (by decide) n).trans hown, ?_⟩,
      fun m hm => (honly.entry (by decide) m).trans (hchange.other hm),
      (hchange.2.mono (by decide)).trans (honly.mono (by decide))⟩
    rw [if_neg hfree]
    exact ⟨rfl, (honly .contention (by decide)).trans hcontention, by rw [hwait, howner]⟩

/-- A stopped publication keeps its frames, since a RELINQUISH joins the tail. -/
theorem State.KeepsStop.beginRelease (tag : Word16) (he : s.entry n = some e) (hr : e.role = .produce p) :
    s.KeepsStop (s.beginRelease n tag) n := by
  obtain ⟨⟨b, -, hplace⟩, -, honly⟩ := beginRelease_spec tag he hr
  have hpub : (s.beginRelease n tag).pubQueue = s.pubQueue := honly .pubQueue (by decide)
  split_ifs at hplace
  · obtain ⟨-, hqueue, -⟩ := hplace
    refine ⟨hpub, fun _ => ?_, ?_, ?_, ?_⟩
    · rw [hqueue]
    · rw [hqueue, List.count_append, List.count_singleton, if_neg (by simp), Nat.add_zero]
    · rw [hqueue]
      rfl
    · rw [hqueue]
      exact ⟨rfl, rfl, rfl⟩
  · obtain ⟨-, hcontention, -⟩ := hplace
    exact .of_eq hpub hcontention n

end Begin

/-- Settles O30: a stopped publication, then a release that starts. -/
theorem relinquishOfAnOwnedEntry : Obligations.RelinquishOfAnOwnedEntry := by
  intro s d p hrings hplaces htakes hp howned
  have hrelease : s.release d.object d.tag = (s.stopPublishing d.object).beginRelease d.object d.tag := by
    unfold State.release
    rw [hp]
    dsimp only
    rw [howned]
  have hexec := exec_relinquish_of_takes s d htakes
  rw [hrelease] at hexec
  obtain ⟨e, he, hr⟩ := s.produce_entry d.object p hp
  obtain ⟨q, hentry, hq, hstops, hothers, -, -, -, hcommands, hstop⟩ := stopPublishing_spec s d.object e p he hr
  have howner := stopPublishing_ownership hplaces he hr
  obtain ⟨⟨b, hpart, hplace⟩, hrest, hbegin⟩ := beginRelease_spec d.tag hentry rfl
  have hkeeps : (s.stopPublishing d.object).KeepsStop _ d.object := .beginRelease d.tag hentry rfl
  have hdone := finish_changesOnly ((s.stopPublishing d.object).beginRelease d.object d.tag) d .ok
  have hwhole : s.ChangesOnly ((s.stopPublishing d.object).beginRelease d.object d.tag)
      [.directory, .ownership, .pubQueue, .contention] :=
    (hstop.mono (by decide)).trans (hbegin.mono (by decide))
  have hcontention := hdone .contention (by decide)
  have hownership := hdone .ownership (by decide)
  refine ⟨_, { q with ownership := .relinquishing, releaseTag := some d.tag, releaseQueued := b }, hexec,
    finish_completed hrings htakes.1 hwhole (by decide) .ok,
    State.produce_of_entry _ _ _ _ ((hdone.entry (by decide) _).trans hpart) rfl, ?_, ?_, ?_, fun m hm => ?_,
    ⟨_, _, stopPublishing_stops _ _, beginRelease_begins _ _ _, hdone⟩,
    (hwhole.mono (by decide)).trans (hdone.mono (by decide))⟩
  · exact (hstops.later hkeeps (r := q) ⟨rfl, rfl, rfl⟩).later
      (.of_eq (hdone .pubQueue (by decide)) hcontention _) ⟨rfl, rfl, rfl⟩
  · rw [hq]
  · rw [show _ = _ from hcontention, show _ = _ from hownership, ← hcommands, ← howner]
    split_ifs at hplace ⊢
    · obtain ⟨hb, hqueue, hwait⟩ := hplace
      refine ⟨hb, ?_, hwait⟩
      rw [hqueue]
      exact List.getLast?_concat
    · obtain ⟨hb, -, hwait⟩ := hplace
      exact ⟨hb, hwait⟩
  · exact (hdone.entry (by decide) m).trans ((hrest m hm).trans (hothers m hm))

end Sys2Proof.Machine
end


section
/-! PROOF. RELINQUISH of a CLAIMING entry (R52, R55, R64, R69, R72, R74). Both of its forms withdraw the CLAIM once;
the steps before and after it keep what a claim has in the unit's queues, lists and hand. -/

namespace Sys2Proof.Machine

/-! ## Steps that leave a claim's frames -/

/-- The CLAIM of `n` stays where it is, and so do the slots and the entries of other objects. -/
structure State.KeepsClaim (s t : State) (n : Nat) : Prop where
  slots : t.ownership.slots = s.ownership.slots
  others : ∀ m, m ≠ n → t.entry m = s.entry m
  hand : (s.contention.inHand = none ∨ ∃ w, s.contention.inHand = some (.control (.claim n) w)) →
    t.contention.inHand = s.contention.inHand ∧ t.contention.state = s.contention.state
  claims : t.contention.queue.count (.claim n) = s.contention.queue.count (.claim n)
  waits : .claim n ∉ s.ownership.waitList → .claim n ∉ t.ownership.waitList
  commands : (∀ f ∈ s.ownership.waitList, f.fromCommand = true) →
    ∀ f ∈ t.ownership.waitList, f.fromCommand = true

section Keeps
variable {s t u : State} {n : Nat}

theorem State.KeepsClaim.trans (h : s.KeepsClaim t n) (h' : t.KeepsClaim u n) : s.KeepsClaim u n where
  slots := h'.slots.trans h.slots
  others m hm := (h'.others m hm).trans (h.others m hm)
  hand hi := by
    obtain ⟨hin, hst⟩ := h.hand hi
    obtain ⟨hin', hst'⟩ := h'.hand (hin ▸ hi)
    exact ⟨hin'.trans hin, hst'.trans hst⟩
  claims := h'.claims.trans h.claims
  waits hw := h'.waits (h.waits hw)
  commands hw := h'.commands (h.commands hw)

theorem State.KeepsClaim.of_eq (ho : t.ownership = s.ownership) (hc : t.contention = s.contention)
    (hothers : ∀ m, m ≠ n → t.entry m = s.entry m) : s.KeepsClaim t n where
  slots := congrArg OwnershipUnit.slots ho
  others := hothers
  hand _ := ⟨congrArg Contention.inHand hc, congrArg Contention.state hc⟩
  claims := by rw [hc]
  waits hw := ho ▸ hw
  commands hw := ho ▸ hw

theorem State.KeepsClaim.post (s : State) (x : Notice) (n : Nat) : s.KeepsClaim (s.post x) n where
  slots := by rw [post_ownership]
  others m _ := post_entry s x m
  hand hi := by
    refine ⟨post_inHand s x fun m w hold => ?_, (post_contention_state s x).1⟩
    rcases hi with hi | ⟨v, hi⟩ <;> rw [hi] at hold <;> cases hold
  claims := post_count s x rfl
  waits hw := by rwa [post_ownership]
  commands hw := by rwa [post_ownership]

theorem State.KeepsClaim.beginRelease {e : Entry} {p : Produce} (tag : Word16) (he : s.entry n = some e)
    (hr : e.role = .produce p) : s.KeepsClaim (s.beginRelease n tag) n := by
  obtain ⟨⟨b, -, hplace⟩, hothers, -⟩ := beginRelease_spec tag he hr
  split_ifs at hplace
  · obtain ⟨-, hqueue, howner⟩ := hplace
    refine ⟨congrArg OwnershipUnit.slots howner, hothers, fun _ => ?_, ?_, fun hw => howner ▸ hw,
      fun hw => howner ▸ hw⟩
    · rw [hqueue]
      exact ⟨rfl, rfl⟩
    · rw [hqueue, List.count_append, List.count_singleton, if_neg (by simp), Nat.add_zero]
  · obtain ⟨-, hcontention, howner⟩ := hplace
    refine ⟨by rw [howner], hothers, fun _ => ?_, ?_, fun hw => ?_, fun hw => ?_⟩
    · rw [hcontention]
      exact ⟨rfl, rfl⟩
    · rw [hcontention]
    · simpa [howner] using hw
    · rw [howner]
      intro f hf
      rcases List.mem_append.mp hf with hf | hf
      · exact hw f hf
      · rw [List.mem_singleton.mp hf]
        rfl

theorem State.KeepsClaim.withdrawDispute (s : State) (n : Nat) : s.KeepsClaim (s.withdraw (.dispute n)) n := by
  obtain ⟨-, -, hslots, -, -, -, hhand, -⟩ := withdraw_spec s (.dispute n)
  obtain ⟨honly, hwait, -, hclaims⟩ := withdraw_dispute s n
  refine ⟨hslots, fun m _ => honly.entry (by decide) m, fun hi => ?_, hclaims n, fun hw => ?_, fun hw => ?_⟩
  · rw [hhand fun w hd => by rcases hi with hi | ⟨v, hi⟩ <;> rw [hi] at hd <;> cases hd]
    exact ⟨rfl, rfl⟩
  · rw [hwait]
    exact fun hmem => hw (List.mem_filter.mp hmem).1
  · rw [hwait]
    exact fun f hf => hw f (List.mem_filter.mp hf).1

/-- Whatever else is withdrawn, a frame that waits goes on waiting, in the queue or on the list (R55, R131). -/
theorem withdraw_keepsFrame {f g : CtlFrame} (hne : g ≠ f)
    (hg : g ∈ s.contention.queue ∨ g ∈ s.ownership.waitList) :
    g ∈ (s.withdraw f).contention.queue ∨ g ∈ (s.withdraw f).ownership.waitList := by
  obtain ⟨-, -, -, -, -, -, -, more, hqueue, hmore⟩ := withdraw_spec s f
  rw [hqueue, List.mem_append]
  rcases hg with hg | hg
  · exact .inl (.inl ((List.mem_erase_of_ne hne).mpr hg))
  · have hstays : g ∈ s.ownership.waitList.filter (· ≠ f) := List.mem_filter.mpr ⟨hg, by simpa using hne⟩
    rcases hmore with ⟨-, hwait, -⟩ | ⟨-, rfl, hwait⟩ | ⟨-, -, hwait, -⟩
    · exact .inr (hwait ▸ hstays)
    · rw [← List.take_append_drop 1 (s.ownership.waitList.filter (· ≠ f)), List.mem_append] at hstays
      rw [hwait]
      exact hstays.imp .inr id
    · exact .inr (hwait ▸ hstays)

/-- The wait list gives up the claim's own frame, and holds nothing new (R55). -/
theorem mem_withdraw_waitList {f g : CtlFrame} (h : g ∈ (s.withdraw f).ownership.waitList) :
    g ∈ s.ownership.waitList ∧ g ≠ f := by
  obtain ⟨-, -, -, -, -, -, -, more, -, hmore⟩ := withdraw_spec s f
  have hstays : g ∈ s.ownership.waitList.filter (· ≠ f) := by
    rcases hmore with ⟨-, hwait, -⟩ | ⟨-, -, hwait⟩ | ⟨-, -, hwait, -⟩
    · exact hwait ▸ h
    · exact List.mem_of_mem_drop (hwait ▸ h)
    · exact hwait ▸ h
  obtain ⟨hmem, hne⟩ := List.mem_filter.mp hstays
  exact ⟨hmem, of_decide_eq_true hne⟩

/-- The withdrawal of a CLAIM between steps that keep it. -/
theorem claim_goes (h : s.KeepsClaim t n) (h' : (t.withdraw (.claim n)).KeepsClaim u n) :
    u.ownership.slots = s.ownership.slots ∧ .claim n ∉ u.ownership.waitList ∧ s.WithdrawnInHand u (.claim n)
      ∧ s.OthersKept u n ∧ ((∀ f ∈ s.ownership.waitList, f.fromCommand = true) →
        u.contention.queue.count (.claim n) = s.contention.queue.count (.claim n) - 1) := by
  obtain ⟨-, hentries, hslots, -, -, hhand, -⟩ := withdraw_spec t (.claim n)
  refine ⟨h'.slots.trans (hslots.trans h.slots), h'.waits fun hmem => (mem_withdraw_waitList hmem).2 rfl,
    fun w hi => ?_, fun m hm => ?_, fun hw => ?_⟩
  · obtain ⟨hin, hst⟩ := h.hand (.inr ⟨w, hi⟩)
    have hnow := hhand w (hin.trans hi)
    rw [(h'.hand (by rw [hnow]; split <;> simp)).1, hnow, hst]
  · rw [h'.others m hm, ← h.others m hm]
    exact hentries m
  · obtain ⟨-, hclaims, -⟩ := withdraw_claim t n (h.commands hw)
    rw [h'.claims, hclaims, h.claims]

end Keeps

/-! ## The claim's slot and notice -/

section Fail
variable {s : State} {n : Nat} {p : Produce} {k : Fin 4} {slot : ClaimSlot}

theorem releaseSlot_own {e : Entry} (he : s.entry n = some e) (hr : e.role = .produce p) (hk : p.claimSlot = some k) :
    (s.releaseSlot n).entry n = some { e with role := .produce { p with claimSlot := none } } := by
  have hfreed := releaseSlot_freesSlot s n
  unfold State.FreesSlot at hfreed
  rw [State.produce_of_entry s n e p he hr, Option.bind_some, hk] at hfreed
  exact State.EntryBecomes.own hfreed he hr

theorem claimReachedLine_iff (hk : p.claimSlot = some k) (hslot : s.ownership.slots.get k = some slot) :
    s.ClaimReachedLine n p ↔ slot.phase ≠ .awaitSend
      ∨ s.contention.state = .sending ∧ s.contention.inHand = some (.control (.claim n) false) := by
  refine or_congr_left ⟨?_, fun h => ?_⟩
  · rintro ⟨k', slot', w, hk', hslot', hphase⟩
    cases hk.symm.trans hk'
    cases hslot.symm.trans hslot'
    rw [hphase]
    exact fun hc => nomatch hc
  · cases hphase : slot.phase with
    | awaitSend => exact absurd hphase h
    | window w => exact ⟨k, slot, w, hk, hslot, hphase⟩

/-- The model's test of the same condition (R69, log 25). -/
theorem claimHeardByPeers_iff (hk : p.claimSlot = some k) (hslot : s.ownership.slots.get k = some slot) :
    s.claimHeardByPeers n p = true ↔ s.ClaimReachedLine n p := by
  have hof : s.slotOf p = some slot := by
    unfold State.slotOf
    rw [hk]
    exact hslot
  rw [claimReachedLine_iff hk hslot]
  unfold State.claimHeardByPeers State.claimOnLine
  rw [hof]
  cases hphase : slot.phase <;> simp [hphase]

/-- The claim once its slot is free and CLAIM_FAILED is posted (R69, R74). -/
def State.claimEnds (s : State) (n : Nat) (p : Produce) : State :=
  (s.releaseSlot n).post (s.ownershipReport .claimFailed n 0xFF p 4 (s.claimTag p))

/-- The RELINQUISH of a claim, by its two cases (R69). -/
theorem release_of_claiming (hs : s.StorageCanonical) (hp : s.produce n = some p) (hclaiming : p.ownership = .claiming)
    (hk : p.claimSlot = some k) (tag : Word16) : s.release n tag =
      if s.claimHeardByPeers n p then
        (((s.claimEnds n p).beginRelease n tag).withdraw (.dispute n)).withdraw (.claim n)
      else ((((s.claimEnds n p).withdraw (.claim n)).withdraw (.dispute n)).post
        (s.ownershipReport .relinquished n 0xFF p 0 tag)).removeEntry n := by
  obtain ⟨-, -, -, -, hvalue⟩ := releaseSlot_spec s n hp hk
  have hreport (kind : NoticeKind) (cause : Cause) (tag : Word16) :
      s.ownershipNotice n kind 0xFF cause tag = s.ownershipReport kind n 0xFF p cause.code tag :=
    ownershipNotice_eq s n p kind 0xFF cause tag hs hp
  have hends : (s.releaseSlot n).postOwnership n .claimFailed noStation .released (s.slotTag p) = s.claimEnds n p := by
    rw [State.postOwnership, hvalue.ownershipNotice, slotTag_eq_claimTag]
    exact congrArg _ (hreport .claimFailed .released _)
  have hkept : s.KeepsValue (((s.claimEnds n p).withdraw (.claim n)).withdraw (.dispute n)) n :=
    (hvalue.trans (.of_eq (post_changesOnly _ _) (by decide) (post_entry _ _ n))).trans
      ((withdraw_keepsValue _ n _).trans (withdraw_keepsValue _ n _))
  have hremoved : (((s.claimEnds n p).withdraw (.claim n)).withdraw (.dispute n)).ownershipNotice n .relinquished
      noStation .ok tag = s.ownershipReport .relinquished n 0xFF p 0 tag :=
    (hkept.ownershipNotice _ _ _ _).trans (hreport .relinquished .ok tag)
  unfold State.release
  rw [hp]
  dsimp only
  rw [hclaiming]
  dsimp only
  unfold State.releaseClaim
  dsimp only
  rw [hends, State.postOwnership, hremoved]

/-- What every release of a claim does to its slot and its CLAIM (R52, R69). -/
theorem claim_released {t u : State} (hp : s.produce n = some p) (hk : p.claimSlot = some k)
    (h : (s.releaseSlot n).KeepsClaim t n) (h' : (t.withdraw (.claim n)).KeepsClaim u n) :
    u.ownership.slots.get k = none ∧ (∀ j, j ≠ k → u.ownership.slots.get j = s.ownership.slots.get j)
      ∧ .claim n ∉ u.ownership.waitList ∧ s.WithdrawnInHand u (.claim n)
      ∧ ((∀ f ∈ s.ownership.waitList, f.fromCommand = true) →
        u.contention.queue.count (.claim n) = s.contention.queue.count (.claim n) - 1)
      ∧ s.OthersKept u n := by
  obtain ⟨hfree, hslots, hwait, hothers, -⟩ := releaseSlot_spec s n hp hk
  have hcontention : (s.releaseSlot n).contention = s.contention :=
    releaseSlot_changesOnly s n .contention (by decide)
  obtain ⟨hsame, hgone, hhand, hkept, hclaims⟩ := claim_goes h h'
  unfold State.WithdrawnInHand at hhand ⊢
  rw [hwait] at hclaims
  rw [hcontention] at hclaims hhand
  refine ⟨by rw [hsame]; exact hfree, fun j hj => by rw [hsame]; exact hslots j hj, hgone, hhand, hclaims,
    fun m hm => ?_⟩
  rw [← hothers m hm]
  exact hkept m hm

/-- The state at which both cases part (R52, R69, R74). -/
theorem claimEnds_spec (hp : s.produce n = some p) (hk : p.claimSlot = some k) :
    let t := s.claimEnds n p
    (s.releaseSlot n).KeepsClaim t n
      ∧ (∃ e, t.entry n = some e ∧ e.role = .produce { p with claimSlot := none })
      ∧ s.KeepsValue t n
      ∧ t.ownership.waitList = s.ownership.waitList
      ∧ t.contention.queue.count (.dispute n) = s.contention.queue.count (.dispute n)
      ∧ t.notice = s.notice.posted (s.ownershipReport .claimFailed n 0xFF p 4 (s.claimTag p))
      ∧ s.ChangesOnly t [.directory, .ownership, .contention, .notice] := by
  obtain ⟨e, he, hr⟩ := s.produce_entry n p hp
  obtain ⟨-, -, hwait, -, hvalue⟩ := releaseSlot_spec s n hp hk
  have hslot := releaseSlot_changesOnly s n
  have hpost := post_changesOnly (s.releaseSlot n) (s.ownershipReport .claimFailed n 0xFF p 4 (s.claimTag p))
  refine ⟨.post _ _ n, ⟨_, (post_entry _ _ n).trans (releaseSlot_own he hr hk), rfl⟩,
    hvalue.trans (.of_eq hpost (by decide) (post_entry _ _ n)), ?_, ?_, ?_,
    (hslot.mono (by decide)).trans (hpost.mono (by decide))⟩
  · exact (congrArg OwnershipUnit.waitList (post_ownership _ _)).trans hwait
  · exact (post_count _ _ rfl).trans (by rw [show _ = _ from hslot .contention (by decide)])
  · exact (post_notice _ _).trans (congrArg (NoticeUnit.posted · _) (hslot .notice (by decide)))

/-- A claim that has reached the line is released there (R69, R72). -/
theorem heardClaim_released (hp : s.produce n = some p) (hk : p.claimSlot = some k) (tag : Word16) :
    let c := (s.claimEnds n p).beginRelease n tag
    let u := (c.withdraw (.dispute n)).withdraw (.claim n)
    (s.releaseSlot n).KeepsClaim (c.withdraw (.dispute n)) n
      ∧ ((∀ f ∈ s.ownership.waitList, f.fromCommand = true) →
        u.contention.queue.count (.dispute n) = s.contention.queue.count (.dispute n) - 1)
      ∧ u.notice = s.notice.posted (s.ownershipReport .claimFailed n 0xFF p 4 (s.claimTag p))
      ∧ (∃ q, u.produce n = some q ∧ q.ownership = .relinquishing ∧ q.releaseTag = some tag
          ∧ q.claimSlot = none)
      ∧ (.relinquish n ∈ u.contention.queue ∨ .relinquish n ∈ u.ownership.waitList)
      ∧ s.ChangesOnly u [.directory, .ownership, .contention, .notice] := by
  intro c
  dsimp only
  obtain ⟨hkeeps, ⟨e, he, hr⟩, -, hwait, hdisputes, hnotice, honly⟩ := claimEnds_spec hp hk
  have hbegun : (s.claimEnds n p).KeepsClaim c n := .beginRelease tag he hr
  have hbegin : (s.claimEnds n p).KeepsStop c n := .beginRelease tag he hr
  obtain ⟨⟨b, hentry, hplace⟩, -, hbeginOnly⟩ := beginRelease_spec tag he hr
  obtain ⟨hdispute, -, hcount, -⟩ := withdraw_dispute c n
  have hclaim := withdraw_changesOnly (c.withdraw (.dispute n)) (.claim n)
  have hpart : (c.withdraw (.dispute n)).produce n = some _ :=
    State.produce_of_entry _ _ _ _ ((hdispute.entry (by decide) n).trans hentry) rfl
  obtain ⟨b', hq⟩ := withdraw_produce (c.withdraw (.dispute n)) n (.claim n) hpart
  have hlater : c.ChangesOnly ((c.withdraw (.dispute n)).withdraw (.claim n))
      [.directory, .ownership, .contention] :=
    (hdispute.mono (by decide)).trans (hclaim.mono (by decide))
  refine ⟨(hkeeps.trans hbegun).trans (.withdrawDispute c n), fun hw => ?_, ?_, ⟨_, hq, rfl, rfl, rfl⟩, ?_,
    (honly.mono (by decide)).trans ((hbeginOnly.mono (by decide)).trans (hlater.mono (by decide)))⟩
  · have hcommands := (hbegun.trans (.withdrawDispute c n)).commands (by rwa [hwait])
    obtain ⟨-, -, hsame⟩ := withdraw_claim _ n hcommands
    calc ((c.withdraw (.dispute n)).withdraw (.claim n)).contention.queue.count (.dispute n)
        = (c.withdraw (.dispute n)).contention.queue.count (.dispute n) := hsame n
      _ = c.contention.queue.count (.dispute n) - 1 := hcount
      _ = s.contention.queue.count (.dispute n) - 1 := by rw [hbegin.disputes, hdisputes]
  · exact (hlater .notice (by decide)).trans ((hbeginOnly .notice (by decide)).trans hnotice)
  · have hplaced : .relinquish n ∈ c.contention.queue ∨ .relinquish n ∈ c.ownership.waitList := by
      split_ifs at hplace
      · obtain ⟨-, hqueue, -⟩ := hplace
        exact .inl (by rw [hqueue]; simp)
      · obtain ⟨-, -, howner⟩ := hplace
        exact .inr (by rw [howner]; simp)
    have hstays := withdraw_keepsFrame (f := .dispute n) (by simp) hplaced
    exact withdraw_keepsFrame (s := c.withdraw (.dispute n)) (f := .claim n) (by simp) hstays

/-- A claim that no peer has heard is removed at once (R69, R33). -/
theorem unheardClaim_released (hp : s.produce n = some p) (hk : p.claimSlot = some k) (tag : Word16) :
    let x := s.ownershipReport .relinquished n 0xFF p 0 tag
    let c := (s.claimEnds n p).withdraw (.claim n)
    let u := ((c.withdraw (.dispute n)).post x).removeEntry n
    c.KeepsClaim u n
      ∧ ((∀ f ∈ s.ownership.waitList, f.fromCommand = true) →
        u.contention.queue.count (.dispute n) = s.contention.queue.count (.dispute n) - 1)
      ∧ u.entry n = none ∧ s.LineFreed u n
      ∧ u.notice = s.notice.postedAll [s.ownershipReport .claimFailed n 0xFF p 4 (s.claimTag p), x]
      ∧ s.ChangesOnly u [.directory, .store, .ownership, .contention, .notice] := by
  intro x c u
  obtain ⟨hkeeps, -, hvalue, hwait, hdisputes, hnotice, honly⟩ := claimEnds_spec hp hk
  obtain ⟨hdispute, -, hcount, -⟩ := withdraw_dispute c n
  have hclaim := withdraw_changesOnly (s.claimEnds n p) (.claim n)
  have hpost := post_changesOnly (c.withdraw (.dispute n)) x
  obtain ⟨hnone, hothers, hfreed, hremove⟩ := removeEntry_removes ((c.withdraw (.dispute n)).post x) n
  have hposted : s.KeepsValue ((c.withdraw (.dispute n)).post x) n :=
    (hvalue.trans (withdraw_keepsValue _ n _)).trans
      ((withdraw_keepsValue c n _).trans (.of_eq hpost (by decide) (post_entry _ _ n)))
  refine ⟨?_, fun hw => ?_, hnone, hposted.lineFreed hfreed, ?_, ?_⟩
  · exact ((State.KeepsClaim.withdrawDispute c n).trans (.post _ x n)).trans
      (.of_eq (hremove .ownership (by decide)) (hremove .contention (by decide)) hothers)
  · obtain ⟨-, -, hsame⟩ := withdraw_claim (s.claimEnds n p) n (by rwa [hwait])
    calc u.contention.queue.count (.dispute n)
        = ((c.withdraw (.dispute n)).post x).contention.queue.count (.dispute n) := by
          rw [show u.contention = _ from hremove .contention (by decide)]
      _ = (c.withdraw (.dispute n)).contention.queue.count (.dispute n) := post_count _ x rfl
      _ = c.contention.queue.count (.dispute n) - 1 := hcount
      _ = s.contention.queue.count (.dispute n) - 1 := by rw [hsame n, hdisputes]
  · calc u.notice
        = ((c.withdraw (.dispute n)).post x).notice := hremove .notice (by decide)
      _ = (c.withdraw (.dispute n)).notice.posted x := post_notice _ x
      _ = (s.claimEnds n p).notice.posted x := congrArg (NoticeUnit.posted · x)
          ((hdispute .notice (by decide)).trans (hclaim .notice (by decide)))
      _ = _ := by rw [hnotice]; rfl
  · exact (honly.mono (by decide)).trans ((hclaim.mono (by decide)).trans ((hdispute.mono (by decide)).trans
      ((hpost.mono (by decide)).trans (hremove.mono (by decide)))))

/-- The completion comes after both cases, and leaves the claim's frames. -/
theorem finish_keepsClaim (t : State) (d : Descriptor) (status : Status) (n : Nat) :
    t.KeepsClaim (t.finish d status) n :=
  have hdone := finish_changesOnly t d status
  .of_eq (hdone .ownership (by decide)) (hdone .contention (by decide)) fun m _ => hdone.entry (by decide) m

/-- The steps of R69 in the words of the statements, from the state at which both cases part. -/
theorem releases_of_claiming {u : State} {tag : Word16} (hp : s.produce n = some p)
    (hclaiming : p.ownership = .claiming)
    (h : (s.ClaimReachedLine n p → ∃ c d, (s.claimEnds n p).BeginsRelease c n tag ∧ c.Withdraws d (.dispute n)
          ∧ d.Withdraws u (.claim n))
        ∧ (¬ s.ClaimReachedLine n p → ∃ c d e, (s.claimEnds n p).Withdraws c (.claim n)
          ∧ c.Withdraws d (.dispute n) ∧ d.Posts e [s.ownershipReport .relinquished n 0xFF p 0 tag]
          ∧ e.Removes u n)) :
    s.Releases u n tag := by
  unfold State.Releases
  rw [hp]
  dsimp only
  rw [hclaiming]
  exact ⟨_, _, releaseSlot_freesSlot _ _, post_posts _ _, h⟩

end Fail

theorem State.QueuePlacesKept.waitsCommands {s : State} (h : s.QueuePlacesKept) :
    ∀ f ∈ s.ownership.waitList, f.fromCommand = true := by
  obtain ⟨-, -, -, hw, -, -⟩ := h
  exact hw

/-- Settles O31: the slot and CLAIM_FAILED first, then a release on the line or a removal. -/
theorem relinquishOfAClaimingEntry : Obligations.RelinquishOfAClaimingEntry := by
  intro s d p k slot hrings hs htakes hp hclaiming hk hslot heard failed
  have hfailed : failed = s.ownershipReport .claimFailed d.object 0xFF p 4 (s.claimTag p) := by
    unfold State.claimTag
    rw [hk]
    dsimp only
    rw [hslot]
    rfl
  have hreached : s.ClaimReachedLine d.object p ↔ heard := claimReachedLine_iff hk hslot
  have hheard : s.claimHeardByPeers d.object p = true ↔ heard := (claimHeardByPeers_iff hk hslot).trans hreached
  have hexec := exec_relinquish_of_takes s d htakes
  rw [release_of_claiming hs hp hclaiming hk] at hexec
  obtain ⟨hkeeps, -, -, -, -, -, -⟩ := claimEnds_spec hp hk
  rw [hfailed]
  by_cases hline : heard
  · rw [if_pos (hheard.mpr hline)] at hexec
    obtain ⟨hbefore, hdisputes, hnotice, ⟨q, hq, hfields⟩, hplaced, honly⟩ := heardClaim_released hp hk d.tag
    have hafter := finish_keepsClaim
      ((((s.claimEnds d.object p).beginRelease d.object d.tag).withdraw (.dispute d.object)).withdraw
        (.claim d.object)) d .ok d.object
    have hdone := finish_changesOnly
      ((((s.claimEnds d.object p).beginRelease d.object d.tag).withdraw (.dispute d.object)).withdraw
        (.claim d.object)) d .ok
    obtain ⟨hfree, hslots, hgone, hhand, hclaims, hothers⟩ := claim_released hp hk hbefore hafter
    refine ⟨_, _, hexec, finish_completed hrings htakes.1 honly (by decide) .ok,
      releases_of_claiming hp hclaiming ⟨fun _ => ⟨_, _, beginRelease_begins _ _ _, withdraw_withdraws _ _,
        withdraw_withdraws _ _⟩, fun h => absurd hline (mt hreached.mpr h)⟩,
      hdone, hfree, hslots, hgone, hhand, fun hplaces => ⟨hclaims hplaces.waitsCommands, ?_⟩, hothers,
      fun _ => ⟨?_, ⟨q, ?_, hfields⟩, ?_, ?_⟩, fun h => absurd hline h⟩
    · rw [show _ = _ from hdone .contention (by decide)]
      exact hdisputes hplaces.waitsCommands
    · exact (hdone .notice (by decide)).trans hnotice
    · rw [State.produce, hdone.entry (by decide)]
      exact hq
    · rw [show _ = _ from hdone .contention (by decide), show _ = _ from hdone .ownership (by decide)]
      exact hplaced
    · exact (honly.mono (by decide)).trans (hdone.mono (by decide))
  · rw [if_neg (fun h => hline (hheard.mp h))] at hexec
    obtain ⟨hkept, hdisputes, hnone, hfreed, hnotice, honly⟩ := unheardClaim_released hp hk d.tag
    have hdone := finish_changesOnly
      (((((s.claimEnds d.object p).withdraw (.claim d.object)).withdraw (.dispute d.object)).post
        (s.ownershipReport .relinquished d.object 0xFF p 0 d.tag)).removeEntry d.object) d .ok
    obtain ⟨hfree, hslots, hgone, hhand, hclaims, hothers⟩ :=
      claim_released hp hk hkeeps (hkept.trans (finish_keepsClaim _ d .ok d.object))
    refine ⟨_, _, hexec, finish_completed hrings htakes.1 honly (by decide) .ok,
      releases_of_claiming hp hclaiming ⟨fun h => absurd (hreached.mp h) hline, fun _ => ⟨_, _, _,
        withdraw_withdraws _ _, withdraw_withdraws _ _, post_posts _ _, removeEntry_removes _ _⟩⟩,
      hdone, hfree, hslots, hgone, hhand, fun hplaces => ⟨hclaims hplaces.waitsCommands, ?_⟩, hothers,
      fun h => absurd h hline, fun _ => ⟨(hdone.entry (by decide) _).trans hnone,
        hfreed.congr (hdone .store (by decide)), (hdone .notice (by decide)).trans hnotice,
        (honly.mono (by decide)).trans (hdone.mono (by decide))⟩⟩
    rw [show _ = _ from hdone .contention (by decide)]
    exact hdisputes hplaces.waitsCommands

end Sys2Proof.Machine
end


section
/-! PROOF. CLAIM: the lowest free slot, the entry with its line, and the CLAIM frame that is handed on (R11, R12, R52 to
R55). -/

namespace Sys2Proof.Machine

/-! ## The slot -/

theorem freeSlot_lowest {slots : Vector (Option ClaimSlot) 4} {k : Fin 4} (h : freeSlot slots = some k) :
    ∀ j, j < k → slots.get j ≠ none := by
  obtain ⟨-, before, after, hsplit, htaken⟩ := List.find?_eq_some_iff_append.mp h
  intro j hj
  have hrises : (before ++ k :: after).Pairwise (· < ·) := hsplit ▸ by decide
  obtain ⟨-, hafter, -⟩ := List.pairwise_append.mp hrises
  have hall : j ∈ before ++ k :: after := hsplit ▸ (show ∀ i : Fin 4, i ∈ [0, 1, 2, 3] by decide) j
  have hbefore : j ∈ before := by
    rcases List.mem_append.mp hall with hmem | hmem
    · exact hmem
    · rcases List.mem_cons.mp hmem with rfl | hmem
      · exact absurd hj (lt_irrefl j)
      · exact absurd (List.rel_of_pairwise_cons hafter hmem) (not_lt.mpr hj.le)
  exact fun hnone => absurd (htaken j hbefore) (by simp [hnone])

/-! ## The entry -/

section Entry
variable {s : State} {d : Descriptor} {k : Fin 4}

/-- A post, and so an eviction, may add automatic frames alone (R26, R134). -/
theorem post_commands (s : State) (x : Notice) :
    (s.post x).contention.queue.filter CtlFrame.fromCommand = s.contention.queue.filter CtlFrame.fromCommand := by
  rcases post_contention_cases s x with h | ⟨-, -, -, h⟩
  · rw [h]
  · rw [h]
    exact Contention.requestHold_commands _ _

theorem evict_commands (s : State) (l : Line) (detail : Nat) (tag : Word16) :
    (s.evict l detail tag).contention.queue.filter CtlFrame.fromCommand =
      s.contention.queue.filter CtlFrame.fromCommand := by
  cases hc : s.consume l.object with
  | none => simp [State.evict, hc]
  | some c =>
    rw [evict_some s l detail tag c hc]
    dsimp only
    split
    · rfl
    · exact post_commands _ _

theorem allocate_commands {t : State} {n : Nat} {pinned : Bool} {detail : Nat} {tag : Word16} {w : Way}
    (h : s.allocate n pinned detail tag = some (w, t)) :
    t.contention.queue.filter CtlFrame.fromCommand = s.contention.queue.filter CtlFrame.fromCommand := by
  obtain ⟨c, hc, -, rfl⟩ := allocate_eq h
  rw [show _ = _ from putSet_changesOnly c n _ .contention (by decide), hc]
  split
  · exact evict_commands s _ detail tag
  · rfl

/-- A DEPOSED entry is reused, with its line and its value (R12, R54). -/
theorem claimEntry_of_some {e : Entry} {p : Produce} (he : s.entry d.object = some e) (hr : e.role = .produce p) :
    (s.claimEntry d k).entry d.object = some { e with role := .produce (p.reclaimed d.paramA k) }
      ∧ (∀ m, m ≠ d.object → (s.claimEntry d k).entry m = s.entry m)
      ∧ s.ChangesOnly (s.claimEntry d k) [.directory] := by
  have hreused : s.claimEntry d k = s.updProduce d.object (Produce.reclaimed d.paramA k) := by
    unfold State.claimEntry
    rw [he]
  have hchange := updProduce_becomes s d.object (Produce.reclaimed d.paramA k)
  rw [hreused]
  exact ⟨hchange.own he hr, fun m hm => hchange.other hm, hchange.2⟩

/-- A new entry joins the directory that its line's allocation leaves (R11, R54). -/
theorem claimEntry_of_allocated {a : State} {w : Way} (he : s.entry d.object = none)
    (ha : s.allocate d.object true 0 d.tag = some (w, a)) :
    (s.claimEntry d k).entry d.object = some (d.newProduce w k)
      ∧ (∀ m, m ≠ d.object → (s.claimEntry d k).entry m = a.entry m)
      ∧ (s.claimEntry d k).directory.length = s.directory.length + 1
      ∧ a.ChangesOnly (s.claimEntry d k) [.directory] := by
  have hmade : s.claimEntry d k = a.setDirectory (insertEntry a.directory (d.newProduce w k)) := by
    unfold State.claimEntry
    rw [he]
    dsimp only
    rw [ha]
  have hobjects := allocate_objects s a _ _ _ _ w ha
  have hnone : a.entry d.object = none := by
    rw [entry_none_iff_objects, hobjects]
    exact (entry_none_iff_objects s _).mp he
  have hlookup (m : Nat) :
      (s.claimEntry d k).entry m = if m = d.object then some (d.newProduce w k) else a.entry m := by
    rw [hmade]
    exact lookup_insertEntry a.directory m (d.newProduce w k) hnone
  refine ⟨(hlookup _).trans (if_pos rfl), fun m hm => (hlookup m).trans (if_neg hm), ?_, ?_⟩
  · have hlength := congrArg List.length hobjects
    rw [List.length_map, List.length_map] at hlength
    rw [hmade, ← hlength]
    exact insertEntry_length _ _
  · rw [hmade]
    exact setDirectory_changesOnly _ _

/-- The entry adds no command-originated frame to the queue. -/
theorem claimEntry_commands (s : State) (d : Descriptor) (k : Fin 4) :
    (s.claimEntry d k).contention.queue.filter CtlFrame.fromCommand =
      s.contention.queue.filter CtlFrame.fromCommand := by
  cases he : s.entry d.object with
  | some e =>
    unfold State.claimEntry
    rw [he]
    rfl
  | none =>
    rcases claimEntry_of_none s d k he with h | ⟨w, a, ha, h⟩
    · rw [h]
    · rw [h, show _ = _ from setDirectory_changesOnly a _ .contention (by decide)]
      exact allocate_commands ha

end Entry

/-! ## The frame -/

/-- A CLAIM frame marks no entry as it is handed on (R54, R55). -/
theorem handOn_claim (s : State) (n : Nat) : s.handOn (.claim n) =
    if (s.contention.queue.filter CtlFrame.fromCommand).length < 6 then
      s.setContention { s.contention with queue := s.contention.queue ++ [.claim n] }
    else s.setOwnership { s.ownership with waitList := s.ownership.waitList ++ [.claim n] } := by
  unfold State.handOn
  exact if_congr decide_eq_true_iff rfl rfl

section Claim
variable {s : State} {d : Descriptor} {k : Fin 4}

/-- The state before the CLAIM frame is handed on (R54). -/
def State.claimOpened (s : State) (d : Descriptor) (k : Fin 4) : State :=
  (s.claimEntry d k).putSlot k (some { object := d.object, phase := .awaitSend, tag := d.tag })

theorem takeClaim_eq (h : freeSlot s.ownership.slots = some k) :
    s.takeClaim d = (s.claimOpened d k).handOn (.claim d.object) := by
  unfold State.takeClaim
  rw [h]
  rfl

/-- The slot is filled, and the frame has its place or its turn (R52, R54, R55). -/
theorem claimHandedOn_spec (s : State) (d : Descriptor) (k : Fin 4) :
    let t := s.claimEntry d k
    let u := (s.claimOpened d k).handOn (.claim d.object)
    u.ownership.slots.get k = some { object := d.object, phase := .awaitSend, tag := d.tag }
      ∧ (∀ j, j ≠ k → u.ownership.slots.get j = s.ownership.slots.get j)
      ∧ (if (s.contention.queue.filter CtlFrame.fromCommand).length < 6 then
          u.contention = { t.contention with queue := t.contention.queue ++ [.claim d.object] }
            ∧ u.ownership.waitList = s.ownership.waitList
         else u.contention = t.contention ∧ u.ownership.waitList = s.ownership.waitList ++ [.claim d.object])
      ∧ t.ChangesOnly u [.ownership, .contention] := by
  intro t u
  have howner : t.ownership = s.ownership := claimEntry_changesOnly s d k .ownership (by decide)
  have hslots (j : Fin 4) : (s.claimOpened d k).ownership.slots.get j =
      if j = k then some { object := d.object, phase := .awaitSend, tag := d.tag } else s.ownership.slots.get j := by
    rw [← howner]
    exact set_get t.ownership.slots k j _
  have hwait : (s.claimOpened d k).ownership.waitList = s.ownership.waitList := by
    rw [← howner]
    rfl
  have hslot : t.ChangesOnly (s.claimOpened d k) [.ownership] := putSlot_changesOnly t k _
  have hhanded : u = if (s.contention.queue.filter CtlFrame.fromCommand).length < 6 then
      (s.claimOpened d k).setContention { t.contention with queue := t.contention.queue ++ [.claim d.object] }
    else (s.claimOpened d k).setOwnership { (s.claimOpened d k).ownership with
      waitList := (s.claimOpened d k).ownership.waitList ++ [.claim d.object] } := by
    rw [← claimEntry_commands s d k]
    exact handOn_claim (s.claimOpened d k) d.object
  by_cases hfree : (s.contention.queue.filter CtlFrame.fromCommand).length < 6
  · rw [if_pos hfree] at hhanded ⊢
    rw [hhanded]
    exact ⟨(hslots k).trans (if_pos rfl), fun j hj => (hslots j).trans (if_neg hj), ⟨rfl, hwait⟩,
      (hslot.mono (by decide)).trans ((setContention_changesOnly _ _).mono (by decide))⟩
  · rw [if_neg hfree] at hhanded ⊢
    rw [hhanded]
    exact ⟨(hslots k).trans (if_pos rfl), fun j hj => (hslots j).trans (if_neg hj),
      ⟨rfl, congrArg (· ++ [CtlFrame.claim d.object]) hwait⟩,
      (hslot.mono (by decide)).trans ((setOwnership_changesOnly _ _).mono (by decide))⟩

end Claim

/-- Settles O26: the checks leave a free slot and a line; the rest is the entry, the slot and the frame. -/
theorem claimOpensAClaim : Obligations.ClaimOpensAClaim := by
  intro s d hrings htakes
  obtain ⟨hsubmits, -, hpass⟩ := id htakes
  have hlife := (s.slot_in_ram hrings hsubmits.1).1
  have hslotFree : freeSlot s.ownership.slots ≠ none := fun h =>
    hpass (∀ k, s.ownership.slots.get k ≠ none, .noClaimSlot) (by simp [State.tableChecks]) ((freeSlot_none _).mp h)
  have hlineFree (he : s.entry d.object = none) : s.allocate d.object true 0 d.tag ≠ none := fun h =>
    hpass (s.entry d.object = none ∧ (s.setOf d.object).choose = none, .noLine) (by simp [State.tableChecks])
      ⟨he, allocate_none_iff.mp h⟩
  obtain ⟨k, hk⟩ := Option.ne_none_iff_exists'.mp hslotFree
  have hexec := exec_claim_of_takes s d hlife htakes
  rw [takeClaim_eq hk] at hexec
  obtain ⟨hslot, hslots, hplace, honly⟩ := claimHandedOn_spec s d k
  have hentry := claimEntry_changesOnly s d k
  have hdone := finish_changesOnly ((s.claimOpened d k).handOn (.claim d.object)) d .ok
  have hwhole : s.ChangesOnly ((s.claimOpened d k).handOn (.claim d.object))
      [.directory, .store, .ownership, .contention, .notice] :=
    (hentry.mono (by decide)).trans (honly.mono (by decide))
  have hlater : (s.claimEntry d k).ChangesOnly (((s.claimOpened d k).handOn (.claim d.object)).finish d .ok)
      [.ownership, .contention, .command, .port] := (honly.mono (by decide)).trans (hdone.mono (by decide))
  have hcontention := hdone .contention (by decide)
  have hownership := hdone .ownership (by decide)
  refine ⟨k, (s.claimEntry d k).contention, _, hexec, finish_completed hrings hsubmits hwhole (by decide) .ok,
    ⟨freeSlot_free hk, freeSlot_lowest hk⟩, ?_, ?_, ?_, fun e p he hr => ?_, fun he => ?_⟩
  · rw [show _ = _ from hownership]
    exact hslot
  · rw [show _ = _ from hownership]
    exact hslots
  · rw [show _ = _ from hownership, show _ = _ from hcontention]
    exact hplace
  · obtain ⟨hown, hothers, hchange⟩ := claimEntry_of_some (k := k) he hr
    exact ⟨hchange .contention (by decide), (hlater.entry (by decide) _).trans hown,
      fun m hm => (hlater.entry (by decide) m).trans (hothers m hm),
      (hchange.mono (by decide)).trans (hlater.mono (by decide))⟩
  · obtain ⟨⟨w, a⟩, ha⟩ := Option.ne_none_iff_exists'.mp (hlineFree he)
    obtain ⟨hown, hothers, hlength, hchange⟩ := claimEntry_of_allocated (k := k) he ha
    refine ⟨w, a, ha, hchange .contention (by decide), (hlater.entry (by decide) _).trans hown,
      fun m hm => (hlater.entry (by decide) m).trans (hothers m hm), ?_,
      (hchange.mono (by decide)).trans (hlater.mono (by decide))⟩
    rw [show _ = _ from hlater .directory (by decide)]
    exact hlength

end Sys2Proof.Machine
end


section
/-! PROOF. The tick that is owed to a refresh or an age counter, and the expiry that it makes (R83, R84, R110, R111,
Table 6.4). -/

namespace Sys2Proof.Machine

/-! ## One entry exchanged -/

/-- The entry of `n` is exchanged for `e`: the others stand, and only the listed blocks change. -/
def State.Exchanges (s t : State) (n : Nat) (e : Entry) (l : List Block) : Prop :=
  t.entry n = some e ∧ (∀ m, m ≠ n → t.entry m = s.entry m) ∧ s.ChangesOnly t l

section Exchange
variable {s t u : State} {n : Nat} {e f : Entry}

theorem State.Exchanges.trans {l k j : List Block} (h : s.Exchanges t n e l) (h' : t.Exchanges u n f k) (hl : l ⊆ j)
    (hk : k ⊆ j) : s.Exchanges u n f j := by
  obtain ⟨-, hothers, honly⟩ := h
  obtain ⟨hown', hothers', honly'⟩ := h'
  exact ⟨hown', fun m hm => (hothers' m hm).trans (hothers m hm), (honly.mono hl).trans (honly'.mono hk)⟩

theorem updateEntry_exchanges {g : Entry → Entry} (he : s.entry n = some e) (hg : ∀ f, (g f).object = f.object) :
    s.Exchanges (s.setDirectory (updateEntry s.directory n g)) n (g e) [.directory] := by
  have hlookup (m : Nat) : (s.setDirectory (updateEntry s.directory n g)).entry m =
      if m = n then (s.entry n).map g else s.entry m := lookup_updateEntry s.directory n m g hg
  refine ⟨?_, fun m hm => (hlookup m).trans (if_neg hm), setDirectory_changesOnly s _⟩
  rw [hlookup, if_pos rfl, he]
  rfl

theorem updProduce_exchanges {p : Produce} (g : Produce → Produce) (he : s.entry n = some e)
    (hr : e.role = .produce p) : s.Exchanges (s.updProduce n g) n { e with role := .produce (g p) } [.directory] := by
  rw [← Entry.mapProduce_role e p g hr]
  exact updateEntry_exchanges he (Entry.mapProduce_object g)

theorem updConsume_exchanges {c : Consume} (g : Consume → Consume) (he : s.entry n = some e)
    (hr : e.role = .consume c) : s.Exchanges (s.updConsume n g) n { e with role := .consume (g c) } [.directory] := by
  rw [← Entry.mapConsume_role e c g hr]
  exact updateEntry_exchanges he (Entry.mapConsume_object g)

/-- An entry that keeps its line keeps its value. -/
theorem State.Exchanges.value (h : s.Exchanges t n f [.directory]) (he : s.entry n = some e) (hline : f.line = e.line) :
    t.value n = s.value n := by
  obtain ⟨hown, -, honly⟩ := h
  have hobject : t.objectLine n = s.objectLine n := by
    rw [objectLine_eq t n f hown, objectLine_eq s n e he, hline, funext (honly.lineAt (by decide) (setIndex n))]
  unfold State.value
  rw [hobject]

/-- A notice about a replica shows the value as it stood before its entry was exchanged (Table 6.3). -/
theorem State.Exchanges.replicaNotice {c : Consume} (h : s.Exchanges t n f [.directory]) (hs : s.StorageCanonical)
    (he : s.entry n = some e) (hline : f.line = e.line) (hr : f.role = .consume c) (kind : NoticeKind)
    (station detail : Nat) : t.replicaNotice kind n station detail =
      s.valueNotice kind n station (c.lastSeq.getD 0) detail (s.value n) 0 := by
  have hvalue := h.value he hline
  obtain ⟨hown, -, honly⟩ := h
  have hstation : t.station = s.station := honly .station (by decide)
  calc t.replicaNotice kind n station detail
      = t.valueNotice kind n station (c.lastSeq.getD 0) detail (t.value n) 0 := by
        unfold State.replicaNotice
        rw [t.consume_of_entry n f c hown hr]
        exact valueNotice_of_replica t t n kind station detail _ (hs.elsewhere honly (by decide)) rfl
    _ = s.valueNotice kind n station (c.lastSeq.getD 0) detail (s.value n) 0 := by
        rw [hvalue, valueNotice_congr (congrArg Station.tickCount hstation)]

end Exchange

/-! ## The refresh expiry -/

section Refresh
variable {s : State} {n : Nat} {e : Entry} {p : Produce} (he : s.entry n = some e) (hr : e.role = .produce p)
include he hr

/-- A value that can be repeated is queued with REPEAT set as its counter returns to 0 (R84). -/
theorem expireRefresh_of_repeatable (h : p.repeatable) :
    s.Exchanges (s.expireRefresh n) n { e with role := .produce { p with queued := .yes true, refreshCounter := 0 } }
        [.directory, .pubQueue]
      ∧ (s.expireRefresh n).pubQueue = s.pubQueue ++ [{ object := n, rep := true }] := by
  have hp := s.produce_of_entry n e p he hr
  obtain ⟨hqueue, -, -⟩ := appendRepeat_of_repeatable hp h
  obtain ⟨hcommitted, hqueued, hflight⟩ := h
  have happend : s.appendRepeat n = (s.setPubQueue (s.pubQueue ++ [{ object := n, rep := true }])).updProduce n
      (fun p => { p with queued := .yes true }) := by
    unfold State.appendRepeat
    rw [hp]
    exact if_pos (by simp [Option.isSome_iff_ne_none, hcommitted, hqueued, hflight])
  have hitem : s.Exchanges (s.setPubQueue (s.pubQueue ++ [{ object := n, rep := true }])) n e [.pubQueue] :=
    ⟨he, fun _ _ => rfl, setPubQueue_changesOnly s _⟩
  have hmarked : s.Exchanges (s.appendRepeat n) n { e with role := .produce { p with queued := .yes true } }
      [.directory, .pubQueue] := by
    rw [happend]
    exact hitem.trans (updProduce_exchanges _ hitem.1 hr) (by decide) (by decide)
  exact ⟨hmarked.trans (updProduce_exchanges _ hmarked.1 rfl) (by decide) (by decide), hqueue⟩

theorem expireRefresh_of_not (h : ¬ p.repeatable) :
    s.Exchanges (s.expireRefresh n) n { e with role := .produce { p with refreshCounter := 0 } } [.directory] := by
  unfold State.expireRefresh
  rw [appendRepeat_of_not (s.produce_of_entry n e p he hr) h]
  exact updProduce_exchanges _ he hr

end Refresh

/-! ## The age expiry -/

/-- The CONSUME part after its age expiry (R110, R111, Table 6.4). -/
def Consume.expired (c : Consume) : Consume :=
  { c with
    age := c.ageLimit, ageRunning := false
    replica := if c.replica = .fresh then .stale else c.replica
    binding := match c.replica, c.binding with
      | .stale, b => b
      | _, .bound owner => .orphaned owner
      | _, b => b }

/-- What an age expiry posts (Table 6.4). -/
def State.expiryNotices (s : State) (n : Nat) (c : Consume) : List Notice :=
  match c.replica, c.binding with
  | .fresh, b => [s.valueNotice .stale n b.station (c.lastSeq.getD 0) 0 (s.value n) 0]
  | .absent, .bound owner => [s.valueNotice .orphaned n owner (c.lastSeq.getD 0) 1 (s.value n) 0]
  | _, _ => []

section Age
variable {s t : State} {n : Nat} {e f : Entry} {c : Consume}

/-- An age expiry that posts: the counter stops, replica and binding age, and the notice shows the value that stays. -/
theorem aged_posts (hs : s.StorageCanonical) (he : s.entry n = some e) (ht : s.Exchanges t n f [.directory])
    (hline : f.line = e.line) (hr : f.role = .consume c) {g : Consume → Consume}
    (hg : g { c with age := c.ageLimit, ageRunning := false } = c.expired) (kind : NoticeKind) (station detail : Nat) :
    let aged := (t.updConsume n (fun c => { c with age := c.ageLimit, ageRunning := false })).updConsume n g
    s.Exchanges aged n { f with role := .consume c.expired } [.directory]
      ∧ aged.Posts (aged.post (aged.replicaNotice kind n station detail))
          [s.valueNotice kind n station (c.lastSeq.getD 0) detail (s.value n) 0] := by
  intro aged
  have hstopped := updConsume_exchanges (fun c => { c with age := c.ageLimit, ageRunning := false }) ht.1 hr
  have haged : s.Exchanges aged n { f with role := .consume c.expired } [.directory] := by
    have hchanged := updConsume_exchanges g hstopped.1 rfl
    rw [hg] at hchanged
    exact ht.trans (hstopped.trans hchanged (.refl _) (.refl _)) (.refl _) (.refl _)
  refine ⟨haged, ?_⟩
  have hnotice := haged.replicaNotice hs he hline rfl kind station detail
  rw [hnotice]
  exact post_posts aged _

/-- The rows of Table 6.4: a replica that was STALE, and an ABSENT one without a bound owner, post nothing. -/
theorem expireAge_spec (hs : s.StorageCanonical) (he : s.entry n = some e) (ht : s.Exchanges t n f [.directory])
    (hline : f.line = e.line) (hr : f.role = .consume c) :
    ∃ a, s.Exchanges a n { f with role := .consume c.expired } [.directory]
      ∧ a.Posts (t.expireAge n c) (s.expiryNotices n c) := by
  have hposts {g : Consume → Consume} (hg : g { c with age := c.ageLimit, ageRunning := false } = c.expired) :=
    aged_posts hs he ht hline hr hg
  have hstopped (hc : c.expired = { c with age := c.ageLimit, ageRunning := false }) :
      s.Exchanges (t.updConsume n (fun c => { c with age := c.ageLimit, ageRunning := false })) n
        { f with role := .consume c.expired } [.directory] := by
    rw [hc]
    exact ht.trans (updConsume_exchanges _ ht.1 hr) (.refl _) (.refl _)
  unfold State.expireAge State.expiryNotices
  cases hrep : c.replica with
  | fresh =>
    cases hb : c.binding with
    | bound owner => exact ⟨_, hposts (by simp [Consume.expired, hrep, hb]) .stale owner 0⟩
    | unbound => exact ⟨_, hposts (by simp [Consume.expired, hrep, hb]) .stale _ 0⟩
    | orphaned owner => exact ⟨_, hposts (by simp [Consume.expired, hrep, hb]) .stale _ 0⟩
  | stale => exact ⟨_, hstopped (by simp [Consume.expired, hrep]), .refl _⟩
  | absent =>
    cases hb : c.binding with
    | bound owner => exact ⟨_, hposts (by simp [Consume.expired, hrep, hb]) .orphaned owner 1⟩
    | unbound => exact ⟨_, hstopped (by simp [Consume.expired, hrep, hb]), .refl _⟩
    | orphaned owner => exact ⟨_, hstopped (by simp [Consume.expired, hrep, hb]), .refl _⟩

end Age

/-! ## The owed tick -/

/-- The tick has come to the entry of `n`: it owes none any more (log 4). -/
def State.tickMet (s : State) (n : Nat) : State :=
  s.setDirectory (updateEntry s.directory n (fun e => { e with tickOwed := false }))

section Tick
variable {s : State} {n : Nat} {e : Entry} (he : s.entry n = some e)
include he

theorem tickMet_exchanges : s.Exchanges (s.tickMet n) n { e with tickOwed := false } [.directory] :=
  updateEntry_exchanges he (fun _ => rfl)

theorem tickEntry_of_notOwed (h : e.tickOwed = false) : s.tickEntry n = s := by
  unfold State.tickEntry
  rw [he]
  exact if_neg (by simp [h])

section Owed
variable (howed : e.tickOwed = true)
include howed

theorem tickEntry_of_owed : s.tickEntry n =
    if e.endsAtTick then
      match e.role with
      | .produce _ => ((s.tickMet n).expireRefresh n).settle
      | .consume c => ((s.tickMet n).expireAge n c).settle
    else (s.tickMet n).setDirectory (updateEntry (s.tickMet n).directory n Entry.count) := by
  unfold State.tickEntry
  rw [he]
  exact if_pos howed

theorem tickEntry_of_refresh {p : Produce} (hr : e.role = .produce p)
    (hend : p.ownership = .owned ∧ p.refreshCounter + 1 = p.refreshPeriod) :
    s.tickEntry n = ((s.tickMet n).expireRefresh n).settle := by
  have hends : e.endsAtTick = true := (endsAtTick_iff e).mpr (by rw [hr]; exact hend)
  rw [tickEntry_of_owed he howed, if_pos hends, hr]

theorem tickEntry_of_age {c : Consume} (hr : e.role = .consume c)
    (hend : c.ageRunning = true ∧ c.ageLimit ≠ 0 ∧ c.ageLimit ≤ c.age + 1) :
    s.tickEntry n = ((s.tickMet n).expireAge n c).settle := by
  have hends : e.endsAtTick = true := (endsAtTick_iff e).mpr (by rw [hr]; exact hend)
  rw [tickEntry_of_owed he howed, if_pos hends, hr]

/-- A tick that does not bring the counter to its end counts (R83, R110). -/
theorem tickEntry_counts (hend : ¬ e.endsAtTick = true) :
    s.Exchanges (s.tickEntry n) n { e with tickOwed := false }.count [.directory] := by
  have hmet := tickMet_exchanges he
  rw [tickEntry_of_owed he howed, if_neg hend]
  exact hmet.trans (updateEntry_exchanges hmet.1 (fun f => (entry_count_same f).1)) (.refl _) (.refl _)

theorem tickEntry_countsRefresh {p : Produce} (hr : e.role = .produce p)
    (hend : ¬ (p.ownership = .owned ∧ p.refreshCounter + 1 = p.refreshPeriod)) :
    s.Exchanges (s.tickEntry n) n { e with tickOwed := false, role := .produce { p with
      refreshCounter :=
        if p.ownership = .owned ∧ p.refreshCounter < p.refreshPeriod then p.refreshCounter + 1
        else p.refreshCounter } } [.directory] := by
  have hcounts := tickEntry_counts he howed (fun h => hend (by simpa [hr] using (endsAtTick_iff e).mp h))
  rw [count_eq] at hcounts
  simpa only [hr] using hcounts

theorem tickEntry_countsAge {c : Consume} (hr : e.role = .consume c)
    (hend : ¬ (c.ageRunning = true ∧ c.ageLimit ≠ 0 ∧ c.ageLimit ≤ c.age + 1)) :
    s.Exchanges (s.tickEntry n) n { e with tickOwed := false, role := .consume { c with
      age := if c.ageRunning = true ∧ (c.ageLimit ≠ 0 ∨ c.age < 65535) then c.age + 1 else c.age } } [.directory] := by
  have hcounts := tickEntry_counts he howed (fun h => hend (by simpa [hr] using (endsAtTick_iff e).mp h))
  rw [count_eq] at hcounts
  simpa only [hr] using hcounts

end Owed
end Tick

/-! ## The commands -/

theorem exec_refreshExpiry_of_produce {s : State} {n : Nat} {p : Produce} (hp : s.produce n = some p) :
    exec (.refreshExpiry n) s = .next (s.tickEntry n) := by
  show execRefreshExpiry n s = _
  unfold execRefreshExpiry
  rw [hp]

theorem exec_ageExpiry_of_consume {s : State} {n : Nat} {c : Consume} (hc : s.consume n = some c) :
    exec (.ageExpiry n) s = .next (s.tickEntry n) := by
  show execAgeExpiry n s = _
  unfold execAgeExpiry
  rw [hc]

/-- Where no tick is owed, neither command finds anything to do (log 4). -/
theorem exec_expiries_of_notOwed {s : State} {n : Nat} {e : Entry} (he : s.entry n = some e) (h : e.tickOwed = false) :
    exec (.refreshExpiry n) s = .next s ∧ exec (.ageExpiry n) s = .next s := by
  have hstays := tickEntry_of_notOwed he h
  constructor
  · show execRefreshExpiry n s = _
    unfold execRefreshExpiry
    split
    · rfl
    · rw [hstays]
  · show execAgeExpiry n s = _
    unfold execAgeExpiry
    split
    · rfl
    · rw [hstays]

/-- Settles O52: an owed tick expires its counter, or counts; the expiries are those of R84 and Table 6.4. -/
theorem expiredEntryTimersAct : Obligations.ExpiredEntryTimersAct := by
  intro s n e hs he
  have hmet := tickMet_exchanges he
  refine ⟨fun p hr howed howned hperiod => ?_, fun c hr howed hruns hlimit hage => ?_,
    fun howed => ⟨fun p hr hend => ?_, fun c hr hend => ?_⟩, exec_expiries_of_notOwed he⟩
  · have hexec := exec_refreshExpiry_of_produce (s.produce_of_entry n e p he hr)
    rw [tickEntry_of_refresh he howed hr ⟨howned, hperiod⟩] at hexec
    refine ⟨_, hexec, ?_⟩
    by_cases hrepeat : p.committed ≠ none ∧ p.queued = .no ∧ p.inFlight = .no
    · obtain ⟨hexpired, hqueue⟩ := expireRefresh_of_repeatable hmet.1 hr hrepeat
      obtain ⟨hown, hothers, honly⟩ := hmet.trans hexpired (j := [.directory, .pubQueue]) (by decide) (by decide)
      rw [if_pos hrepeat]
      exact ⟨hothers, hqueue, hown, honly⟩
    · obtain ⟨hown, hothers, honly⟩ := hmet.trans (expireRefresh_of_not hmet.1 hr hrepeat) (.refl _) (.refl _)
      rw [if_neg hrepeat]
      exact ⟨hothers, hown, honly⟩
  · have hexec := exec_ageExpiry_of_consume (s.consume_of_entry n e c he hr)
    rw [tickEntry_of_age he howed hr ⟨hruns, hlimit, hage⟩] at hexec
    obtain ⟨a, ⟨hown, hothers, honly⟩, hnotice, hposts, hposted⟩ := expireAge_spec hs he hmet rfl hr
    have hnotices : a.notice = s.notice := honly .notice (by decide)
    have hentry := hposted.entry (by decide)
    refine ⟨_, hexec, fun m hm => (hentry m).trans (hothers m hm), (hentry n).trans hown, ?_, ?_, ?_⟩
    · rw [hnotice, hnotices]
      unfold State.expiryNotices
      cases c.replica <;> cases c.binding <;> rfl
    · exact hposts.congr (honly .station (by decide)).symm hnotices.symm (honly .contention (by decide)).symm rfl rfl
    · exact (honly.mono (by decide)).trans (hposted.mono (by decide))
  · obtain ⟨hown, hothers, honly⟩ := tickEntry_countsRefresh he howed hr hend
    exact ⟨_, exec_refreshExpiry_of_produce (s.produce_of_entry n e p he hr), hothers, hown, honly⟩
  · obtain ⟨hown, hothers, honly⟩ := tickEntry_countsAge he howed hr hend
    exact ⟨_, exec_ageExpiry_of_consume (s.consume_of_entry n e c he hr), hothers, hown, honly⟩

end Sys2Proof.Machine
end

section
/-! PROOF. SUBSCRIBE, UNSUBSCRIBE, UNBIND and PULL: the entry that comes, goes or forgets its owner, the frame that is
placed, and the completion (R98, R99, R102, R115). -/

namespace Sys2Proof.Machine

section Takes
variable {s : State} {d : Descriptor}

/-- The notify mode of param B, which the checks have kept at 2 at most, but which the model reads for any value. -/
theorem notifyOf_eq (b : Nat) : notifyOf b = if b = 0 then .none else if b = 1 then .change else .all := by
  unfold notifyOf
  split
  · rfl
  · rfl
  · next h0 h1 => rw [if_neg h0, if_neg h1]

/-- A SUBSCRIBE that passes its checks has found no entry of either role. -/
theorem entry_none_of_subscribes (h : s.Takes .subscribe d) : s.entry d.object = none := by
  obtain ⟨-, -, hpass⟩ := h
  have hproduce := hpass ((s.produce d.object).isSome = true, .roleConflict) (by simp [State.tableChecks])
  have hconsume := hpass ((s.consume d.object).isSome = true, .exists) (by simp [State.tableChecks])
  exact entry_none_of s d.object (by simpa using hproduce) (by simpa using hconsume)

/-- The new entry is the one change of the directory (R11). -/
theorem subscribed_entry (h : s.Takes .subscribe d) (m : Nat) :
    (s.setDirectory (insertEntry s.directory d.newConsume)).entry m =
      if m = d.object then some d.newConsume else s.entry m :=
  lookup_insertEntry s.directory m d.newConsume (entry_none_of_subscribes h)

end Takes

/-- Settles O21: the checks leave no entry for the object, so the insertion answers its lookup and no other. -/
theorem subscribeInsertsAnEntry : Obligations.SubscribeInsertsAnEntry := by
  intro s d hrings htakes
  have hinsert := setDirectory_changesOnly s (insertEntry s.directory d.newConsume)
  have hdone := finish_changesOnly (s.setDirectory (insertEntry s.directory d.newConsume)) d .ok
  have hentry := subscribed_entry htakes
  refine ⟨_, exec_subscribe_of_takes s d htakes, finish_completed hrings htakes.1 hinsert (by decide) .ok, ?_,
    fun m hm => ?_, ?_, (hinsert.mono (by decide)).trans (hdone.mono (by decide))⟩
  · rw [hdone.entry (by decide), hentry, if_pos rfl, Descriptor.newConsume, notifyOf_eq]
  · rw [hdone.entry (by decide), hentry, if_neg hm]
  · rw [show _ = _ from hdone .directory (by decide)]
    exact insertEntry_length _ _

/-- Settles O22: a removal with the line freed, and a change of the binding alone. -/
theorem unsubscribeAndUnbindActOnTheEntry : Obligations.UnsubscribeAndUnbindActOnTheEntry := by
  refine fun s d hrings => ⟨fun htakes => ?_, fun htakes => ?_⟩
  · obtain ⟨hnone, hothers, hfreed, honly⟩ := removeEntry_removes s d.object
    have hdone := finish_changesOnly (s.removeEntry d.object) d .ok
    exact ⟨_, exec_unsubscribe_of_takes s d htakes, finish_completed hrings htakes.1 honly (by decide) .ok,
      (hdone.entry (by decide) _).trans hnone, fun m hm => (hdone.entry (by decide) m).trans (hothers m hm),
      hfreed.congr (hdone .store (by decide)), (honly.mono (by decide)).trans (hdone.mono (by decide))⟩
  · have honly := updConsume_changesOnly s d.object (fun c => { c with binding := .unbound })
    have hdone := finish_changesOnly (s.updConsume d.object (fun c => { c with binding := .unbound })) d .ok
    refine ⟨_, exec_unbind_of_takes s d htakes, finish_completed hrings htakes.1 honly (by decide) .ok,
      fun e c he hr => ?_, fun m hm => ?_, (honly.mono (by decide)).trans (hdone.mono (by decide))⟩
    · obtain ⟨hown, -, -⟩ := updConsume_exchanges (fun c => { c with binding := .unbound }) he hr
      exact (hdone.entry (by decide) _).trans hown
    · rw [hdone.entry (by decide), State.updConsume_entry, if_neg hm]

/-- Settles O24: a PULL frame marks no entry as it is placed. -/
theorem pullPlacesItsFrame : Obligations.PullPlacesItsFrame := by
  intro s d hrings htakes
  obtain ⟨hsubmits, -, -⟩ := id htakes
  obtain ⟨hlife, -⟩ := s.slot_in_ram hrings hsubmits.1
  have hplaced : s.ChangesOnly (s.placeCommand (.pull d.object)) [.contention] := setContention_changesOnly s _
  have hdone := finish_changesOnly (s.placeCommand (.pull d.object)) d .ok
  exact ⟨_, exec_pull_of_takes s d hlife htakes, finish_completed hrings hsubmits hplaced (by decide) .ok,
    (hdone .contention (by decide)).trans (placeCommand_contention s _),
    (hplaced.mono (by decide)).trans (hdone.mono (by decide))⟩

end Sys2Proof.Machine
end


section
/-! PROOF. A record and a RELINQUISH heard at a CONSUME entry: how a record is judged, and what an acceptance leaves of
the entry, the line and the notices (R100 to R109, Tables 6.1 to 6.3). -/

namespace Sys2Proof.Machine

/-! ## Posts among other changes -/

/-- The Notice and Contention Units of `t` are those of `s` after some posts, whatever else has changed. -/
def State.Reports (s t : State) (ns : List Notice) : Prop :=
  t.station = s.station ∧ s.Posts ((s.setNotice t.notice).setContention t.contention) ns

section Reports
variable {s t u : State} {ns ms : List Notice} {l : List Block}

theorem State.Posts.reports (h : s.Posts t ns) : s.Reports t ns := by
  obtain ⟨hnotice, hposts, honly⟩ := h
  exact ⟨honly .station (by decide), hnotice, hposts,
    ((setNotice_changesOnly s _).mono (by decide)).trans ((setContention_changesOnly _ _).mono (by decide))⟩

theorem State.Reports.station (h : s.Reports t ns) : t.station = s.station := h.1

theorem State.Reports.notice (h : s.Reports t ns) : t.notice = s.notice.postedAll ns := by
  obtain ⟨-, hnotice, -⟩ := h
  exact hnotice

theorem State.Reports.afterPosts (h : s.Reports t ns) : s.AfterPosts t := by
  obtain ⟨-, -, hposts, -⟩ := h
  exact hposts

theorem State.Reports.of_changesOnly (h : s.ChangesOnly t l) (hl : .station ∉ l ∧ .notice ∉ l ∧ .contention ∉ l) :
    s.Reports t [] := by
  have hnotice : t.notice = s.notice := h .notice hl.2.1
  have hcontention : t.contention = s.contention := h .contention hl.2.2
  refine ⟨h .station hl.1, ?_⟩
  rw [hnotice, hcontention]
  exact .refl s

theorem State.Reports.trans (h : s.Reports t ns) (h' : t.Reports u ms) : s.Reports u (ns ++ ms) := by
  obtain ⟨hstation, hposted⟩ := h
  obtain ⟨hstation', hnotice', hposts', -⟩ := h'
  refine ⟨hstation'.trans hstation, hposted.trans (u := (s.setNotice u.notice).setContention u.contention)
    ⟨hnotice', hposts'.congr hstation.symm rfl rfl rfl rfl, ?_⟩⟩
  exact ((setNotice_changesOnly _ u.notice).mono (by decide)).trans
    ((setContention_changesOnly _ u.contention).mono (by decide))

end Reports

/-- Posts in a row. -/
def State.postAll (s : State) (ns : List Notice) : State := ns.foldl State.post s

theorem postAll_posts (s : State) (ns : List Notice) : s.Posts (s.postAll ns) ns := by
  induction ns generalizing s with
  | nil => exact .refl s
  | cons x rest ih => exact (post_posts s x).trans (ih (s.post x))

theorem postAll_changesOnly (s : State) (ns : List Notice) : s.ChangesOnly (s.postAll ns) [.notice, .contention] := by
  obtain ⟨-, -, honly⟩ := postAll_posts s ns
  exact honly

/-- An allocation reports its eviction at most (R26). -/
theorem allocate_reports {s t : State} {n : Nat} {pinned : Bool} {detail : Nat} {tag : Word16} {w : Way}
    (h : s.allocate n pinned detail tag = some (w, t)) : ∃ ns, s.Reports t ns := by
  have hevicts (l : Line) : ∃ ns, s.Reports (s.evict l detail tag) ns := by
    cases hc : s.consume l.object with
    | none => exact ⟨[], by rw [evict_none s l detail tag hc]; exact (State.Posts.refl s).reports⟩
    | some c =>
      have hcut : s.Reports (s.setDirectory (updateEntry s.directory l.object cutEntry)) [] :=
        .of_changesOnly (setDirectory_changesOnly s _) (by decide)
      rw [evict_some s l detail tag c hc]
      dsimp only
      split
      · exact ⟨_, hcut⟩
      · exact ⟨_, hcut.trans (post_posts _ _).reports⟩
  obtain ⟨c, hc, -, rfl⟩ := allocate_eq h
  obtain ⟨ns, hns⟩ : ∃ ns, s.Reports c ns := by
    rw [hc]
    split
    · exact hevicts _
    · exact ⟨[], (State.Posts.refl s).reports⟩
  exact ⟨_, hns.trans (.of_changesOnly (putSet_changesOnly c n _) (by decide))⟩

/-! ## The dispatch list plays no part in an allocation -/

theorem post_setDispatch (s : State) (x : Notice) (items : List Item) :
    (s.setDispatch items).post x = (s.post x).setDispatch items := by
  have htest (t : State) : (t.setDispatch items).highMarkTest = t.highMarkTest.setDispatch items := by
    unfold State.highMarkTest
    rw [apply_ite (State.setDispatch · items)]
    rfl
  unfold State.post
  rw [apply_ite (State.setDispatch · items), ← htest]
  rfl

theorem evict_setDispatch (s : State) (l : Line) (detail : Nat) (tag : Word16) (items : List Item) :
    (s.setDispatch items).evict l detail tag = (s.evict l detail tag).setDispatch items := by
  cases hc : s.consume l.object with
  | none => rw [evict_none s l detail tag hc, evict_none (s.setDispatch items) l detail tag hc]
  | some c =>
    rw [evict_some s l detail tag c hc, evict_some (s.setDispatch items) l detail tag c hc]
    dsimp only
    rw [apply_ite (State.setDispatch · items), ← post_setDispatch]
    rfl

theorem allocate_setDispatch (s : State) (n : Nat) (pinned : Bool) (detail : Nat) (tag : Word16) (items : List Item) :
    (s.setDispatch items).allocate n pinned detail tag =
      (s.allocate n pinned detail tag).map (fun a => (a.1, a.2.setDispatch items)) := by
  unfold State.allocate
  rw [show (s.setDispatch items).setOf n = s.setOf n from rfl]
  cases (s.setOf n).choose with
  | none => rfl
  | some w =>
    dsimp only
    rw [evict_setDispatch, ← apply_ite (State.setDispatch · items)]
    rfl

/-! ## How a record is judged -/

section Judge
variable {s : State} {n source : Nat} {rep : Bool} {q : Byte} {payload : List Byte} {c : Consume}

/-- The turn of a record at a CONSUME entry (R100). -/
theorem exec_dataRecord_of_next {rest : List Item} (hc : s.consume n = some c)
    (hnext : s.nextItems = .record source n rep q payload :: rest) : exec .dataRecordAtConsume s =
      .next ((s.setDispatch rest).judgeRecord n c source rep q payload).settle := by
  show execDataRecordAtConsume s = _
  unfold execDataRecordAtConsume
  rw [hnext]
  dsimp only
  rw [hc]

/-- A record from the bound owner, where the entry holds a replica (R103, Table 6.2). -/
theorem checkSequence_of_present {last : Byte} (hrep : c.replica ≠ .absent) (hlast : c.lastSeq = some last) :
    s.checkSequence n c source rep q payload =
      if q = last then s.updConsume n Consume.restartAge
      else if q = last + 1 then s.accept n c source rep q payload
      else (s.post (s.recordNotice .gap n source q (q - last - 1).toNat payload)).accept
        n c source rep q payload := by
  unfold State.checkSequence
  rw [hlast]
  cases hc : c.replica with
  | absent => exact absurd hc hrep
  | fresh => rfl
  | stale => rfl

/-- A record from the bound owner, where the entry holds none (Table 6.2). -/
theorem checkSequence_of_absent (h : c.replica = .absent ∨ c.lastSeq = none) :
    s.checkSequence n c source rep q payload = s.accept n c source rep q payload := by
  unfold State.checkSequence
  rcases h with h | h <;> rw [h]
  cases c.replica <;> rfl

theorem judgeRecord_of_owner (hb : c.binding = .bound source) :
    s.judgeRecord n c source rep q payload = s.checkSequence n c source rep q payload := by
  unfold State.judgeRecord
  rw [hb]
  exact if_pos rfl

theorem judgeRecord_of_higher {owner : Nat} (hb : c.binding = .bound owner) (h : owner < source) :
    s.judgeRecord n c source rep q payload =
      s.post (s.recordNotice .sourceConflict n source q owner payload) := by
  unfold State.judgeRecord
  rw [hb]
  dsimp only
  rw [if_neg h.ne', if_neg (not_lt.mpr h.le)]

/-- A record of no owner or of a lower station is to be accepted (R100, Table 6.1). -/
theorem judgeRecord_of_other (h : ∀ owner, c.binding = .bound owner → source < owner) :
    s.judgeRecord n c source rep q payload = s.accept n c source rep q payload := by
  unfold State.judgeRecord
  cases hb : c.binding with
  | unbound => rfl
  | orphaned owner => rfl
  | bound owner =>
    have hlower := h owner hb
    dsimp only
    rw [if_neg hlower.ne, if_pos hlower]

end Judge

/-! ## The notices of an acceptance -/

section Notices
variable (s : State) (n source : Nat) (rep : Bool) (q : Byte) (payload : List Byte) (c : Consume)

/-- GAP, where the bound owner has skipped a sequence (Table 6.2). -/
def State.gapNotices : List Notice :=
  match c.lastSeq with
  | some last =>
    if c.binding = .bound source ∧ c.replica ≠ .absent ∧ q ≠ last + 1 then
      [s.valueNotice .gap n source q (q - last - 1).toNat payload 0] else []
  | none => []

/-- BOUND or OWNER_CHANGED (R105 step 2, Table 6.3). -/
def State.bindingNotices : List Notice :=
  match c.binding with
  | .unbound => [s.valueNotice .bound n source q 0xFF payload 0]
  | .orphaned owner => [s.valueNotice .bound n source q owner payload 0]
  | .bound owner =>
    if owner = source then [] else [s.valueNotice .ownerChanged n source q owner payload 0]

/-- UPDATED, as the notify mode asks (R106, Table 6.3). -/
def State.updatedNotices : List Notice :=
  if c.notify = .all ∨ c.notify = .change ∧ (c.replica = .absent ∨ s.value n ≠ payload) then
    [s.valueNotice .updated n source q
      ((if rep then 1 else 0) + (if c.binding = .bound source then 0 else 2)) payload 0]
  else []

variable {s n source rep q payload c}

theorem gapNotices_of_not (h : ¬ (c.binding = .bound source ∧ c.replica ≠ .absent)) :
    s.gapNotices n source q payload c = [] := by
  unfold State.gapNotices
  split
  · exact if_neg fun ⟨hb, hrep, _⟩ => h ⟨hb, hrep⟩
  · rfl

/-- Notices about a record show the time alone of the state that posts them. -/
theorem recordNotice_of_station {t : State} (h : t.station = s.station) (kind : NoticeKind) (detail : Nat) :
    t.recordNotice kind n source q detail payload = s.valueNotice kind n source q detail payload 0 := by
  rw [recordNotice_eq]
  exact valueNotice_congr (congrArg Station.tickCount h) kind n source q detail payload 0

theorem updatedNotices_congr {t : State} (h : t.station = s.station)
    (hvalue : c.replica ≠ .absent → t.value n = s.value n) :
    t.updatedNotices n source rep q payload c = s.updatedNotices n source rep q payload c := by
  have hsame : (c.replica = .absent ∨ t.value n ≠ payload) ↔ (c.replica = .absent ∨ s.value n ≠ payload) := by
    by_cases hrep : c.replica = .absent
    · simp [hrep]
    · rw [hvalue hrep]
  unfold State.updatedNotices
  simp only [hsame, valueNotice_congr (congrArg Station.tickCount h)]

theorem bindingNotices_congr {t : State} (h : t.station = s.station) :
    t.bindingNotices n source q payload c = s.bindingNotices n source q payload c := by
  unfold State.bindingNotices
  simp only [valueNotice_congr (congrArg Station.tickCount h)]

/-- A record that is to be accepted: its GAP is posted first (R100, R103). -/
theorem judgeRecord_of_accepted (h : ∀ owner, c.binding = .bound owner →
      source < owner ∨ (source = owner ∧ (c.replica = .absent ∨ c.lastSeq ≠ some q))) :
    s.judgeRecord n c source rep q payload =
      (s.postAll (s.gapNotices n source q payload c)).accept n c source rep q payload := by
  by_cases hb : c.binding = .bound source
  · have hnew : c.replica = .absent ∨ c.lastSeq ≠ some q := by
      rcases h source hb with hlt | ⟨-, hnew⟩
      · exact absurd hlt (lt_irrefl source)
      · exact hnew
    rw [judgeRecord_of_owner hb]
    by_cases hrep : c.replica = .absent
    · rw [gapNotices_of_not (fun hc => hc.2 hrep), checkSequence_of_absent (.inl hrep)]
      rfl
    · cases hlast : c.lastSeq with
      | none =>
        rw [checkSequence_of_absent (.inr hlast), State.gapNotices, hlast]
        rfl
      | some last =>
        have hother : q ≠ last := by
          rintro rfl
          exact hnew.elim hrep (fun hne => hne hlast)
        rw [checkSequence_of_present hrep hlast, if_neg hother, State.gapNotices, hlast]
        by_cases hnext : q = last + 1
        · rw [if_pos hnext]
          dsimp only
          rw [if_neg (fun ⟨_, _, hskips⟩ => hskips hnext)]
          rfl
        · rw [if_neg hnext]
          dsimp only
          rw [if_pos ⟨hb, hrep, hnext⟩]
          rfl
  · rw [gapNotices_of_not (fun hc => hb hc.1), judgeRecord_of_other]
    · rfl
    · intro owner howner
      rcases h owner howner with hlt | ⟨rfl, -⟩
      · exact hlt
      · exact absurd howner hb

theorem postBinding_eq {t : State} (h : t.station = s.station) :
    t.postBinding n source q payload c.binding = t.postAll (s.bindingNotices n source q payload c) := by
  unfold State.postBinding State.bindingNotices
  cases c.binding with
  | unbound => exact congrArg t.post (recordNotice_of_station h .bound _)
  | orphaned owner => exact congrArg t.post (recordNotice_of_station h .bound _)
  | bound owner =>
    dsimp only
    by_cases ho : owner = source
    · rw [if_pos ho, if_pos ho]
      rfl
    · rw [if_neg ho, if_neg ho]
      exact congrArg t.post (recordNotice_of_station h .ownerChanged _)

theorem updatedDetail_eq (b : Bool) (h : b = true ↔ c.binding ≠ .bound source) :
    updatedDetail rep b = (if rep then 1 else 0) + (if c.binding = .bound source then 0 else 2) := by
  unfold updatedDetail
  by_cases hb : c.binding = .bound source
  · rw [if_pos hb, if_neg (fun hr => h.mp hr hb)]
  · rw [if_neg hb, if_pos (h.mpr hb)]

end Notices

/-! ## The comparison of a record with the replica (R29, R106) -/

/-- A canonical line and a record of the same bytes have the same length, so the value alone decides. -/
theorem differs_iff {s : State} {n : Nat} {w : Way} (hs : s.LinesCanonical)
    (hline : s.objectLine n = some (s.lineAt (setIndex n) w)) (replica : Replica) (payload : List Byte) :
    s.differs n replica payload = true ↔ replica = .absent ∨ s.value n ≠ payload := by
  obtain ⟨hlength, hbytes, -⟩ := hs (setIndex n) w
  have hvalue : s.value n = (s.lineAt (setIndex n) w).payload.take (s.lineAt (setIndex n) w).length := by
    unfold State.value
    rw [hline]
  have hsize : (s.value n).length = (s.lineAt (setIndex n) w).length := by
    rw [hvalue, List.length_take, hbytes]
    exact min_eq_left hlength
  unfold State.differs
  rw [hline]
  dsimp only
  rw [← hvalue, ← hsize, Bool.or_eq_true, Bool.or_eq_true, beq_iff_eq, bne_iff_ne, bne_iff_ne]
  refine or_congr_right ⟨?_, .inr⟩
  rintro (hne | hne)
  · exact fun heq => hne (congrArg List.length heq)
  · exact hne

theorem wants_iff (m : NotifyMode) (differs : Bool) :
    m.wants differs = true ↔ m = .all ∨ m = .change ∧ differs = true := by
  cases m <;> simp [NotifyMode.wants]

/-! ## An acceptance by an entry that holds a line -/

/-- The entry is bound to the source of the record, and the notice of it is posted (R105 step 2). -/
def State.rebound (s : State) (n source : Nat) (q : Byte) (payload : List Byte) (c : Consume) : State :=
  (s.updConsume n (fun c => { c with binding := .bound source })).postAll (s.bindingNotices n source q payload c)

/-- The payload is in the line, and the entry is FRESH (R105 steps 3 to 5). -/
def State.refreshed (s : State) (n : Nat) (q : Byte) (payload : List Byte) : State :=
  (s.storePayload n payload).updConsume n
    (fun c => { c with replica := .fresh, lastSeq := some q, age := 0, ageRunning := true })

theorem rebound_changesOnly (s : State) (n source : Nat) (q : Byte) (payload : List Byte) (c : Consume) :
    s.ChangesOnly (s.rebound n source q payload c) [.directory, .notice, .contention] :=
  ((updConsume_changesOnly s n _).mono (by decide)).trans ((postAll_changesOnly _ _).mono (by decide))

theorem refreshed_changesOnly (s : State) (n : Nat) (q : Byte) (payload : List Byte) :
    s.ChangesOnly (s.refreshed n q payload) [.directory, .store] :=
  ((storePayload_changesOnly s n payload).mono (by decide)).trans ((updConsume_changesOnly _ n _).mono (by decide))

section Accept
variable {s : State} {n source : Nat} {rep : Bool} {q : Byte} {payload : List Byte} {e : Entry} {c : Consume} {w : Way}

theorem recordLine_of_line (h : (s.entry n).bind Entry.line = some w) : s.recordLine n = some s := by
  unfold State.recordLine
  rw [h]

/-- Where a line has been found, the acceptance goes on as one in the state with that line. -/
theorem accept_of_recordLine {t : State} (h : s.recordLine n = some t) (ht : (t.entry n).bind Entry.line = some w) :
    s.accept n c source rep q payload = t.accept n c source rep q payload := by
  unfold State.accept
  rw [h, recordLine_of_line ht]

/-- The entry keeps its line as it is bound. -/
theorem rebound_entry (he : s.entry n = some e) (hr : e.role = .consume c) :
    (s.rebound n source q payload c).entry n = some { e with role := .consume { c with binding := .bound source } } := by
  obtain ⟨hown, -, -⟩ := updConsume_exchanges (fun c => { c with binding := .bound source }) he hr
  exact ((postAll_changesOnly _ _).entry (by decide) n).trans hown

/-- The comparison of R106 finds the line as the record has found it. -/
theorem rebound_differs (hs : s.LinesCanonical) (he : s.entry n = some e) (hr : e.role = .consume c)
    (hw : e.line = some w) (replica : Replica) :
    (s.rebound n source q payload c).differs n replica payload = true ↔ replica = .absent ∨ s.value n ≠ payload := by
  have honly := rebound_changesOnly s n source q payload c
  have hline : (s.rebound n source q payload c).objectLine n =
      some ((s.rebound n source q payload c).lineAt (setIndex n) w) := by
    rw [objectLine_eq _ n _ (rebound_entry he hr), hw]
    rfl
  have hbefore : s.objectLine n = some (s.lineAt (setIndex n) w) := by
    rw [objectLine_eq s n e he, hw]
    rfl
  have hvalue : (s.rebound n source q payload c).value n = s.value n := by
    unfold State.value
    rw [hline, hbefore, honly.lineAt (by decide)]
  rw [differs_iff (hs.elsewhere honly (by decide)) hline, hvalue]

/-- The steps of R105 in their order: binding, line and replica, UPDATED. -/
theorem accept_eq (hs : s.LinesCanonical) (he : s.entry n = some e) (hr : e.role = .consume c) (hw : e.line = some w) :
    s.accept n c source rep q payload =
      ((s.rebound n source q payload c).refreshed n q payload).postAll
        (s.updatedNotices n source rep q payload c) := by
  have hheld : (s.entry n).bind Entry.line = some w := by rw [he]; exact hw
  have hbound : (s.updConsume n (fun c => { c with binding := .bound source })).postBinding n source q payload
      c.binding = s.rebound n source q payload c := postBinding_eq rfl
  have hstation : ((s.rebound n source q payload c).refreshed n q payload).station = s.station :=
    (refreshed_changesOnly _ n q payload .station (by decide)).trans
      (rebound_changesOnly s n source q payload c .station (by decide))
  have hwants := (wants_iff c.notify ((s.rebound n source q payload c).differs n c.replica payload)).trans
    (or_congr_right (and_congr_right fun _ => rebound_differs hs he hr hw c.replica))
  have hnotice := recordNotice_of_station (n := n) (source := source) (q := q) (payload := payload) hstation .updated
    (updatedDetail rep (c.binding != .bound source))
  unfold State.accept State.updatedNotices
  rw [recordLine_of_line hheld]
  dsimp only
  rw [hbound]
  by_cases hu : c.notify = .all ∨ c.notify = .change ∧ (c.replica = .absent ∨ s.value n ≠ payload)
  · rw [if_pos (hwants.mpr hu), if_pos hu, ← updatedDetail_eq (c.binding != .bound source) bne_iff_ne, ← hnotice]
    rfl
  · rw [if_neg (fun h => hu (hwants.mp h)), if_neg hu]
    rfl

/-- What an acceptance leaves of the entry, its line and the units that report (R105 to R108). -/
theorem accept_spec (hs : s.LinesCanonical) (he : s.entry n = some e) (hr : e.role = .consume c) (hw : e.line = some w)
    (hp : payload.length ≤ 64) :
    let u := s.accept n c source rep q payload
    s.Exchanges u n { e with role := .consume { c with
        binding := .bound source, replica := .fresh, lastSeq := some q, age := 0, ageRunning := true } }
        [.directory, .store, .notice, .contention]
      ∧ u.lineAt (setIndex n) w = { s.lineAt (setIndex n) w with
          length := payload.length, payload := payload ++ List.replicate (64 - payload.length) 0 }
      ∧ (u.store.get (setIndex n)).older = w.other ∧ s.StoreSameBut u (setIndex n) w
      ∧ s.Reports u (s.bindingNotices n source q payload c ++ s.updatedNotices n source rep q payload c) := by
  intro u
  have hrebound := rebound_changesOnly s n source q payload c
  have hrefreshed := refreshed_changesOnly (s.rebound n source q payload c) n q payload
  have hposted := postAll_changesOnly ((s.rebound n source q payload c).refreshed n q payload)
    (s.updatedNotices n source rep q payload c)
  have hheld : ((s.rebound n source q payload c).entry n).bind Entry.line = some w := by
    rw [rebound_entry he hr]
    exact hw
  obtain ⟨hline, holder, hsame⟩ := storePayload_lineAt (s.rebound n source q payload c) n payload hheld hp
  have hu : u = _ := accept_eq hs he hr hw
  have hstore : u.store = ((s.rebound n source q payload c).storePayload n payload).store := by
    rw [hu]
    exact hposted .store (by decide)
  have hentry : (s.entry n).map (Entry.mapConsume (fun c =>
      { c with binding := .bound source, replica := .fresh, lastSeq := some q, age := 0, ageRunning := true })) =
      some { e with role := .consume { c with
        binding := .bound source, replica := .fresh, lastSeq := some q, age := 0, ageRunning := true } } := by
    rw [he, Option.map_some, Entry.mapConsume_role e c _ hr]
  have hlookup := accept_entry s n c source rep q payload s
    (recordLine_of_line (w := w) (by rw [he]; exact hw))
  refine ⟨⟨(hlookup n).trans ((if_pos rfl).trans hentry), fun m hm => (hlookup m).trans (if_neg hm),
    (accept_changesOnly s n c source rep q payload).mono (by decide)⟩, ?_, ?_, ?_, ?_⟩
  · rw [State.lineAt, hstore, ← hrebound.lineAt (by decide)]
    exact hline
  · rw [hstore]
    exact holder
  · exact (hsame.congr hstore).of_eq (hrebound .store (by decide))
  · rw [hu]
    have hbinds : s.Reports (s.rebound n source q payload c) (s.bindingNotices n source q payload c) :=
      (State.Reports.of_changesOnly (updConsume_changesOnly s n _) (by decide)).trans (postAll_posts _ _).reports
    have hwrites := hbinds.trans (.of_changesOnly hrefreshed (by decide))
    rw [List.append_nil] at hwrites
    exact hwrites.trans (postAll_posts _ _).reports

end Accept

/-! ## The line of an accepted record (R105 step 1) -/

/-- From `s` the line for a record of `n` has been found and GAP posted, which has led to `t`; `a` is the state after
the allocation, or `s` itself where the entry has held the line. -/
structure State.LineFound (s a t : State) (n : Nat) (e : Entry) (w : Way) (rest : List Item) (gap : List Notice) :
    Prop where
  entry : t.entry n = some { e with line := some w }
  others : ∀ m, m ≠ n → t.entry m = a.entry m
  store : t.store = a.store
  lines : t.LinesCanonical
  value : e.line ≠ none → t.value n = s.value n
  dispatch : t.dispatch = rest
  notice : t.notice = a.notice.postedAll gap
  reports : ∃ ns, s.Reports t ns
  frame : s.ChangesOnly t [.dispatch, .directory, .store, .notice, .contention]

section Line
variable {s a : State} {n source : Nat} {rep : Bool} {q : Byte} {payload : List Byte} {rest : List Item} {e : Entry}
  {c : Consume} {w : Way}

theorem lineFound_of_held (hs : s.LinesCanonical) (he : s.entry n = some e) (hw : e.line = some w)
    (gap : List Notice) : s.LineFound s ((s.setDispatch rest).postAll gap) n e w rest gap := by
  have hposted := postAll_changesOnly (s.setDispatch rest) gap
  have honly : s.ChangesOnly ((s.setDispatch rest).postAll gap) [.dispatch, .notice, .contention] :=
    ((setDispatch_changesOnly s rest).mono (by decide)).trans (hposted.mono (by decide))
  have hreports := (State.Reports.of_changesOnly (setDispatch_changesOnly s rest) (by decide)).trans
    (postAll_posts (s.setDispatch rest) gap).reports
  exact {
    entry := by rw [honly.entry (by decide), he, ← hw]
    others := fun m _ => honly.entry (by decide) m
    store := honly .store (by decide)
    lines := hs.elsewhere honly (by decide)
    value := fun _ => value_congr s _ n (honly.entry (by decide) n) (honly.lineAt (by decide) _)
    dispatch := hposted .dispatch (by decide)
    notice := hreports.notice
    reports := ⟨_, hreports⟩
    frame := honly.mono (by decide) }

/-- An entry without a line has nothing for an eviction to take away (R6, R26). -/
theorem cutEntry_of_coherent (hr : e.role = .consume c) (hcoh : c.Coherent e.line) (hline : e.line = none) :
    cutEntry e = e := by
  obtain ⟨habsent, hlast, -⟩ := hcoh
  have hrep := habsent.mpr hline
  have hseq := hlast.mp hrep
  obtain ⟨o, l, r, owed⟩ := e
  obtain ⟨b, replica, last, limit, age, runs, notify⟩ := c
  subst hr hline hrep hseq
  rfl

/-- An entry that takes a line is still there, as it was, after the allocation, whichever holder that has evicted. -/
theorem allocate_entry_own (he : s.entry n = some e) (hr : e.role = .consume c) (hcoh : c.Coherent e.line)
    (hline : e.line = none) (ha : s.allocate n false 1 0 = some (w, a)) : a.entry n = some e := by
  rw [allocate_entry s n false 1 0 w a ha, he, Option.map_some, cutEntry_of_coherent hr hcoh hline, ite_self]

/-- The state in which the entry of `n` has been given a line (R25, R105 step 1). -/
def State.withLine (s : State) (n : Nat) (w : Way) : State :=
  s.setDirectory (updateEntry s.directory n (fun e => { e with line := some w }))

theorem recordLine_of_allocated (hline : (s.entry n).bind Entry.line = none)
    (ha : s.allocate n false 1 0 = some (w, a)) :
    (s.setDispatch rest).recordLine n = some ((a.setDispatch rest).withLine n w) := by
  unfold State.recordLine
  rw [show ((s.setDispatch rest).entry n).bind Entry.line = none from hline]
  dsimp only
  rw [allocate_setDispatch, ha]
  rfl

theorem lineFound_of_allocated (hs : s.LinesCanonical) (he : s.entry n = some e) (hr : e.role = .consume c)
    (hcoh : c.Coherent e.line) (hline : e.line = none) (ha : s.allocate n false 1 0 = some (w, a)) :
    s.LineFound a ((a.setDispatch rest).withLine n w) n e w rest [] := by
  have hown := allocate_entry_own he hr hcoh hline ha
  obtain ⟨hentry, hothers, honly⟩ := updateEntry_exchanges (s := a.setDispatch rest)
    (g := fun e => { e with line := some w }) hown (fun _ => rfl)
  have hchange : a.ChangesOnly ((a.setDispatch rest).withLine n w) [.dispatch, .directory] :=
    ((setDispatch_changesOnly a rest).mono (by decide)).trans (honly.mono (by decide))
  obtain ⟨ns, hreports⟩ := allocate_reports ha
  exact {
    entry := hentry
    others := hothers
    store := rfl
    lines := (hs.allocate ha).congr rfl
    value := fun h => absurd hline h
    dispatch := rfl
    notice := rfl
    reports := ⟨_, hreports.trans (.of_changesOnly hchange (by decide))⟩
    frame := ((allocate_changesOnly s n false 1 0 w a ha).mono (by decide)).trans (hchange.mono (by decide)) }

/-- A record that is to be accepted finds its line, held or allocated, and is accepted there (R100, R105). -/
theorem judgeRecord_lined (hs : s.LinesCanonical) (he : s.entry n = some e) (hr : e.role = .consume c)
    (hcoh : c.Coherent e.line) (hnew : ∀ owner, c.binding = .bound owner →
      source < owner ∨ (source = owner ∧ (c.replica = .absent ∨ c.lastSeq ≠ some q)))
    (ha : e.line = some w ∧ a = s ∨ e.line = none ∧ s.allocate n false 1 0 = some (w, a)) :
    ∃ t, s.LineFound a t n e w rest (s.gapNotices n source q payload c)
      ∧ (s.setDispatch rest).judgeRecord n c source rep q payload = t.accept n c source rep q payload := by
  have hjudge := judgeRecord_of_accepted (s := s.setDispatch rest) (n := n) (rep := rep) (payload := payload) hnew
  rw [show (s.setDispatch rest).gapNotices n source q payload c = s.gapNotices n source q payload c from rfl] at hjudge
  rcases ha with ⟨hw, rfl⟩ | ⟨hline, ha⟩
  · exact ⟨_, lineFound_of_held hs he hw _, hjudge⟩
  · have hfound := lineFound_of_allocated (rest := rest) hs he hr hcoh hline ha
    have hnone : (s.entry n).bind Entry.line = none := by rw [he]; exact hline
    have hlined := recordLine_of_allocated (rest := rest) hnone ha
    rw [gapNotices_of_not (fun h => h.2 (hcoh.1.mpr hline))] at hjudge ⊢
    exact ⟨_, hfound, hjudge.trans (accept_of_recordLine (w := w) hlined (by rw [hfound.entry]; rfl))⟩

/-- The acceptance of a record that waits in the dispatch list, from the state in which it waits (R100 to R108). -/
theorem State.LineFound.accepted {t : State} (h : s.LineFound a t n e w rest (s.gapNotices n source q payload c))
    (hr : e.role = .consume c) (hcoh : c.Coherent e.line) (hp : payload.length ≤ 64) :
    let u := t.accept n c source rep q payload
    u.dispatch = rest
      ∧ u.entry n = some { e with
          line := some w
          role := .consume { c with
            binding := .bound source, replica := .fresh, lastSeq := some q, age := 0, ageRunning := true } }
      ∧ (∀ m, m ≠ n → u.entry m = a.entry m)
      ∧ u.lineAt (setIndex n) w = { a.lineAt (setIndex n) w with
          length := payload.length, payload := payload ++ List.replicate (64 - payload.length) 0 }
      ∧ (u.store.get (setIndex n)).older = w.other ∧ a.StoreSameBut u (setIndex n) w
      ∧ u.notice = a.notice.postedAll (s.gapNotices n source q payload c ++ s.bindingNotices n source q payload c
          ++ s.updatedNotices n source rep q payload c)
      ∧ s.AfterPosts u
      ∧ s.ChangesOnly u [.dispatch, .directory, .store, .notice, .contention] := by
  intro u
  obtain ⟨⟨hown, hothers, honly⟩, hline, holder, hsame, hreports⟩ :=
    accept_spec (source := source) (rep := rep) (q := q) h.lines h.entry hr rfl hp
  obtain ⟨ns, hbefore⟩ := h.reports
  have hlines : t.lineAt (setIndex n) w = a.lineAt (setIndex n) w := by rw [State.lineAt, h.store]; rfl
  have hvalue : c.replica ≠ .absent → t.value n = s.value n := fun hrep => h.value (fun hn => hrep (hcoh.1.mpr hn))
  rw [bindingNotices_congr hbefore.station, updatedNotices_congr hbefore.station hvalue] at hreports
  refine ⟨(honly .dispatch (by decide)).trans h.dispatch, hown, fun m hm => (hothers m hm).trans (h.others m hm),
    ?_, holder, hsame.of_eq h.store, ?_, (hbefore.trans hreports).afterPosts, h.frame.trans (honly.mono (by decide))⟩
  · rw [← hlines]
    exact hline
  · rw [hreports.notice, h.notice, ← postedAll_append, List.append_assoc]

end Line

/-- Settles O41: the line is found, held or allocated, and the acceptance goes on there. -/
theorem acceptedRecordsUpdateTheReplica : Obligations.AcceptedRecordsUpdateTheReplica := by
  intro s source n rep q payload rest e c a w hcoherent hs hnext he hr hnew ha gap bound updated
  have hcoh := ((replicasCoherent_iff s).mp hcoherent).2 n e c he (by simp [Entry.consume, hr])
  obtain ⟨-, hlines, hfit⟩ := (storageCanonical_iff s).mp hs
  have hp : payload.length ≤ 64 := hfit source n rep q payload (nextItems_subset hnext).1
  have hexec := exec_dataRecord_of_next (s.consume_of_entry n e c he hr) hnext
  obtain ⟨t, hfound, hjudge⟩ := judgeRecord_lined (rep := rep) (payload := payload) (rest := rest)
    hlines he hr hcoh hnew ha
  rw [hjudge] at hexec
  exact ⟨_, hexec, hfound.accepted hr hcoh hp⟩

/-! ## Records that are not accepted -/

/-- One post in the turn of an item. -/
theorem dispatched_post (s : State) (rest : List Item) (x : Notice) :
    let u := (s.setDispatch rest).post x
    u.dispatch = rest ∧ u.notice = s.notice.posted x ∧ s.AfterPosts u
      ∧ s.ChangesOnly u [.dispatch, .notice, .contention] :=
  ⟨post_dispatch _ x, post_notice _ x, (post_afterPosts (s.setDispatch rest) x).congr rfl rfl rfl rfl rfl,
    ((setDispatch_changesOnly s rest).mono (by decide)).trans ((post_changesOnly _ x).mono (by decide))⟩

/-- A change of a CONSUME part gives the Contention Unit no work and ends no LEAVING. -/
theorem updConsume_settled {s : State} {n : Nat} (h : s.Settled) (f : Consume → Consume) :
    (s.updConsume n f).Settled := by
  have hproduced : (s.updConsume n f).producedObjects = s.producedObjects := by
    unfold State.producedObjects State.updConsume updateEntry
    rw [setDirectory_directory, List.filter_map, List.map_map]
    have hproduce (e : Entry) : (if e.object = n then e.mapConsume f else e).produce = e.produce := by
      split <;> simp
    have hobject (e : Entry) : (if e.object = n then e.mapConsume f else e).object = e.object := by
      split <;> simp
    simp only [Function.comp_def, hproduce, hobject]
  obtain ⟨hidle, hleave⟩ := h
  refine ⟨hidle, ?_⟩
  unfold State.leaveDone at hleave ⊢
  rw [hproduced]
  exact hleave

section Rejected
variable {s : State} {n source : Nat} {rep : Bool} {q : Byte} {payload : List Byte} {c : Consume}

/-- An acceptance that gets no line posts NO_LINE alone (R28, Table 2.5). -/
theorem accept_of_noLine (hline : (s.entry n).bind Entry.line = none) (hchoose : (s.setOf n).choose = none) :
    s.accept n c source rep q payload = s.post (s.recordNotice .noLine n source q (s.setOf n).lockedWays payload) := by
  have hnone : s.recordLine n = none := by
    unfold State.recordLine
    rw [hline]
    dsimp only
    rw [allocate_none_iff.mpr hchoose]
    rfl
  unfold State.accept
  rw [hnone]

end Rejected

/-- Settles O39: a duplicate restarts the counter of its entry, and no work arises from that. -/
theorem duplicateRestartsTheAgeCounter : Obligations.DuplicateRestartsTheAgeCounter := by
  intro s source n rep q payload rest c hsettled hnext hc hb hrep hlast
  have hexec := exec_dataRecord_of_next hc hnext
  rw [judgeRecord_of_owner hb, checkSequence_of_present hrep hlast, if_pos rfl,
    settle_of_settled _ (updConsume_settled (s := s.setDispatch rest) hsettled _)] at hexec
  obtain ⟨e, he, hr⟩ := s.consume_entry n c hc
  obtain ⟨hown, hothers, honly⟩ := updConsume_exchanges (s := s.setDispatch rest) Consume.restartAge he hr
  refine ⟨_, hexec, rfl, State.consume_of_entry _ _ _ _ hown rfl, ?_, hothers,
    ((setDispatch_changesOnly s rest).mono (by decide)).trans (honly.mono (by decide))⟩
  rw [hown, he]
  rfl

/-- Settles O40: one notice is posted, and neither the directory nor the store is touched. -/
theorem rejectedRecordsChangeNoEntry : Obligations.RejectedRecordsChangeNoEntry := by
  intro s source n rep q payload rest c hcoherent hnext hc
  have hexec := exec_dataRecord_of_next hc hnext
  refine ⟨fun owner hb hhigher => ?_, fun howner hline hchoose => ?_⟩
  · rw [judgeRecord_of_higher hb hhigher] at hexec
    exact ⟨_, hexec, dispatched_post s rest _⟩
  · obtain ⟨e, he, hr⟩ := s.consume_entry n c hc
    have hcoh := ((replicasCoherent_iff s).mp hcoherent).2 n e c he (by simp [Entry.consume, hr])
    have hrep : c.replica = .absent := hcoh.1.mpr (by rw [he] at hline; exact hline)
    have hnew (owner : Nat) (hb : c.binding = .bound owner) :
        source < owner ∨ (source = owner ∧ (c.replica = .absent ∨ c.lastSeq ≠ some q)) :=
      (howner owner hb).lt_or_eq.imp_right fun heq => ⟨heq, .inl hrep⟩
    have hjudge := judgeRecord_of_accepted (s := s.setDispatch rest) (n := n) (rep := rep) (payload := payload) hnew
    rw [gapNotices_of_not (fun h => h.2 hrep)] at hjudge
    rw [hjudge.trans (accept_of_noLine (s := s.setDispatch rest) hline hchoose)] at hexec
    exact ⟨_, hexec, dispatched_post s rest _⟩

/-! ## RELINQUISH -/

theorem Replica.aged_eq (r : Replica) : r.aged = if r = .fresh then .stale else r := by cases r <;> rfl

/-- The entry is ORPHANED, and its replica no more FRESH (R109). -/
def State.orphanedBy (s : State) (n source : Nat) : State :=
  s.updConsume n (fun c => { c with binding := .orphaned source, replica := c.replica.aged })

section Relinquish
variable {s : State} {n source : Nat} {e : Entry} {c : Consume}

theorem orphanedBy_exchanges (he : s.entry n = some e) (hr : e.role = .consume c) :
    s.Exchanges (s.orphanedBy n source) n { e with role := .consume { c with
        binding := .orphaned source, replica := if c.replica = .fresh then .stale else c.replica } }
      [.directory] := by
  rw [← Replica.aged_eq]
  exact updConsume_exchanges (fun c => { c with binding := .orphaned source, replica := c.replica.aged }) he hr

/-- The notice shows the last sequence and the value, which stay. -/
theorem relinquishAtConsume_of_owner (hs : s.StorageCanonical) (he : s.entry n = some e) (hr : e.role = .consume c)
    (hb : c.binding = .bound source) : s.relinquishAtConsume n source c =
      (s.orphanedBy n source).post (s.valueNotice .orphaned n source (c.lastSeq.getD 0) 0 (s.value n) 0) := by
  have hnotice := (orphanedBy_exchanges (source := source) he hr).replicaNotice hs he rfl rfl .orphaned source 0
  unfold State.relinquishAtConsume
  rw [if_pos hb, ← hnotice]
  rfl

theorem relinquishAtConsume_of_other (hb : c.binding ≠ .bound source) : s.relinquishAtConsume n source c = s :=
  if_neg hb

end Relinquish

/-- The turn of a RELINQUISH at a CONSUME entry (R109). -/
theorem exec_relinquishAtConsume_of_next {s : State} {source n : Nat} {rest : List Item} {c : Consume}
    (hc : s.consume n = some c) (hnext : s.nextItems = .relinquish source n :: rest) :
    exec .relinquishHeardAtConsume s = .next ((s.setDispatch rest).relinquishAtConsume n source c).settle := by
  show execRelinquishHeardAtConsume s = _
  unfold execRelinquishHeardAtConsume
  rw [hnext]
  dsimp only
  rw [hc]

/-- Settles O42: the entry is exchanged for an ORPHANED one, and the notice shows the value that stays. -/
theorem relinquishHeardOrphansTheReplica : Obligations.RelinquishHeardOrphansTheReplica := by
  intro s source n rest e c hs hnext he hr
  have hexec := exec_relinquishAtConsume_of_next (s.consume_of_entry n e c he hr) hnext
  refine ⟨fun hb => ?_, fun hb => ?_⟩
  · have hs' := hs.withDispatch (nextItems_subset hnext).2
    rw [relinquishAtConsume_of_owner hs' he hr hb] at hexec
    obtain ⟨hown, hothers, honly⟩ := orphanedBy_exchanges (s := s.setDispatch rest) (source := source) he hr
    have hposted := post_changesOnly ((s.setDispatch rest).orphanedBy n source)
      (s.valueNotice .orphaned n source (c.lastSeq.getD 0) 0 (s.value n) 0)
    exact ⟨_, hexec, hposted .dispatch (by decide), (hposted.entry (by decide) n).trans hown,
      fun m hm => (hposted.entry (by decide) m).trans (hothers m hm), post_notice _ _,
      (post_afterPosts ((s.setDispatch rest).orphanedBy n source) _).congr rfl rfl rfl rfl rfl,
      (((setDispatch_changesOnly s rest).mono (by decide)).trans (honly.mono (by decide))).trans
        (hposted.mono (by decide))⟩
  · rw [relinquishAtConsume_of_other hb] at hexec
    exact ⟨_, hexec, rfl, setDispatch_changesOnly s rest⟩

end Sys2Proof.Machine
end


section
/-! PROOF. No step leaves an IDLE unit with work, or a LEAVING station with nothing left (R119, R146). A happening that
could ends with `State.settle`, which answers both; every other one adds no work and ends nothing. -/

namespace Sys2Proof.Machine

/-! ## The end of a happening -/

theorem leaveDone_leaveIdle (s : State) : s.leaveIdle.leaveDone = s.leaveDone := by
  rw [leaveIdle_eq]; rfl

/-- A unit that has had the chance to leave IDLE is not IDLE with work (R119). -/
theorem leaveIdle_settled {s : State} (h : s.leaveDone = false) : s.leaveIdle.Settled := by
  refine ⟨fun hidle => ?_, (leaveDone_leaveIdle s).trans h⟩
  by_cases hw : s.contention.state = .idle ∧ s.Works
  · rw [leaveIdle_of_works s hw.1 hw.2] at hidle
    simp only [setContention_contention, Contention.drawn] at hidle
    split at hidle <;> cases hidle
  · rw [leaveIdle_of_not s hw] at hidle ⊢
    exact Bool.eq_false_iff.mpr fun hwork => hw ⟨hidle, (hasWork_iff s).mp hwork⟩

/-- The end of a happening leaves neither an IDLE unit with work nor a LEAVING station with nothing left. -/
theorem settle_settled (s : State) : s.settle.Settled := by
  unfold State.settle
  split
  · next hdone =>
    simp only [State.leaveDone, Bool.and_eq_true, List.isEmpty_iff, Option.isNone_iff_eq_none] at hdone
    obtain ⟨⟨⟨-, -⟩, hq⟩, hi⟩ := hdone
    refine leaveIdle_settled (leaveDone_of_life _ ?_)
    rw [(enterDetached_spec s hq hi).1]
    decide
  · next hdone => exact leaveIdle_settled (Bool.eq_false_iff.mpr hdone)

/-! ## Happenings that add no work -/

/-- No work has come to an IDLE unit, and the last of what a LEAVING station had left has not ended. -/
structure State.AddsNoWork (s t : State) : Prop where
  idle : t.contention.state = .idle → s.contention.state = .idle
  work : t.hasWork = true → s.hasWork = true
  done : t.leaveDone = true → s.leaveDone = true

/-- Work and the end of LEAVING are a matter of life-cycle state, PRODUCE entries, frames, queues and holds alone. -/
theorem State.AddsNoWork.of_eq {s t : State} (hl : t.station.life = s.station.life)
    (hp : t.producedObjects = [] → s.producedObjects = []) (hpub : t.pubQueue = s.pubQueue)
    (hs : t.contention.state = .idle → s.contention.state = .idle) (hi : t.contention.inHand = s.contention.inHand)
    (hq : t.contention.queue = s.contention.queue)
    (hc : t.contention.holdsClear = true → s.contention.holdsClear = true) : s.AddsNoWork t := by
  refine ⟨hs, fun hw => ?_, fun hd => ?_⟩
  · simp only [State.hasWork, hl, hq, hpub, Bool.or_eq_true, Bool.and_eq_true] at hw ⊢
    exact hw.imp_right fun ⟨hwork, hclear⟩ => ⟨hwork, hc hclear⟩
  · simp only [State.leaveDone, hl, hq, hi, Bool.and_eq_true, List.isEmpty_iff] at hd ⊢
    exact ⟨⟨⟨hd.1.1.1, hp hd.1.1.2⟩, hd.1.2⟩, hd.2⟩

section Keeps
variable {s t : State}

theorem State.Settled.of_addsNoWork (hs : s.Settled) (h : s.AddsNoWork t) : t.Settled :=
  ⟨fun hidle => Bool.eq_false_iff.mpr fun hw => by simpa [hs.1 (h.idle hidle)] using h.work hw,
    Bool.eq_false_iff.mpr fun hd => by simpa [hs.2] using h.done hd⟩

/-- Blocks that have no part in work and in the end of LEAVING. -/
theorem State.Settled.elsewhere {l : List Block} (hs : s.Settled) (h : s.ChangesOnly t l)
    (hl : .station ∉ l ∧ .directory ∉ l ∧ .pubQueue ∉ l ∧ .contention ∉ l) : t.Settled := by
  have hc : t.contention = s.contention := h .contention hl.2.2.2
  have hd : t.directory = s.directory := h .directory hl.2.1
  have hst : t.station = s.station := h .station hl.1
  refine hs.of_addsNoWork (.of_eq (by rw [hst]) (fun hp => ?_) (h .pubQueue hl.2.2.1) ?_ ?_ ?_ ?_)
  · rwa [State.producedObjects, hd] at hp
  all_goals rw [hc]
  all_goals exact id

/-- Changes of the entries within their roles. -/
theorem State.Settled.mapEntries {g : Entry → Entry} (hs : s.Settled)
    (hg : ∀ e, (g e).produce.isSome = e.produce.isSome) : (s.setDirectory (s.directory.map g)).Settled := by
  refine hs.of_addsNoWork (.of_eq rfl (fun hp => ?_) rfl id rfl rfl id)
  rw [producedObjects_eq_nil_iff] at hp ⊢
  intro e he
  have := hg e
  rw [hp (g e) (List.mem_map_of_mem he)] at this
  simpa using this.symm

/-- The unit's timing: whether it is IDLE and what the hold table holds stay. -/
theorem State.Settled.timing {x : Contention} (hs : s.Settled) (h : s.contention.SameButTiming x)
    (hc : x.holdsClear = true → s.contention.holdsClear = true) : (s.setContention x).Settled :=
  hs.of_addsNoWork (.of_eq rfl id rfl h.idle.mp h.inHand h.queue hc)

/-- Outside ACTIVE and LEAVING there is neither work nor an end of LEAVING (R119). -/
theorem settled_of_silent (h : s.station.life.transmits = false) : s.Settled := by
  refine ⟨fun _ => ?_, ?_⟩ <;> cases hl : s.station.life <;> simp_all [State.hasWork, State.leaveDone, Life.transmits]

theorem State.Settled.port (hs : s.Settled) (x : HostPort) : (s.setPort x).Settled := hs

theorem State.Settled.command (hs : s.Settled) (x : CommandUnit) : (s.setCommand x).Settled := hs

theorem State.Settled.notice (hs : s.Settled) (x : NoticeUnit) : (s.setNotice x).Settled := hs

theorem State.Settled.station (hs : s.Settled) {x : Station} (hx : x.life = s.station.life) :
    (s.setStation x).Settled := hs.of_addsNoWork (.of_eq hx id rfl id rfl rfl id)

theorem ends_settle (u : State) : Ends State.Settled (.next u.settle) := (ends_next _ _).mpr (settle_settled u)

theorem State.Settled.ends (hs : s.Settled) : Ends State.Settled (.next s) := (ends_next _ _).mpr hs

/-- A CONSUME entry comes (R98). -/
theorem State.Settled.subscribe (hs : s.Settled) (d : Descriptor) :
    (s.setDirectory (insertEntry s.directory d.newConsume)).Settled := by
  refine hs.of_addsNoWork (.of_eq rfl (fun hp => ?_) rfl id rfl rfl id)
  rw [producedObjects_eq_nil_iff] at hp ⊢
  exact fun e he => hp e ((insertEntry_mem _ _ _).mpr (.inr he))

/-- A CONSUME entry goes; in an ordered directory no PRODUCE entry has its number (R13). -/
theorem State.Settled.unsubscribe {n : Nat} (hs : s.Settled) (ho : s.DirectoryOrdered) (hn : s.produce n = none) :
    (s.removeEntry n).Settled := by
  have hrem := removeEntry_changesOnly s n
  have hc : (s.removeEntry n).contention = s.contention := hrem .contention (by decide)
  have hst : (s.removeEntry n).station = s.station := hrem .station (by decide)
  refine hs.of_addsNoWork (.of_eq (by rw [hst]) (fun hp => ?_) (hrem .pubQueue (by decide)) ?_ ?_ ?_ ?_)
  · rw [producedObjects_eq_nil_iff, removeEntry_directory] at hp
    rw [producedObjects_eq_nil_iff]
    intro e he
    by_cases hen : e.object = n
    · have hentry := (mem_directory_iff s ho e).mp he
      subst hen
      simpa [State.produce, hentry] using hn
    · exact hp e ((eraseEntry_mem _ _ _).mpr ⟨he, hen⟩)
  all_goals rw [hc]
  all_goals exact id

/-- A slot boundary leaves the last entry of the hold table to a happening of its own, so that it never clears the table
(R132, log 5). -/
theorem slotTable_clear (c : Contention) (h : c.slotTable.holdsClear = true) : c.holdsClear = true := by
  obtain ⟨htable, hfall, -⟩ := slotTable_spec c
  rw [holdsClear_iff] at h ⊢
  cases hlast : lastNonZero c.holdTable with
  | none => exact lastNonZero_none _ hlast
  | some k =>
    obtain ⟨hk, habove⟩ := lastNonZero_some _ k hlast
    have hle : ∀ j, c.holdTable.get j ≤ 1 := fun j => by
      have hj := htable j
      rw [h j] at hj
      split at hj <;> omega
    have hmarked := (hfall k).mpr ⟨hle, by have := hle k; omega, habove⟩
    have hkeeps := htable k
    rw [h k, if_pos hmarked] at hkeeps
    cases hkeeps

end Keeps

section Commands
variable {s : State} (hs : s.Settled)
include hs

/-! ## The timers -/

theorem State.Settled.windowEnds (k : Fin 4) : (s.windowEnds k).Settled := by
  unfold State.windowEnds
  split
  · exact hs
  · split
    · exact hs
    · split
      · exact settle_settled _
      · exact hs

theorem State.Settled.lastFall : s.lastFall.Settled := by
  unfold State.lastFall
  split
  · exact hs
  · exact settle_settled _

theorem State.Settled.ownHoldEnds : s.ownHoldEnds.Settled := by
  unfold State.ownHoldEnds
  split
  · exact settle_settled _
  · exact hs

theorem State.Settled.joinEnds : s.joinEnds.Settled := by
  unfold State.joinEnds
  split
  · exact settle_settled _
  · exact hs

theorem State.Settled.carryOutSlots : s.carryOutSlots.Settled :=
  (fold_keeps (fun _ k ht => ht.windowEnds k) [0, 1, 2, 3] hs).lastFall.ownHoldEnds.joinEnds

theorem State.Settled.slotBoundary : s.slotBoundary.Settled := by
  have hslot : (s.setStation (s.station.slot s.cfg.joinPeriod)).Settled :=
    hs.station (by rw [Station.slot_eq])
  have hphases (x : OwnershipUnit) : ((s.setStation (s.station.slot s.cfg.joinPeriod)).setOwnership x).Settled :=
    hslot.elsewhere (setOwnership_changesOnly _ x) (by decide)
  refine (hphases _).timing (slotTable_timing _) (fun hc => slotTable_clear s.contention ?_)
  rwa [slotExpiry_eq] at hc

theorem State.Settled.execSlotBoundary : Ends State.Settled (execSlotBoundary s) := by
  unfold Sys2Proof.Machine.execSlotBoundary
  split
  · exact hs.ends
  · exact hs.carryOutSlots.slotBoundary.ends

theorem State.Settled.execGrant (slot : Nat) : Ends State.Settled (execGrant slot s) := by
  unfold Sys2Proof.Machine.execGrant
  split
  · exact (hs.windowEnds _).ends
  · exact hs.ends

/-- A tick at the entries of one object, each within its role. -/
theorem State.Settled.updateEntry (n : Nat) {g : Entry → Entry} (hg : ∀ e, (g e).produce.isSome = e.produce.isSome) :
    (s.setDirectory (updateEntry s.directory n g)).Settled :=
  hs.mapEntries fun e => by
    split
    · exact hg e
    · rfl

theorem State.Settled.tickEntry (n : Nat) : (s.tickEntry n).Settled := by
  unfold State.tickEntry
  split
  · exact hs
  · split
    · dsimp only
      split
      · split
        · exact settle_settled _
        · exact settle_settled _
      · refine State.Settled.updateEntry (hs.updateEntry n (g := fun e => { e with tickOwed := false }) ?_) n ?_
        · exact fun _ => rfl
        · exact fun e => (entry_count_same e).reworked.produce
    · exact hs

theorem State.Settled.execRefreshExpiry (n : Nat) : Ends State.Settled (execRefreshExpiry n s) := by
  unfold Sys2Proof.Machine.execRefreshExpiry
  split
  · exact hs.ends
  · exact (hs.tickEntry n).ends

theorem State.Settled.execAgeExpiry (n : Nat) : Ends State.Settled (execAgeExpiry n s) := by
  unfold Sys2Proof.Machine.execAgeExpiry
  split
  · exact hs.ends
  · exact (hs.tickEntry n).ends

theorem State.Settled.tickTimer : s.tickTimer.Settled := hs.elsewhere (tickTimer_changesOnly s) (by decide)

theorem State.Settled.execTick (late : List Nat) (timerLate : Bool) :
    Ends State.Settled (execTick s late timerLate) := by
  unfold Sys2Proof.Machine.execTick
  split
  · exact hs.ends
  · have hmet : s.carryOutTicks.Settled := (fold_keeps (fun _ n ht => ht.tickEntry n) _ hs).tickTimer
    have hticked := hmet.mapEntries fun e => (entry_tick_same late e).reworked.produce
    exact State.Settled.ends hticked

/-! ## The host port -/

theorem State.Settled.register {t : State} {via : SpiVia} {w : Bool} {a : Nat}
    (h : s.registerByte via w a = some t) : t.Settled :=
  hs.elsewhere (registerByte_changesOnly _ _ _ _ _ h) (by decide)

theorem State.Settled.execSoftReset (via : SpiVia) : Ends State.Settled (execSoftReset via s) := by
  unfold Sys2Proof.Machine.execSoftReset
  split
  · exact hs.ends
  · exact (resets_settled (softReset_resets _)).ends

theorem State.Settled.startRequest : s.startRequest.Settled := by
  unfold State.startRequest
  dsimp only
  split
  · exact (hs.port _).station rfl
  · exact settled_of_silent rfl

theorem State.Settled.execStart (via : SpiVia) (during : List RamByte) :
    Ends State.Settled (execStart via s during) := by
  unfold Sys2Proof.Machine.execStart
  split
  · exact hs.ends
  · next t ht =>
    have hmet := (hs.register ht).port (t.port.acceptBytes during)
    dsimp only
    split
    · exact hmet.startRequest.ends
    · exact hmet.ends

theorem State.Settled.execCmdAdvance (via : SpiVia) (value : Byte) :
    Ends State.Settled (execCmdAdvance via value s) := by
  unfold Sys2Proof.Machine.execCmdAdvance State.scanRequest
  split
  · exact hs.ends
  · next t ht =>
    have ht := hs.register ht
    split_ifs
    · exact ht.ends
    · exact (ht.command _).ends
    · exact (ht.command _).ends

theorem State.Settled.execNoticeTaken (via : SpiVia) (k : Byte) : Ends State.Settled (execNoticeTaken via k s) := by
  unfold Sys2Proof.Machine.execNoticeTaken State.releaseNotices
  split
  · exact hs.ends
  · next t ht =>
    have ht := hs.register ht
    split
    · exact ht.ends
    · exact ((ht.notice _).notice _).ends

theorem State.Settled.execTickHighByteRead (via : SpiVia) : Ends State.Settled (execTickHighByteRead via s) := by
  unfold Sys2Proof.Machine.execTickHighByteRead
  split
  · exact hs.ends
  · next t ht => exact ((hs.register ht).port _).ends

theorem State.Settled.execRegisterWriteIgnored (via : SpiVia) (addr : Nat) (value : Byte) :
    Ends State.Settled (execRegisterWriteIgnored via addr value s) := by
  unfold Sys2Proof.Machine.execRegisterWriteIgnored
  split
  · split
    · exact hs.ends
    · next t ht => exact (hs.register ht).ends
  · exact hs.ends

/-- Whatever a placement does at the Contention Unit, its happening ends with the end of a happening (R170). -/
theorem State.Settled.execPlacement : Ends State.Settled (execPlacement s) := by
  unfold Sys2Proof.Machine.execPlacement
  split
  · exact hs.ends
  · split
    · exact ends_settle _
    · exact hs.ends

/-! ## The command ring -/

theorem State.Settled.complete (status : Status) (flags : Byte) (length detail : Nat) :
    (s.complete status flags length detail).Settled := hs.elsewhere (complete_changesOnly s _ _ _ _) (by decide)

theorem State.Settled.finish (d : Descriptor) (status : Status) : (s.finish d status).Settled := hs.complete _ _ _ _

theorem State.Settled.execExamination : Ends State.Settled (execExamination s) := by
  unfold Sys2Proof.Machine.execExamination
  dsimp only
  split_ifs
  · exact hs.ends
  · exact (ends_next _ _).mpr hs
  · exact (ends_next _ _).mpr hs
  · exact hs.ends

theorem State.Settled.execBadCommand : Ends State.Settled (execBadCommand s) := by
  unfold Sys2Proof.Machine.execBadCommand
  split
  · exact hs.ends
  · next d t ht =>
    split
    · exact hs.ends
    · exact ((hs.elsewhere (taking_changesOnly _ _ _ ht) (by decide)).finish d _).ends

/-- A ring command that is taken: refused, or carried out once it has passed its checks (R157). -/
theorem State.Settled.ring {code : Byte} {d : Descriptor} {t : State} {checks : List (Bool × Status)}
    {carryOut : State → State} (h : s.takingCode code = some (d, t))
    (hk : t.Settled → (∀ c ∈ checks, c.1 = false) → (carryOut t).Settled) :
    Ends State.Settled (.next (t.perform d checks carryOut)) := by
  have ht := hs.elsewhere (takingCode_changesOnly _ _ _ _ h) (by decide)
  unfold State.perform
  split
  · exact (ht.finish d _).ends
  · next hc => exact (hk ht (firstFailure_none hc)).ends

theorem State.Settled.execSubscribe : Ends State.Settled (execSubscribe s) := by
  unfold Sys2Proof.Machine.execSubscribe
  split
  · exact hs.ends
  · next d t h => exact hs.ring h fun ht _ => (ht.subscribe d).finish d .ok

theorem State.Settled.execUnsubscribe (ho : s.DirectoryOrdered) : Ends State.Settled (execUnsubscribe s) := by
  unfold Sys2Proof.Machine.execUnsubscribe
  split
  · exact hs.ends
  · next d t h =>
    have hd : t.directory = s.directory := takingCode_changesOnly _ _ _ _ h .directory (by decide)
    have hto : t.DirectoryOrdered := ho.of_eq (by rw [hd])
    exact hs.ring h fun ht hc => (ht.unsubscribe hto (consumeChecked t d hc)).finish d .ok

theorem State.Settled.execUnbind : Ends State.Settled (execUnbind s) := by
  unfold Sys2Proof.Machine.execUnbind
  split
  · exact hs.ends
  · next d t h => exact hs.ring h fun ht _ => (ht.updateEntry d.object fun e => by simp).finish d .ok

theorem State.Settled.execLock : Ends State.Settled (execLock s) := by
  unfold Sys2Proof.Machine.execLock
  split
  · exact hs.ends
  · next d t h => exact hs.ring h fun ht _ =>
      (ht.elsewhere (markLocked_changesOnly _ _ _) (by decide)).finish d .ok

theorem State.Settled.execUnlock : Ends State.Settled (execUnlock s) := by
  unfold Sys2Proof.Machine.execUnlock
  split
  · exact hs.ends
  · next d t h => exact hs.ring h fun ht _ =>
      (ht.elsewhere (markLocked_changesOnly _ _ _) (by decide)).finish d .ok

theorem State.Settled.execPull : Ends State.Settled (execPull s) := by
  unfold Sys2Proof.Machine.execPull
  split
  · exact hs.ends
  · next d t h => exact hs.ring h fun _ _ => settle_settled _

theorem State.Settled.execClaim : Ends State.Settled (execClaim s) := by
  unfold Sys2Proof.Machine.execClaim
  split
  · exact hs.ends
  · next d t h => exact hs.ring h fun _ _ => settle_settled _

theorem State.Settled.execRelinquish : Ends State.Settled (execRelinquish s) := by
  unfold Sys2Proof.Machine.execRelinquish
  split
  · exact hs.ends
  · next d t h => exact hs.ring h fun _ _ => settle_settled _

theorem State.Settled.execWrite : Ends State.Settled (execWrite s) := by
  unfold Sys2Proof.Machine.execWrite
  split
  · exact hs.ends
  · next d t h => exact hs.ring h fun _ _ => settle_settled _

theorem State.Settled.execRead : Ends State.Settled (execRead s) := by
  unfold Sys2Proof.Machine.execRead
  split
  · exact hs.ends
  · next d t h => exact hs.ring h fun ht _ => ht.elsewhere (readLine_changesOnly _ _) (by decide)

theorem State.Settled.execSnapshot : Ends State.Settled (execSnapshot s) := by
  unfold Sys2Proof.Machine.execSnapshot
  split
  · exact hs.ends
  · next d t h => exact hs.ring h fun ht _ => (ht.port _).complete _ _ _ _

theorem State.Settled.execLeave : Ends State.Settled (execLeave s) := by
  unfold Sys2Proof.Machine.execLeave
  split
  · exact hs.ends
  · next d t h => exact hs.ring h fun _ _ => settle_settled _

/-- JOINING has no work (R119, R147). -/
theorem State.Settled.execRejoin : Ends State.Settled (execRejoin s) := by
  unfold Sys2Proof.Machine.execRejoin
  split
  · exact hs.ends
  · next d t h => exact hs.ring h fun _ _ => State.Settled.finish (settled_of_silent rfl) d .ok

/-! ## The line and the dispatched items -/

theorem State.Settled.execCarrierBegins : Ends State.Settled (execCarrierBegins s) := by
  unfold Sys2Proof.Machine.execCarrierBegins
  split
  · exact hs.ends
  · refine State.Settled.ends (State.Settled.of_addsNoWork hs (.of_eq rfl id rfl (fun hidle => ?_) rfl rfl id))
    change s.contention.state.carrierBegins = .idle at hidle
    cases hst : s.contention.state <;> simp_all [CState.carrierBegins]

theorem State.Settled.execCarrierAbsent : Ends State.Settled (execCarrierAbsent s) :=
  State.Settled.ends (hs.of_addsNoWork (.of_eq rfl id rfl id rfl rfl id))

/-- A number clash leaves the station MUTED (R148), or finds it where no frame reaches it. -/
theorem State.Settled.clash : s.clash.Settled := by
  have hmuted : s.enterMuted.Settled := settled_of_silent (by rw [(enterMuted_spec s).1]; rfl)
  unfold State.clash
  split
  case h_5 | h_6 => exact hs
  all_goals exact hmuted

theorem State.Settled.execFrameEnd (bytes : List Byte) : Ends State.Settled (execFrameEnd bytes s) := by
  unfold Sys2Proof.Machine.execFrameEnd State.frameEnd
  have hskip : (s.setRx .skip).Settled := hs
  split
  · split
    · split
      · exact hskip.ends
      · split_ifs
        · exact hskip.ends
        · exact hskip.clash.ends
        · exact (hskip.elsewhere (arrive_changesOnly _ _) (by decide)).ends
    · exact hs.ends
  · exact hs.ends

theorem State.Settled.execFirstByteCollected (byte : Byte) : Ends State.Settled (execFirstByteCollected byte s) := by
  unfold Sys2Proof.Machine.execFirstByteCollected
  split
  · exact (ends_next _ _).mpr hs
  · exact hs.ends

theorem State.Settled.execHeaderFieldsComplete (byte1 byte2 : Byte) :
    Ends State.Settled (execHeaderFieldsComplete byte1 byte2 s) := by
  unfold Sys2Proof.Machine.execHeaderFieldsComplete
  split
  · split
    · exact hs.ends
    · exact (ends_next _ _).mpr hs
  · exact hs.ends

theorem State.Settled.dropIgnored : Ends State.Settled (.next s.dropIgnored) := (ends_next _ _).mpr hs

theorem State.Settled.execDataRecordAtConsume : Ends State.Settled (execDataRecordAtConsume s) := by
  unfold Sys2Proof.Machine.execDataRecordAtConsume
  split
  · split
    · exact ends_settle _
    · exact hs.dropIgnored
  · exact hs.dropIgnored

theorem State.Settled.execDataRecordAtProduce : Ends State.Settled (execDataRecordAtProduce s) := by
  unfold Sys2Proof.Machine.execDataRecordAtProduce
  split
  · split
    · exact ends_settle _
    · exact hs.dropIgnored
  · exact hs.dropIgnored

theorem State.Settled.execClaimHeard : Ends State.Settled (execClaimHeard s) := by
  unfold Sys2Proof.Machine.execClaimHeard
  split
  · split
    · exact ends_settle _
    · exact hs.dropIgnored
  · exact hs.dropIgnored

theorem State.Settled.execDisputeHeard : Ends State.Settled (execDisputeHeard s) := by
  unfold Sys2Proof.Machine.execDisputeHeard
  split
  · split
    · exact ends_settle _
    · exact hs.dropIgnored
  · exact hs.dropIgnored

/-- A RELINQUISH at a PRODUCE entry has no effect (R63). -/
theorem State.Settled.execRelinquishHeardAtProduce : Ends State.Settled (execRelinquishHeardAtProduce s) := by
  unfold Sys2Proof.Machine.execRelinquishHeardAtProduce
  split
  · split
    · exact (ends_next _ _).mpr hs
    · exact hs.dropIgnored
  · exact hs.dropIgnored

theorem State.Settled.execRelinquishHeardAtConsume : Ends State.Settled (execRelinquishHeardAtConsume s) := by
  unfold Sys2Proof.Machine.execRelinquishHeardAtConsume
  split
  · split
    · exact ends_settle _
    · exact hs.dropIgnored
  · exact hs.dropIgnored

theorem State.Settled.execPullHeard : Ends State.Settled (execPullHeard s) := by
  unfold Sys2Proof.Machine.execPullHeard
  split
  · split
    · exact ends_settle _
    · exact hs.dropIgnored
  · exact hs.dropIgnored

theorem State.Settled.execHoldHeard : Ends State.Settled (execHoldHeard s) := by
  unfold Sys2Proof.Machine.execHoldHeard
  split
  · split
    · exact ends_settle _
    · exact (ends_next _ _).mpr hs
  · exact hs.dropIgnored

/-! ## The Contention Unit -/

theorem State.Settled.execQuietReached : Ends State.Settled (execQuietReached s) := by
  unfold Sys2Proof.Machine.execQuietReached
  split
  · refine State.Settled.ends (hs.of_addsNoWork (.of_eq rfl id rfl (fun hidle => ?_) rfl rfl id))
    rw [setContention_contention] at hidle
    dsimp only at hidle
    split at hidle
    · cases hidle
    · exact hidle
  · exact hs.ends

theorem State.Settled.execDeferralSlot : Ends State.Settled (execDeferralSlot s) := by
  unfold Sys2Proof.Machine.execDeferralSlot
  split
  · split
    · exact State.Settled.ends (hs.of_addsNoWork (.of_eq rfl id rfl (fun hidle => by cases hidle) rfl rfl id))
    · exact hs.ends
  · exact hs.ends

theorem State.Settled.execDeferralEnd : Ends State.Settled (execDeferralEnd s) := by
  unfold Sys2Proof.Machine.execDeferralEnd
  split
  · exact ends_settle _
  · exact hs.ends

theorem State.Settled.execCollision : Ends State.Settled (execCollision s) := by
  unfold Sys2Proof.Machine.execCollision
  split
  · exact ends_settle _
  · exact hs.ends

theorem State.Settled.execLateCollision : Ends State.Settled (execLateCollision s) := by
  unfold Sys2Proof.Machine.execLateCollision
  split
  · exact ends_settle _
  · exact hs.ends

theorem State.Settled.execSuccessfulEnd : Ends State.Settled (execSuccessfulEnd s) := by
  unfold Sys2Proof.Machine.execSuccessfulEnd
  split
  · exact ends_settle _
  · exact hs.ends

/-! ## Every command, and the step -/

theorem State.Settled.exec (ho : s.DirectoryOrdered) (c : Instr) : Ends State.Settled (exec c s) := by
  cases c with
  | hardReset => exact (resets_settled (hardReset_resets s)).ends
  | softReset via => exact hs.execSoftReset via
  | start via during => exact hs.execStart via during
  | cmdAdvance via value => exact hs.execCmdAdvance via value
  | noticeTaken via k => exact hs.execNoticeTaken via k
  | tickHighByteRead via => exact hs.execTickHighByteRead via
  | registerWriteIgnored via addr value => exact hs.execRegisterWriteIgnored via addr value
  | sharedRamWrite via addr value turn => exact (ends_next _ _).mpr hs
  | examination => exact hs.execExamination
  | badCommand => exact hs.execBadCommand
  | subscribe => exact hs.execSubscribe
  | unsubscribe => exact hs.execUnsubscribe ho
  | claim => exact hs.execClaim
  | relinquish => exact hs.execRelinquish
  | write => exact hs.execWrite
  | read => exact hs.execRead
  | pull => exact hs.execPull
  | lock => exact hs.execLock
  | unlock => exact hs.execUnlock
  | unbind => exact hs.execUnbind
  | snapshot => exact hs.execSnapshot
  | leave => exact hs.execLeave
  | rejoin => exact hs.execRejoin
  | carrierBegins => exact hs.execCarrierBegins
  | carrierAbsent => exact hs.execCarrierAbsent
  | frameEnd bytes => exact hs.execFrameEnd bytes
  | dataRecordAtConsume => exact hs.execDataRecordAtConsume
  | dataRecordAtProduce => exact hs.execDataRecordAtProduce
  | claimHeard => exact hs.execClaimHeard
  | disputeHeard => exact hs.execDisputeHeard
  | relinquishHeardAtProduce => exact hs.execRelinquishHeardAtProduce
  | relinquishHeardAtConsume => exact hs.execRelinquishHeardAtConsume
  | pullHeard => exact hs.execPullHeard
  | holdHeard => exact hs.execHoldHeard
  | slotBoundary => exact hs.execSlotBoundary
  | grant slot => exact hs.execGrant slot
  | holdEntryRunsOut => exact hs.lastFall.ends
  | ownHoldExpires => exact hs.ownHoldEnds.ends
  | joinPeriodEnd => exact hs.joinEnds.ends
  | tick late timerLate => exact hs.execTick late timerLate
  | refreshExpiry object => exact hs.execRefreshExpiry object
  | ageExpiry object => exact hs.execAgeExpiry object
  | coalescingExpiry => exact hs.tickTimer.ends
  | quietReached => exact hs.execQuietReached
  | deferralSlot => exact hs.execDeferralSlot
  | deferralEnd => exact hs.execDeferralEnd
  | collision => exact hs.execCollision
  | lateCollision => exact hs.execLateCollision
  | successfulEnd => exact hs.execSuccessfulEnd
  | placement => exact hs.execPlacement
  | firstByteCollected byte => exact hs.execFirstByteCollected byte
  | headerFieldsComplete byte1 byte2 => exact hs.execHeaderFieldsComplete byte1 byte2
  | resetNReleased => exact (ends_next _ _).mpr hs

end Commands

/-- Settles O7: a happening that could give the unit work, or take the last of what a LEAVING station has left, ends
with `settle`; the order of the directory shows that a removed CONSUME entry takes no PRODUCE entry with it. -/
theorem stepLeavesAStateSettled : Obligations.StepLeavesAStateSettled := by
  rintro s t ⟨ho, hs⟩ ht
  refine ⟨directoryStaysOrdered s t ho ht, ?_⟩
  unfold step at ht
  split at ht
  · cases ht
    exact hs
  · next c rest _ =>
    have hrest : State.Settled { s with pending := rest } := hs
    exact hrest.exec ho c t ht

end Sys2Proof.Machine
end


section
/-! PROOF. The end of a happening: a new draw for an IDLE unit with work, the entry to DETACHED, or nothing (R119, R121,
R122, R137, R146). -/

namespace Sys2Proof.Machine

/-! ## The generator (R122) -/

theorem topBit_getLsbD_below : ∀ i, i < 15 → (0x8000 : Word16).getLsbD i = false := by decide

theorem rngAdvance_getLsbD (r : Word16) {i : Nat} (hi : i < 15) : (rngAdvance r).getLsbD i = r.getLsbD (i + 1) := by
  simp only [rngAdvance, BitVec.getLsbD_or, BitVec.getLsbD_ushiftRight]
  split
  · rw [topBit_getLsbD_below i hi, Bool.or_false, Nat.add_comm]
  · rw [show (0 : Word16).getLsbD i = false from BitVec.getLsbD_zero, Bool.or_false, Nat.add_comm]

theorem rngAdvance_topBit (r : Word16) :
    (rngAdvance r).getLsbD 15 = (r.getLsbD 0 ^^ r.getLsbD 2 ^^ r.getLsbD 3 ^^ r.getLsbD 5) := by
  have hout : r.getLsbD (1 + 15) = false := BitVec.getLsbD_of_ge r 16 le_rfl
  simp only [rngAdvance, BitVec.getLsbD_or, BitVec.getLsbD_ushiftRight, hout, Bool.false_or]
  split
  · next h => rw [h]; decide
  · next h => rw [Bool.eq_false_iff.mpr h]; decide

/-! ## The draw (R121) -/

theorem newDeferral_of_control {c : Contention} (h : c.queue ≠ [] ∨ ∃ f w, c.inHand = some (.control f w)) :
    c.newDeferral = (rngAdvance c.rng).toNat % 4 := by
  unfold Contention.newDeferral
  dsimp only
  split
  · rfl
  · next hi =>
    refine if_pos (h.resolve_right ?_)
    rintro ⟨f, w, hc⟩
    simp [hc] at hi
  · next hi =>
    refine if_pos (h.resolve_right ?_)
    rintro ⟨f, w, hc⟩
    simp [hc] at hi

theorem newDeferral_of_data {c : Contention} (hq : c.queue = []) (hi : ∀ f w, c.inHand ≠ some (.control f w)) :
    c.newDeferral = 4 + (rngAdvance c.rng).toNat % 2 ^ min 7 (2 + c.attempts) := by
  unfold Contention.newDeferral
  dsimp only
  split
  · next f w hc => exact absurd hc (hi f w)
  · exact if_neg (not_not_intro hq)
  · exact if_neg (not_not_intro hq)

/-! ## The entry to DETACHED (R137, R146) -/

theorem leaveDone_iff (s : State) : s.leaveDone = true ↔
    s.station.life = .leaving ∧ s.producedObjects = [] ∧ s.contention.queue = [] ∧ s.contention.inHand = none := by
  simp [State.leaveDone, and_assoc]

/-- The Contention Unit as the entry to DETACHED leaves it (R137). -/
def Contention.detached (c : Contention) : Contention :=
  { c with state := .idle, attempts := 0, ownHold := .off, ownExpiry := 0, expiryOwed := false }

/-- The notices of the entry to DETACHED: LEFT, then HOLD_ENDED if a hold was ON (R137, R146). -/
def State.detachNotices (s : State) : List Notice :=
  s.valueNotice .left 0 s.own 0 0 [] s.station.keptTag ::
    if s.contention.ownHold = .on then [s.valueNotice .holdEnded 0 s.own 0 3 [] 0] else []

/-- HOLD_ENDED by a station that does not transmit asks for no HOLD (R134). -/
theorem postHoldEnded_silent {s : State} (h : s.station.life.transmits = false) (detail : Nat) :
    (s.postHoldEnded detail).station = s.station ∧ (s.postHoldEnded detail).contention = s.contention
      ∧ (s.postHoldEnded detail).notice = s.notice.posted (s.valueNotice .holdEnded 0 s.own 0 detail [] 0) :=
  ⟨post_station _ _, post_contention_quiet _ _ (.inr h), post_notice _ _⟩

/-- A station that is DETACHED asks for no HOLD as it posts LEFT and HOLD_ENDED (R134, R137, R146). -/
theorem enterDetached_leaves (s : State) :
    s.enterDetached.station = { s.station with life := .detached }
      ∧ s.enterDetached.contention = s.contention.detached
      ∧ s.enterDetached.notice = s.notice.postedAll s.detachNotices := by
  set left := (s.setStation { s.station with life := .detached }).post
    (s.stationNotice .left s.own 0 s.station.keptTag) with hleft
  have hstation : left.station = { s.station with life := .detached } := post_station _ _
  have hunit : left.contention = s.contention := (post_consumerSide _ _).quiet rfl
  have hnotice : left.notice = s.notice.posted (s.valueNotice .left 0 s.own 0 0 [] s.station.keptTag) :=
    post_notice _ _
  have heq : s.enterDetached =
      if left.contention.ownHold = .on then (left.setContention left.contention.detached).postHoldEnded 3
      else left.setContention left.contention.detached := rfl
  clear_value left
  rw [heq, hunit]
  unfold State.detachNotices
  split
  · have hsilent : (left.setContention s.contention.detached).station.life.transmits = false := by
      rw [setContention_station, hstation]
      rfl
    obtain ⟨hst, hct, hn⟩ := postHoldEnded_silent hsilent 3
    refine ⟨hst.trans hstation, hct, hn.trans ?_⟩
    unfold State.valueNotice State.own State.cfg
    rw [setContention_notice, setContention_station, hstation, hnotice]
    rfl
  · exact ⟨hstation, rfl, hnotice⟩

theorem settle_of_done {s : State} (h : s.leaveDone = true) : s.settle = s.enterDetached := by
  rw [State.settle, if_pos h]
  exact leaveIdle_rest _ (by rw [(enterDetached_leaves s).1]; rfl)

/-- Settles O59, by what stands at the end of the happening. -/
theorem endOfHappeningDrawsOrDetaches : Obligations.EndOfHappeningDrawsOrDetaches := by
  intro s r work done
  have hnot : ¬ done → s.settle = s.leaveIdle := fun hn =>
    settle_of_notDone s (Bool.eq_false_iff.mpr fun hd => hn ((leaveDone_iff s).mp hd))
  refine ⟨fun i hi => rngAdvance_getLsbD _ hi, rngAdvance_topBit _, fun hn hidle hwork => ?_, fun hn hstay => ?_,
    fun hdone => ?_⟩
  · rw [hnot hn, leaveIdle_of_works s hidle hwork]
    exact ⟨s.contention.newDeferral, rfl, newDeferral_of_control, newDeferral_of_data, setContention_changesOnly s _⟩
  · rw [hnot hn, leaveIdle_of_not s hstay]
  · rw [settle_of_done ((leaveDone_iff s).mpr hdone)]
    obtain ⟨hstation, hunit, hnotice⟩ := enterDetached_leaves s
    exact ⟨hstation, hunit, hnotice, enterDetached_changesOnly s⟩

end Sys2Proof.Machine
end


section
/-! PROOF. Quiet and deferral, the hold table, HOLD requests and the expiry of the own hold, and the join period (R120, R129
to R135, R144, R147, R150). -/

namespace Sys2Proof.Machine

/-! ## Quiet and deferral (R120) -/

/-- Settles O53. -/
theorem deferralCountsQuietSlots : Obligations.DeferralCountsQuietSlots := by
  intro s hcarrier
  refine ⟨fun hquiet hsend hlife => ?_, fun r hquiet hstate => ?_⟩
  · refine ⟨_, if_pos ⟨hcarrier, hquiet, hsend, hlife⟩, ?_, setContention_changesOnly _ _⟩
    exact (setContention_contention _ _).trans (by cases s.contention.state <;> rfl)
  · have hexec : exec .deferralSlot s =
        .next (s.setContention { s.contention with state := .deferring (r - 1) (r ≤ 1) }) := by
      show execDeferralSlot s = _
      unfold execDeferralSlot
      rw [hstate]
      exact if_pos ⟨hcarrier, hquiet⟩
    exact ⟨_, hexec, rfl, setContention_changesOnly _ _⟩

/-! ## The hold table (R132) -/

/-- Settles O49. -/
theorem holdTableFollowsThePeers : Obligations.HoldTableFollowsThePeers := by
  refine fun s => ⟨fun source length rest hnext => ?_, fun k hfall => ?_⟩
  · have hexec : exec .holdHeard s =
        .next ((s.setDispatch rest).setContention (s.contention.hear source length)).settle := by
      show execHoldHeard s = _
      unfold execHoldHeard
      rw [hnext]
      exact dif_pos source.isLt
    refine ⟨_, hexec, rfl, ?_, fun j hj => ?_, rfl, ?_⟩
    · exact (set_get _ _ _ _).trans (if_pos rfl)
    · exact (set_get _ _ _ _).trans (if_neg hj)
    · exact ((setDispatch_changesOnly _ _).mono (by decide)).trans ((setContention_changesOnly _ _).mono (by decide))
  · have hexec : exec .holdEntryRunsOut s = .next (s.setContention { s.contention with
        holdTable := s.contention.holdTable.set k (s.contention.holdTable.get k - 1), holdFall := none }).settle := by
      show Host.Outcome.next s.lastFall = _
      unfold State.lastFall
      rw [hfall]
    refine ⟨_, hexec, ?_, fun j hj => ?_, rfl, setContention_changesOnly _ _⟩
    · exact (set_get _ _ _ _).trans (if_pos rfl)
    · exact (set_get _ _ _ _).trans (if_neg hj)

/-! ## HOLD requests (R130) -/

theorem any_isHold_iff (q : List CtlFrame) : q.any CtlFrame.isHold = true ↔ ∃ m, CtlFrame.hold m ∈ q := by
  rw [List.any_eq_true]
  refine ⟨?_, fun ⟨m, hm⟩ => ⟨_, hm, rfl⟩⟩
  rintro ⟨f, hf, hhold⟩
  cases f with
  | hold m => exact ⟨m, hf⟩
  | _ => cases hhold

theorem holdInHand_iff (c : Contention) :
    c.holdInHand = true ↔ c.state ≠ .sending ∧ ∃ m w, c.inHand = some (.control (.hold m) w) := by
  unfold Contention.holdInHand
  rw [Bool.and_eq_true, bne_iff_ne]
  refine and_congr_right fun _ => ?_
  split
  · next f w hi => cases f <;> simp [hi, CtlFrame.isHold]
  · next hi =>
    refine iff_of_false Bool.false_ne_true ?_
    rintro ⟨m, w, h⟩
    exact hi _ _ h

/-- Two automatic places: a DISPUTE or a HOLD is placed while fewer than two of its kind are queued (R129). -/
theorem automaticPlaceFree_iff_kinds (q : List CtlFrame) : automaticPlaceFree q = true ↔
    (q.filter (fun f => match f with | .dispute _ | .hold _ => true | _ => false)).length < 2 := by
  have hkind : (fun f : CtlFrame => match f with | .dispute _ | .hold _ => true | _ => false) = fun f => !f.fromCommand := by
    funext f
    cases f <;> rfl
  rw [hkind, automaticPlaceFree_iff, automatics, List.countP_eq_length_filter]

/-- A HOLD request, by the five cases of R130. -/
theorem requestHold_requested (c : Contention) (n : Nat) : c.HoldRequested (c.requestHold n) n := by
  have hqueued := any_isHold_iff c.queue
  have hunsent := holdInHand_iff c
  have hfree := automaticPlaceFree_iff_kinds c.queue
  have hmap : (fun f : CtlFrame => if f.isHold then CtlFrame.hold n else f) =
      fun f => match f with | .hold _ => .hold n | other => other := by
    funext f
    cases f <;> rfl
  unfold Contention.HoldRequested Contention.requestHold
  rw [hmap]
  refine ⟨fun hq => if_pos (hqueued.mpr hq), fun hq hu => ?_, fun hq hu hp => ?_, fun hq hu hp ha => ?_, fun hq hu hp ha => ?_⟩
  · rw [if_neg (mt hqueued.mp hq), if_pos (hunsent.mpr hu)]
  · rw [if_neg (mt hqueued.mp hq), if_neg (mt hunsent.mp hu), if_pos (Option.isSome_iff_ne_none.mpr hp)]
  · rw [if_neg (mt hqueued.mp hq), if_neg (mt hunsent.mp hu), if_neg (fun h => Option.isSome_iff_ne_none.mp h hp),
      if_pos (hfree.mpr ha)]
  · rw [if_neg (mt hqueued.mp hq), if_neg (mt hunsent.mp hu), if_neg (fun h => Option.isSome_iff_ne_none.mp h hp),
      if_neg (fun h => absurd (hfree.mp h) (Nat.not_lt.mpr ha))]

/-! ## The expiry of the own hold (R134, R135) -/

/-- Settles O50. -/
theorem ownHoldIsRenewedOrEnds : Obligations.OwnHoldIsRenewedOrEnds := by
  refine ⟨requestHold_requested, fun s hon howed => ?_⟩
  have hexec : exec .ownHoldExpires s = .next s.expireOwnHold.settle := by
    show Host.Outcome.next s.ownHoldEnds = _
    rw [State.ownHoldEnds, if_pos ⟨hon, howed⟩]
  refine ⟨_, hexec, ?_⟩
  unfold State.expireOwnHold
  split
  · exact ⟨rfl, setContention_changesOnly _ _⟩
  · exact ⟨post_notice _ _, post_afterPosts (s.setOwnHold .off 0) _,
      ((setOwnHold_changesOnly s _ _).mono (by decide)).trans ((postHoldEnded_changesOnly _ _).mono (by decide))⟩

/-! ## The join period (R144, R147, R150) -/

/-- The test at a post and a test right after it make one test (R134). -/
theorem post_highMarkTest_contention (s : State) (n : Notice) : (s.post n).highMarkTest.contention =
    s.contention.tested s.station.life s.cfg (s.post n).notice.backlog.length := by
  rw [highMarkTest_contention, post_station, post_cfg, post_afterPosts, State.testedAfter]
  split
  · exact tested_tested _ _ _ _ _ le_rfl
  · rfl

/-- Settles O34. -/
theorem joiningBeginsAndEnds : Obligations.JoiningBeginsAndEnds := by
  refine fun s hr => ⟨fun d hd => ?_, fun hlife howed => ?_⟩
  · refine ⟨_, exec_rejoin_of_takes s d hd, ?_, rfl, ?_⟩
    · exact State.completed_of s _ .ok (descriptorFlags false) d.length 0 0 0 rfl rfl hd.1.2.1 rfl
        (s.slot_in_ram hr hd.1.1).2.1 fun _ _ => rfl
    · exact ((setStation_changesOnly s _).mono (by decide)).trans ((finish_changesOnly _ _ _).mono (by decide))
  · have hexec : exec .joinPeriodEnd s = .next s.enterActive.settle := by
      show Host.Outcome.next s.joinEnds = _
      rw [State.joinEnds, if_pos ⟨hlife, howed⟩]
    refine ⟨_, hexec, ?_, ?_, ?_, ?_⟩
    · exact (highMarkTest_station _).trans (post_station _ _)
    · exact (highMarkTest_notice _).trans (post_notice _ _)
    · rw [State.enterActive]
      exact (post_highMarkTest_contention _ _).trans (by rw [highMarkTest_notice]; rfl)
    · exact ((setStation_changesOnly s _).mono (by decide)).trans (((post_changesOnly _ _).mono (by decide)).trans
        ((highMarkTest_changesOnly _).mono (by decide)))

end Sys2Proof.Machine
end


section
/-! PROOF. A collision within the retry limit: the further attempt, and the records that leave the frame (R94, R121,
R122, R125, R128). -/

namespace Sys2Proof.Machine

/-- The Contention Unit with its frame in hand kept for a further attempt (R125). -/
def Contention.retried (c : Contention) : Contention :=
  { c with rng := rngAdvance c.rng, state := .waitQuiet c.newDeferral }

theorem retry_eq (s : State) : s.retry = s.setContention s.contention.retried := by
  rw [State.retry, draw_eq]
  rfl

theorem exec_collision_of_retry {s : State} (h : s.contention.state = .sending)
    (hl : s.contention.attempts + 1 ≤ s.cfg.retryLimit) : exec .collision s = .next s.counted.collideAgain.settle := by
  show execCollision s = _
  rw [execCollision, if_pos h, State.collide]
  dsimp only
  rw [if_neg (Nat.not_lt.mpr hl)]
  rfl

/-! ## Stripping (R94) -/

theorem keeps_of_reached_none {s : State} {x : TxRecord} (h : s.reached x = none) : s.keeps x = false := by
  rw [State.keeps, h]

/-- The entries after stripping: a record that stays leaves its entry as it is, a removed one drops its mark. -/
theorem stripAll_spec (s : State) (records : List TxRecord) :
    s.ChangesOnly (s.stripAll records).2 [.directory]
      ∧ (∀ m, m ∉ records.map TxRecord.object → (s.stripAll records).2.entry m = s.entry m)
      ∧ ((records.map TxRecord.object).Nodup → ∀ x ∈ records,
        (s.keeps x = true ∨ s.reached x = none → (s.stripAll records).2.entry x.object = s.entry x.object)
        ∧ (s.keeps x = false → ∀ p, s.reached x = some p →
          (s.stripAll records).2.produce x.object = some (p.unsent x))) := by
  set removed := records.filter (fun r => !s.keeps r)
  have hsub : removed.Sublist records := List.filter_sublist
  have hremoved (x : TxRecord) (hx : x ∈ records) (hk : s.keeps x = false) : x ∈ removed :=
    List.mem_filter.mpr ⟨hx, by rw [hk]; rfl⟩
  obtain ⟨hothers, -, honly⟩ := unsend_perRec.fold removed s
  refine ⟨honly, fun m hm => hothers m fun hr => hm ((hsub.map _).subset hr), fun hn x hx => ?_⟩
  obtain ⟨hreached, hunreached⟩ := unsend_perRec.fold_reached (hn.sublist (hsub.map _)) s
  refine ⟨?_, fun hk p hp => hreached x (hremoved x hx hk) p hp⟩
  rintro (hk | hnone)
  · refine hothers _ fun hr => ?_
    obtain ⟨y, hy, hyx⟩ := List.mem_map.mp hr
    have hsame : y = x := List.inj_on_of_nodup_map hn (hsub.subset hy) hx hyx
    have hkept := (List.mem_filter.mp hy).2
    rw [hsame, hk] at hkept
    cases hkept
  · exact hunreached x (hremoved x hx (keeps_of_reached_none hnone)) hnone

/-! ## The further attempt (R125) -/

section
variable {s : State}

theorem collideAgain_of_control {f : CtlFrame} (h : s.contention.inHand = some (.control f false)) :
    s.collideAgain = s.setContention s.contention.retried := by
  rw [State.collideAgain, h, retry_eq]

theorem collideAgain_of_withdrawn {f : CtlFrame} (h : s.contention.inHand = some (.control f true)) :
    s.collideAgain = s.setContention s.contention.ended := by
  rw [State.collideAgain, h]
  rfl

/-- Whether a DATA frame is discarded or sent again turns on the records that stay. -/
theorem collideAgain_of_data {records : List TxRecord} (h : s.contention.inHand = some (.data records)) :
    s.collideAgain = (s.stripAll records).2.setContention (if records.filter s.keeps = [] then s.contention.ended
      else { s.contention with inHand := some (.data (records.filter s.keeps)) }.retried) := by
  have hunit : (s.stripAll records).2.contention = s.contention := (stripAll_spec s records).1 .contention (by decide)
  have hleft : (s.stripAll records).1 = records.filter s.keeps := rfl
  rw [State.collideAgain, h]
  dsimp only
  rw [retry_eq, State.dropFrame, setContention_contention, hunit, hleft]
  by_cases hkept : records.filter s.keeps = []
  · rw [if_pos hkept, if_pos (List.isEmpty_iff.mpr hkept)]
    rfl
  · rw [if_neg hkept, if_neg (mt List.isEmpty_iff.mp hkept)]
    rfl

end

/-- The draw of a DATA frame in hand at its further attempt (R121, R122). -/
theorem newDeferral_counted (s : State) (kept : List TxRecord) :
    ({ s.counted.contention with inHand := some (.data kept) } : Contention).newDeferral =
      if s.contention.queue ≠ [] then (rngAdvance s.contention.rng).toNat % 4
      else 4 + (rngAdvance s.contention.rng).toNat % 2 ^ min 7 (3 + s.contention.attempts) := by
  rw [show 3 + s.contention.attempts = 2 + (s.contention.attempts + 1) by omega]
  rfl

/-- Settles O55, by the frame in hand. -/
theorem collisionDrawsAgain : Obligations.CollisionDrawsAgain := by
  intro s hsend hlimit
  refine ⟨_, exec_collision_of_retry hsend hlimit, ?_⟩
  have honly : s.ChangesOnly s.counted [.contention] := counted_changesOnly s
  have hdata {records : List TxRecord} (h : s.contention.inHand = some (.data records)) :=
    collideAgain_of_data (s := s.counted) h
  intro r
  refine ⟨fun f h => ?_, fun f h => ?_, fun records h hkept => ?_, fun records h hkept => ?_, fun records h => ?_⟩
  · rw [collideAgain_of_control (s := s.counted) h]
    refine ⟨?_, honly.trans (setContention_changesOnly _ _)⟩
    have hdraw : s.counted.contention.newDeferral = r.toNat % 4 := newDeferral_of_control (.inr ⟨f, false, h⟩)
    rw [setContention_contention, Contention.retried, hdraw]
    rfl
  · rw [collideAgain_of_withdrawn (s := s.counted) h]
    exact ⟨rfl, honly.trans (setContention_changesOnly _ _)⟩
  · refine ⟨?_, (honly.mono (by decide)).trans (collideAgain_changesOnly _)⟩
    rw [hdata h, setContention_contention]
    exact (if_pos hkept).trans rfl
  · refine ⟨?_, (honly.mono (by decide)).trans (collideAgain_changesOnly _)⟩
    rw [hdata h, setContention_contention]
    refine (if_neg hkept).trans ?_
    rw [Contention.retried, newDeferral_counted]
    rfl
  · rw [hdata h]
    exact (stripAll_spec s.counted records).2

end Sys2Proof.Machine
end


section
/-! PROOF. What the unit sends when its deferral ends: its frame in hand, the head of the control queue, a bundle, or
nothing (R55, R72, R86 to R88, R92, R123, R131). -/

namespace Sys2Proof.Machine

section Choice
variable {s : State}

theorem exec_deferralEnd_of_end {r : Nat} (h : s.contention.state = .deferring r true) :
    exec .deferralEnd s = .next s.chooseFrame.settle := by
  show execDeferralEnd s = _
  rw [execDeferralEnd, h]

/-! ## A frame in hand -/

theorem chooseFrame_of_control {f : CtlFrame} {w : Bool} (h : s.contention.inHand = some (.control f w)) :
    s.chooseFrame = s.setContention s.contention.send := by
  rw [State.chooseFrame, h]

theorem chooseFrame_of_data {records : List TxRecord} (h : s.contention.inHand = some (.data records)) :
    s.chooseFrame = if s.contention.holdsClear then s.setContention s.contention.send
      else (s.returnRecords records).dropFrame := by
  rw [State.chooseFrame, h]

/-- A DATA frame that is set aside: its records are back in the queue and in their entries (R92). -/
theorem setAside_spec (s : State) {records : List TxRecord} (hn : (records.map TxRecord.object).Nodup) :
    let u := (s.returnRecords records).dropFrame
    u.contention = s.contention.ended ∧ u.notice = s.notice
      ∧ (∀ x ∈ records, ∀ p, s.reached x = some p → u.produce x.object = some { p with
          inFlight := .no, pending := p.pending || !x.rep
          queued := if p.ownership = .owned ∧ p.queued = .no then .yes x.rep else p.queued })
      ∧ (∀ x ∈ records, s.reached x = none → u.entry x.object = s.entry x.object)
      ∧ (∀ m, m ∉ records.map TxRecord.object → u.entry m = s.entry m)
      ∧ u.pubQueue = (records.filter s.returns).map
          (fun r => { object := r.object, rep := r.rep : PubItem }) ++ s.pubQueue
      ∧ s.ChangesOnly u [.directory, .pubQueue, .contention] := by
  obtain ⟨hqueue, honly, hothers, -⟩ := returnRecords_spec s records
  obtain ⟨hreached, hunreached⟩ := return_perRec.fold_reached hn (s.setPubQueue
    ((records.filter s.returns).map (fun x => { object := x.object, rep := x.rep : PubItem }) ++ s.pubQueue))
  have hunit : (s.returnRecords records).contention = s.contention := honly .contention (by decide)
  exact ⟨congrArg Contention.ended hunit, honly .notice (by decide), hreached, hunreached, hothers, hqueue,
    (honly.mono (by decide)).trans ((dropFrame_changesOnly _).mono (by decide))⟩

/-! ## The head of the control queue -/

theorem chooseFrame_of_head {f : CtlFrame} {rest : List CtlFrame} (hi : s.contention.inHand = none)
    (hq : s.contention.queue = f :: rest) : s.chooseFrame = s.sendHead f rest := by
  rw [State.chooseFrame, hi]
  dsimp only
  rw [hq]

theorem State.PlaceFreed.of_command {t : State} {f : CtlFrame} (h : s.PlaceFreed t f) (hf : f.fromCommand = true) :
    t.contention = { s.contention with queue := s.contention.queue ++ s.ownership.waitList.take 1 }
      ∧ t.ownership = { s.ownership with waitList := s.ownership.waitList.drop 1 } := by
  rw [State.PlaceFreed, if_pos hf] at h
  obtain ⟨hunit, hownership, -, -⟩ := h
  exact ⟨hunit, hownership⟩

theorem State.PlaceFreed.of_automatic {t : State} {f : CtlFrame} (h : s.PlaceFreed t f) (hf : f.fromCommand = false) :
    t.contention = { s.contention with
        queue := s.contention.queue ++ (s.contention.pendingHold.map CtlFrame.hold).toList, pendingHold := none }
      ∧ t.ownership = s.ownership := by
  rw [State.PlaceFreed, if_neg (by rw [hf]; exact Bool.false_ne_true)] at h
  obtain ⟨hunit, honly⟩ := h
  exact ⟨hunit, honly .ownership (by decide)⟩

/-! ## A bundle (R86 to R88) -/

theorem chooseFrame_of_empty (hi : s.contention.inHand = none) (hq : s.contention.queue = []) :
    s.chooseFrame =
      if s.station.life = .active ∧ s.contention.holdsClear = true ∧ s.pubQueue ≠ [] then s.buildBundle
      else s.setContention { s.contention with state := .idle, attempts := 0 } := by
  rw [State.chooseFrame, hi]
  dsimp only
  rw [hq]

theorem stagedPayload_eq_value (s : State) (n : Nat) : s.stagedPayload n = s.value n := by
  unfold State.stagedPayload State.value
  cases s.objectLine n <;> rfl

/-- A record takes the value in the line and, with REPEAT clear, the sequence after the committed one (R87). -/
theorem bundleRecord_eq (s : State) (it : PubItem) : s.bundleRecord it =
    { object := it.object, rep := it.rep, payload := s.value it.object
      seq := match (s.produce it.object).bind Produce.committed with
        | some last => if it.rep then last else last + 1
        | none => 0 } := by
  rw [State.bundleRecord, stagedPayload_eq_value]
  cases (s.produce it.object).bind Produce.committed <;> cases it.rep <;> rfl

/-- The mark of a bundled record at its entry (R87). -/
theorem bundled_bundleRecord {it : PubItem} {p : Produce} (hp : s.produce it.object = some p) :
    p.bundled (s.bundleRecord it) = { p with
      queued := .no, pending := false
      inFlight := if it.rep then .repeating else .tentative
        (match p.committed with | some last => last + 1 | none => 0) } := by
  rw [bundleRecord_eq, hp, Option.bind_some]
  unfold Produce.bundled
  cases p.committed <;> cases it.rep <;> rfl

theorem bundleRecord_length (s : State) (q : List PubItem) :
    q.map (fun it => 4 + (s.bundleRecord it).payload.length) = q.map (fun it => 4 + (s.value it.object).length) :=
  List.map_congr_left fun it _ => by rw [← stagedPayload_eq_value]; rfl

theorem bundleRecord_objects (s : State) (q : List PubItem) :
    (q.map s.bundleRecord).map TxRecord.object = q.map PubItem.object := List.map_map

/-- The bundle that is built from a queue of different objects. -/
theorem buildBundle_spec (hn : (s.pubQueue.map PubItem.object).Nodup) :
    ∃ taken left, s.pubQueue = taken ++ left
      ∧ taken.length ≤ 8 ∧ (taken.map (fun it => 4 + (s.value it.object).length)).sum ≤ 128
      ∧ (∀ it more, left = it :: more → taken.length = 8 ∨
          128 < ((taken ++ [it]).map (fun it => 4 + (s.value it.object).length)).sum)
      ∧ s.buildBundle.pubQueue = left
      ∧ s.buildBundle.contention =
          { s.contention.send with attempts := 0, inHand := some (.data (taken.map s.bundleRecord)) }
      ∧ (∀ it p, it ∈ taken → s.produce it.object = some p →
          s.buildBundle.produce it.object = some (p.bundled (s.bundleRecord it)))
      ∧ (∀ m, m ∉ taken.map PubItem.object → s.buildBundle.entry m = s.entry m) := by
  obtain ⟨taken, left, hqueue, htake, hcount, hbody, hlongest⟩ := takeBundle_spec s s.pubQueue 0 0
  simp only [bundleRecord_length, Nat.zero_add] at hcount hbody hlongest
  set marked := (taken.map s.bundleRecord).foldl (fun t r => t.updProduce r.object (Produce.bundled r)) (s.setPubQueue left)
  have hbuild : s.buildBundle = marked.setContention { marked.contention with
      inHand := some (.data (taken.map s.bundleRecord)), attempts := 0, state := .sending, quiet := false } := by
    rw [State.buildBundle, htake]
  obtain ⟨hothers, hmarked, honly⟩ := bundle_perRec.fold (taken.map s.bundleRecord) (s.setPubQueue left)
  have hunit : marked.contention = s.contention := honly .contention (by decide)
  rw [bundleRecord_objects] at hothers hmarked
  have hntaken : (taken.map PubItem.object).Nodup := by
    rw [hqueue, List.map_append] at hn
    exact hn.of_append_left
  refine ⟨taken, left, hqueue, hcount (by omega), hbody (by omega), fun it more hl => ?_, ?_, ?_, fun it p hit hp => ?_, ?_⟩
  · exact (hlongest it more hl).imp_left fun h => Nat.le_antisymm (hcount (by omega)) h
  · rw [hbuild]
    exact honly .pubQueue (by decide)
  · rw [hbuild, setContention_contention, hunit]
    rfl
  · rw [hbuild]
    exact produce_of_map hp (hmarked hntaken _ (List.mem_map_of_mem hit))
  · rw [hbuild]
    exact hothers

end Choice

/-- Settles O54, by the steps of R123. -/
theorem deferralEndChoosesAFrame : Obligations.DeferralEndChoosesAFrame := by
  intro s r howned hstate
  obtain ⟨hnodup, hnodupInHand, -⟩ := howned
  refine ⟨_, exec_deferralEnd_of_end hstate, ?_⟩
  intro clear sends
  have hclear : s.contention.holdsClear = true ↔ clear := holdsClear_iff _
  refine ⟨fun f w hi => ?_, fun records hi => ⟨fun hc => ?_, fun hc => ?_⟩, fun f rest hi hq => ?_,
    fun hi hq => ⟨fun hlife hc hwork => ?_, fun hnone => ?_⟩⟩
  · rw [chooseFrame_of_control hi]
    exact ⟨rfl, setContention_changesOnly _ _⟩
  · rw [chooseFrame_of_data hi, if_pos (hclear.mpr hc)]
    exact ⟨rfl, setContention_changesOnly _ _⟩
  · rw [chooseFrame_of_data hi, if_neg (mt hclear.mp hc)]
    exact setAside_spec s (hnodupInHand records hi)
  · rw [chooseFrame_of_head hi hq]
    have hfreed := placeFreed_placeFreed (s.setContention { sends with
      inHand := some (.control f false), attempts := 0, queue := rest }) f
    obtain ⟨-, -, -, hunit, -⟩ := hfreed.leaves
    refine ⟨hfreed, hunit, fun hf => ?_, fun hf => ?_, sendHead_changesOnly s f rest⟩
    · obtain ⟨hcommand, hownership⟩ := hfreed.of_command hf
      exact ⟨congrArg Contention.queue hcommand, hownership, (congrArg Contention.pendingHold hcommand).trans rfl⟩
    · obtain ⟨hautomatic, hownership⟩ := hfreed.of_automatic hf
      exact ⟨congrArg Contention.queue hautomatic, congrArg Contention.pendingHold hautomatic, hownership⟩
  · rw [chooseFrame_of_empty hi hq, if_pos ⟨hlife, hclear.mpr hc, hwork⟩]
    obtain ⟨taken, left, hqueue, hcount, hbody, hlongest, hleft, hunit, hmarked, hothers⟩ := buildBundle_spec hnodup
    refine ⟨taken, left, hqueue, hcount, hbody, hlongest, hleft, ?_, fun it p hit hp => ?_, hothers,
      (buildBundle_changesOnly s).mono (by decide)⟩
    · rw [hunit, List.map_congr_left fun it _ => bundleRecord_eq s it]
      rfl
    · exact (hmarked it p hit hp).trans (congrArg some (bundled_bundleRecord hp))
  · rw [chooseFrame_of_empty hi hq, if_neg (by rwa [hclear])]
    exact ⟨rfl, setContention_changesOnly _ _⟩

end Sys2Proof.Machine
end


section
/-! PROOF. Engine writes of a happening while one SPI access waits at the arbiter (R178). -/

namespace Sys2Proof.Machine

/-- Engine writes in their order, each given as its place, its address and its byte. -/
def HostPort.writeEach (p : HostPort) (writes : List (Nat × Nat × Byte)) : HostPort :=
  writes.foldl (fun q k => q.engineWrite k.2.1 k.2.2) p

theorem HostPort.engineWrites_eq_writeEach (p : HostPort) (a : Nat) (bs : List Byte) :
    p.engineWrites a bs = p.writeEach ((List.range bs.length).map (fun i => (i, a + i, bs.getD i 0))) := by
  unfold HostPort.writeEach
  rw [List.foldl_map]
  induction bs generalizing p a with
  | nil => rfl
  | cons b rest ih =>
    rw [HostPort.engineWrites, ih, List.length_cons, List.range_succ_eq_map, List.foldl_cons, List.foldl_map]
    refine congrArg (fun f => List.foldl f (p.engineWrite a b) (List.range rest.length)) ?_
    funext q i
    rw [Nat.add_right_comm]
    rfl

/-- The byte that the writes put at an address, if one comes there. -/
def byteWritten (writes : List (Nat × Nat × Byte)) (x : Nat) : Option Byte :=
  (writes.find? (fun k => k.2.1 == x)).map (fun k => k.2.2)

theorem find?_write_self (i a : Nat) (b : Byte) (rest : List (Nat × Nat × Byte)) :
    ((i, a, b) :: rest).find? (fun k => k.2.1 == a) = some (i, a, b) := List.find?_cons_of_pos (beq_self_eq_true a)

theorem find?_write_ne {a x : Nat} (h : a ≠ x) (i : Nat) (b : Byte) (rest : List (Nat × Nat × Byte)) :
    ((i, a, b) :: rest).find? (fun k => k.2.1 == x) = rest.find? (fun k => k.2.1 == x) :=
  List.find?_cons_of_neg (by simpa using h)

theorem byteWritten_cons (i a : Nat) (b : Byte) (rest : List (Nat × Nat × Byte)) (x : Nat) :
    byteWritten ((i, a, b) :: rest) x = if a = x then some b else byteWritten rest x := by
  unfold byteWritten
  split
  · next h => rw [← h, find?_write_self, Option.map_some]
  · next h => rw [find?_write_ne h]

theorem find?_of_unwritten {rest : List (Nat × Nat × Byte)} {a : Nat} (h : a ∉ rest.map (fun k => k.2.1)) :
    rest.find? (fun k => k.2.1 == a) = none :=
  List.find?_eq_none.mpr fun _ hk he => h (List.mem_map.mpr ⟨_, hk, beq_iff_eq.mp he⟩)

section Waiting
variable {writes rest : List (Nat × Nat × Byte)} {w : WaitingAccess} {p : HostPort}

/-- With nothing waiting, writes at different addresses of shared RAM change only the memory, at those addresses. -/
theorem HostPort.writeEach_of_none (hp : p.waiting = []) (hn : (writes.map (fun k => k.2.1)).Nodup)
    (hfit : ∀ k ∈ writes, k.2.1 < Config.ramEnd) :
    (∀ x, Memory.read (p.writeEach writes).ram x = (byteWritten writes x).getD (Memory.read p.ram x))
      ∧ p.writeEach writes = { p with ram := (p.writeEach writes).ram } := by
  induction writes generalizing p with
  | nil => exact ⟨fun _ => rfl, rfl⟩
  | cons k rest ih =>
    obtain ⟨i, a, b⟩ := k
    obtain ⟨hfirst, hrest⟩ := List.nodup_cons.mp hn
    obtain ⟨ha, hfit⟩ := List.forall_mem_cons.mp hfit
    have hwrite := p.engineWrite_of_none hp a b
    have hstep : p.writeEach ((i, a, b) :: rest) = (p.engineWrite a b).writeEach rest := rfl
    rw [hstep]
    obtain ⟨hread, hport⟩ := ih (p := p.engineWrite a b) (by rw [hwrite]; exact hp) hrest hfit
    refine ⟨fun x => ?_, by rw [hport, hwrite]⟩
    rw [hread, byteWritten_cons, hwrite, Memory.read_write]
    by_cases hx : a = x
    · subst hx
      have hnone : byteWritten rest a = none := by rw [byteWritten, find?_of_unwritten hfirst]; rfl
      have ha : a < Config.ramEnd := ha
      simp [hnone, ha]
    · simp [hx, Ne.symm hx]

/-! ## An access that has been taken -/

/-- Writes that come after the turn of an SPI access stand over its byte. -/
theorem HostPort.byteAfter_of_landed (hw : w.addr < Config.ramEnd) (hturn : ∀ k ∈ writes, w.turn ≤ k.1) (x : Nat) :
    p.byteAfter w writes x = (byteWritten writes x).getD (Memory.read (p.take w).ram x) := by
  unfold HostPort.byteAfter byteWritten HostPort.take
  cases hf : writes.find? (fun k => k.2.1 == x) with
  | none =>
    cases w.value with
    | none => rfl
    | some v => simp [Memory.read_write, hw]
  | some k =>
    have hlate := hturn k (List.mem_of_find?_eq_some hf)
    cases w.value with
    | none => rfl
    | some v => exact if_neg (fun h => absurd h.2 (Nat.not_lt.mpr hlate))

theorem HostPort.byteFound_of_landed (hturn : ∀ k ∈ writes, w.turn ≤ k.1) :
    p.byteFound w writes = Memory.read p.ram w.addr := by
  unfold HostPort.byteFound
  cases hf : writes.find? (fun k => k.2.1 == w.addr) with
  | none => rfl
  | some k => exact if_neg (Nat.not_lt.mpr (hturn k (List.mem_of_find?_eq_some hf)))

theorem HostPort.met_of_landed (hw : w.addr < Config.ramEnd) (hn : (writes.map (fun k => k.2.1)).Nodup)
    (hfit : ∀ k ∈ writes, k.2.1 < Config.ramEnd) (hturn : ∀ k ∈ writes, w.turn ≤ k.1) :
    p.Met (({ p.take w with waiting := [] } : HostPort).writeEach writes) w writes := by
  obtain ⟨hread, hport⟩ := HostPort.writeEach_of_none (p := { p.take w with waiting := [] }) rfl hn hfit
  refine ⟨fun x => ?_, ?_⟩
  · rw [hread, HostPort.byteAfter_of_landed hw hturn]
  · rw [HostPort.byteFound_of_landed hturn]
    refine hport.trans ?_
    unfold HostPort.take
    cases w.value <;> rfl

/-! ## An access that still waits -/

/-- An engine write before the turn of an SPI access counts as a first write at its address. -/
theorem HostPort.byteAfter_cons {i a : Nat} {b : Byte} (hi : i < w.turn) (ha : a < Config.ramEnd)
    (hfirst : a ∉ rest.map (fun k => k.2.1)) (ws : List WaitingAccess) (x : Nat) :
    ({ p with ram := Memory.write p.ram a b, waiting := ws } : HostPort).byteAfter w rest x =
      p.byteAfter w ((i, a, b) :: rest) x := by
  unfold HostPort.byteAfter
  by_cases hx : a = x
  · subst hx
    rw [find?_of_unwritten hfirst, find?_write_self]
    cases w.value <;> simp [Memory.read_write, ha, hi]
  · have hram : Memory.read (Memory.write p.ram a b) x = Memory.read p.ram x := by simp [Memory.read_write, Ne.symm hx]
    rw [find?_write_ne hx, hram]

theorem HostPort.byteFound_cons {i a : Nat} {b : Byte} (hi : i < w.turn) (ha : a < Config.ramEnd)
    (hfirst : a ∉ rest.map (fun k => k.2.1)) (ws : List WaitingAccess) :
    ({ p with ram := Memory.write p.ram a b, waiting := ws } : HostPort).byteFound w rest =
      p.byteFound w ((i, a, b) :: rest) := by
  unfold HostPort.byteFound
  by_cases hx : a = w.addr
  · subst hx
    rw [find?_of_unwritten hfirst, find?_write_self]
    simp [Memory.read_write, ha, hi]
  · have hram : Memory.read (Memory.write p.ram a b) w.addr = Memory.read p.ram w.addr := by
      simp [Memory.read_write, Ne.symm hx]
    rw [find?_write_ne hx, hram]

theorem HostPort.Met.cons {i a : Nat} {b : Byte} {ws : List WaitingAccess} {q : HostPort}
    (h : ({ p with ram := Memory.write p.ram a b, waiting := ws } : HostPort).Met q w rest) (hi : i < w.turn)
    (ha : a < Config.ramEnd) (hfirst : a ∉ rest.map (fun k => k.2.1)) : p.Met q w ((i, a, b) :: rest) := by
  obtain ⟨hread, hport⟩ := h
  refine ⟨fun x => (hread x).trans (HostPort.byteAfter_cons hi ha hfirst ws x), ?_⟩
  rw [← HostPort.byteFound_cons hi ha hfirst ws]
  exact hport

theorem places_ge {i : Nat} (h : writes.map Prod.fst = List.range' i writes.length) : ∀ k ∈ writes, i ≤ k.1 := by
  intro k hk
  have hplace : k.1 ∈ List.range' i writes.length := h ▸ List.mem_map_of_mem hk
  exact (List.mem_range'_1.mp hplace).1

/-- An access whose turn has come is taken before the first write. -/
theorem HostPort.met_of_due {k : Nat × Nat × Byte} (hw : w.addr < Config.ramEnd)
    (hn : ((k :: rest).map (fun k => k.2.1)).Nodup) (hfit : ∀ l ∈ k :: rest, l.2.1 < Config.ramEnd)
    (hturn : ∀ l ∈ k :: rest, w.turn ≤ l.1) (hp : p.waiting = [{ w with turn := 0 }]) :
    p.Met (p.writeEach (k :: rest)).drain w (k :: rest) := by
  have hyield : p.yield = { p.take w with waiting := [] } := by
    rw [HostPort.yield, hp]
    rfl
  have hwrite : p.engineWrite k.2.1 k.2.2 = ({ p.take w with waiting := [] } : HostPort).engineWrite k.2.1 k.2.2 := by
    rw [HostPort.engineWrite_of_none { p.take w with waiting := [] } rfl, HostPort.engineWrite, hyield]
  have hlanded : p.writeEach (k :: rest) = ({ p.take w with waiting := [] } : HostPort).writeEach (k :: rest) := by
    rw [HostPort.writeEach, List.foldl_cons, hwrite]
    rfl
  have hmet := HostPort.met_of_landed (p := p) hw hn hfit hturn
  rw [HostPort.drain_of_none _ (by rw [hlanded, hmet.2]), hlanded]
  exact hmet

/-- The engine writes of a happening at different addresses of shared RAM, while one SPI access waits: by the
number `d` of engine accesses that still come before it. -/
theorem HostPort.met_writeEach (hw : w.addr < Config.ramEnd) (hn : (writes.map (fun k => k.2.1)).Nodup)
    (hfit : ∀ k ∈ writes, k.2.1 < Config.ramEnd) {i d : Nat} (hplaces : writes.map Prod.fst = List.range' i writes.length)
    (hturn : w.turn = i + d) (hp : p.waiting = [{ w with turn := d }]) : p.Met (p.writeEach writes).drain w writes := by
  induction writes generalizing p i d with
  | nil =>
    have hdrain : (p.writeEach []).drain = { p.take w with waiting := [] } := by
      show p.drain = _
      rw [HostPort.drain, hp]
      rfl
    rw [hdrain]
    exact HostPort.met_of_landed hw hn hfit (by simp)
  | cons k rest ih =>
    obtain ⟨j, a, b⟩ := k
    cases d with
    | zero => exact met_of_due hw hn hfit (by rw [hturn]; exact places_ge hplaces) hp
    | succ t =>
      rw [List.map_cons, List.length_cons, List.range'_succ, List.cons.injEq] at hplaces
      obtain ⟨rfl, hplaces⟩ := hplaces
      obtain ⟨hfirst, hrest⟩ := List.nodup_cons.mp hn
      obtain ⟨ha, hfit⟩ := List.forall_mem_cons.mp hfit
      have hwrite : p.engineWrite a b = { p with ram := Memory.write p.ram a b, waiting := [{ w with turn := t }] } := by
        rw [HostPort.engineWrite, HostPort.yield, hp]
        rfl
      have hstep : p.writeEach ((j, a, b) :: rest) = (p.engineWrite a b).writeEach rest := rfl
      rw [hstep, hwrite]
      exact (ih hrest hfit hplaces (d := t) (by omega) rfl).cons (by rw [hturn]; omega) ha hfirst

end Waiting

end Sys2Proof.Machine
end


section
/-! PROOF. A placement: the bytes of the notice in the ring, the freed place of the backlog, and the counts (R134, R168,
R170, R172, R173, Table 11.8). -/

namespace Sys2Proof.Machine

/-! ## The bytes of a notice (Table 11.8) -/

theorem nextSerial_eq (serial : Nat) : nextSerial serial = if serial < 255 then serial + 1 else 1 := by
  unfold nextSerial
  split_ifs <;> omega

theorem code_eq_kindCode (k : NoticeKind) : k.code = kindCode k := by cases k <;> rfl

theorem twoBytes_toNat (n : Nat) : (highByte n).toNat * 256 + (byteOf n).toNat = n % 65536 := by
  simp only [highByte, byteOf, BitVec.toNat_ofNat]
  omega

/-- Four bytes of a value, zero beyond its end. -/
theorem padTo_four (l : List Byte) : padTo 4 l = [l.getD 0 0, l.getD 1 0, l.getD 2 0, l.getD 3 0] := by
  match l with
  | [] => rfl
  | [_] => rfl
  | [_, _] => rfl
  | [_, _, _] => rfl
  | _ :: _ :: _ :: _ :: rest => rfl

theorem notice_bytes_length (n : Notice) : n.bytes.length = 15 := by
  rw [Notice.bytes, padTo_four]
  rfl

theorem notice_reads (n : Notice) (serial : Nat) : n.Reads serial (byteOf serial :: n.bytes) := by
  have hfirst : padTo 4 n.first = (n.first ++ [0, 0, 0, 0]).take 4 := rfl
  rw [Notice.bytes, padTo_four]
  refine ⟨rfl, code_eq_kindCode n.kind, twoBytes_toNat _, rfl, rfl, rfl, rfl, ?_, ?_, ?_⟩
  · rw [twoBytes_toNat, Nat.mod_eq_of_lt n.tag.isLt]
  · rw [twoBytes_toNat, Nat.mod_eq_of_lt n.stamp.isLt]
  · rw [← hfirst, padTo_four]

/-! ## The slot (R141, R154, R170) -/

section Place
variable {s : State}

/-- Outside AWAIT_START the ring slot at the write index lies in shared RAM. -/
theorem noticeSlot_in_ram (hr : s.RingsKept) (hl : s.station.life ≠ .awaitStart) :
    s.noticeAddress + 16 ≤ Config.ramEnd := by
  obtain ⟨-, hstarted, -⟩ := hr
  obtain ⟨hvalid, -, hindex⟩ := hstarted hl
  cases hcopy : s.station.copy with
  | none => simp [hcopy] at hvalid
  | some r =>
    have hcfg : s.cfg = r := by rw [State.cfg, hcopy]; rfl
    simp only [hcopy, Option.map_some, Option.some.injEq, StartRecord.valid, StartRecord.checks, ringFits, List.all_cons,
      Bool.and_eq_true, decide_eq_true_eq, beq_iff_eq] at hvalid
    simp only [Config.startRecordEnd, Config.ramEnd] at hvalid
    rw [hcfg] at hindex
    simp only [State.noticeAddress, hcfg, Config.ramEnd]
    omega

/-- The sixteen engine writes of a notice, the serial last. -/
def Notice.writes (n : Notice) (slot serial : Nat) : List (Nat × Nat × Byte) :=
  (List.range 15).map (fun i => (i, slot + 1 + i, n.bytes.getD i 0)) ++ [(15, slot, byteOf serial)]

theorem notice_writes_addresses (n : Notice) (slot serial : Nat) :
    (n.writes slot serial).map (fun k => k.2.1) = (List.range 15).map (fun i => slot + 1 + i) ++ [slot] := by
  rw [Notice.writes, List.map_append, List.map_map]
  rfl

theorem notice_writes_nodup (n : Notice) (slot serial : Nat) : ((n.writes slot serial).map (fun k => k.2.1)).Nodup := by
  rw [notice_writes_addresses]
  refine List.nodup_append.mpr ⟨List.nodup_range.map fun i j h => Nat.add_left_cancel h, List.nodup_singleton _, ?_⟩
  rintro a ha b hb rfl
  obtain ⟨i, -, hi⟩ := List.mem_map.mp ha
  have := List.mem_singleton.mp hb
  omega

theorem notice_writes_fit (n : Notice) {slot : Nat} (serial : Nat) (h : slot + 16 ≤ Config.ramEnd) :
    ∀ k ∈ n.writes slot serial, k.2.1 < Config.ramEnd := by
  intro k hk
  have haddress : k.2.1 ∈ (n.writes slot serial).map (fun k => k.2.1) := List.mem_map_of_mem hk
  rw [notice_writes_addresses, List.mem_append, List.mem_map, List.mem_singleton] at haddress
  rcases haddress with ⟨i, hi, haddress⟩ | haddress
  · have := List.mem_range.mp hi
    omega
  · omega

theorem writeNotice_station (s : State) (n : Notice) : (s.writeNotice n).station = s.station :=
  writeNotice_changesOnly s n .station (by decide)

theorem writeNotice_contention (s : State) (n : Notice) : (s.writeNotice n).contention = s.contention :=
  writeNotice_changesOnly s n .contention (by decide)

theorem writeNotice_cfg (s : State) (n : Notice) : (s.writeNotice n).cfg = s.cfg := by
  rw [State.cfg, State.cfg, writeNotice_station]

theorem writeNotice_notice (s : State) (n : Notice) :
    (s.writeNotice n).notice = { s.notice with serial := nextSerial s.notice.serial } := rfl

theorem writeNotice_valueNotice (s : State) (n : Notice) (kind : NoticeKind) (station detail : Nat) :
    (s.writeNotice n).valueNotice kind 0 station 0 detail [] 0 = s.valueNotice kind 0 station 0 detail [] 0 :=
  valueNotice_congr (congrArg Station.tickCount (writeNotice_station s n)) _ _ _ _ _ _ _

theorem writeNotice_port (s : State) (n : Notice) : (s.writeNotice n).port =
    (s.port.writeEach (n.writes s.noticeAddress (nextSerial s.notice.serial))).drain := by
  show ((s.port.engineWrites (s.noticeAddress + 1) n.bytes).engineWrite _ _).drain = _
  rw [HostPort.engineWrites_eq_writeEach, notice_bytes_length, Notice.writes, HostPort.writeEach, HostPort.writeEach,
    List.foldl_append]
  rfl

/-- The ring and the port after the writes, while an SPI access waits. -/
theorem writeNotice_met {n : Notice} (hfit : s.noticeAddress + 16 ≤ Config.ramEnd) {w : WaitingAccess}
    (hw : s.port.waiting = [w]) (haddr : w.addr < Config.ramEnd) :
    s.port.Met (s.writeNotice n).port w (n.writes s.noticeAddress (nextSerial s.notice.serial)) := by
  rw [writeNotice_port]
  exact HostPort.met_writeEach haddr (notice_writes_nodup _ _ _) (notice_writes_fit n _ hfit) (i := 0) (d := w.turn) rfl
    (Nat.zero_add _).symm hw

/-- The ring and the port after the writes, with nothing waiting. -/
theorem writeNotice_port_of_none (n : Notice) (hw : s.port.waiting = []) : (s.writeNotice n).port = { s.port with
    ram := Memory.write (s.port.engineWrites (s.noticeAddress + 1) n.bytes).ram s.noticeAddress
      (byteOf (nextSerial s.notice.serial)) } := by
  obtain ⟨hwaiting, hport⟩ := s.port.engineWrites_of_none hw (s.noticeAddress + 1) n.bytes
  have hwrite := HostPort.engineWrite_of_none _ hwaiting s.noticeAddress (byteOf (nextSerial s.notice.serial))
  show ((s.port.engineWrites (s.noticeAddress + 1) n.bytes).engineWrite _ _).drain = _
  rw [HostPort.drain_of_none _ (by rw [hwrite]; exact hwaiting), hwrite, hport]

theorem writeNotice_ramByte {n : Notice} (hfit : s.noticeAddress + 16 ≤ Config.ramEnd) (hw : s.port.waiting = []) (a : Nat) :
    (s.writeNotice n).ramByte a =
      if a = s.noticeAddress then byteOf (nextSerial s.notice.serial)
      else if s.noticeAddress + 1 ≤ a ∧ a < s.noticeAddress + 16 then n.bytes.getD (a - (s.noticeAddress + 1)) 0
      else s.ramByte a := by
  have hlen := notice_bytes_length n
  have hslot : s.noticeAddress < Config.ramEnd := by omega
  have hport := writeNotice_port_of_none n hw
  rw [State.ramByte_of_none _ (by rw [hport]; exact hw), State.ramByte_of_none _ hw, hport, Memory.read_write,
    HostPort.engineWrites_read _ hw _ _ (by omega), hlen]
  simp only [hslot, and_true]

theorem map_getD_range (l : List Byte) : (List.range l.length).map (fun i => l.getD i 0) = l := by
  refine List.ext_getElem (by simp) fun i _ hi => ?_
  simp [List.getElem?_eq_getElem hi]

/-- The slot holds the serial and the fifteen bytes. -/
theorem writeNotice_ramBytes {n : Notice} (hfit : s.noticeAddress + 16 ≤ Config.ramEnd) (hw : s.port.waiting = []) :
    (s.writeNotice n).ramBytes s.noticeAddress 16 = byteOf (nextSerial s.notice.serial) :: n.bytes := by
  have hread := writeNotice_ramByte (n := n) hfit hw
  rw [State.ramBytes, List.range_succ_eq_map, List.map_cons, List.map_map]
  refine congrArg₂ List.cons ((hread _).trans (if_pos rfl)) ?_
  calc (List.range 15).map ((fun i => (s.writeNotice n).ramByte (s.noticeAddress + i)) ∘ Nat.succ)
      = (List.range n.bytes.length).map (fun i => n.bytes.getD i 0) := by
        rw [notice_bytes_length]
        refine List.map_congr_left fun i hi => (hread _).trans ?_
        have hlt := List.mem_range.mp hi
        rw [if_neg (by omega), if_pos (by omega)]
        congr 1
        omega
    _ = n.bytes := map_getD_range _

/-! ## The freed place of the backlog (R134, R168, R169) -/

theorem posted_backlog (u : NoticeUnit) (n : Notice) :
    (u.posted n).backlog = if u.backlog.length < 32 then u.backlog ++ [n] else u.backlog := by
  unfold NoticeUnit.posted
  split <;> rfl

theorem posted_lost (u : NoticeUnit) (n : Notice) :
    (u.posted n).lost = if u.backlog.length < 32 then u.lost else min 255 (u.lost + 1) := by
  unfold NoticeUnit.posted
  split <;> rfl

theorem posted_rest (u : NoticeUnit) (n : Notice) :
    u.posted n = { u with backlog := (u.posted n).backlog, lost := (u.posted n).lost } := by
  unfold NoticeUnit.posted
  split <;> rfl

/-- A fall of the backlog to `b` ends the own hold (R134). -/
def State.HoldFalls (s : State) (b : Nat) : Prop :=
  (s.contention.ownHold = .on ∨ s.contention.ownHold = .renewing) ∧ b ≤ s.cfg.lowMark

/-- The Contention Unit once a fall has ended the own hold (R134). -/
def Contention.stopping (c : Contention) : Contention :=
  { c.requestHold 0 with ownHold := .stopping, ownExpiry := 0, expiryOwed := false }

theorem reportFall_of_not {b : Nat} (h : ¬ s.HoldFalls b) : s.reportFall b = s := if_neg h

theorem reportFall_of_falls {b : Nat} (h : s.HoldFalls b) :
    (s.reportFall b).notice = s.notice.posted (s.valueNotice .holdEnded 0 s.own 0 0 [] 0)
      ∧ (s.reportFall b).contention = s.contention.stopping := by
  have hreport : s.reportFall b = (s.setContention s.contention.stopping).postHoldEnded 0 := if_pos h
  rw [hreport]
  exact ⟨post_notice _ _, post_contention_quiet _ _ (.inl (by simp [Contention.stopping]))⟩

/-- The Notice Unit once the head has left its backlog: NOTICES_LOST takes the freed place (R168, R169). -/
def State.moved (s : State) (rest : List Notice) : NoticeUnit :=
  if s.notice.lost = 0 then { s.notice with backlog := rest }
  else { s.notice with backlog := rest ++ [s.valueNotice .noticesLost 0 0xFF 0 s.notice.lost [] 0], lost := 0 }

theorem leaveBacklog_eq (s : State) (rest : List Notice) : s.leaveBacklog rest =
    if s.notice.lost = 0 then (s.setNotice (s.moved rest)).reportFall rest.length
    else ((s.setNotice (s.moved rest)).reportFall rest.length).highMarkTest := by
  unfold State.leaveBacklog State.moved
  split <;> rfl

theorem writeNotice_moved (s : State) (n : Notice) (rest : List Notice) :
    (s.writeNotice n).moved rest = { s.moved rest with serial := nextSerial s.notice.serial } := by
  rw [State.moved, State.moved, writeNotice_notice, writeNotice_valueNotice]
  split <;> rfl

theorem writeNotice_holdFalls (s : State) (n : Notice) (b : Nat) : (s.writeNotice n).HoldFalls b ↔ s.HoldFalls b := by
  rw [State.HoldFalls, State.HoldFalls, writeNotice_contention, writeNotice_cfg]

theorem tested_of_held {c : Contention} (h : c.ownHold ≠ .off) (life : Life) (r : StartRecord) (b : Nat) :
    c.tested life r b = c := if_neg fun hc => h hc.1

theorem leaveBacklog_of_not {rest : List Notice} (h : ¬ s.HoldFalls rest.length) :
    (s.leaveBacklog rest).notice = s.moved rest
      ∧ (s.leaveBacklog rest).contention = if s.notice.lost = 0 then s.contention
        else s.contention.tested s.station.life s.cfg (rest.length + 1) := by
  have hreport : (s.setNotice (s.moved rest)).reportFall rest.length = s.setNotice (s.moved rest) := reportFall_of_not h
  rw [leaveBacklog_eq, hreport]
  split
  · exact ⟨rfl, rfl⟩
  · next hlost =>
    refine ⟨highMarkTest_notice _, (highMarkTest_contention _).trans ?_⟩
    have hlength : (s.moved rest).backlog.length = rest.length + 1 := by simp [State.moved, hlost]
    rw [← hlength]
    rfl

theorem leaveBacklog_of_falls {rest : List Notice} (h : s.HoldFalls rest.length) :
    (s.leaveBacklog rest).notice = (s.moved rest).posted (s.valueNotice .holdEnded 0 s.own 0 0 [] 0)
      ∧ (s.leaveBacklog rest).contention = s.contention.stopping := by
  obtain ⟨hnotice, hunit⟩ := reportFall_of_falls (s := s.setNotice (s.moved rest)) h
  rw [leaveBacklog_eq]
  split
  · exact ⟨hnotice, hunit⟩
  · refine ⟨(highMarkTest_notice _).trans hnotice, (highMarkTest_contention _).trans ?_⟩
    rw [hunit]
    exact tested_of_held (by simp [Contention.stopping]) _ _ _

/-- Only the backlog and the lost count of the Notice Unit change. -/
theorem leaveBacklog_notice (s : State) (rest : List Notice) : (s.leaveBacklog rest).notice = { s.notice with
    backlog := (s.leaveBacklog rest).notice.backlog, lost := (s.leaveBacklog rest).notice.lost } := by
  have hmoved : s.moved rest = { s.notice with backlog := (s.moved rest).backlog, lost := (s.moved rest).lost } := by
    unfold State.moved
    split <;> rfl
  by_cases h : s.HoldFalls rest.length
  · rw [(leaveBacklog_of_falls h).1]
    generalize s.valueNotice .holdEnded 0 s.own 0 0 [] 0 = ended
    exact (posted_rest _ _).trans (congrArg (fun u : NoticeUnit => { u with
      backlog := ((s.moved rest).posted ended).backlog, lost := ((s.moved rest).posted ended).lost }) hmoved)
  · rw [(leaveBacklog_of_not h).1]
    exact hmoved

/-! ## The interrupt line (R173) -/

theorem atTrigger_iff (s : State) : s.atTrigger = true ↔ ∃ r, s.station.copy = some r ∧ r.trigger ≤ s.notice.unread := by
  unfold State.atTrigger State.cfg
  cases s.station.copy <;> simp

theorem updateInt_lineFollowsCondition (s : State) : s.updateInt.LineFollowsCondition := by
  show s.intCondition = true ↔ _
  rw [State.intCondition, Bool.or_eq_true, atTrigger_iff, Bool.and_eq_true, decide_eq_true_iff, beq_iff_eq]
  rfl

/-! ## The counts (R170, R172) -/

/-- The part of a placement after the bytes are written (R170 steps 3 and 4). -/
def State.placed (s : State) (rest : List Notice) : State := (s.leaveBacklog rest).countUnread.updateInt

theorem exec_placement_of_head {n : Notice} {rest : List Notice} (hb : s.notice.backlog = n :: rest)
    (hu : s.notice.unread < s.cfg.noticeLength) : exec .placement s = .next ((s.writeNotice n).placed rest).settle := by
  show execPlacement s = _
  unfold execPlacement
  rw [hb]
  exact if_pos hu

theorem placed_changesOnly (s : State) (rest : List Notice) : s.ChangesOnly (s.placed rest) [.notice, .contention] :=
  (leaveBacklog_changesOnly s rest).trans (((setNotice_changesOnly (s.leaveBacklog rest) _).mono (by decide)).trans
    ((setNotice_changesOnly _ _).mono (by decide)))

theorem placed_port (s : State) (rest : List Notice) : (s.placed rest).port = s.port :=
  placed_changesOnly s rest .port (by decide)

theorem placed_ramByte (s : State) (rest : List Notice) (a : Nat) : (s.placed rest).ramByte a = s.ramByte a := by
  rw [State.ramByte, State.ramByte, placed_port]

/-- The serial stays, and the write index, the unread count and the coalescing timer go on. -/
theorem placed_counts (s : State) (rest : List Notice) :
    (s.placed rest).notice.serial = s.notice.serial
      ∧ (s.placed rest).notice.writeIndex =
        (if s.notice.writeIndex + 1 < s.cfg.noticeLength then s.notice.writeIndex + 1 else 0)
      ∧ (s.placed rest).notice.unread = s.notice.unread + 1
      ∧ (s.placed rest).notice.timer = (if s.notice.unread ≠ 0 then s.notice.timer
        else if s.cfg.coalescing = 0 then .expired else .running 0) := by
  have hstation : (s.leaveBacklog rest).station = s.station := leaveBacklog_changesOnly s rest .station (by decide)
  have hcfg : (s.leaveBacklog rest).cfg = s.cfg := by rw [State.cfg, State.cfg, hstation]
  have hnotice := leaveBacklog_notice s rest
  have hindex := congrArg NoticeUnit.writeIndex hnotice
  have hunread := congrArg NoticeUnit.unread hnotice
  have htimer := congrArg NoticeUnit.timer hnotice
  have hserial := congrArg NoticeUnit.serial hnotice
  refine ⟨hserial, ?_, congrArg (· + 1) hunread, ?_⟩
  · show (if (s.leaveBacklog rest).notice.writeIndex + 1 < (s.leaveBacklog rest).cfg.noticeLength
      then (s.leaveBacklog rest).notice.writeIndex + 1 else 0) = _
    rw [hcfg, hindex]
  · show (if (s.leaveBacklog rest).notice.unread = 0 then (s.leaveBacklog rest).startedTimer
      else (s.leaveBacklog rest).notice.timer) = _
    rw [State.startedTimer, hcfg, hunread, htimer, ite_not]

theorem placed_of_not {rest : List Notice} (h : ¬ s.HoldFalls rest.length) :
    (s.placed rest).notice.backlog = (s.moved rest).backlog ∧ (s.placed rest).notice.lost = (s.moved rest).lost
      ∧ (s.placed rest).contention = if s.notice.lost = 0 then s.contention
        else s.contention.tested s.station.life s.cfg (rest.length + 1) := by
  obtain ⟨hnotice, hunit⟩ := leaveBacklog_of_not h
  have hnext := congrArg NoticeUnit.backlog hnotice
  have hlost := congrArg NoticeUnit.lost hnotice
  exact ⟨hnext, hlost, hunit⟩

theorem placed_of_falls {rest : List Notice} (h : s.HoldFalls rest.length) :
    let u := (s.moved rest).posted (s.valueNotice .holdEnded 0 s.own 0 0 [] 0)
    (s.placed rest).notice.backlog = u.backlog ∧ (s.placed rest).notice.lost = u.lost
      ∧ (s.placed rest).contention = s.contention.stopping := by
  obtain ⟨hnotice, hunit⟩ := leaveBacklog_of_falls h
  have hnext := congrArg NoticeUnit.backlog hnotice
  have hlost := congrArg NoticeUnit.lost hnotice
  exact ⟨hnext, hlost, hunit⟩

end Place

/-- Settles O60, by the parts of the placement: the bytes written, the freed place, and the counts. -/
theorem placementMovesTheHead : Obligations.PlacementMovesTheHead := by
  intro s n rest hr hlife hbacklog hunread slot serial moved falls
  have hserial : nextSerial s.notice.serial = serial := nextSerial_eq _
  have hfit := noticeSlot_in_ram hr hlife
  have hmoved : (s.writeNotice n).moved rest = { moved with serial := nextSerial s.notice.serial } := writeNotice_moved s n rest
  have hholds : (s.writeNotice n).HoldFalls rest.length ↔ falls := writeNotice_holdFalls s n _
  obtain ⟨hcountSerial, hindex, hcountUnread, htimer⟩ := placed_counts (s.writeNotice n) rest
  rw [writeNotice_notice] at hcountSerial hindex hcountUnread htimer
  rw [writeNotice_cfg] at hindex htimer
  refine ⟨_, exec_placement_of_head hbacklog hunread, notice_reads n serial, fun hw => ⟨?_, fun a ha => ?_, ?_⟩,
    fun w hw haddr => ?_, fun h => ?_, fun h => ?_, hcountSerial.trans hserial, hindex, hcountUnread, htimer,
    updateInt_lineFollowsCondition _, ?_⟩
  · rw [← hserial, ← writeNotice_ramBytes hfit hw]
    exact List.map_congr_left fun i _ => placed_ramByte _ rest _
  · have hslot : slot = s.noticeAddress := rfl
    rw [placed_ramByte, writeNotice_ramByte hfit hw, if_neg (by omega), if_neg (by omega)]
  · rw [placed_port, writeNotice_port_of_none n hw]
  · rw [placed_port, ← hserial]
    exact writeNotice_met hfit hw haddr
  · obtain ⟨hnext, hlost, hunit⟩ := placed_of_not (mt hholds.mp h)
    rw [hmoved] at hnext hlost
    rw [writeNotice_notice, writeNotice_contention, writeNotice_station, writeNotice_cfg] at hunit
    exact ⟨hnext, hlost, hunit⟩
  · obtain ⟨hnext, hlost, hunit⟩ := placed_of_falls (hholds.mpr h)
    rw [hmoved, posted_backlog, State.own, writeNotice_cfg, writeNotice_valueNotice] at hnext
    rw [hmoved, posted_lost] at hlost
    rw [writeNotice_contention] at hunit
    exact ⟨hnext.trans (posted_backlog moved _).symm, hlost.trans (posted_lost moved _).symm, hunit⟩
  · exact ((writeNotice_changesOnly s n).mono (by decide)).trans ((placed_changesOnly _ rest).mono (by decide))

end Sys2Proof.Machine
end


section
/-! PROOF. The start record copy, the ring indices, the counts and the generator (R122, R141, R154, R168, R170): what
each operation that the commands share keeps. -/

namespace Sys2Proof.Machine

/-- The generator never comes to 0: its bits move down by one, and bit 0 is part of the new top bit (R122). -/
theorem rngAdvance_ne_zero {r : Word16} (hr : r ≠ 0) : rngAdvance r ≠ 0 := by
  intro hzero
  have hupper {i : Nat} (hi : i < 15) : r.getLsbD (i + 1) = false := by
    rw [← rngAdvance_getLsbD r hi, hzero]
    exact BitVec.getLsbD_zero
  have htop := rngAdvance_topBit r
  rw [hzero, hupper (show 1 < 15 by decide), hupper (show 2 < 15 by decide), hupper (show 4 < 15 by decide)] at htop
  have hlow : r.getLsbD 0 = false := by simpa using htop.symm
  refine hr (BitVec.eq_of_getLsbD_eq fun i hi => ?_)
  refine Eq.trans ?_ (BitVec.getLsbD_zero (w := 16) (i := i)).symm
  cases i with
  | zero => exact hlow
  | succ j => exact hupper (by omega)

section Operations
variable {s : State} {n m source station detail b : Nat} {kind : NoticeKind} {cause : Cause} {tag : Word16} {q : Byte}
  {payload : List Byte} {rep : Bool} {c : Consume} {p : Produce} {f : CtlFrame}

/-! ## Blocks, posts and requests -/

/-- Outside AWAIT_START alone the unit scans (R154). -/
theorem State.RingsKept.awake (hs : s.RingsKept) (h : s.command.scanning = true) : s.station.life ≠ .awaitStart := by
  obtain ⟨hawait, -⟩ := hs
  intro hl
  rw [(hawait hl).2.1] at h
  cases h

theorem State.RingsKept.congr {t : State} (hs : s.RingsKept) (hst : t.station.life = s.station.life)
    (hcopy : t.station.copy = s.station.copy) (hc : t.command = s.command) (hn : t.notice = s.notice)
    (hr : t.contention.rng = s.contention.rng) : t.RingsKept := by
  have hcfg : t.cfg = s.cfg := by rw [State.cfg, State.cfg, hcopy]
  unfold State.RingsKept at *
  rw [hcfg, hst, hcopy, hc, hn, hr]
  exact hs

theorem State.RingsKept.elsewhere {t : State} {l : List Block} (hs : s.RingsKept) (h : s.ChangesOnly t l)
    (hl : .station ∉ l ∧ .command ∉ l ∧ .notice ∉ l ∧ .contention ∉ l) : t.RingsKept := by
  have hst : t.station = s.station := h .station hl.1
  have hc : t.contention = s.contention := h .contention hl.2.2.2
  exact hs.congr (by rw [hst]) (by rw [hst]) (h .command hl.2.1) (h .notice hl.2.2.1) (by rw [hc])

/-- A change of the unit that leaves the generator or advances it. -/
theorem State.RingsKept.unit {x : Contention} (hs : s.RingsKept) (hx : s.contention.rng ≠ 0 → x.rng ≠ 0) :
    (s.setContention x).RingsKept := by
  obtain ⟨hawait, hawake, hunread, hbacklog, hlost, hrng⟩ := hs
  exact ⟨hawait, hawake, hunread, hbacklog, hlost, hx hrng⟩

/-- A started station stays one, with its copy. -/
theorem State.RingsKept.live {x : Station} (hs : s.RingsKept) (hl : s.station.life ≠ .awaitStart)
    (hx : x.life ≠ .awaitStart) (hcopy : x.copy = s.station.copy) : (s.setStation x).RingsKept := by
  obtain ⟨-, hawake, hunread, hbacklog, hlost, hrng⟩ := hs
  have hcfg : (s.setStation x).cfg = s.cfg := congrArg (·.getD StartRecord.blank) hcopy
  refine ⟨fun h => absurd h hx, fun _ => ?_, ?_, hbacklog, hlost, hrng⟩
  · rw [hcfg]
    exact ⟨(congrArg _ hcopy).trans (hawake hl).1, (hawake hl).2⟩
  · rw [hcfg]
    exact hunread

/-- A change of the backlog, the lost count, the serial or the timer within the bounds of R168. -/
theorem State.RingsKept.unitOfNotices {x : NoticeUnit} (hs : s.RingsKept) (hw : x.writeIndex = s.notice.writeIndex)
    (hu : x.unread ≤ s.notice.unread) (hb : x.backlog.length ≤ 32) (hl : x.lost ≤ 255) :
    (s.setNotice x).RingsKept := by
  obtain ⟨hawait, hawake, hunread, -, -, hrng⟩ := hs
  refine ⟨fun h => ?_, fun h => ?_, hu.trans hunread, hb, hl, hrng⟩
  · obtain ⟨hcopy, hscan, hindex⟩ := hawait h
    exact ⟨hcopy, hscan, hw.trans hindex⟩
  · obtain ⟨hcopy, hcommand, hindex⟩ := hawake h
    exact ⟨hcopy, hcommand, hw.trans_lt hindex⟩

theorem requestHold_rng (c : Contention) (n : Nat) : (c.requestHold n).rng = c.rng :=
  (congrArg Contention.rng (Contention.requestHold_frame c n) :)

/-- A HOLD request, whatever becomes of the own hold with it (R130, R134, R135). -/
theorem State.RingsKept.hold {x : Contention} (hs : s.RingsKept)
    (hx : x.rng = (s.contention.requestHold n).rng) : (s.setContention x).RingsKept :=
  hs.unit fun h => by rwa [hx, requestHold_rng]

theorem State.RingsKept.requestDispute (hs : s.RingsKept) : (s.requestDispute n).RingsKept := by
  have hrng : (s.contention.requestDispute n).rng = s.contention.rng := by
    unfold Contention.requestDispute
    split <;> rfl
  exact hs.unit fun h => by rwa [hrng]

theorem State.RingsKept.highMarkTest (hs : s.RingsKept) : s.highMarkTest.RingsKept := by
  rcases highMarkTest_cases s with h | ⟨-, -, -, h⟩
  · rw [h]; exact hs
  · rw [h]; exact hs.hold rfl

/-- A notice joins a backlog that has room, and is counted at most to 255 otherwise (R168). -/
theorem State.RingsKept.post {x : Notice} (hs : s.RingsKept) : (s.post x).RingsKept := by
  obtain ⟨-, -, -, hbacklog, hlost, -⟩ := id hs
  unfold State.post
  split
  · next hroom =>
    refine .highMarkTest (hs.unitOfNotices rfl le_rfl ?_ hlost)
    rw [List.length_append]
    exact hroom
  · exact hs.unitOfNotices rfl le_rfl hbacklog (Nat.min_le_left _ _)

theorem State.RingsKept.postOwnership (hs : s.RingsKept) : (s.postOwnership n kind station cause tag).RingsKept :=
  hs.post

theorem State.RingsKept.postHoldEnded (hs : s.RingsKept) : (s.postHoldEnded detail).RingsKept := hs.post

theorem State.RingsKept.reportFall (hs : s.RingsKept) : (s.reportFall b).RingsKept := by
  unfold State.reportFall
  split
  · exact .postHoldEnded (hs.hold rfl)
  · exact hs

/-- A report about an entry, and its removal (R33, R74). -/
theorem State.RingsKept.reportRemove (hs : s.RingsKept) :
    ((s.postOwnership n kind station cause tag).removeEntry m).RingsKept :=
  hs.postOwnership.elsewhere (removeEntry_changesOnly _ m) (by decide)

/-! ## Draws, and frames placed and withdrawn -/

theorem draw_rng_ne_zero (h : s.contention.rng ≠ 0) : s.contention.draw.2.rng ≠ 0 := rngAdvance_ne_zero h

theorem State.RingsKept.leaveIdle (hs : s.RingsKept) : s.leaveIdle.RingsKept := by
  unfold State.leaveIdle
  split
  · exact hs.unit draw_rng_ne_zero
  · exact hs

theorem State.RingsKept.retry (hs : s.RingsKept) : s.retry.RingsKept := hs.unit draw_rng_ne_zero

theorem State.RingsKept.discardInHand (hs : s.RingsKept) : s.discardInHand.RingsKept := .leaveIdle (hs.unit id)

theorem State.RingsKept.placeCommand (hs : s.RingsKept) : (s.placeCommand f).RingsKept :=
  (hs.unit (x := { s.contention with queue := s.contention.queue ++ [f] }) id).elsewhere
    (noteQueued_changesOnly _ _) (by decide)

theorem State.RingsKept.handOn (hs : s.RingsKept) : (s.handOn f).RingsKept := by
  unfold State.handOn
  split
  · exact hs.placeCommand
  · exact hs

theorem State.RingsKept.placeFreed (hs : s.RingsKept) : (s.placeFreed f).RingsKept := by
  unfold State.placeFreed State.moveWaiting Contention.placePendingHold
  split
  · split
    · exact hs
    · exact .placeCommand hs
  · split
    · exact hs
    · exact hs.unit id

theorem State.RingsKept.withdrawQueued (hs : s.RingsKept) : (s.withdrawQueued f).RingsKept := by
  unfold State.withdrawQueued
  split
  · exact .placeFreed (hs.unit id)
  · exact hs

theorem State.RingsKept.withdrawInHand (hs : s.RingsKept) : (s.withdrawInHand f).RingsKept := by
  unfold State.withdrawInHand
  split
  · split
    · split
      · exact hs.unit id
      · exact hs.discardInHand
    · exact hs
  · exact hs
  · exact hs

theorem State.RingsKept.withdraw (hs : s.RingsKept) : (s.withdraw f).RingsKept :=
  .withdrawInHand (.withdrawQueued hs)

theorem State.RingsKept.stripRecord (hs : s.RingsKept) : (s.stripRecord n).RingsKept := by
  unfold State.stripRecord
  split
  · split
    · exact hs
    · exact hs
    · dsimp only
      split
      · exact hs.discardInHand
      · exact hs
  · exact hs

/-! ## Claims and releases -/

theorem State.RingsKept.releaseSlot (hs : s.RingsKept) : (s.releaseSlot n).RingsKept :=
  hs.elsewhere (releaseSlot_changesOnly s n) (by decide)

theorem State.RingsKept.stopPublishing (hs : s.RingsKept) : (s.stopPublishing n).RingsKept :=
  .withdraw (.stripRecord (hs.elsewhere (dequeue_changesOnly s n) (by decide)))

theorem State.RingsKept.loseClaim (hs : s.RingsKept) : (s.loseClaim n source cause).RingsKept :=
  .reportRemove (.releaseSlot (.withdraw hs.withdraw))

theorem State.RingsKept.depose (hs : s.RingsKept) : (s.depose n source cause).RingsKept :=
  .postOwnership (hs.stopPublishing.congr (t := (s.stopPublishing n).updProduce n _) rfl rfl rfl rfl rfl)

theorem State.RingsKept.beginRelease (hs : s.RingsKept) : (s.beginRelease n tag).RingsKept := .handOn hs

theorem State.RingsKept.releaseClaim (hs : s.RingsKept) : (s.releaseClaim n p tag).RingsKept := by
  unfold State.releaseClaim
  dsimp only
  split
  · exact .withdraw (.withdraw (.beginRelease (.postOwnership hs.releaseSlot)))
  · exact .reportRemove (.withdraw (.withdraw (.postOwnership hs.releaseSlot)))

theorem State.RingsKept.release (hs : s.RingsKept) : (s.release n tag).RingsKept := by
  unfold State.release
  split
  · exact hs
  · split
    · exact hs.releaseClaim
    · exact hs.stopPublishing.beginRelease
    · exact hs
    · exact hs.reportRemove

theorem State.RingsKept.failClaim (hs : s.RingsKept) : (s.failClaim n).RingsKept := by
  unfold State.failClaim
  split
  · exact hs
  · split
    · exact .reportRemove hs.releaseSlot.withdraw
    · exact hs

theorem State.RingsKept.endRelease (hs : s.RingsKept) : (s.endRelease n cause).RingsKept := by
  unfold State.endRelease
  split
  · exact hs
  · split
    · exact hs.reportRemove
    · exact hs

theorem State.RingsKept.grantClaim {k : Fin 4} {slot : ClaimSlot} (hs : s.RingsKept) :
    (s.grantClaim k slot p).RingsKept := by
  have howned := hs.congr (t := (s.putSlot k none).updProduce slot.object (fun p =>
    { p with ownership := .owned, claimSlot := none, refreshCounter := 0 })) rfl rfl rfl rfl rfl
  unfold State.grantClaim
  dsimp only
  split
  · exact howned.postOwnership.elsewhere (appendNew_changesOnly _ _) (by decide)
  · exact howned.postOwnership

theorem State.RingsKept.muteEntry (hs : s.RingsKept) : (s.muteEntry n).RingsKept := by
  unfold State.muteEntry
  split
  · exact hs
  · split
    · exact hs.releaseSlot.reportRemove
    · exact hs.reportRemove

/-! ## Evictions, acceptances and expiries -/

theorem State.RingsKept.evict {l : Line} (hs : s.RingsKept) : (s.evict l detail tag).RingsKept := by
  unfold State.evict
  split
  · exact hs
  · dsimp only
    split
    · exact hs
    · exact .post hs

theorem State.RingsKept.allocate {t : State} {pinned : Bool} {w : Way} (hs : s.RingsKept)
    (h : s.allocate n pinned detail tag = some (w, t)) : t.RingsKept := by
  obtain ⟨c, hc, -, rfl⟩ := allocate_eq h
  have hkept : c.RingsKept := by
    rw [hc]
    split
    · exact hs.evict
    · exact hs
  exact hkept

theorem State.RingsKept.takeClaim {d : Descriptor} (hs : s.RingsKept) : (s.takeClaim d).RingsKept := by
  have hentry (k : Fin 4) : (s.claimEntry d k).RingsKept := by
    unfold State.claimEntry
    split
    · exact hs
    · split
      · exact hs
      · next h => exact (hs.allocate h).congr rfl rfl rfl rfl rfl
  unfold State.takeClaim
  split
  · exact hs
  · next k _ => exact .handOn (hentry k)

theorem State.RingsKept.recordLine {t : State} (hs : s.RingsKept) (h : s.recordLine n = some t) : t.RingsKept := by
  unfold State.recordLine at h
  split at h
  · cases h; exact hs
  · obtain ⟨⟨w, a⟩, ha, rfl⟩ := Option.map_eq_some_iff.mp h
    exact (hs.allocate ha).congr rfl rfl rfl rfl rfl

theorem State.RingsKept.postBinding {b : Binding} (hs : s.RingsKept) :
    (s.postBinding n source q payload b).RingsKept := by
  unfold State.postBinding
  split
  · exact hs.post
  · exact hs.post
  · split
    · exact hs
    · exact hs.post

theorem State.RingsKept.accept (hs : s.RingsKept) : (s.accept n c source rep q payload).RingsKept := by
  unfold State.accept
  split
  · exact hs.post
  · next lined h =>
    have hbound := State.RingsKept.postBinding (n := n) (source := source) (q := q) (payload := payload)
      (b := c.binding) ((hs.recordLine h).congr (t := lined.updConsume n (fun c => { c with binding := .bound source }))
        rfl rfl rfl rfl rfl)
    have hwritten := hbound.elsewhere (storePayload_changesOnly _ n payload) (by decide)
    dsimp only
    split
    · exact .post hwritten
    · exact hwritten

theorem State.RingsKept.judgeRecord (hs : s.RingsKept) : (s.judgeRecord n c source rep q payload).RingsKept := by
  have hsequence : (s.checkSequence n c source rep q payload).RingsKept := by
    unfold State.checkSequence
    split
    · exact hs.accept
    · exact hs.accept
    · split
      · exact hs
      · split
        · exact hs.accept
        · exact hs.post.accept
  unfold State.judgeRecord
  split
  · exact hs.accept
  · exact hs.accept
  · split
    · exact hsequence
    · split
      · exact hs.accept
      · exact hs.post

theorem State.RingsKept.relinquishAtConsume (hs : s.RingsKept) : (s.relinquishAtConsume n source c).RingsKept := by
  unfold State.relinquishAtConsume
  split
  · exact .post hs
  · exact hs

theorem State.RingsKept.expireAge (hs : s.RingsKept) : (s.expireAge n c).RingsKept := by
  unfold State.expireAge
  dsimp only
  split
  · exact .post hs
  · exact .post hs
  · exact .post hs
  · exact .post hs
  all_goals exact hs

/-! ## The frame in hand and the end of a happening -/

theorem State.RingsKept.holdSucceeded (hs : s.RingsKept) : (s.holdSucceeded n).RingsKept := by
  unfold State.holdSucceeded
  split
  · exact .post hs
  · exact hs
  · split
    · exact .highMarkTest hs
    · exact hs
  · exact hs

theorem State.RingsKept.holdAbandoned (hs : s.RingsKept) : (s.holdAbandoned n).RingsKept := by
  unfold State.holdAbandoned
  split
  · exact .highMarkTest hs
  · exact .highMarkTest (.postHoldEnded hs)
  · split
    · exact .highMarkTest hs
    · exact hs
  · exact hs

theorem State.RingsKept.reportSuccess (hs : s.RingsKept) : s.reportSuccess.RingsKept := by
  unfold State.reportSuccess
  split
  · exact hs
  · exact hs.elsewhere (foldl_changesOnly _ commit_perRec.frame _ s) (by decide)
  · split
    · exact hs
    · exact hs.elsewhere (beginWindow_changesOnly s _) (by decide)
  · exact hs.endRelease
  · exact hs.holdSucceeded
  · exact hs
  · exact hs

theorem State.RingsKept.reportAbandonment {cause : Nat} (hs : s.RingsKept) :
    (s.reportAbandonment cause).RingsKept := by
  unfold State.reportAbandonment
  split
  · exact hs
  · next records _ =>
    have hreturned := hs.elsewhere (returnRecords_spec s records).2.1 (by decide)
    unfold State.postAbandoned
    split
    · exact hreturned
    · exact hreturned.post
  · split
    · exact hs
    · exact hs.failClaim
  · exact hs.endRelease
  · exact hs.holdAbandoned
  · exact hs
  · exact hs

theorem State.RingsKept.dropFrame (hs : s.RingsKept) : s.dropFrame.RingsKept := hs

theorem State.RingsKept.collideAgain (hs : s.RingsKept) : s.collideAgain.RingsKept := by
  unfold State.collideAgain
  split
  · exact hs
  · have hstripped (l : List TxRecord) := hs.elsewhere (foldl_changesOnly _ unsend_perRec.frame l s) (by decide)
    dsimp only
    split
    · exact (hstripped _).dropFrame
    · exact .retry (hstripped _)
  · exact hs.retry

theorem State.RingsKept.collide (hs : s.RingsKept) : s.collide.RingsKept := by
  unfold State.collide
  dsimp only
  split
  · exact .dropFrame (.reportAbandonment (hs.unit id))
  · exact .collideAgain (hs.unit id)

theorem State.RingsKept.chooseFrame (hs : s.RingsKept) : s.chooseFrame.RingsKept := by
  unfold State.chooseFrame
  split
  · next records _ =>
    split
    · exact hs
    · exact (hs.elsewhere (returnRecords_spec s records).2.1 (by decide)).dropFrame
  · exact hs
  · split
    · exact .placeFreed (hs.unit id)
    · split
      · have hmarked := State.RingsKept.elsewhere (s := s.setPubQueue (s.takeBundle s.pubQueue 0 0).2) hs
          (foldl_changesOnly _ bundle_perRec.frame (s.takeBundle s.pubQueue 0 0).1 _) (by decide)
        exact hmarked.unit id
      · exact hs

/-- A LEAVING station goes on to DETACHED with its copy (R146). -/
theorem State.RingsKept.enterDetached (hs : s.RingsKept) (hl : s.station.life ≠ .awaitStart) :
    s.enterDetached.RingsKept := by
  have hleft : ((s.setStation { s.station with life := .detached }).post
      (s.stationNotice .left s.own 0 s.station.keptTag)).RingsKept := .post (hs.live hl Life.noConfusion rfl)
  unfold State.enterDetached
  dsimp only
  split
  · exact .postHoldEnded (hleft.unit id)
  · exact hleft.unit id

theorem State.RingsKept.settle (hs : s.RingsKept) : s.settle.RingsKept := by
  unfold State.settle
  split
  · next hdone =>
    obtain ⟨hleaving, -⟩ := (leaveDone_iff s).mp hdone
    exact (hs.enterDetached (by rw [hleaving]; decide)).leaveIdle
  · exact hs.leaveIdle

/-- A started station goes on to MUTED with its copy (R148). -/
theorem State.RingsKept.enterMuted (hs : s.RingsKept) (hl : s.station.life ≠ .awaitStart) : s.enterMuted.RingsKept := by
  have hmuted := (hs.live (x := { s.station with life := .muted, joinRunning := false, joinOwed := false }) hl
    Life.noConfusion rfl).post (x := s.stationNotice .numberClash s.own s.station.life.code 0)
  unfold State.enterMuted
  refine fold_keeps (P := State.RingsKept) (fun _ _ hu => hu.muteEntry) _ ?_
  unfold State.muteContention
  dsimp only
  split
  · exact .postHoldEnded (hmuted.unit id)
  · exact hmuted.unit id

end Operations

end Sys2Proof.Machine
end


section
/-! PROOF. The start record copy, the ring indices, the counts and the generator stay kept after every command and step
(R122, R141, R154, R156, R168, R170). -/

namespace Sys2Proof.Machine

theorem all_of_firstError {checks : List (Nat × Bool)} (h : firstError checks = none) :
    checks.all (·.2) = true := by
  induction checks with
  | nil => rfl
  | cons k rest ih =>
    obtain ⟨code, valid⟩ := k
    cases valid with
    | true => exact ih h
    | false => cases h

/-- What the generator, the command index and the write index need of a record that has passed START's checks. -/
theorem valid_bounds {r : StartRecord} (h : r.valid = true) :
    r.station ≤ 31 ∧ 0 < r.cmdLength ∧ 0 < r.noticeLength := by
  simp only [StartRecord.valid, StartRecord.checks, List.all_cons, Bool.and_eq_true, decide_eq_true_eq] at h
  omega

/-- The seed differs from 0 for every station number, which leaves its upper bits alone (R122). -/
theorem seed_ne_zero {station : Nat} (h : station ≤ 31) :
    Config.generatorSeed ^^^ BitVec.ofNat 16 station ≠ 0 := by
  intro hzero
  have hsame := congrArg BitVec.toNat (BitVec.xor_eq_zero_iff.mp hzero)
  rw [BitVec.toNat_ofNat, Nat.mod_eq_of_lt (by omega)] at hsame
  have hseed : Config.generatorSeed.toNat = 0xACE1 := rfl
  omega

section Commands
variable {s : State}

/-! ## The host port -/

theorem State.RingsKept.register {t : State} {via : SpiVia} {w : Bool} {a : Nat} (hs : s.RingsKept)
    (h : s.registerByte via w a = some t) : t.RingsKept :=
  hs.elsewhere (registerByte_changesOnly s t via w a h) (by decide)

/-- In AWAIT_START no notice is unread, for the ring has no place yet (Table 8.3). -/
theorem State.RingsKept.unread_of_await (hs : s.RingsKept) (hl : s.station.life = .awaitStart) :
    s.notice.unread = 0 := by
  obtain ⟨hawait, -, hunread, -⟩ := hs
  rw [State.cfg, (hawait hl).1] at hunread
  exact Nat.le_zero.mp hunread

/-- A START that has passed the checks takes the copy, seeds the generator and begins at slot 0 (R142). -/
theorem State.RingsKept.started {r : StartRecord} (hs : s.RingsKept) (hl : s.station.life = .awaitStart)
    (hr : r.valid = true) : (s.started r).RingsKept := by
  have hunread := hs.unread_of_await hl
  obtain ⟨hawait, -, -, hbacklog, hlost, -⟩ := hs
  obtain ⟨hstation, hcommands, hnotices⟩ := valid_bounds hr
  refine ⟨fun h => Life.noConfusion h, fun _ => ⟨congrArg some hr, hcommands, ?_⟩, ?_, hbacklog, hlost,
    seed_ne_zero hstation⟩
  · exact (hawait hl).2.2.trans_lt hnotices
  · exact hunread.trans_le (Nat.zero_le _)

theorem State.RingsKept.startRequest (hs : s.RingsKept) (hl : s.station.life = .awaitStart) :
    s.startRequest.RingsKept := by
  unfold State.startRequest
  generalize s.port.engineReads 0 Config.startRecordEnd = record
  dsimp only
  split
  · exact hs
  · next hnone =>
    have hall := all_of_firstError hnone
    rw [startChecks, List.all_append, Bool.and_eq_true] at hall
    exact State.RingsKept.started (s := s.setPort _) hs hl hall.1

theorem State.RingsKept.execSoftReset (hs : s.RingsKept) (via : SpiVia) :
    Ends State.RingsKept (execSoftReset via s) := by
  unfold Sys2Proof.Machine.execSoftReset
  split
  · simpa using hs
  · simpa using resets_ringsKept (softReset_resets _)

theorem State.RingsKept.execStart (hs : s.RingsKept) (via : SpiVia) (during : List RamByte) :
    Ends State.RingsKept (execStart via s during) := by
  unfold Sys2Proof.Machine.execStart
  split
  · simpa using hs
  · next t ht =>
    have ht := hs.register ht
    have hmet : (t.setPort (t.port.acceptBytes during)).RingsKept := ht
    dsimp only
    split
    · next hl => exact (ends_next _ _).mpr (hmet.startRequest hl)
    · exact (ends_next _ _).mpr hmet

/-- The Command Unit changes outside AWAIT_START alone (R154). -/
theorem State.RingsKept.scan {x : CommandUnit} (hs : s.RingsKept) (hl : s.station.life ≠ .awaitStart)
    (hx : x.index < s.cfg.cmdLength) : (s.setCommand x).RingsKept := by
  obtain ⟨-, hawake, hunread, hbacklog, hlost, hrng⟩ := hs
  obtain ⟨hcopy, -, hwrite⟩ := hawake hl
  exact ⟨fun h => absurd h hl, fun _ => ⟨hcopy, hx, hwrite⟩, hunread, hbacklog, hlost, hrng⟩

theorem State.RingsKept.index_lt (hs : s.RingsKept) (hl : s.station.life ≠ .awaitStart) :
    s.command.index < s.cfg.cmdLength := (hs.2.1 hl).2.1

theorem State.RingsKept.execCmdAdvance (hs : s.RingsKept) (via : SpiVia) (value : Byte) :
    Ends State.RingsKept (execCmdAdvance via value s) := by
  unfold Sys2Proof.Machine.execCmdAdvance State.scanRequest
  split
  · simpa using hs
  · next t ht =>
    have ht := hs.register ht
    rw [ends_next]
    split
    · exact ht
    · next hl =>
      split
      · exact ht.scan hl (ht.index_lt hl)
      · exact ht.scan hl (ht.index_lt hl)

theorem State.RingsKept.updateInt (hs : s.RingsKept) : s.updateInt.RingsKept := hs

theorem State.RingsKept.execNoticeTaken (hs : s.RingsKept) (via : SpiVia) (k : Byte) :
    Ends State.RingsKept (execNoticeTaken via k s) := by
  unfold Sys2Proof.Machine.execNoticeTaken State.releaseNotices
  split
  · simpa using hs
  · next t ht =>
    have ht := hs.register ht
    obtain ⟨-, -, -, hbacklog, hlost, -⟩ := id ht
    rw [ends_next]
    split
    · exact ht
    · exact .updateInt (ht.unitOfNotices rfl (Nat.sub_le _ _) hbacklog hlost)

theorem State.RingsKept.execTickHighByteRead (hs : s.RingsKept) (via : SpiVia) :
    Ends State.RingsKept (execTickHighByteRead via s) := by
  unfold Sys2Proof.Machine.execTickHighByteRead
  split
  · simpa using hs
  · next t ht =>
    have ht := hs.register ht
    exact (ends_next _ _).mpr ht

theorem State.RingsKept.execRegisterWriteIgnored (hs : s.RingsKept) (via : SpiVia) (addr : Nat) (value : Byte) :
    Ends State.RingsKept (execRegisterWriteIgnored via addr value s) := by
  unfold Sys2Proof.Machine.execRegisterWriteIgnored
  split
  · split
    · simpa using hs
    · next t ht => simpa using hs.register ht
  · simpa using hs

/-! ## The placement of a notice -/

/-- The head leaves a backlog of at most 32, and NOTICES_LOST takes at most its place (R168, R170). -/
theorem State.RingsKept.leaveBacklog {rest : List Notice} (hs : s.RingsKept) (hrest : rest.length < 32) :
    (s.leaveBacklog rest).RingsKept := by
  obtain ⟨-, -, -, -, hlost, -⟩ := id hs
  unfold State.leaveBacklog
  split
  · exact .reportFall (hs.unitOfNotices rfl le_rfl hrest.le hlost)
  · refine .highMarkTest (.reportFall (hs.unitOfNotices rfl le_rfl ?_ (Nat.zero_le _)))
    rw [List.length_append]
    exact hrest

/-- The write index goes round the ring, and the unread count rises to its length at most (R170). -/
theorem State.RingsKept.countUnread (hs : s.RingsKept) (h : s.notice.unread < s.cfg.noticeLength) :
    s.countUnread.RingsKept := by
  have hl : s.station.life ≠ .awaitStart := by
    intro hl
    rw [State.cfg, (hs.1 hl).1] at h
    exact Nat.not_lt_zero _ h
  obtain ⟨-, hawake, -, hbacklog, hlost, hrng⟩ := hs
  obtain ⟨hcopy, hindex, hwrite⟩ := hawake hl
  refine ⟨fun h => absurd h hl, fun _ => ⟨hcopy, hindex, ?_⟩, h, hbacklog, hlost, hrng⟩
  show (if s.notice.writeIndex + 1 < s.cfg.noticeLength then s.notice.writeIndex + 1 else 0) < s.cfg.noticeLength
  split
  · assumption
  · exact Nat.zero_lt_of_lt hwrite

theorem State.RingsKept.execPlacement (hs : s.RingsKept) : Ends State.RingsKept (execPlacement s) := by
  unfold Sys2Proof.Machine.execPlacement
  split
  · simpa using hs
  · next n rest hhead =>
    split
    · next hroom =>
      rw [ends_next]
      have hrest : rest.length < 32 := by
        obtain ⟨-, -, -, hbacklog, -⟩ := hs
        rw [hhead] at hbacklog
        exact hbacklog
      have hwritten : (s.writeNotice n).RingsKept := hs
      have hstation : ((s.writeNotice n).leaveBacklog rest).station = s.station :=
        leaveBacklog_changesOnly (s.writeNotice n) rest .station (by decide)
      have hunread : ((s.writeNotice n).leaveBacklog rest).notice.unread = s.notice.unread :=
        (congrArg NoticeUnit.unread (leaveBacklog_notice (s.writeNotice n) rest) :)
      refine .settle (.updateInt ((hwritten.leaveBacklog hrest).countUnread ?_))
      rw [hunread, State.cfg, hstation]
      exact hroom
    · simpa using hs

/-! ## The command ring -/

/-- A completion advances the index, from the last slot back to slot 0 (R156). -/
theorem State.RingsKept.complete {status : Status} {flags : Byte} {length detail : Nat} (hs : s.RingsKept)
    (hl : s.station.life ≠ .awaitStart) : (s.complete status flags length detail).RingsKept := by
  have hindex := hs.index_lt hl
  refine State.RingsKept.scan (s := s.setPort _) hs hl ?_
  show s.nextIndex < s.cfg.cmdLength
  unfold State.nextIndex
  split
  · assumption
  · exact Nat.zero_lt_of_lt hindex

theorem State.RingsKept.finish {d : Descriptor} {status : Status} (hs : s.RingsKept)
    (hl : s.station.life ≠ .awaitStart) : (s.finish d status).RingsKept := hs.complete hl

/-- What a command has carried out away from Station Control leaves the station started. -/
theorem awake_of_changesOnly {t : State} {l : List Block} (h : s.ChangesOnly t l) (hl : .station ∉ l)
    (hs : s.station.life ≠ .awaitStart) : t.station.life ≠ .awaitStart := by
  have hst : t.station = s.station := h .station hl
  rwa [hst]

theorem State.RingsKept.execExamination (hs : s.RingsKept) : Ends State.RingsKept (execExamination s) := by
  unfold Sys2Proof.Machine.execExamination
  split
  · next hscan =>
    have hl := hs.awake hscan
    dsimp only
    split
    · simpa using hs
    · rw [ends_next]
      refine State.RingsKept.scan (s := s.setPort _) hs hl ?_
      split
      · exact hs.index_lt hl
      · exact hs.index_lt hl
  · simpa using hs

theorem State.RingsKept.execBadCommand (hs : s.RingsKept) : Ends State.RingsKept (execBadCommand s) := by
  unfold Sys2Proof.Machine.execBadCommand
  split
  · simpa using hs
  · next d t ht =>
    split
    · simpa using hs
    · have hport := taking_changesOnly _ _ _ ht
      have hscan : s.command.scanning = true := by
        by_contra hn
        rw [State.taking, if_neg hn] at ht
        cases ht
      exact (ends_next _ _).mpr (.finish (hs.elsewhere hport (by decide))
        (awake_of_changesOnly hport (by decide) (hs.awake hscan)))

/-- A ring command that is taken, outside AWAIT_START then: refused, or carried out (R154, R157). -/
theorem State.RingsKept.ring {code : Byte} {d : Descriptor} {t : State} {checks : List (Bool × Status)}
    {carryOut : State → State} (hs : s.RingsKept) (h : s.takingCode code = some (d, t))
    (hk : t.RingsKept → t.station.life ≠ .awaitStart → (carryOut t).RingsKept) :
    (t.perform d checks carryOut).RingsKept := by
  obtain ⟨hport, hscan⟩ := takingCode_scans h
  have ht := hs.elsewhere hport (by decide)
  unfold State.perform
  split
  · exact ht.finish (ht.awake hscan)
  · exact hk ht (ht.awake hscan)

theorem State.RingsKept.execSubscribe (hs : s.RingsKept) : Ends State.RingsKept (execSubscribe s) := by
  unfold Sys2Proof.Machine.execSubscribe
  split
  · simpa using hs
  · next d t ht => exact (ends_next _ _).mpr (hs.ring ht fun h hl =>
      State.RingsKept.finish (s := t.setDirectory _) h hl)

theorem State.RingsKept.execUnsubscribe (hs : s.RingsKept) : Ends State.RingsKept (execUnsubscribe s) := by
  unfold Sys2Proof.Machine.execUnsubscribe
  split
  · simpa using hs
  · next d t ht =>
    have hremoved := removeEntry_changesOnly t d.object
    exact (ends_next _ _).mpr (hs.ring ht fun h hl =>
      .finish (h.elsewhere hremoved (by decide)) (awake_of_changesOnly hremoved (by decide) hl))

theorem State.RingsKept.execUnbind (hs : s.RingsKept) : Ends State.RingsKept (execUnbind s) := by
  unfold Sys2Proof.Machine.execUnbind
  split
  · simpa using hs
  · next d t ht => exact (ends_next _ _).mpr (hs.ring ht fun h hl =>
      State.RingsKept.finish (s := t.updConsume d.object _) h hl)

/-- A change of the locked mark, by LOCK or UNLOCK (R32). -/
theorem State.RingsKept.locked {d : Descriptor} {b : Bool} (hs : s.RingsKept) (hl : s.station.life ≠ .awaitStart) :
    ((s.markLocked d.object b).finish d .ok).RingsKept :=
  have hmarked := markLocked_changesOnly s d.object b
  .finish (hs.elsewhere hmarked (by decide)) (awake_of_changesOnly hmarked (by decide) hl)

theorem State.RingsKept.execLock (hs : s.RingsKept) : Ends State.RingsKept (execLock s) := by
  unfold Sys2Proof.Machine.execLock
  split
  · simpa using hs
  · next d t ht => exact (ends_next _ _).mpr (hs.ring ht fun h hl => h.locked hl)

theorem State.RingsKept.execUnlock (hs : s.RingsKept) : Ends State.RingsKept (execUnlock s) := by
  unfold Sys2Proof.Machine.execUnlock
  split
  · simpa using hs
  · next d t ht => exact (ends_next _ _).mpr (hs.ring ht fun h hl => h.locked hl)

theorem State.RingsKept.execPull (hs : s.RingsKept) : Ends State.RingsKept (execPull s) := by
  unfold Sys2Proof.Machine.execPull
  split
  · simpa using hs
  · next d t ht => exact (ends_next _ _).mpr (hs.ring ht fun h hl =>
      .settle (.finish h.placeCommand (awake_of_changesOnly (placeCommand_changesOnly t _) (by decide) hl)))

theorem State.RingsKept.execClaim (hs : s.RingsKept) : Ends State.RingsKept (execClaim s) := by
  unfold Sys2Proof.Machine.execClaim
  split
  · simpa using hs
  · next d t ht => exact (ends_next _ _).mpr (hs.ring ht fun h hl =>
      .settle (.finish h.takeClaim (awake_of_changesOnly (takeClaim_changesOnly t d) (by decide) hl)))

theorem State.RingsKept.execRelinquish (hs : s.RingsKept) : Ends State.RingsKept (execRelinquish s) := by
  unfold Sys2Proof.Machine.execRelinquish
  split
  · simpa using hs
  · next d t ht => exact (ends_next _ _).mpr (hs.ring ht fun h hl =>
      .settle (.finish h.release (awake_of_changesOnly (release_changesOnly t d.object d.tag) (by decide) hl)))

theorem State.RingsKept.execWrite (hs : s.RingsKept) : Ends State.RingsKept (execWrite s) := by
  unfold Sys2Proof.Machine.execWrite
  split
  · simpa using hs
  · next d t ht =>
    refine (ends_next _ _).mpr (hs.ring ht fun h hl => ?_)
    have hread : (t.setPort (t.port.engineReads d.buffer d.length).2).RingsKept := h
    have hstaged := stage_changesOnly (t.setPort (t.port.engineReads d.buffer d.length).2) d.object
      (t.port.engineReads d.buffer d.length).1
    exact .settle (.finish (hread.elsewhere hstaged (by decide)) (awake_of_changesOnly hstaged (by decide) hl))

theorem State.RingsKept.execRead (hs : s.RingsKept) : Ends State.RingsKept (execRead s) := by
  unfold Sys2Proof.Machine.execRead
  split
  · simpa using hs
  · next d t ht =>
    refine (ends_next _ _).mpr (hs.ring ht fun h hl => ?_)
    unfold State.readLine
    split
    · next l _ _ =>
      have hread : (t.setPort (t.port.engineWrites d.buffer l.payload)).RingsKept := h
      have htouched := touchLine_changesOnly (t.setPort (t.port.engineWrites d.buffer l.payload)) d.object
      exact .complete (hread.elsewhere htouched (by decide)) (awake_of_changesOnly htouched (by decide) hl)
    · exact h.complete hl

theorem State.RingsKept.execSnapshot (hs : s.RingsKept) : Ends State.RingsKept (execSnapshot s) := by
  unfold Sys2Proof.Machine.execSnapshot
  split
  · simpa using hs
  · next d t ht => exact (ends_next _ _).mpr (hs.ring ht fun h hl =>
      State.RingsKept.complete (s := t.setPort _) h hl)

/-- A LEAVE leads on to LEAVING with the copy, and each release keeps it there (R145). -/
theorem State.RingsKept.beginLeave {tag : Word16} (hs : s.RingsKept) (hl : s.station.life ≠ .awaitStart) :
    (s.beginLeave tag).RingsKept ∧ (s.beginLeave tag).station.life ≠ .awaitStart := by
  have hleaving := hs.live (x := { s.station with life := .leaving, keptTag := tag }) hl Life.noConfusion rfl
  exact fold_keeps (P := fun u => u.RingsKept ∧ u.station.life ≠ .awaitStart)
    (fun u n hu => ⟨hu.1.release, awake_of_changesOnly (release_changesOnly u n tag) (by decide) hu.2⟩) _
    ⟨hleaving, Life.noConfusion⟩

theorem State.RingsKept.execLeave (hs : s.RingsKept) : Ends State.RingsKept (execLeave s) := by
  unfold Sys2Proof.Machine.execLeave
  split
  · simpa using hs
  · next d t ht =>
    refine (ends_next _ _).mpr (hs.ring ht fun h hl => .settle ?_)
    obtain ⟨hleft, hlife⟩ := h.beginLeave (tag := d.tag) hl
    exact hleft.finish hlife

theorem State.RingsKept.execRejoin (hs : s.RingsKept) : Ends State.RingsKept (execRejoin s) := by
  unfold Sys2Proof.Machine.execRejoin
  split
  · simpa using hs
  · next d t ht => exact (ends_next _ _).mpr (hs.ring ht fun h hl =>
      .finish (h.live hl Life.noConfusion rfl) Life.noConfusion)

/-! ## The line -/

theorem State.RingsKept.execCarrierBegins (hs : s.RingsKept) : Ends State.RingsKept (execCarrierBegins s) := by
  unfold Sys2Proof.Machine.execCarrierBegins
  split
  · simpa using hs
  · exact (ends_next _ _).mpr hs

theorem State.RingsKept.execFrameEnd (hs : s.RingsKept) (bytes : List Byte) :
    Ends State.RingsKept (execFrameEnd bytes s) := by
  have hskip : (s.setRx .skip).RingsKept := hs
  have hclash : (s.setRx .skip).clash.RingsKept := by
    unfold State.clash
    split
    · next hl => exact hskip.enterMuted (by rw [hl]; decide)
    · next hl => exact hskip.enterMuted (by rw [hl]; decide)
    · next hl => exact hskip.enterMuted (by rw [hl]; decide)
    · next hl => exact hskip.enterMuted (by rw [hl]; decide)
    · exact hs
    · exact hs
  unfold Sys2Proof.Machine.execFrameEnd State.frameEnd
  split
  · split
    · rw [ends_next]
      split
      · exact hs
      · split
        · exact hs
        · split
          · exact hclash
          · exact hs
    · simpa using hs
  · simpa using hs

theorem State.RingsKept.execFirstByteCollected (hs : s.RingsKept) (byte : Byte) :
    Ends State.RingsKept (execFirstByteCollected byte s) := by
  unfold Sys2Proof.Machine.execFirstByteCollected
  split
  · exact (ends_next _ _).mpr hs
  · simpa using hs

theorem State.RingsKept.execHeaderFieldsComplete (hs : s.RingsKept) (byte1 byte2 : Byte) :
    Ends State.RingsKept (execHeaderFieldsComplete byte1 byte2 s) := by
  unfold Sys2Proof.Machine.execHeaderFieldsComplete
  split
  · split
    · simpa using hs
    · exact (ends_next _ _).mpr hs
  · simpa using hs

/-! ## The dispatched items -/

theorem State.RingsKept.dropIgnored (hs : s.RingsKept) : s.dropIgnored.RingsKept := hs

theorem State.RingsKept.dataAtProduce {n source : Nat} {p : Produce} (hs : s.RingsKept) :
    (s.dataAtProduce n source p).RingsKept := by
  unfold State.dataAtProduce
  split
  · exact hs.loseClaim
  · split
    · exact hs.depose
    · exact hs.requestDispute
  · exact hs
  · exact hs

theorem State.RingsKept.claimAtProduce {n source : Nat} {p : Produce} (hs : s.RingsKept) :
    (s.claimAtProduce n source p).RingsKept := by
  unfold State.claimAtProduce
  split
  · split
    · exact hs.requestDispute
    · exact hs.loseClaim
  · exact hs.requestDispute
  · exact hs
  · exact hs

theorem State.RingsKept.disputeAtProduce {n source : Nat} {p : Produce} (hs : s.RingsKept) :
    (s.disputeAtProduce n source p).RingsKept := by
  unfold State.disputeAtProduce
  split
  · exact hs.loseClaim
  · split
    · exact hs.depose
    · exact hs.requestDispute
  · exact hs
  · exact hs

theorem State.RingsKept.execDataRecordAtConsume (hs : s.RingsKept) :
    Ends State.RingsKept (execDataRecordAtConsume s) := by
  unfold Sys2Proof.Machine.execDataRecordAtConsume
  split
  · split
    · exact (ends_next _ _).mpr (.settle (.judgeRecord hs))
    · exact (ends_next _ _).mpr hs.dropIgnored
  · exact (ends_next _ _).mpr hs.dropIgnored

theorem State.RingsKept.execDataRecordAtProduce (hs : s.RingsKept) :
    Ends State.RingsKept (execDataRecordAtProduce s) := by
  unfold Sys2Proof.Machine.execDataRecordAtProduce
  split
  · split
    · exact (ends_next _ _).mpr (.settle (.dataAtProduce hs))
    · exact (ends_next _ _).mpr hs.dropIgnored
  · exact (ends_next _ _).mpr hs.dropIgnored

theorem State.RingsKept.execClaimHeard (hs : s.RingsKept) : Ends State.RingsKept (execClaimHeard s) := by
  unfold Sys2Proof.Machine.execClaimHeard
  split
  · split
    · exact (ends_next _ _).mpr (.settle (.claimAtProduce hs))
    · exact (ends_next _ _).mpr hs.dropIgnored
  · exact (ends_next _ _).mpr hs.dropIgnored

theorem State.RingsKept.execDisputeHeard (hs : s.RingsKept) : Ends State.RingsKept (execDisputeHeard s) := by
  unfold Sys2Proof.Machine.execDisputeHeard
  split
  · split
    · exact (ends_next _ _).mpr (.settle (.disputeAtProduce hs))
    · exact (ends_next _ _).mpr hs.dropIgnored
  · exact (ends_next _ _).mpr hs.dropIgnored

theorem State.RingsKept.execRelinquishHeardAtProduce (hs : s.RingsKept) :
    Ends State.RingsKept (execRelinquishHeardAtProduce s) := by
  unfold Sys2Proof.Machine.execRelinquishHeardAtProduce
  split
  · split
    · exact (ends_next _ _).mpr hs
    · exact (ends_next _ _).mpr hs.dropIgnored
  · exact (ends_next _ _).mpr hs.dropIgnored

theorem State.RingsKept.execRelinquishHeardAtConsume (hs : s.RingsKept) :
    Ends State.RingsKept (execRelinquishHeardAtConsume s) := by
  unfold Sys2Proof.Machine.execRelinquishHeardAtConsume
  split
  · split
    · exact (ends_next _ _).mpr (.settle (.relinquishAtConsume hs))
    · exact (ends_next _ _).mpr hs.dropIgnored
  · exact (ends_next _ _).mpr hs.dropIgnored

theorem State.RingsKept.execPullHeard (hs : s.RingsKept) : Ends State.RingsKept (execPullHeard s) := by
  unfold Sys2Proof.Machine.execPullHeard State.pullAtProduce
  split
  · next rest _ =>
    split
    · refine (ends_next _ _).mpr (.settle ?_)
      split
      · exact State.RingsKept.elsewhere (s := s.setDispatch rest) hs (appendRepeat_changesOnly _ _) (by decide)
      · exact hs
    · exact (ends_next _ _).mpr hs.dropIgnored
  · exact (ends_next _ _).mpr hs.dropIgnored

theorem State.RingsKept.execHoldHeard (hs : s.RingsKept) : Ends State.RingsKept (execHoldHeard s) := by
  unfold Sys2Proof.Machine.execHoldHeard
  split
  · split
    · exact (ends_next _ _).mpr (.settle (hs.unit id))
    · exact (ends_next _ _).mpr hs
  · exact (ends_next _ _).mpr hs.dropIgnored

/-! ## The timers -/

theorem State.RingsKept.windowEnds {k : Fin 4} (hs : s.RingsKept) : (s.windowEnds k).RingsKept := by
  unfold State.windowEnds
  split
  · exact hs
  · split
    · exact hs
    · split
      · exact hs.grantClaim.settle
      · exact hs

theorem State.RingsKept.lastFall (hs : s.RingsKept) : s.lastFall.RingsKept := by
  unfold State.lastFall
  split
  · exact hs
  · exact .settle (hs.unit id)

theorem State.RingsKept.ownHoldEnds (hs : s.RingsKept) : s.ownHoldEnds.RingsKept := by
  unfold State.ownHoldEnds State.expireOwnHold
  split
  · refine .settle ?_
    split
    · exact hs.hold rfl
    · exact .postHoldEnded (hs.unit id)
  · exact hs

/-- The end of the join period leads on to ACTIVE with the copy (R144). -/
theorem State.RingsKept.joinEnds (hs : s.RingsKept) : s.joinEnds.RingsKept := by
  unfold State.joinEnds State.enterActive
  split
  · next hjoin =>
    exact .settle (.highMarkTest (.post (hs.live (by rw [hjoin.1]; decide) Life.noConfusion rfl)))
  · exact hs

/-- A boundary changes the counters of the slots alone (R143). -/
theorem State.RingsKept.slotBoundary (hs : s.RingsKept) : s.slotBoundary.RingsKept := by
  obtain ⟨-, -, htable⟩ := slotTable_spec s.contention
  have hrng : s.contention.slotTable.slotExpiry.rng = s.contention.rng := by
    rw [slotExpiry_eq, htable]
  have hstation : (s.station.slot s.cfg.joinPeriod).life = s.station.life
      ∧ (s.station.slot s.cfg.joinPeriod).copy = s.station.copy := by
    unfold Station.slot
    dsimp only
    split
    · split
      · exact ⟨rfl, rfl⟩
      · exact ⟨rfl, rfl⟩
    · exact ⟨rfl, rfl⟩
  exact hs.congr hstation.1 hstation.2 rfl rfl hrng

theorem State.RingsKept.carryOutSlots (hs : s.RingsKept) : s.carryOutSlots.RingsKept := by
  have hgrants := fold_keeps (F := State.windowEnds) (fun _ _ hu => State.RingsKept.windowEnds hu) [0, 1, 2, 3] hs
  exact hgrants.lastFall.ownHoldEnds.joinEnds

theorem State.RingsKept.execSlotBoundary (hs : s.RingsKept) : Ends State.RingsKept (execSlotBoundary s) := by
  unfold Sys2Proof.Machine.execSlotBoundary
  split
  · simpa using hs
  · exact (ends_next _ _).mpr hs.carryOutSlots.slotBoundary

theorem State.RingsKept.execGrant (hs : s.RingsKept) (slot : Nat) : Ends State.RingsKept (execGrant slot s) := by
  unfold Sys2Proof.Machine.execGrant
  split
  · simpa using hs.windowEnds
  · simpa using hs

theorem State.RingsKept.tickEntry {n : Nat} (hs : s.RingsKept) : (s.tickEntry n).RingsKept := by
  unfold State.tickEntry
  split
  · exact hs
  · split
    · dsimp only
      have hmet : (s.setDirectory (updateEntry s.directory n (fun e => { e with tickOwed := false }))).RingsKept := hs
      split
      · split
        · exact .settle (hmet.elsewhere (expireRefresh_changesOnly _ n) (by decide))
        · exact hmet.expireAge.settle
      · exact hs
    · exact hs

theorem State.RingsKept.tickTimer (hs : s.RingsKept) : s.tickTimer.RingsKept := by
  unfold State.tickTimer
  split
  · split
    · exact .updateInt hs
    · exact hs
  · exact hs

/-- A tick changes the counters of the ticks alone (R143). -/
theorem State.RingsKept.tickAll (hs : s.RingsKept) (late : List Nat) (timerLate : Bool) :
    (s.tickAll late timerLate).RingsKept := by
  obtain ⟨-, -, -, hbacklog, hlost, -⟩ := id hs
  have hticked : s.notice.tick s.cfg.coalescing timerLate = { s.notice with
      timer := (s.notice.tick s.cfg.coalescing timerLate).timer
      tickOwed := (s.notice.tick s.cfg.coalescing timerLate).tickOwed } := by
    unfold NoticeUnit.tick
    split
    · rfl
    · rfl
  have hcounted : ((s.setStation { s.station with tickCount := s.station.tickCount + 1 }).setDirectory
      (s.directory.map (Entry.tick late))).RingsKept := hs
  unfold State.tickAll
  rw [hticked]
  exact hcounted.unitOfNotices rfl le_rfl hbacklog hlost

theorem State.RingsKept.execTick (hs : s.RingsKept) (late : List Nat) (timerLate : Bool) :
    Ends State.RingsKept (execTick s late timerLate) := by
  have howed : s.carryOutTicks.RingsKept :=
    .tickTimer (fold_keeps (P := State.RingsKept) (fun _ _ hu => hu.tickEntry) _ hs)
  unfold Sys2Proof.Machine.execTick
  split
  · simpa using hs
  · exact (ends_next _ _).mpr (howed.tickAll late timerLate)

theorem State.RingsKept.execRefreshExpiry (hs : s.RingsKept) (n : Nat) :
    Ends State.RingsKept (execRefreshExpiry n s) := by
  unfold Sys2Proof.Machine.execRefreshExpiry
  split
  · simpa using hs
  · simpa using hs.tickEntry

theorem State.RingsKept.execAgeExpiry (hs : s.RingsKept) (n : Nat) : Ends State.RingsKept (execAgeExpiry n s) := by
  unfold Sys2Proof.Machine.execAgeExpiry
  split
  · simpa using hs
  · simpa using hs.tickEntry

/-! ## The Contention Unit -/

theorem State.RingsKept.execQuietReached (hs : s.RingsKept) : Ends State.RingsKept (execQuietReached s) := by
  unfold Sys2Proof.Machine.execQuietReached
  split
  · exact (ends_next _ _).mpr (hs.unit id)
  · simpa using hs

theorem State.RingsKept.execDeferralSlot (hs : s.RingsKept) : Ends State.RingsKept (execDeferralSlot s) := by
  unfold Sys2Proof.Machine.execDeferralSlot
  split
  · split
    · exact (ends_next _ _).mpr (hs.unit id)
    · simpa using hs
  · simpa using hs

theorem State.RingsKept.execDeferralEnd (hs : s.RingsKept) : Ends State.RingsKept (execDeferralEnd s) := by
  unfold Sys2Proof.Machine.execDeferralEnd
  split
  · exact (ends_next _ _).mpr hs.chooseFrame.settle
  · simpa using hs

theorem State.RingsKept.execCollision (hs : s.RingsKept) : Ends State.RingsKept (execCollision s) := by
  unfold Sys2Proof.Machine.execCollision
  split
  · exact (ends_next _ _).mpr hs.collide.settle
  · simpa using hs

theorem State.RingsKept.execLateCollision (hs : s.RingsKept) : Ends State.RingsKept (execLateCollision s) := by
  unfold Sys2Proof.Machine.execLateCollision
  split
  · exact (ends_next _ _).mpr hs.reportAbandonment.dropFrame.settle
  · simpa using hs

theorem State.RingsKept.execSuccessfulEnd (hs : s.RingsKept) : Ends State.RingsKept (execSuccessfulEnd s) := by
  unfold Sys2Proof.Machine.execSuccessfulEnd
  split
  · exact (ends_next _ _).mpr (.settle (.dropFrame (.reportSuccess hs)))
  · simpa using hs

/-! ## Every command, and the step -/

theorem State.RingsKept.exec (hs : s.RingsKept) (c : Instr) : Ends State.RingsKept (exec c s) := by
  cases c with
  | hardReset => exact (ends_next _ _).mpr (resets_ringsKept (hardReset_resets s))
  | softReset via => exact hs.execSoftReset via
  | start via during => exact hs.execStart via during
  | cmdAdvance via value => exact hs.execCmdAdvance via value
  | noticeTaken via k => exact hs.execNoticeTaken via k
  | tickHighByteRead via => exact hs.execTickHighByteRead via
  | registerWriteIgnored via addr value => exact hs.execRegisterWriteIgnored via addr value
  | sharedRamWrite via addr value turn => exact (ends_next _ _).mpr hs
  | examination => exact hs.execExamination
  | badCommand => exact hs.execBadCommand
  | subscribe => exact hs.execSubscribe
  | unsubscribe => exact hs.execUnsubscribe
  | claim => exact hs.execClaim
  | relinquish => exact hs.execRelinquish
  | write => exact hs.execWrite
  | read => exact hs.execRead
  | pull => exact hs.execPull
  | lock => exact hs.execLock
  | unlock => exact hs.execUnlock
  | unbind => exact hs.execUnbind
  | snapshot => exact hs.execSnapshot
  | leave => exact hs.execLeave
  | rejoin => exact hs.execRejoin
  | carrierBegins => exact hs.execCarrierBegins
  | carrierAbsent => exact (ends_next _ _).mpr hs
  | frameEnd bytes => exact hs.execFrameEnd bytes
  | dataRecordAtConsume => exact hs.execDataRecordAtConsume
  | dataRecordAtProduce => exact hs.execDataRecordAtProduce
  | claimHeard => exact hs.execClaimHeard
  | disputeHeard => exact hs.execDisputeHeard
  | relinquishHeardAtProduce => exact hs.execRelinquishHeardAtProduce
  | relinquishHeardAtConsume => exact hs.execRelinquishHeardAtConsume
  | pullHeard => exact hs.execPullHeard
  | holdHeard => exact hs.execHoldHeard
  | slotBoundary => exact hs.execSlotBoundary
  | grant slot => exact hs.execGrant slot
  | holdEntryRunsOut => exact (ends_next _ _).mpr hs.lastFall
  | ownHoldExpires => exact (ends_next _ _).mpr hs.ownHoldEnds
  | joinPeriodEnd => exact (ends_next _ _).mpr hs.joinEnds
  | tick late timerLate => exact hs.execTick late timerLate
  | refreshExpiry object => exact hs.execRefreshExpiry object
  | ageExpiry object => exact hs.execAgeExpiry object
  | coalescingExpiry => exact (ends_next _ _).mpr hs.tickTimer
  | quietReached => exact hs.execQuietReached
  | deferralSlot => exact hs.execDeferralSlot
  | deferralEnd => exact hs.execDeferralEnd
  | collision => exact hs.execCollision
  | lateCollision => exact hs.execLateCollision
  | successfulEnd => exact hs.execSuccessfulEnd
  | placement => exact hs.execPlacement
  | firstByteCollected byte => exact hs.execFirstByteCollected byte
  | headerFieldsComplete byte1 byte2 => exact hs.execHeaderFieldsComplete byte1 byte2
  | resetNReleased => exact (ends_next _ _).mpr hs

end Commands

/-- Settles O5: the generator never draws 0, a post keeps the backlog's bounds, each index goes round its ring, and a
started station keeps its copy. -/
theorem ringsStayKept : Obligations.RingsStayKept := by
  intro s t hs ht
  unfold step at ht
  split at ht
  · cases ht
    exact hs
  · next c rest _ =>
    have hrest : State.RingsKept { s with pending := rest } := hs
    exact hrest.exec c t ht

end Sys2Proof.Machine
end


section
/-! PROOF. The slot boundary and the tick (R143): what the last one still owes, carried out as the commands of its
expiries would, and then the counters (log 4). -/

namespace Sys2Proof.Machine

section Owed
variable {s t u : State}

/-! ## One command after the other -/

theorem State.After.append {cs ds : List Instr} (h : s.After t cs) (h' : t.After u ds) : s.After u (cs ++ ds) := by
  induction cs generalizing s with
  | nil => obtain rfl : t = s := h; exact h'
  | cons c rest ih =>
    obtain ⟨a, ha, hrest⟩ := h
    exact ⟨a, ha, ih hrest⟩

/-- A fold whose every round is some commands is the commands of its rounds. -/
theorem after_foldl {α : Type} {F : State → α → State} {cs : α → List Instr}
    (h : ∀ (s : State) x, s.After (F s x) (cs x)) (l : List α) (s : State) : s.After (l.foldl F s) (l.flatMap cs) := by
  induction l generalizing s with
  | nil => rfl
  | cons x rest ih => exact (h s x).append (ih (F s x))

theorem foldl_fixed {α : Type} {F : State → α → State} {s : State} (h : ∀ x, F s x = s) (l : List α) :
    l.foldl F s = s := by
  induction l with
  | nil => rfl
  | cons x rest ih => rw [List.foldl_cons, h, ih]

/-! ## What the last slot boundary owes (R57, R132, R135, R144) -/

theorem carryOutSlots_after (s : State) : s.After s.carryOutSlots [.grant 0, .grant 1, .grant 2, .grant 3,
    .holdEntryRunsOut, .ownHoldExpires, .joinPeriodEnd] :=
  ⟨_, rfl, _, rfl, _, rfl, _, rfl, _, rfl, _, rfl, _, rfl, rfl⟩

theorem windowEnds_of_running {k : Fin 4} (h : ∀ c, s.ownership.slots.get k = some c → c.phase ≠ .window 0) :
    s.windowEnds k = s := by
  unfold State.windowEnds
  split
  · rfl
  · next c hc =>
    split
    · rfl
    · exact if_neg fun hends => h c hc hends.1

theorem lastFall_of_none (h : s.contention.holdFall = none) : s.lastFall = s := by
  unfold State.lastFall
  rw [h]

theorem ownHoldEnds_of_notOwed (h : s.contention.ownHold = .on → s.contention.expiryOwed = false) :
    s.ownHoldEnds = s :=
  if_neg fun ⟨hon, howed⟩ => by rw [h hon] at howed; cases howed

theorem joinEnds_of_notOwed (h : s.station.life = .joining → s.station.joinOwed = false) : s.joinEnds = s :=
  if_neg fun ⟨hjoining, howed⟩ => by rw [h hjoining] at howed; cases howed

theorem carryOutSlots_of_notOwed (hwindows : ∀ k c, s.ownership.slots.get k = some c → c.phase ≠ .window 0)
    (hfall : s.contention.holdFall = none) (hhold : s.contention.ownHold = .on → s.contention.expiryOwed = false)
    (hjoin : s.station.life = .joining → s.station.joinOwed = false) : s.carryOutSlots = s := by
  unfold State.carryOutSlots
  rw [foldl_fixed (fun k => windowEnds_of_running (hwindows k)), lastFall_of_none hfall, ownHoldEnds_of_notOwed hhold,
    joinEnds_of_notOwed hjoin]

/-! ## What the last tick owes (R83, R110, R172) -/

/-- The tick that is owed to a PRODUCE entry leaves it one. -/
theorem tickEntry_keepsProduce {n : Nat} {e : Entry} {p : Produce} (he : s.entry n = some e) (hr : e.role = .produce p) :
    ∃ q, (s.tickEntry n).produce n = some q := by
  cases howed : e.tickOwed with
  | false => exact ⟨p, by rw [tickEntry_of_notOwed he howed]; exact s.produce_of_entry n e p he hr⟩
  | true =>
    by_cases hend : p.ownership = .owned ∧ p.refreshCounter + 1 = p.refreshPeriod
    · have hmet := (tickMet_exchanges he).1
      have hsettled : (s.tickEntry n).entry n = ((s.tickMet n).expireRefresh n).entry n := by
        rw [tickEntry_of_refresh he howed hr hend, State.entry, State.entry, settle_directory]
      by_cases hrepeat : p.repeatable
      · obtain ⟨⟨hentry, -⟩, -⟩ := expireRefresh_of_repeatable hmet hr hrepeat
        exact ⟨_, State.produce_of_entry _ n _ _ (hsettled.trans hentry) rfl⟩
      · obtain ⟨hentry, -⟩ := expireRefresh_of_not hmet hr hrepeat
        exact ⟨_, State.produce_of_entry _ n _ _ (hsettled.trans hentry) rfl⟩
    · obtain ⟨hentry, -⟩ := tickEntry_countsRefresh he howed hr hend
      exact ⟨_, State.produce_of_entry _ n _ _ hentry rfl⟩

theorem exec_refreshExpiry_of_none {n : Nat} (h : s.produce n = none) : exec (.refreshExpiry n) s = .next s := by
  show execRefreshExpiry n s = _
  unfold execRefreshExpiry
  rw [h]

theorem exec_ageExpiry_of_none {n : Nat} (h : s.consume n = none) : exec (.ageExpiry n) s = .next s := by
  show execAgeExpiry n s = _
  unfold execAgeExpiry
  rw [h]

/-- An entry has one role. -/
theorem consume_none_of_produce {n : Nat} {p : Produce} (h : s.produce n = some p) : s.consume n = none := by
  obtain ⟨e, he, hp⟩ := Option.bind_eq_some_iff.mp h
  rw [State.consume, he]
  exact e.consume_none_of_produce p hp

/-- The tick that is owed to an entry comes with the command of its role, and the other command finds no entry. -/
theorem tickEntry_after (s : State) (n : Nat) : s.After (s.tickEntry n) [.refreshExpiry n, .ageExpiry n] := by
  cases he : s.entry n with
  | none =>
    have hstays : s.tickEntry n = s := by
      unfold State.tickEntry
      rw [he]
    have hp : s.produce n = none := by rw [State.produce, he]; rfl
    have hc : s.consume n = none := by rw [State.consume, he]; rfl
    exact ⟨s, exec_refreshExpiry_of_none hp, s, exec_ageExpiry_of_none hc, hstays⟩
  | some e =>
    cases hr : e.role with
    | produce p =>
      obtain ⟨q, hq⟩ := tickEntry_keepsProduce he hr
      exact ⟨_, exec_refreshExpiry_of_produce (s.produce_of_entry n e p he hr), _,
        exec_ageExpiry_of_none (consume_none_of_produce hq), rfl⟩
    | consume c =>
      have hc := s.consume_of_entry n e c he hr
      have hp : s.produce n = none := by
        rw [State.produce, he]
        exact e.produce_none_of_consume c (by rw [Entry.consume, hr])
      exact ⟨s, exec_refreshExpiry_of_none hp, _, exec_ageExpiry_of_consume hc, rfl⟩

theorem carryOutTicks_after (s : State) : s.After s.carryOutTicks
    ((s.directory.map Entry.object).flatMap (fun n => [.refreshExpiry n, .ageExpiry n]) ++ [.coalescingExpiry]) :=
  State.After.append (after_foldl tickEntry_after _ s) ⟨_, rfl, rfl⟩

theorem tickTimer_of_notOwed (h : s.notice.tickOwed = false) : s.tickTimer = s := if_neg (by simp [h])

theorem carryOutTicks_of_notOwed (hentries : ∀ e ∈ s.directory, e.tickOwed = false)
    (htimer : s.notice.tickOwed = false) : s.carryOutTicks = s := by
  have hstays (n : Nat) : s.tickEntry n = s := by
    cases he : s.entry n with
    | none => unfold State.tickEntry; rw [he]
    | some e => exact tickEntry_of_notOwed he (hentries e (List.mem_of_find?_eq_some he))
  unfold State.carryOutTicks
  rw [foldl_fixed hstays, tickTimer_of_notOwed htimer]

end Owed

/-! ## The counters -/

section Counters
variable {s u : State}

/-- A boundary at the claim windows (R57). -/
theorem ClaimSlot.slot_eq (c : ClaimSlot) : c.slot = { c with
    phase := match c.phase with | .awaitSend => .awaitSend | .window n => .window (n - 1) } := by
  obtain ⟨object, phase, tag⟩ := c
  cases phase with
  | awaitSend => rfl
  | window n => rfl

theorem slotBoundary_slot (u : State) (k : Fin 4) :
    u.slotBoundary.ownership.slots.get k = (u.ownership.slots.get k).map ClaimSlot.slot :=
  mapTable_get _ _ k

theorem slotBoundary_contention (u : State) :
    u.slotBoundary.contention = { u.contention with
        holdTable := u.contention.slotTable.holdTable, holdFall := u.contention.slotTable.holdFall
        ownExpiry := if u.contention.ownHold = .on ∧ 1 < u.contention.ownExpiry then
          u.contention.ownExpiry - 1 else u.contention.ownExpiry
        expiryOwed := if u.contention.ownHold = .on ∧ u.contention.ownExpiry ≤ 1 then true
          else u.contention.expiryOwed } := by
  obtain ⟨-, -, htable⟩ := slotTable_spec u.contention
  refine (slotExpiry_eq u.contention.slotTable).trans ?_
  rw [htable]

theorem slotBoundary_table (u : State) :
    u.slotBoundary.contention.holdTable = u.contention.slotTable.holdTable
      ∧ u.slotBoundary.contention.holdFall = u.contention.slotTable.holdFall := by
  rw [slotBoundary_contention]
  exact ⟨rfl, rfl⟩

theorem tickTimer_of_running {n : Nat} (howed : s.notice.tickOwed = true) (htimer : s.notice.timer = .running n) :
    s.tickTimer = if s.cfg.coalescing ≤ n + 1 then
        (s.setNotice { s.notice with timer := .expired, tickOwed := false }).updateInt
      else s.setNotice { s.notice with timer := .running (n + 1), tickOwed := false } := by
  unfold State.tickTimer
  rw [if_pos howed, htimer]
  by_cases hend : s.cfg.coalescing ≤ n + 1
  · rw [if_pos hend]
    exact if_pos (decide_eq_true hend)
  · rw [if_neg hend]
    exact if_neg (mt of_decide_eq_true hend)

/-- A timer that does not run has no count to raise. -/
theorem tickTimer_of_resting (howed : s.notice.tickOwed = true)
    (htimer : s.notice.timer = .stopped ∨ s.notice.timer = .expired) :
    s.tickTimer = s.setNotice { s.notice with tickOwed := false } := by
  have hcount : s.notice.timer.endsAtTick s.cfg.coalescing = false ∧ s.notice.timer.count = s.notice.timer := by
    rcases htimer with htimer | htimer
    · rw [htimer]; exact ⟨rfl, rfl⟩
    · rw [htimer]; exact ⟨rfl, rfl⟩
  unfold State.tickTimer
  rw [if_pos howed, hcount.1, hcount.2]
  exact if_neg Bool.false_ne_true

end Counters

/-- Settles O47: what is owed comes first, and each block of slots then counts by itself. -/
theorem slotBoundaryAdvancesTheSlotCounters : Obligations.SlotBoundaryAdvancesTheSlotCounters := by
  intro s hlife
  have howed := carryOutSlots_after s
  have hnone := carryOutSlots_of_notOwed (s := s)
  have hexec : exec .slotBoundary s = .next s.carryOutSlots.slotBoundary := if_neg hlife
  generalize s.carryOutSlots = u at howed hnone hexec
  obtain ⟨hfallen, hlast, -⟩ := slotTable_spec u.contention
  obtain ⟨htable, hfall⟩ := slotBoundary_table u
  refine ⟨u, u.slotBoundary, howed, hnone, hexec, Station.slot_eq _ _, fun k => ?_, rfl, ?_, ?_, ?_,
    slotBoundary_changesOnly u⟩
  · rw [slotBoundary_slot]
    exact congrArg (Option.map · _) (funext ClaimSlot.slot_eq)
  · rw [htable, hfall]
    exact hfallen
  · rw [hfall]
    exact hlast
  · rw [htable, hfall]
    exact slotBoundary_contention u

/-- Settles O51: what is owed comes first; each entry and the timer then count by themselves, or owe their tick. -/
theorem tickAdvancesTheTickCounters : Obligations.TickAdvancesTheTickCounters := by
  intro s
  refine ⟨fun hlife late timerLate => ?_, fun howed => ⟨s.tickTimer, rfl, tickTimer_changesOnly s, ?_⟩,
    fun hnot => congrArg _ (tickTimer_of_notOwed hnot)⟩
  · have hexec : exec (.tick late timerLate) s = .next (s.carryOutTicks.tickAll late timerLate) := if_neg hlife
    refine ⟨_, _, carryOutTicks_after s, carryOutTicks_of_notOwed, hexec, rfl, fun n => ?_, NoticeUnit.tick_eq _ _ _,
      tickAll_changesOnly _ _ _⟩
    refine (lookup_map _ (Entry.tick late) (tick_object late) n).trans ?_
    exact congrArg (Option.map · _) (funext (Machine.tick_eq late))
  · cases htimer : s.notice.timer with
    | running n =>
      rw [tickTimer_of_running howed htimer]
      dsimp only
      split
      · exact ⟨rfl, updateInt_lineFollowsCondition _⟩
      · rfl
    | stopped =>
      rw [tickTimer_of_resting howed (.inl htimer)]
      rfl
    | expired =>
      rw [tickTimer_of_resting howed (.inr htimer)]
      rfl

end Sys2Proof.Machine
end


section
/-! PROOF. The two resets and the release of RESET_N (R139, R176, R177). -/

namespace Sys2Proof.Machine

theorem exec_softReset_of_serves {s : State} {via : SpiVia} (h : s.port.Serves via true 0x4006) :
    exec (.softReset via) s = .next (s.setPort (s.port.afterRegisterByte via true 0x4006)).softReset := by
  show execSoftReset via s = _
  unfold execSoftReset
  rw [show Config.addrControl = 0x4006 from rfl, s.registerByte_of_serves via true 0x4006 h]

/-- Settles O14: each reset is the reset state with what it keeps, and the release changes the held mark. -/
theorem resetsGiveTheResetValues : Obligations.ResetsGiveTheResetValues := by
  intro s
  refine ⟨⟨s.hardReset, rfl, hardReset_resets s, fun _ => rfl, rfl, rfl, rfl, rfl⟩, fun via h => ?_,
    ⟨_, rfl, rfl, setPort_changesOnly s _⟩⟩
  exact ⟨_, exec_softReset_of_serves h, softReset_resets _, rfl, rfl⟩

end Sys2Proof.Machine
end


section
/-! PROOF. Register accesses without effect, what every address returns, the TICK read, and RESET_N held (R140, R155,
R171, R176 to R180, Tables 8.1 and 11.2). -/

namespace Sys2Proof.Machine

section Accesses
variable {s : State} {via : SpiVia} {value : Byte}

/-! ## Accesses that are served -/

theorem ignoredWrite_of {addr : Nat} (h : 0x4000 ≤ addr ∧ addr ≤ 0x4005 ∨ addr = 0x4006 ∧ value ≠ 0x01 ∧ value ≠ 0x0F
    ∨ 0x4009 ≤ addr ∧ addr ≤ 0xFFFF) : ignoredWrite addr value = true := by
  simp only [ignoredWrite, Config.addrControl, Config.spaceEnd, Bool.or_eq_true, Bool.and_eq_true, decide_eq_true_eq,
    beq_iff_eq, bne_iff_ne]
  rcases h with h | ⟨haddr, hgo, hreset⟩ | h
  · exact .inl (.inl h)
  · exact .inl (.inr ⟨⟨haddr, hgo⟩, hreset⟩)
  · exact .inr ⟨h.1, decide_eq_true (Nat.lt_succ_of_le h.2)⟩

theorem exec_registerWriteIgnored_of_serves {addr : Nat} (h : s.port.Serves via true addr)
    (hignored : ignoredWrite addr value = true) :
    exec (.registerWriteIgnored via addr value) s = .next (s.setPort (s.port.afterRegisterByte via true addr)) := by
  show execRegisterWriteIgnored via addr value s = _
  unfold execRegisterWriteIgnored
  rw [if_pos hignored, s.registerByte_of_serves via true addr h]

/-- The port after a START and the SPI bytes that follow it. -/
def State.metStart (s : State) (via : SpiVia) (during : List RamByte) : State :=
  s.setPort ((s.port.afterRegisterByte via true 0x4006).acceptBytes during)

theorem exec_start_of_serves (h : s.port.Serves via true 0x4006) (during : List RamByte) :
    exec (.start via during) s =
      if s.station.life = .awaitStart then .next (s.metStart via during).startRequest
      else .next (s.metStart via during) := by
  show execStart via s during = _
  unfold execStart
  rw [show Config.addrControl = 0x4006 from rfl, s.registerByte_of_serves via true 0x4006 h]
  rfl

theorem exec_cmdAdvance_of_serves (h : s.port.Serves via true 0x4007) :
    exec (.cmdAdvance via value) s = .next (s.setPort (s.port.afterRegisterByte via true 0x4007)).scanRequest := by
  show execCmdAdvance via value s = _
  unfold execCmdAdvance
  rw [show Config.addrCmdAdvance = 0x4007 from rfl, s.registerByte_of_serves via true 0x4007 h]

/-- No request to scan is taken before the start (R155). -/
theorem exec_cmdAdvance_of_await (h : s.port.Serves via true 0x4007) (hlife : s.station.life = .awaitStart) :
    exec (.cmdAdvance via value) s = .next (s.setPort (s.port.afterRegisterByte via true 0x4007)) :=
  (exec_cmdAdvance_of_serves h).trans (congrArg _ (if_pos hlife))

theorem exec_noticeTaken_of_serves (h : s.port.Serves via true 0x4008) :
    exec (.noticeTaken via value) s =
      .next ((s.setPort (s.port.afterRegisterByte via true 0x4008)).releaseNotices value.toNat) := by
  show execNoticeTaken via value s = _
  unfold execNoticeTaken
  rw [show Config.addrNoticeTaken = 0x4008 from rfl, s.registerByte_of_serves via true 0x4008 h]

/-- The high byte is returned and the low byte latched at once (R179). -/
theorem exec_tickHighByteRead_of_serves (h : s.port.Serves via false 0x400C) :
    exec (.tickHighByteRead via) s = .next (s.setPort { s.port.afterRegisterByte via false 0x400C with
      readByte := highByte s.station.tickCount, tickLatch := byteOf s.station.tickCount }) := by
  show execTickHighByteRead via s = _
  unfold execTickHighByteRead
  rw [show Config.addrTickHigh = 0x400C from rfl, s.registerByte_of_serves via false 0x400C h]
  rfl

theorem highByte_byteOf_toNat (n : Nat) : (highByte n).toNat * 256 + (byteOf n).toNat = n % 65536 := by
  have hhigh : (highByte n).toNat = n / 256 % 256 := BitVec.toNat_ofNat _ _
  have hlow : (byteOf n).toNat = n % 256 := BitVec.toNat_ofNat _ _
  omega

/-! ## RESET_N held (R176) -/

section Held
variable (hheld : s.port.resetHeld = true)
include hheld

theorem registerByte_of_resetHeld (w : Bool) (addr : Nat) : s.registerByte via w addr = none := by
  simp [State.registerByte, HostPort.spiByte, HostPort.serves, hheld]

/-- No byte is served, so no command finds one. -/
theorem exec_of_resetHeld :
    exec (.softReset via) s = .next s ∧ (∀ during, exec (.start via during) s = .next s)
      ∧ exec (.cmdAdvance via value) s = .next s ∧ exec (.noticeTaken via value) s = .next s
      ∧ exec (.tickHighByteRead via) s = .next s
      ∧ ∀ addr turn, exec (.registerWriteIgnored via addr value) s = .next s
          ∧ exec (.sharedRamWrite via addr value turn) s = .next s := by
  have hnone := registerByte_of_resetHeld (via := via) hheld
  refine ⟨?_, fun during => ?_, ?_, ?_, ?_, fun addr turn => ⟨?_, ?_⟩⟩
  · show execSoftReset via s = _
    rw [execSoftReset, hnone]
  · show execStart via s during = _
    rw [execStart, hnone]
  · show execCmdAdvance via value s = _
    rw [execCmdAdvance, hnone]
  · show execNoticeTaken via value s = _
    rw [execNoticeTaken, hnone]
  · show execTickHighByteRead via s = _
    rw [execTickHighByteRead, hnone]
  · show execRegisterWriteIgnored via addr value s = _
    rw [execRegisterWriteIgnored, hnone]
    exact ite_self _
  · have hport := s.port.acceptBytes_of_resetHeld [{ via := via, addr := addr, value := value, turn := turn }] hheld
    exact congrArg (fun p => Host.Outcome.next (s.setPort p)) hport

end Held

/-! ## What a read returns (R177, R179, Tables 8.1 and 11.2) -/

theorem life_code (l : Life) : l.code = stateCode l ∧ l.code < 256 := by
  cases l <;> exact ⟨rfl, by decide⟩

/-- Three flags as the low three bits of a byte. -/
theorem flags_bits (a b c : Bool) :
    (byteOf (flagBit a 0 + flagBit b 1 + flagBit c 2)).getLsbD 0 = a
      ∧ (byteOf (flagBit a 0 + flagBit b 1 + flagBit c 2)).getLsbD 1 = b
      ∧ (byteOf (flagBit a 0 + flagBit b 1 + flagBit c 2)).getLsbD 2 = c
      ∧ ∀ i, 3 ≤ i → (byteOf (flagBit a 0 + flagBit b 1 + flagBit c 2)).getLsbD i = false := by
  have hsmall : flagBit a 0 + flagBit b 1 + flagBit c 2 < 2 ^ 3 := by
    revert a b c; decide
  refine ⟨?_, ?_, ?_, fun i hi => ?_⟩
  · revert a b c; decide
  · revert a b c; decide
  · revert a b c; decide
  · rw [byteOf, BitVec.getLsbD_ofNat,
      Nat.testBit_lt_two_pow (hsmall.trans_le (Nat.pow_le_pow_right (by decide) hi)), Bool.and_false]

theorem portRead_ram {addr : Nat} (h : addr < 0x4000) : s.portRead addr = s.ramByte addr := if_pos h

theorem portRead_write {addr : Nat} (h : 0x4006 ≤ addr) (h' : addr ≤ 0x4008) : s.portRead addr = 0 := by
  obtain rfl | rfl | rfl : addr = 0x4006 ∨ addr = 0x4007 ∨ addr = 0x4008 := by omega
  · rfl
  · rfl
  · rfl

theorem portRead_above {addr : Nat} (h : 0x4010 ≤ addr) : s.portRead addr = 0xFF := by
  have hram : ¬ addr < Config.ramEnd := not_lt.mpr (le_trans (by decide) h)
  unfold State.portRead
  rw [if_neg hram]
  split
  case h_17 => rfl
  all_goals omega

theorem portRead_intStatus :
    ((s.portRead 0x4009).getLsbD 0 = true ↔ s.notice.intLine = true)
      ∧ ((s.portRead 0x4009).getLsbD 1 = true ↔ ∃ r, s.station.copy = some r ∧ r.trigger ≤ s.notice.unread)
      ∧ ((s.portRead 0x4009).getLsbD 2 = true ↔ s.notice.timer = .expired)
      ∧ ∀ i, 3 ≤ i → (s.portRead 0x4009).getLsbD i = false := by
  obtain ⟨hline, htrigger, hexpired, hrest⟩ := flags_bits s.notice.intLine s.atTrigger (s.notice.timer == .expired)
  have hread : s.portRead 0x4009 =
      byteOf (flagBit s.notice.intLine 0 + flagBit s.atTrigger 1 + flagBit (s.notice.timer == .expired) 2) := rfl
  rw [hread]
  exact ⟨by rw [hline], by rw [htrigger, atTrigger_iff], by rw [hexpired, beq_iff_eq], hrest⟩

/-- The addresses of a transaction rise from the first and wrap at 16 bits (R176). -/
theorem spiAddress_eq (start : Word16) (place : Nat) : spiAddress start place = (start.toNat + place) % 65536 := by
  rw [spiAddress, BitVec.toNat_add, BitVec.toNat_ofNat, Nat.add_mod_mod]

theorem miso_read (hheld : s.port.resetHeld = false) (start : Word16) (place : Nat) :
    s.miso 0x02 start place = some (s.portRead ((start.toNat + place) % 65536)) := by
  rw [State.miso, hheld, spiAddress_eq]
  rfl

theorem miso_unknown (hheld : s.port.resetHeld = false) (hwrite : value ≠ 0x01) (hread : value ≠ 0x02)
    (start : Word16) (place : Nat) : s.miso value start place = some 0xFF := by
  rw [State.miso, hheld, if_neg (by simpa using hwrite), if_neg (by simpa using hread)]

end Accesses

/-- Settles O16: each access is served as it stands, without a command or with one that finds nothing to do, and each
address is read off the table. -/
theorem registerAccessesWithoutEffect : Obligations.RegisterAccessesWithoutEffect := by
  intro s via value
  refine ⟨fun addr h hignored => ⟨_, exec_registerWriteIgnored_of_serves h (ignoredWrite_of hignored), rfl,
      setPort_changesOnly s _⟩,
    fun h hlife during => ⟨s.metStart via during, (exec_start_of_serves h during).trans (if_neg hlife), rfl,
      setPort_changesOnly s _⟩,
    fun h hlife => ⟨_, exec_cmdAdvance_of_await h hlife, rfl, setPort_changesOnly s _⟩,
    fun h => ⟨_, exec_noticeTaken_of_serves h, rfl, setPort_changesOnly s _⟩,
    fun h => ⟨_, exec_tickHighByteRead_of_serves h, highByte_byteOf_toNat _, rfl, rfl, setPort_changesOnly s _⟩,
    exec_of_resetHeld, ?_, fun hheld start place => ⟨miso_read hheld start place, fun hwrite hread =>
      miso_unknown hheld hwrite hread start place⟩⟩
  obtain ⟨hcode, hbyte⟩ := life_code s.station.life
  obtain ⟨hline, htrigger, hexpired, hrest⟩ := portRead_intStatus (s := s)
  exact ⟨rfl, rfl, rfl, rfl, (byteOf_toNat hbyte).trans hcode, BitVec.toNat_ofNat _ _, fun _ => portRead_write, hline,
    htrigger, hexpired, hrest, BitVec.toNat_ofNat _ _, BitVec.toNat_ofNat _ _, BitVec.toNat_ofNat _ _, rfl, rfl, rfl,
    fun _ => portRead_ram, fun _ => portRead_above⟩

end Sys2Proof.Machine
end


section
/-! PROOF. START: the record among whose reads SPI bytes may come, its checks in turn, and what a good record starts
(R122, R140 to R142, R178, Table 8.4). -/

namespace Sys2Proof.Machine

/-! ## Engine reads while an SPI access waits (R178) -/

section Port
variable (p : HostPort) (w : WaitingAccess)

theorem HostPort.takeAll_waiting (x : List WaitingAccess) (ws : List WaitingAccess) :
    ws.foldl HostPort.take { p with waiting := x } = { ws.foldl HostPort.take p with waiting := x } := by
  have hspi : (ws.foldl HostPort.take p).spi = p.spi :=
    (congrArg HostPort.spi (HostPort.takeAll_with p p.spi p.waiting ws) :)
  refine (HostPort.takeAll_with p p.spi x ws).trans ?_
  rw [← hspi]

theorem HostPort.landDue_drain (ws : List WaitingAccess) :
    (p.landDue ws).drain = { ws.foldl HostPort.take p with waiting := [] } := by
  induction ws generalizing p with
  | nil => rfl
  | cons w rest ih =>
    obtain ⟨turn, addr, value⟩ := w
    cases turn with
    | zero => exact ih _
    | succ t =>
      rw [HostPort.drain]
      exact congrArg (fun q : HostPort => { q with waiting := [] }) (HostPort.takeAll_waiting p _ _)

/-- An engine access changes when an SPI access is taken, and not what is taken in all. -/
theorem HostPort.yield_drain : p.yield.drain = p.drain := p.landDue_drain p.waiting

theorem HostPort.engineReads_then_drain (a n : Nat) : (p.engineReads a n).2.drain = p.drain := by
  induction n generalizing p a with
  | zero => rfl
  | succ n ih => exact (ih _ _).trans p.yield_drain

theorem HostPort.take_ram (hw : w.addr < Config.ramEnd) (x : Nat) :
    Memory.read (p.take w).ram x =
      match w.value with
      | some v => if x = w.addr then v else Memory.read p.ram x
      | none => Memory.read p.ram x := by
  unfold HostPort.take
  cases w.value with
  | none => rfl
  | some v => simp [Memory.read_write, hw]

/-- Engine reads while one SPI access waits: the byte of a write stands from its turn on. -/
theorem HostPort.engineReads_of_one (hw : w.addr < Config.ramEnd) {a : Nat} (n : Nat) (h : p.waiting = [w]) :
    (p.engineReads a n).1 = (List.range n).map (fun i => p.byteRead w i (a + i)) := by
  induction n generalizing p w a with
  | zero => rfl
  | succ n ih =>
    obtain ⟨turn, addr, value⟩ := w
    rw [List.range_succ_eq_map, List.map_cons, List.map_map]
    cases turn with
    | zero =>
      have hyield : p.yield = { p.take ⟨0, addr, value⟩ with waiting := [] } := by
        rw [HostPort.yield, h]
        rfl
      have hread (i x : Nat) : Memory.read p.yield.ram x = p.byteRead ⟨0, addr, value⟩ i x := by
        rw [hyield]
        refine (p.take_ram _ hw x).trans ?_
        cases value <;> simp [HostPort.byteRead]
      refine congrArg₂ List.cons (hread 0 a) ?_
      have hrest := congrArg Prod.fst (HostPort.engineReads_of_none p.yield (by rw [hyield]) (a + 1) n)
      refine hrest.trans (List.map_congr_left fun i _ => (hread (i + 1) _).trans ?_)
      rw [Nat.add_right_comm]
      rfl
    | succ t =>
      have hyield : p.yield = { p with waiting := [⟨t, addr, value⟩] } := by
        rw [HostPort.yield, h]
        rfl
      have hlater (i : Nat) : p.yield.byteRead ⟨t, addr, value⟩ i (a + 1 + i)
          = p.byteRead ⟨t + 1, addr, value⟩ (i + 1) (a + (i + 1)) := by
        rw [hyield, show a + 1 + i = a + (i + 1) by omega]
        cases value <;> simp [HostPort.byteRead]
      refine congrArg₂ List.cons ?_ ?_
      · show Memory.read p.yield.ram a = _
        rw [hyield]
        cases value <;> simp [HostPort.byteRead]
      · refine (ih p.yield ⟨t, addr, value⟩ hw (by rw [hyield])).trans (List.map_congr_left fun i _ => hlater i)

/-- An SPI write that comes to an arbiter at which nothing waits, whether it is taken at once or waits. -/
theorem HostPort.engineReads_of_request (h : p.waiting = []) (hw : w.addr < Config.ramEnd) (a n : Nat) :
    ((p.request w).engineReads a n).1 = (List.range n).map (fun i => p.byteRead w i (a + i)) := by
  unfold HostPort.request
  split
  · next hnow =>
    have hwaiting : (p.take w).waiting = [] := by
      unfold HostPort.take
      split <;> exact h
    rw [HostPort.engineReads_of_none _ hwaiting]
    refine List.map_congr_left fun i _ => (p.take_ram w hw _).trans ?_
    unfold HostPort.byteRead
    rw [hnow.2]
    cases w.value <;> simp
  · rw [h]
    exact HostPort.engineReads_of_one { p with waiting := [w] } w hw n rfl

theorem HostPort.request_drain (h : p.waiting = []) : (p.request w).drain = { p.take w with waiting := [] } := by
  unfold HostPort.request
  split
  · have hwaiting : (p.take w).waiting = [] := by
      unfold HostPort.take
      split <;> exact h
    rw [HostPort.drain_of_none _ hwaiting, ← hwaiting]
  · rw [h]
    exact congrArg (fun q : HostPort => { q with waiting := [] }) (HostPort.takeAll_waiting p _ [w])

end Port

/-! ## The record and the port of a START -/

section Record
variable {s : State} {via : SpiVia}

theorem startRecord_length (during : List RamByte) : (s.startRecord via during).length = 32 :=
  HostPort.engineReads_length _ _ _

theorem startRecord_alone : s.startRecord via [] = s.ramBytes 0 32 :=
  congrArg Prod.fst (HostPort.engineReads_of_none (s.port.afterRegisterByte via true 0x4006) rfl 0 32)

section One
variable {b : RamByte} (ha : b.addr < 0x4000)
  (hb : (s.port.afterRegisterByte via true 0x4006).Serves b.via true b.addr)
include ha hb

/-- The port as the byte after START comes to its arbiter. -/
theorem acceptBytes_one : (s.port.afterRegisterByte via true 0x4006).acceptBytes [b] =
    ({ s.port.drain with spi := transactionAfter b.via true b.addr } : HostPort).request
      { turn := b.turn, addr := b.addr, value := some b.value } :=
  HostPort.acceptByte_of_serves _ b ha hb

theorem startRecord_one : s.startRecord via [b] =
    (List.range 32).map (fun i => if i = b.addr ∧ b.turn ≤ i then b.value else s.ramByte i) := by
  rw [State.startRecord, acceptBytes_one ha hb, HostPort.engineReads_of_request _ _ rfl ha]
  refine List.map_congr_left fun i _ => ?_
  rw [Nat.zero_add]
  rfl

/-- The byte stands in shared RAM afterwards, and no other has changed. -/
theorem startPort_one (a : Nat) :
    Memory.read (s.startPort via [b]).ram a = if a = b.addr then b.value else s.ramByte a := by
  rw [State.startPort, acceptBytes_one ha hb, HostPort.request_drain _ _ rfl]
  exact HostPort.take_ram _ _ ha a

end One

theorem metStart_port (s : State) (via : SpiVia) (during : List RamByte) :
    ((s.metStart via during).port.engineReads 0 32).1 = s.startRecord via during
      ∧ ((s.metStart via during).port.engineReads 0 32).2.drain = s.startPort via during :=
  ⟨rfl, HostPort.engineReads_then_drain _ _ _⟩

end Record

/-! ## The checks of Table 8.4 in turn (R141) -/

/-- The model's checks and a table of refusals: each says the same once the ones before it have passed. -/
inductive ChecksInTurn : List (Nat × Bool) → List (Prop × Nat) → Prop
  | nil : ChecksInTurn [] []
  | cons {code : Nat} {valid : Bool} {fails : Prop} {checks : List (Nat × Bool)} {table : List (Prop × Nat)}
      (same : valid = true ↔ ¬ fails) (rest : ¬ fails → ChecksInTurn checks table) :
      ChecksInTurn ((code, valid) :: checks) ((fails, code) :: table)

theorem firstError_of_passes {checks : List (Nat × Bool)} {table : List (Prop × Nat)} (h : ChecksInTurn checks table)
    (hp : ∀ k ∈ table, ¬ k.1) : firstError checks = none := by
  induction h with
  | nil => rfl
  | @cons code valid fails checks table same _ ih =>
    obtain ⟨hfirst, hrest⟩ := List.forall_mem_cons.mp hp
    rw [firstError, same.mpr hfirst]
    exact ih hfirst hrest

theorem firstError_of_fails {checks : List (Nat × Bool)} {table : List (Prop × Nat)} (h : ChecksInTurn checks table)
    {result : Nat} (hf : FirstToFail table result) : firstError checks = some result := by
  obtain ⟨before, after, p, htable, hp, hbefore⟩ := hf
  induction h generalizing before with
  | nil => simp at htable
  | @cons code valid fails checks table same _ ih =>
    cases before with
    | nil =>
      obtain ⟨⟨rfl, rfl⟩, rfl⟩ : (fails = p ∧ code = result) ∧ table = after := by simpa using htable
      have hvalid : valid = false := by
        rw [← Bool.not_eq_true]
        exact fun hv => same.mp hv hp
      rw [firstError, hvalid]
      rfl
    | cons k before =>
      obtain ⟨rfl, rfl⟩ : (fails, code) = k ∧ table = before ++ (p, result) :: after := by simpa using htable
      obtain ⟨hfirst, hrest⟩ := List.forall_mem_cons.mp hbefore
      rw [firstError, same.mpr hfirst]
      exact ih hfirst before rfl hrest

theorem ringFits_iff {length base : Nat} (h : 0 < length) : ringFits length base = true ↔ RingGood length base := by
  simp only [ringFits, Bool.and_eq_true, beq_iff_eq, decide_eq_true_eq]
  simp only [RingGood, Config.startRecordEnd, Config.ramEnd]
  omega

/-- The check of a ring by its length and its place. -/
theorem ringCheck_iff {low high length base : Nat} (h : 0 < low) :
    (decide (low ≤ length) && decide (length ≤ high) && ringFits length base) = true ↔
      ¬ (length < low ∨ high < length ∨ ¬ RingGood length base) := by
  simp only [Bool.and_eq_true, decide_eq_true_eq, not_or, not_lt, not_not, and_assoc]
  exact and_congr_right fun hlow => and_congr_right fun _ => ringFits_iff (h.trans_le hlow)

/-- Two rings that are not empty lie apart exactly when no address is in both. -/
theorem ringsApart_iff {r : StartRecord} (hc : 0 < r.cmdLength) (hn : 0 < r.noticeLength) :
    ringsApart r = true ↔ ¬ ∃ a, (r.cmdBase ≤ a ∧ a < r.cmdBase + 16 * r.cmdLength)
      ∧ r.noticeBase ≤ a ∧ a < r.noticeBase + 16 * r.noticeLength := by
  simp only [ringsApart, Bool.or_eq_true, decide_eq_true_eq]
  constructor
  · rintro hapart ⟨a, hcmd, hnotice⟩
    omega
  · intro hnone
    by_contra hover
    exact hnone ⟨max r.cmdBase r.noticeBase, by omega, by omega⟩

theorem tail_zero_iff {b : List Byte} (h : b.length = 32) :
    (b.drop 19).all (· == 0) = true ↔ ¬ ∃ i, 19 ≤ i ∧ i < 32 ∧ byteAt b i ≠ 0 := by
  simp only [List.all_eq_true, beq_iff_eq, not_exists, not_and, ne_eq, not_not]
  constructor
  · intro hzero i hi hlt
    refine hzero _ (List.mem_iff_getElem.mpr ⟨i - 19, by rw [List.length_drop]; omega, ?_⟩)
    rw [List.getElem_drop, byteAt, List.getD_eq_getElem _ _ (by omega)]
    congr 1
    omega
  · intro hzero x hx
    obtain ⟨i, hi, rfl⟩ := List.mem_iff_getElem.mp hx
    rw [List.length_drop] at hi
    have hbyte := hzero (19 + i) (by omega) (by omega)
    rw [byteAt, List.getD_eq_getElem _ _ (by omega)] at hbyte
    rw [List.getElem_drop]
    exact hbyte

theorem startChecks_inTurn {b : List Byte} (h : b.length = 32) : ChecksInTurn (startChecks b) (startTable b) := by
  have hwindow : (StartRecord.ofBytes b).claimWindow < 256 := (byteAt b 3).isLt
  have hzero := tail_zero_iff h
  unfold startChecks startTable StartRecord.checks
  dsimp only
  generalize StartRecord.ofBytes b = r at hwindow ⊢
  simp only [List.cons_append, List.nil_append]
  refine .cons ?_ fun _ => .cons ?_ fun _ => .cons ?_ fun _ => .cons ?_ fun _ => .cons ?_ fun _ => .cons ?_ fun _ =>
    .cons (ringCheck_iff (by decide)) fun hcmd => .cons (ringCheck_iff (by decide)) fun hnotice =>
    .cons (ringsApart_iff (by omega) (by omega)) fun _ => .cons ?_ fun _ => .cons ?_ fun _ => .cons ?_ fun _ =>
    .cons ?_ fun _ => .cons hzero fun _ => .nil
  all_goals
    simp only [Bool.and_eq_true, decide_eq_true_eq]
    omega

/-! ## What START does (R142) -/

section Start
variable {s : State} {via : SpiVia} {during : List RamByte}

theorem started_changesOnly (s : State) (r : StartRecord) :
    s.ChangesOnly (s.started r) [.station, .rx, .contention, .command] :=
  ((setStation_changesOnly s _).mono (by decide)).trans (((setRx_changesOnly _ .skip).mono (by decide)).trans
    (((setContention_changesOnly _ _).mono (by decide)).trans ((setCommand_changesOnly _ _).mono (by decide))))

/-- The record passes: the copy is taken (R142). -/
theorem startRequest_of_passes {record : List Byte} (hrecord : (s.port.engineReads 0 32).1 = record)
    (h : firstError (startChecks record) = none) :
    s.startRequest = (s.setPort (s.port.engineReads 0 32).2.drain).started (StartRecord.ofBytes record) := by
  subst hrecord
  unfold State.startRequest
  rw [show Config.startRecordEnd = 32 from rfl]
  generalize s.port.engineReads 0 32 = read at h ⊢
  dsimp only
  rw [h]

/-- The record fails: START_ERROR alone tells of it (R141). -/
theorem startRequest_of_fails {record : List Byte} {code : Nat} (hrecord : (s.port.engineReads 0 32).1 = record)
    (h : firstError (startChecks record) = some code) :
    s.startRequest = (s.setPort (s.port.engineReads 0 32).2.drain).setStation { s.station with startError := code } := by
  subst hrecord
  unfold State.startRequest
  rw [show Config.startRecordEnd = 32 from rfl]
  generalize s.port.engineReads 0 32 = read at h ⊢
  dsimp only
  rw [h]
  rfl

end Start

/-- Settles O15: the reads find the byte that follows from its turn on, the checks are those of the table in turn, and
the two outcomes are those of the model. -/
theorem startChecksTheRecord : Obligations.StartChecksTheRecord := by
  intro s via during h hlife record
  obtain ⟨hrecord, hport⟩ := metStart_port s via during
  have hexec : exec (.start via during) s = .next (s.metStart via during).startRequest :=
    (exec_start_of_serves h during).trans (if_pos hlife)
  have hchecks : ChecksInTurn (startChecks record) (startTable record) := startChecks_inTurn (startRecord_length during)
  refine ⟨fun hnone => ?_, fun b hone ha hb => ?_, rfl, fun hpass => ⟨_, hexec, ?_⟩,
    fun code hfail => ⟨_, hexec, ?_⟩⟩
  · subst hnone
    exact startRecord_alone
  · subst hone
    have hram := startPort_one ha hb
    exact ⟨startRecord_one ha hb, (hram b.addr).trans (if_pos rfl), fun a hne => (hram a).trans (if_neg hne)⟩
  · rw [startRequest_of_passes hrecord (firstError_of_passes hchecks hpass), hport]
    exact ⟨rfl, rfl, rfl, rfl, rfl, ((setPort_changesOnly s (s.startPort via during)).mono (by decide)).trans
      ((started_changesOnly _ _).mono (by decide))⟩
  · rw [startRequest_of_fails hrecord (firstError_of_fails hchecks hfail), hport]
    exact ⟨rfl, rfl, ((setPort_changesOnly s (s.startPort via during)).mono (by decide)).trans
      ((setStation_changesOnly _ _).mono (by decide))⟩

end Sys2Proof.Machine
end


section
/-! PROOF. LEAVE: one release after the other, each of which leaves the other entries' objects apart (R69 to R72, R145). -/

namespace Sys2Proof.Machine

/-! ## What happens away from some objects -/

/-- A RELINQUISH frame that has entered the control queue shows in its part (R55, R72). -/
def Produce.markQueued (p : Produce) : Produce := { p with releaseQueued := true }

/-- What a step of some releases leaves: every entry but those of `l`, which may show its RELINQUISH as queued, the free
claim slots, and a publication queue and a Notice Unit that only go on. -/
structure State.ApartFrom (s t : State) (l : List Nat) : Prop where
  entry : ∀ m, m ∉ l → t.entry m = s.entry m ∨ t.entry m = (s.entry m).map (Entry.mapProduce Produce.markQueued)
  slots : ∀ k, s.ownership.slots.get k = none → t.ownership.slots.get k = none
  queue : ∀ it ∈ t.pubQueue, it ∈ s.pubQueue
  notice : s.notice.GoesOnTo t.notice

section Apart
variable {s t u : State} {l : List Nat} {n : Nat}

theorem State.ApartFrom.refl (s : State) (l : List Nat) : s.ApartFrom s l :=
  ⟨fun _ _ => .inl rfl, fun _ h => h, fun _ h => h, .refl _⟩

theorem State.ApartFrom.mono {l' : List Nat} (h : s.ApartFrom t l) (hl : ∀ m ∈ l, m ∈ l') : s.ApartFrom t l' :=
  ⟨fun m hm => h.entry m (mt (hl m) hm), h.slots, h.queue, h.notice⟩

theorem mapProduce_markQueued_twice (e : Entry) :
    (e.mapProduce Produce.markQueued).mapProduce Produce.markQueued = e.mapProduce Produce.markQueued := by
  obtain ⟨object, line, role, owed⟩ := e
  cases role with
  | produce p => rfl
  | consume c => rfl

theorem State.ApartFrom.trans (h : s.ApartFrom t l) (h' : t.ApartFrom u l) : s.ApartFrom u l := by
  refine ⟨fun m hm => ?_, fun k hk => h'.slots k (h.slots k hk), fun it hit => h.queue it (h'.queue it hit),
    h.notice.trans h'.notice⟩
  rcases h.entry m hm with hold | hold
  · rw [← hold]
    exact h'.entry m hm
  · refine .inr ?_
    rcases h'.entry m hm with hnew | hnew
    · exact hnew.trans hold
    · rw [hnew, hold, Option.map_map]
      exact congrArg (Option.map · _) (funext mapProduce_markQueued_twice)

/-- A step that leaves the slots, the publication queue and the Notice Unit alone. -/
theorem State.ApartFrom.of_changesOnly {b : List Block} (h : s.ChangesOnly t b) (hb : .pubQueue ∉ b ∧ .notice ∉ b)
    (hslots : t.ownership.slots = s.ownership.slots)
    (hentry : ∀ m, m ∉ l → t.entry m = s.entry m
      ∨ t.entry m = (s.entry m).map (Entry.mapProduce Produce.markQueued)) : s.ApartFrom t l := by
  have hqueue : t.pubQueue = s.pubQueue := h .pubQueue hb.1
  have hnotice : t.notice = s.notice := h .notice hb.2
  refine ⟨hentry, fun k hk => by rwa [hslots], fun it hit => by rwa [hqueue] at hit, ?_⟩
  rw [hnotice]
  exact .refl _

theorem State.ApartFrom.produce {p : Produce} (h : s.ApartFrom t l) (hn : n ∉ l) (hp : s.produce n = some p) :
    ∃ b, t.produce n = some { p with releaseQueued := b } := by
  obtain ⟨e, he, hr⟩ := s.produce_entry n p hp
  rcases h.entry n hn with hkept | hkept
  · exact ⟨p.releaseQueued, by rw [State.produce, hkept]; exact hp⟩
  · rw [he, Option.map_some, e.mapProduce_role p _ hr] at hkept
    exact ⟨true, State.produce_of_entry _ n _ _ hkept rfl⟩

theorem State.ApartFrom.entry_none (h : s.ApartFrom t l) (hn : n ∉ l) (he : s.entry n = none) : t.entry n = none := by
  rcases h.entry n hn with hkept | hkept
  · exact hkept.trans he
  · rw [hkept, he]
    rfl

theorem State.ApartFrom.consume (h : s.ApartFrom t l) (hn : n ∉ l) : t.consume n = s.consume n := by
  unfold State.consume
  rcases h.entry n hn with hkept | hkept
  · rw [hkept]
  · rw [hkept]
    cases s.entry n <;> simp

theorem State.ApartFrom.produce_none (h : s.ApartFrom t l) (hn : n ∉ l) (hp : s.produce n = none) :
    t.produce n = none := by
  unfold State.produce at *
  rcases h.entry n hn with hkept | hkept
  · rw [hkept, hp]
  · rw [hkept]
    cases he : s.entry n with
    | none => rfl
    | some e =>
      rw [he, Option.bind_some] at hp
      simp [hp]

/-! ## The steps of one release -/

theorem post_apart (s : State) (x : Notice) (l : List Nat) : s.ApartFrom (s.post x) l where
  entry m _ := .inl (post_entry s x m)
  slots k hk := by rwa [post_ownership]
  queue it hit := by rwa [post_pubQueue] at hit
  notice := by
    rw [post_notice]
    exact s.notice.goesOnTo_posted x

theorem withdraw_apart (s : State) (f : CtlFrame) (l : List Nat) : s.ApartFrom (s.withdraw f) l :=
  have ⟨honly, hentries, hslots, _⟩ := withdraw_spec s f
  .of_changesOnly honly (by decide) hslots fun m _ => hentries m

theorem becomes_apart {f : Produce → Produce} (h : s.EntryBecomes t n f) : s.ApartFrom t [n] :=
  have howner : t.ownership = s.ownership := h.2 .ownership (by decide)
  .of_changesOnly h.2 (by decide) (by rw [howner]) fun _ hm => .inl (h.other (List.mem_singleton.not.mp hm))

theorem releaseSlot_apart (s : State) (n : Nat) : s.ApartFrom (s.releaseSlot n) [n] := by
  unfold State.releaseSlot
  split
  · exact .refl s _
  · next k _ =>
    refine State.ApartFrom.trans (t := s.putSlot k none) ⟨fun _ _ => .inl rfl, fun j hj => ?_, fun _ h => h, .refl _⟩
      (becomes_apart (updProduce_becomes _ n _))
    refine (set_get s.ownership.slots k j none).trans ?_
    split
    · rfl
    · exact hj

theorem removeEntry_apart (s : State) (n : Nat) : s.ApartFrom (s.removeEntry n) [n] :=
  have ⟨_, hothers, _, honly⟩ := removeEntry_removes s n
  have howner : (s.removeEntry n).ownership = s.ownership := honly .ownership (by decide)
  .of_changesOnly honly (by decide) (by rw [howner]) fun m hm => .inl (hothers m (List.mem_singleton.not.mp hm))

theorem beginRelease_apart {p : Produce} (tag : Word16) (hp : s.produce n = some p) :
    s.ApartFrom (s.beginRelease n tag) [n] := by
  obtain ⟨e, he, hr⟩ := s.produce_entry n p hp
  obtain ⟨⟨b, -, hplace⟩, hothers, honly⟩ := beginRelease_spec tag he hr
  refine .of_changesOnly honly (by decide) ?_ fun m hm => .inl (hothers m (List.mem_singleton.not.mp hm))
  split_ifs at hplace
  · obtain ⟨-, -, howner⟩ := hplace
    rw [howner]
  · obtain ⟨-, -, howner⟩ := hplace
    rw [howner]

theorem beginRelease_produce {p : Produce} (tag : Word16) (hp : s.produce n = some p) :
    ∃ b, (s.beginRelease n tag).produce n =
      some { p with ownership := .relinquishing, releaseTag := some tag, releaseQueued := b } := by
  obtain ⟨e, he, hr⟩ := s.produce_entry n p hp
  obtain ⟨⟨b, hentry, -⟩, -⟩ := beginRelease_spec tag he hr
  exact ⟨b, State.produce_of_entry _ n _ _ hentry rfl⟩

/-- The publication of an object stops: no item of it stays, and its entry goes on (R70, R78). -/
theorem stopPublishing_apart {p : Produce} (hp : s.produce n = some p) :
    s.ApartFrom (s.stopPublishing n) [n] ∧ (∀ it ∈ (s.stopPublishing n).pubQueue, it.object ≠ n)
      ∧ ∃ q, (s.stopPublishing n).produce n = some q := by
  obtain ⟨e, he, hr⟩ := s.produce_entry n p hp
  obtain ⟨q, hentry, -, ⟨-, hqueue, -⟩, hothers, hslots, -⟩ := stopPublishing_spec s n e p he hr
  have hnotice : (s.stopPublishing n).notice = s.notice := stopPublishing_changesOnly s n .notice (by decide)
  have hitem (it : PubItem) (hit : it ∈ (s.stopPublishing n).pubQueue) : it ∈ s.pubQueue ∧ it.object ≠ n := by
    rw [hqueue] at hit
    exact ⟨(List.mem_filter.mp hit).1, of_decide_eq_true (List.mem_filter.mp hit).2⟩
  refine ⟨⟨fun m hm => .inl (hothers m (List.mem_singleton.not.mp hm)), fun k hk => by rwa [hslots],
    fun it hit => (hitem it hit).1, ?_⟩, fun it hit => (hitem it hit).2, q, State.produce_of_entry _ n _ _ hentry rfl⟩
  rw [hnotice]
  exact .refl _

end Apart

/-! ## One release -/

section Release
variable {s : State} {n : Nat} {p : Produce} (tag : Word16)

theorem release_of_none (hp : s.produce n = none) : s.release n tag = s := by
  unfold State.release
  rw [hp]

section Owned
variable (hp : s.produce n = some p)
include hp

theorem release_eq_releaseClaim (ho : p.ownership = .claiming) : s.release n tag = s.releaseClaim n p tag := by
  unfold State.release
  rw [hp]
  dsimp only
  rw [ho]

theorem release_eq_beginRelease (ho : p.ownership = .owned) :
    s.release n tag = (s.stopPublishing n).beginRelease n tag := by
  unfold State.release
  rw [hp]
  dsimp only
  rw [ho]

theorem release_of_relinquishing (ho : p.ownership = .relinquishing) : s.release n tag = s := by
  unfold State.release
  rw [hp]
  dsimp only
  rw [ho]

theorem release_eq_removeEntry (ho : p.ownership = .deposed) :
    s.release n tag = (s.postOwnership n .relinquished noStation .ok tag).removeEntry n := by
  unfold State.release
  rw [hp]
  dsimp only
  rw [ho]

theorem releaseSlot_produce : ∃ q, (s.releaseSlot n).produce n = some q := by
  unfold State.releaseSlot
  split
  · exact ⟨p, hp⟩
  · next k _ =>
    have hkept : (s.putSlot k none).produce n = some p := hp
    exact ⟨_, by rw [State.updProduce_produce, if_pos rfl, hkept]; rfl⟩

theorem releaseSlot_keepsValue : s.KeepsValue (s.releaseSlot n) n := by
  cases hk : p.claimSlot with
  | none =>
    have hsame : s.releaseSlot n = s := by simp [State.releaseSlot, hp, hk]
    rw [hsame]
    exact .of_eq (.refl s []) (by decide) rfl
  | some k =>
    obtain ⟨-, -, -, -, hvalue⟩ := releaseSlot_spec s n hp hk
    exact hvalue

/-- A claim that has reached the line goes on as a release, and any other goes (R69). -/
theorem releaseClaim_own : (∃ q, (s.releaseClaim n p tag).produce n = some q ∧ q.ownership = .relinquishing)
    ∨ (s.releaseClaim n p tag).entry n = none := by
  unfold State.releaseClaim
  dsimp only
  split
  · obtain ⟨q, hq⟩ := releaseSlot_produce hp
    have hfailed : ((s.releaseSlot n).postOwnership n .claimFailed noStation .released (s.slotTag p)).produce n = some q :=
      (post_produce _ _ n).trans hq
    obtain ⟨b, hbegun⟩ := beginRelease_produce tag hfailed
    obtain ⟨b', hquiet⟩ := withdraw_produce _ n (.dispute n) hbegun
    obtain ⟨b'', hsilent⟩ := withdraw_produce _ n (.claim n) hquiet
    exact .inl ⟨_, hsilent, rfl⟩
  · exact .inr (by rw [removeEntry_entry, if_pos rfl])

theorem releaseClaim_apart : (s.releaseSlot n).ApartFrom (s.releaseClaim n p tag) [n] := by
  have hposted : (s.releaseSlot n).ApartFrom
      ((s.releaseSlot n).postOwnership n .claimFailed noStation .released (s.slotTag p)) [n] := post_apart _ _ _
  unfold State.releaseClaim
  dsimp only
  split
  · obtain ⟨q, hq⟩ := releaseSlot_produce hp
    have hfailed : ((s.releaseSlot n).postOwnership n .claimFailed noStation .released (s.slotTag p)).produce n = some q :=
      (post_produce _ _ n).trans hq
    exact ((hposted.trans (beginRelease_apart tag hfailed)).trans (withdraw_apart _ _ _)).trans (withdraw_apart _ _ _)
  · exact ((hposted.trans (withdraw_apart _ _ _)).trans (withdraw_apart _ _ _)).trans
      ((post_apart _ _ _).trans (removeEntry_apart _ n))

/-- After its release an entry is RELINQUISHING or gone. -/
theorem release_own : (∃ q, (s.release n tag).produce n = some q ∧ q.ownership = .relinquishing)
    ∨ (s.release n tag).entry n = none := by
  cases ho : p.ownership with
  | claiming =>
    rw [release_eq_releaseClaim tag hp ho]
    exact releaseClaim_own tag hp
  | owned =>
    rw [release_eq_beginRelease tag hp ho]
    obtain ⟨-, -, q, hq⟩ := stopPublishing_apart hp
    obtain ⟨b, hbegun⟩ := beginRelease_produce tag hq
    exact .inl ⟨_, hbegun, rfl⟩
  | relinquishing =>
    rw [release_of_relinquishing tag hp ho]
    exact .inl ⟨p, hp, ho⟩
  | deposed =>
    rw [release_eq_removeEntry tag hp ho]
    exact .inr (by rw [removeEntry_entry, if_pos rfl])

theorem release_of_owned (ho : p.ownership = .owned) :
    (∃ q, (s.release n tag).produce n = some q ∧ q.releaseTag = some tag)
      ∧ ∀ it ∈ (s.release n tag).pubQueue, it.object ≠ n := by
  rw [release_eq_beginRelease tag hp ho]
  obtain ⟨-, hgone, q, hq⟩ := stopPublishing_apart hp
  obtain ⟨b, hbegun⟩ := beginRelease_produce tag hq
  exact ⟨⟨_, hbegun, rfl⟩, fun it hit => hgone it ((beginRelease_apart tag hq).queue it hit)⟩

theorem release_of_deposed (ho : p.ownership = .deposed) : (s.release n tag).entry n = none := by
  rw [release_eq_removeEntry tag hp ho]
  exact (removeEntry_entry _ n n).trans (if_pos rfl)

theorem release_freesSlot (ho : p.ownership = .claiming) {k : Fin 4} (hk : p.claimSlot = some k) :
    (s.release n tag).ownership.slots.get k = none := by
  rw [release_eq_releaseClaim tag hp ho]
  exact (releaseClaim_apart tag hp).slots k (releaseSlot_spec s n hp hk).1

end Owned

theorem release_apart (s : State) (n : Nat) : s.ApartFrom (s.release n tag) [n] := by
  cases hp : s.produce n with
  | none =>
    rw [release_of_none tag hp]
    exact .refl s _
  | some p =>
    cases ho : p.ownership with
    | claiming =>
      rw [release_eq_releaseClaim tag hp ho]
      exact (releaseSlot_apart s n).trans (releaseClaim_apart tag hp)
    | owned =>
      rw [release_eq_beginRelease tag hp ho]
      obtain ⟨hstopped, -, q, hq⟩ := stopPublishing_apart hp
      exact hstopped.trans (beginRelease_apart tag hq)
    | relinquishing =>
      rw [release_of_relinquishing tag hp ho]
      exact .refl s _
    | deposed =>
      rw [release_eq_removeEntry tag hp ho]
      exact (post_apart s _ _).trans (removeEntry_apart _ n)

theorem release_consume (s : State) (n m : Nat) : (s.release n tag).consume m = s.consume m := by
  by_cases hm : m ∈ [n]
  · obtain rfl := List.mem_singleton.mp hm
    cases hp : s.produce m with
    | none => rw [release_of_none tag hp]
    | some p =>
      rw [consume_none_of_produce hp]
      rcases release_own tag hp with ⟨q, hq, -⟩ | hgone
      · exact consume_none_of_produce hq
      · rw [State.consume, hgone]
        rfl
  · exact (release_apart tag s n).consume hm

theorem release_storageCanonical (hs : s.StorageCanonical) (n : Nat) : (s.release n tag).StorageCanonical :=
  hs.withLines (release_changesOnly s n tag) (by decide) (State.LinesCanonical.release hs.2.1 n tag)

/-! ## A release in the words of the statements -/

/-- The model's test of a claim that has reached the line (R69, log 25). -/
theorem claimHeardByPeers_iff_reached (s : State) (n : Nat) (p : Produce) :
    s.claimHeardByPeers n p = true ↔ s.ClaimReachedLine n p := by
  have hunslotted (hof : s.slotOf p = none) (hnone : ∀ k slot w, p.claimSlot = some k →
      s.ownership.slots.get k = some slot → slot.phase ≠ .window w) :
      s.claimHeardByPeers n p = true ↔ s.ClaimReachedLine n p := by
    unfold State.claimHeardByPeers State.ClaimReachedLine State.claimOnLine
    rw [hof]
    simp only [Option.map_none, Bool.and_eq_true, beq_iff_eq]
    exact ⟨.inr, fun h => h.resolve_left fun ⟨k, slot, w, hk, hslot, hphase⟩ => hnone k slot w hk hslot hphase⟩
  cases hk : p.claimSlot with
  | none => exact hunslotted (by rw [State.slotOf, hk]; rfl) fun k _ _ hk' => by rw [hk] at hk'; cases hk'
  | some k =>
    cases hslot : s.ownership.slots.get k with
    | some slot => exact claimHeardByPeers_iff hk hslot
    | none =>
      refine hunslotted (by rw [State.slotOf, hk]; exact hslot) fun k' slot' _ hk' hslot' => ?_
      cases hk.symm.trans hk'
      rw [hslot] at hslot'
      cases hslot'

section Claim
variable (hs : s.StorageCanonical) (hp : s.produce n = some p)
include hs hp

theorem ownershipNotice_report (kind : NoticeKind) (cause : Cause) (tag : Word16) :
    s.ownershipNotice n kind noStation cause tag = s.ownershipReport kind n 0xFF p cause.code tag :=
  ownershipNotice_eq s n p kind noStation cause tag hs hp

/-- CLAIM_FAILED shows the entry as it stood (R69, R74). -/
theorem claimFailed_report : (s.releaseSlot n).postOwnership n .claimFailed noStation .released (s.slotTag p) =
    s.claimEnds n p := by
  rw [State.postOwnership, (releaseSlot_keepsValue hp).ownershipNotice, slotTag_eq_claimTag,
    ownershipNotice_report hs hp]
  rfl

/-- RELINQUISHED shows it as it stood too, for neither withdrawal touches its value. -/
theorem relinquished_report : (((s.claimEnds n p).withdraw (.claim n)).withdraw (.dispute n)).ownershipNotice n
    .relinquished noStation .ok tag = s.ownershipReport .relinquished n 0xFF p 0 tag := by
  have hends : s.KeepsValue (s.claimEnds n p) n :=
    (releaseSlot_keepsValue hp).trans (.of_eq (post_changesOnly _ _) (by decide) (post_entry _ _ n))
  have hkept := hends.trans ((withdraw_keepsValue (s.claimEnds n p) n (.claim n)).trans
    (withdraw_keepsValue _ n (.dispute n)))
  exact (hkept.ownershipNotice _ _ _ _).trans (ownershipNotice_report hs hp .relinquished .ok tag)

theorem releaseClaim_releases (ho : p.ownership = .claiming) : s.Releases (s.releaseClaim n p tag) n tag := by
  refine releases_of_claiming hp ho ⟨fun hreached => ?_, fun hunheard => ?_⟩
  · have hform : s.releaseClaim n p tag =
        (((s.claimEnds n p).beginRelease n tag).withdraw (.dispute n)).withdraw (.claim n) := by
      rw [← claimFailed_report hs hp]
      exact if_pos ((claimHeardByPeers_iff_reached s n p).mpr hreached)
    rw [hform]
    exact ⟨_, _, beginRelease_begins _ _ _, withdraw_withdraws _ _, withdraw_withdraws _ _⟩
  · have hform : s.releaseClaim n p tag = ((((s.claimEnds n p).withdraw (.claim n)).withdraw (.dispute n)).post
        (s.ownershipReport .relinquished n 0xFF p 0 tag)).removeEntry n := by
      rw [← relinquished_report tag hs hp, ← claimFailed_report hs hp]
      exact if_neg (mt (claimHeardByPeers_iff_reached s n p).mp hunheard)
    rw [hform]
    exact ⟨_, _, _, withdraw_withdraws _ _, withdraw_withdraws _ _, post_posts _ _, removeEntry_removes _ _⟩

end Claim

/-- Every release is the one of R68 to R71. -/
theorem release_releases (hs : s.StorageCanonical) (n : Nat) : s.Releases (s.release n tag) n tag := by
  cases hp : s.produce n with
  | none =>
    rw [release_of_none tag hp, State.Releases, hp]
  | some p =>
    cases ho : p.ownership with
    | claiming =>
      rw [release_eq_releaseClaim tag hp ho]
      exact releaseClaim_releases tag hs hp ho
    | owned =>
      rw [release_eq_beginRelease tag hp ho, State.Releases, hp]
      dsimp only
      rw [ho]
      exact ⟨_, stopPublishing_stops _ _, beginRelease_begins _ _ _⟩
    | relinquishing =>
      rw [release_of_relinquishing tag hp ho, State.Releases, hp]
      dsimp only
      rw [ho]
    | deposed =>
      rw [release_eq_removeEntry tag hp ho, State.Releases, hp]
      dsimp only
      rw [ho, State.postOwnership, ownershipNotice_report hs hp]
      exact ⟨_, post_posts _ _, removeEntry_removes _ _⟩

end Release

/-! ## One release after the other (R145) -/

/-- The releases of several objects with one tag. -/
def State.releaseEach (s : State) (tag : Word16) (l : List Nat) : State := l.foldl (fun t n => t.release n tag) s

section Each
variable {s : State} {n : Nat} (tag : Word16)

theorem releaseEach_apart (s : State) (l : List Nat) : s.ApartFrom (s.releaseEach tag l) l := by
  induction l generalizing s with
  | nil => exact .refl s _
  | cons n rest ih =>
    exact ((release_apart tag s n).mono (by simp)).trans ((ih (s.release n tag)).mono (by simp +contextual))

theorem releaseEach_consume (s : State) (l : List Nat) (m : Nat) : (s.releaseEach tag l).consume m = s.consume m :=
  fold_keeps (P := fun t => t.consume m = s.consume m) (fun t n ht => (release_consume tag t n m).trans ht) l rfl

theorem releaseEach_releasesAll (l : List Nat) (hs : s.StorageCanonical) :
    s.ReleasesAll (s.releaseEach tag l) tag l := by
  induction l generalizing s with
  | nil => rfl
  | cons n rest ih => exact ⟨_, release_releases tag hs n, ih (release_storageCanonical tag hs n)⟩

/-- The release of one object among the others, which leave it apart before and after. -/
theorem releaseEach_split {l : List Nat} (hl : l.Nodup) (hn : n ∈ l) :
    ∃ a before after, n ∉ before ∧ n ∉ after ∧ s.ApartFrom a before
      ∧ (a.release n tag).ApartFrom (s.releaseEach tag l) after := by
  obtain ⟨before, after, rfl⟩ := List.append_of_mem hn
  have hperm := hl
  rw [List.nodup_append] at hperm
  obtain ⟨-, htail, hdisjoint⟩ := hperm
  refine ⟨s.releaseEach tag before, before, after, fun hmem => hdisjoint n hmem n List.mem_cons_self rfl,
    (List.nodup_cons.mp htail).1, releaseEach_apart tag s before, ?_⟩
  have hfold : s.releaseEach tag (before ++ n :: after) =
      ((s.releaseEach tag before).release n tag).releaseEach tag after := List.foldl_append
  rw [hfold]
  exact releaseEach_apart tag _ after

end Each

/-! ## The outcome for each entry -/

theorem mem_produces_iff {s : State} (ho : s.DirectoryOrdered) (n : Nat) :
    n ∈ s.produces ↔ (s.produce n).isSome = true := by
  rw [← exists_produce_iff ho n]
  simp [State.produces, and_assoc]

theorem produces_nodup {s : State} (ho : s.DirectoryOrdered) : s.produces.Nodup :=
  List.pairwise_map.mpr ((ho.1.filter _).imp ne_of_lt)

section Outcome
variable {s : State} (ho : s.DirectoryOrdered) (tag : Word16) {n : Nat} {p : Produce}
include ho

section Entry
variable (hp : s.produce n = some p)
include hp

/-- An entry is released as it stood, but that it may show its RELINQUISH as queued. -/
theorem produces_split : ∃ (a : State) (b : Bool) (after : List Nat), n ∉ after
    ∧ a.produce n = some { p with releaseQueued := b }
    ∧ (a.release n tag).ApartFrom (s.releaseEach tag s.produces) after := by
  have hmem : n ∈ s.produces := (mem_produces_iff ho n).mpr (by rw [hp]; rfl)
  obtain ⟨a, before, after, hbefore, hafter, hapart, hlater⟩ :=
    releaseEach_split (s := s) tag (produces_nodup ho) hmem
  obtain ⟨b, hb⟩ := hapart.produce hbefore hp
  exact ⟨a, b, after, hafter, hb, hlater⟩

theorem released_of_owned (howned : p.ownership = .owned) :
    (∃ q, (s.releaseEach tag s.produces).produce n = some q ∧ q.releaseTag = some tag)
      ∧ ∀ it ∈ (s.releaseEach tag s.produces).pubQueue, it.object ≠ n := by
  obtain ⟨a, b, after, hafter, ha, hlater⟩ := produces_split ho tag hp
  obtain ⟨⟨q, hq, htag⟩, hgone⟩ := release_of_owned tag ha howned
  obtain ⟨b', hq'⟩ := hlater.produce hafter hq
  exact ⟨⟨_, hq', htag⟩, fun it hit => hgone it (hlater.queue it hit)⟩

theorem released_of_relinquishing (hown : p.ownership = .relinquishing) :
    ∃ q, (s.releaseEach tag s.produces).produce n = some q ∧ q.releaseTag = p.releaseTag := by
  obtain ⟨a, b, after, hafter, ha, hlater⟩ := produces_split ho tag hp
  rw [release_of_relinquishing tag ha hown] at hlater
  obtain ⟨b', hq'⟩ := hlater.produce hafter ha
  exact ⟨_, hq', rfl⟩

theorem released_of_deposed (hown : p.ownership = .deposed) : (s.releaseEach tag s.produces).entry n = none := by
  obtain ⟨a, b, after, hafter, ha, hlater⟩ := produces_split ho tag hp
  exact hlater.entry_none hafter (release_of_deposed tag ha hown)

theorem released_slot (hown : p.ownership = .claiming) {k : Fin 4} (hk : p.claimSlot = some k) :
    (s.releaseEach tag s.produces).ownership.slots.get k = none := by
  obtain ⟨a, b, after, -, ha, hlater⟩ := produces_split ho tag hp
  exact hlater.slots k (release_freesSlot tag ha hown hk)

end Entry

/-- Every PRODUCE entry that stays is RELINQUISHING, and was a PRODUCE entry before. -/
theorem released_stays (hq : (s.releaseEach tag s.produces).produce n = some p) :
    p.ownership = .relinquishing ∧ (s.produce n).isSome = true := by
  cases hp : s.produce n with
  | none =>
    have hout : n ∉ s.produces := by
      rw [mem_produces_iff ho, hp]
      exact Bool.false_ne_true
    rw [(releaseEach_apart tag s s.produces).produce_none hout hp] at hq
    cases hq
  | some p₀ =>
    refine ⟨?_, rfl⟩
    obtain ⟨a, b, after, hafter, ha, hlater⟩ := produces_split ho tag hp
    rcases release_own tag ha with ⟨q, hreleased, hown⟩ | hgone
    · obtain ⟨b', hkept⟩ := hlater.produce hafter hreleased
      cases hq.symm.trans hkept
      exact hown
    · rw [State.produce, hlater.entry_none hafter hgone] at hq
      cases hq

/-- Only OWNED entries have anything queued, so nothing stays in the publication queue (R70, R76). -/
theorem released_pubQueue (hqueued : s.QueuedAreOwned) : (s.releaseEach tag s.produces).pubQueue = [] := by
  refine List.eq_nil_iff_forall_not_mem.mpr fun it hit => ?_
  obtain ⟨-, -, hitems⟩ := hqueued
  obtain ⟨p, hp, howned, -⟩ := hitems it ((releaseEach_apart tag s s.produces).queue it hit)
  exact (released_of_owned ho tag hp howned).2 it hit rfl

end Outcome

/-- The station as a LEAVE makes it (R145). -/
def State.leaving (s : State) (tag : Word16) : State :=
  s.setStation { s.station with life := .leaving, keptTag := tag }

/-- Settles O33: LEAVE releases the PRODUCE entries one after the other; the others leave each one apart until its turn
and after it. -/
theorem leaveReleasesEveryProduceEntry : Obligations.LeaveReleasesEveryProduceEntry := by
  intro s d hrings ho hs htakes
  have hstarted : s.station.life ≠ .awaitStart := hrings.awake htakes.1.1
  have hleaving : (s.leaving d.tag).RingsKept := hrings.live hstarted Life.noConfusion rfl
  have hapart := releaseEach_apart d.tag (s.leaving d.tag) (s.leaving d.tag).produces
  have hwhole : (s.leaving d.tag).ChangesOnly (s.beginLeave d.tag)
      [.pubQueue, .directory, .store, .ownership, .contention, .notice] :=
    foldl_changesOnly _ (fun t n => release_changesOnly t n d.tag) _ _
  have hall := releaseEach_releasesAll d.tag (s.leaving d.tag).produces (s := s.leaving d.tag) hs
  have hleavingOrdered : (s.leaving d.tag).DirectoryOrdered := ho
  have hdone := finish_changesOnly (s.beginLeave d.tag) d .ok
  have hcompleted := finish_completed hleaving htakes.1 hwhole (by decide) .ok
  have hentry := hdone.entry (by decide)
  have hproduce (n : Nat) : ((s.beginLeave d.tag).finish d .ok).produce n = (s.beginLeave d.tag).produce n := by
    rw [State.produce, hentry]
    rfl
  refine ⟨_, _, exec_leave_of_takes s d htakes, hcompleted, ?_, hall, hdone, fun n p hp => ?_, fun n p hp hown => ?_,
    fun n p hp hown => ?_, fun n p hp hown => (hentry n).trans (released_of_deposed hleavingOrdered d.tag hp hown),
    fun n p k hp hown hk => ?_, fun n => ?_, fun hqueued => ?_, ?_, ?_⟩
  · exact (hdone .station (by decide)).trans (hwhole .station (by decide))
  · rw [hproduce] at hp
    exact released_stays hleavingOrdered d.tag hp
  · rw [hproduce]
    exact (released_of_owned hleavingOrdered d.tag hp hown).1
  · rw [hproduce]
    exact released_of_relinquishing hleavingOrdered d.tag hp hown
  · rw [show _ = _ from hdone .ownership (by decide)]
    exact released_slot hleavingOrdered d.tag hp hown hk
  · rw [hentry]
    exact releaseEach_consume d.tag (s.leaving d.tag) _ n
  · exact (hdone .pubQueue (by decide)).trans (released_pubQueue hleavingOrdered d.tag hqueued)
  · rw [show _ = _ from hdone .notice (by decide)]
    exact hapart.notice
  · exact ((setStation_changesOnly s _).mono (by decide)).trans ((hwhole.mono (by decide)).trans (hdone.mono (by decide)))

end Sys2Proof.Machine
end


section
/-! PROOF. Requests to scan, and examinations that find no submitted descriptor (R155, R156). -/

namespace Sys2Proof.Machine

section Scan
variable {s : State}

/-- A request makes the unit SCANNING, and is noted where it was SCANNING already (R155). -/
theorem scanRequest_command (h : s.station.life ≠ .awaitStart) :
    s.scanRequest.command =
      { s.command with scanning := true, rescan := s.command.rescan || s.command.scanning } := by
  unfold State.scanRequest
  rw [if_neg h]
  cases hscan : s.command.scanning with
  | true => simp [← hscan]
  | false => simp

theorem scanRequest_changesOnly (s : State) : s.ChangesOnly s.scanRequest [.command] := by
  unfold State.scanRequest
  split
  · exact .refl s _
  · split
    · exact setCommand_changesOnly s _
    · exact setCommand_changesOnly s _

/-- With nothing waiting, an engine read finds the byte as it stands and changes nothing. -/
theorem engineRead_of_none (h : s.port.waiting = []) (a : Nat) : s.port.engineRead a = (s.ramByte a, s.port) := by
  rw [HostPort.engineRead, s.port.yield_of_none h, s.ramByte_of_none h]

/-- An examination that finds no submitted descriptor goes on only for a noted request (R156). -/
theorem exec_examination_of_unsubmitted (hscan : s.command.scanning = true) (hw : s.port.waiting = [])
    (hmarker : s.ramByte s.slotAddress ≠ markerSubmitted) :
    exec .examination s =
      .next (s.setCommand { s.command with scanning := s.command.rescan, rescan := false }) := by
  show execExamination s = _
  unfold execExamination
  simp only [hscan, engineRead_of_none hw, hmarker, if_true, if_false, s.port.drain_of_none hw]
  cases hnoted : s.command.rescan with
  | true => simp
  | false => simp

end Scan

/-- Settles O17: the served byte is a request to scan, and the examination reads the marker alone. -/
theorem scansBeginAndStop : Obligations.ScansBeginAndStop := by
  intro s hlife
  refine ⟨fun via value hserves => ?_, fun hscan hw hmarker => ?_⟩
  · refine ⟨_, exec_cmdAdvance_of_serves hserves, scanRequest_command (s := s.setPort _) hlife,
      scanRequest_changesOnly (s.setPort _) .port (by decide), ?_⟩
    exact ((setPort_changesOnly s _).mono (by decide)).trans ((scanRequest_changesOnly _).mono (by decide))
  · exact ⟨_, exec_examination_of_unsubmitted hscan hw hmarker, rfl, setCommand_changesOnly s _⟩

end Sys2Proof.Machine
end


section
/-! PROOF. A ring command whose checks refuse it, and a descriptor of an unknown code (R152, R157, R160, Tables 9.2 and
9.6). -/

namespace Sys2Proof.Machine

section Refused
variable {s : State} {d : Descriptor}

/-- A submitted ring command is its checks, which say what Table 9.6 says, and an effect once they have passed. -/
theorem exec_eq_perform (hl : s.station.life ≠ .awaitStart) (hs : s.Submits d) {c : Instr}
    (hc : commandOf d.code = some c) :
    ∃ checks carryOut, exec c s = .next (s.perform d checks carryOut) ∧ SameChecks checks (s.tableChecks d c) := by
  have htaking (code : Byte) (hcode : d.code.toNat = code.toNat) : s.takingCode code = some (d, s) := by
    rw [← BitVec.eq_of_toNat_eq hcode]
    exact s.takingCode_of_submits d hs
  unfold commandOf at hc
  split at hc
  case h_14 => cases hc
  all_goals obtain rfl := Option.some.inj hc
  · next hcode => exact ⟨_, _, by rw [exec, execSubscribe, htaking 0x01 hcode], subscribeChecks_same s d⟩
  · next hcode => exact ⟨_, _, by rw [exec, execUnsubscribe, htaking 0x02 hcode], consumeChecks_same s d⟩
  · next hcode => exact ⟨_, _, by rw [exec, execClaim, htaking 0x03 hcode], claimChecks_same s d hl⟩
  · next hcode => exact ⟨_, _, by rw [exec, execRelinquish, htaking 0x04 hcode], relinquishChecks_same s d⟩
  · next hcode => exact ⟨_, _, by rw [exec, execWrite, htaking 0x05 hcode], writeChecks_same s d hl⟩
  · next hcode => exact ⟨_, _, by rw [exec, execRead, htaking 0x06 hcode], readChecks_same s d⟩
  · next hcode => exact ⟨_, _, by rw [exec, execPull, htaking 0x07 hcode], pullChecks_same s d hl⟩
  · next hcode => exact ⟨_, _, by rw [exec, execLock, htaking 0x08 hcode], lockChecks_same s d⟩
  · next hcode => exact ⟨_, _, by rw [exec, execUnlock, htaking 0x09 hcode], consumeChecks_same s d⟩
  · next hcode => exact ⟨_, _, by rw [exec, execUnbind, htaking 0x0A hcode], consumeChecks_same s d⟩
  · next hcode => exact ⟨_, _, by rw [exec, execSnapshot, htaking 0x0B hcode], snapshotChecks_same s d⟩
  · next hcode => exact ⟨_, _, by rw [exec, execLeave, htaking 0x0C hcode], leaveChecks_same s d⟩
  · next hcode => exact ⟨_, _, by rw [exec, execRejoin, htaking 0x0D hcode], rejoinChecks_same s d⟩

/-- A refused command only completes (R157, R160). -/
theorem exec_of_fails (hl : s.station.life ≠ .awaitStart) (hs : s.Submits d) {c : Instr}
    (hc : commandOf d.code = some c) {status : Status} (hf : FirstToFail (s.tableChecks d c) status) :
    exec c s = .next (s.finish d status) := by
  obtain ⟨checks, carryOut, hexec, hsame⟩ := exec_eq_perform hl hs hc
  rw [hexec, s.perform_of_fails d carryOut hsame hf]

/-- A code that selects no command is none of Table 9.2. -/
theorem not_contains_of_commandOf_none {code : Byte} (h : commandOf code = none) :
    commandCodes.contains code = false := by
  have hcodes : ∀ code ∈ commandCodes, commandOf code ≠ none := by decide
  rw [← Bool.not_eq_true, List.contains_iff_mem]
  exact fun hmem => hcodes code hmem h

/-- A taken descriptor of an unknown code only completes (R152). -/
theorem exec_badCommand_of_taking {t : State} (ht : s.taking = some (d, t)) (hc : commandOf d.code = none) :
    exec .badCommand s = .next (t.finish d .badCommand) := by
  show execBadCommand s = _
  unfold execBadCommand
  rw [ht]
  simp only [not_contains_of_commandOf_none hc, Bool.false_eq_true, if_false]

/-- A refusal on its own changes the ring alone. -/
theorem finish_alone (hr : s.RingsKept) (hs : s.Submits d) (status : Status) :
    s.Completed (s.finish d status) status 0 d.length 0 0 0 ∧ s.ChangesOnly (s.finish d status) [.command, .port] :=
  ⟨finish_completed hr hs (.refl s []) (by decide) status, finish_changesOnly s d status⟩

end Refused

/-- Settles O20: the checks of the model are those of Table 9.6 in their order, and the first that fails leaves the
completion alone. -/
theorem refusedCommandsOnlyComplete : Obligations.RefusedCommandsOnlyComplete := by
  intro s d hr hs
  refine ⟨fun c status hc hf => ⟨_, exec_of_fails (hr.awake hs.1) hs hc hf, finish_alone hr hs status⟩,
    fun hc => ⟨_, exec_badCommand_of_taking (s.taking_of_submits d hs) hc, finish_alone hr hs .badCommand⟩⟩

end Sys2Proof.Machine
end


section
/-! PROOF. SPI accesses of shared RAM among the engine's reads and writes, and around a BAD_COMMAND (R157, R158, R166,
R176, R178). -/

namespace Sys2Proof.Machine

/-! ## An access that comes to the arbiter -/

section Request
variable (p : HostPort) (w : WaitingAccess)

theorem HostPort.take_waiting : (p.take w).waiting = p.waiting := by
  unfold HostPort.take
  split <;> rfl

/-- Whether it is taken at once or waits, an access comes after every access before it (R178). -/
theorem HostPort.request_drain_eq : (p.request w).drain = p.drain.take w := by
  unfold HostPort.request
  split
  · next hnow =>
    rw [HostPort.drain_of_none _ ((p.take_waiting w).trans hnow.1), p.drain_of_none hnow.1]
  · have htake := (p.waiting.foldl HostPort.take p).takeAll_waiting [] [w]
    refine Eq.trans ?_ htake.symm
    rw [HostPort.drain, HostPort.takeAll_waiting, List.foldl_append]

end Request

section Write
variable {s : State} {via : SpiVia} {addr : Nat}

/-- The port as SHARED_RAM_WRITE leaves it. -/
def HostPort.afterRamWrite (p : HostPort) (via : SpiVia) (addr : Nat) (value : Byte) (turn : Nat) : HostPort :=
  { p with spi := transactionAfter via true addr }.ramWrite addr value turn

theorem exec_sharedRamWrite_of_serves (ha : addr < Config.ramEnd) (h : s.port.Serves via true addr) (value : Byte)
    (turn : Nat) :
    exec (.sharedRamWrite via addr value turn) s = .next (s.setPort (s.port.afterRamWrite via addr value turn)) :=
  congrArg (fun p => Host.Outcome.next (s.setPort p))
    (s.port.acceptByte_of_serves { via := via, addr := addr, value := value, turn := turn } ha h)

theorem afterRamWrite_ramByte (ha : addr < Config.ramEnd) (value : Byte) (turn a : Nat) :
    (s.setPort (s.port.afterRamWrite via addr value turn)).ramByte a = if a = addr then value else s.ramByte a := by
  have hbefore : ({ s.port with spi := transactionAfter via true addr } : HostPort).drain.ram = s.port.drain.ram :=
    (congrArg HostPort.ram (HostPort.takeAll_with s.port (transactionAfter via true addr) s.port.waiting
      s.port.waiting) :)
  rw [State.ramByte, setPort_port, HostPort.afterRamWrite, HostPort.ramWrite, HostPort.request_drain_eq,
    HostPort.take_ram _ _ ha, hbefore]
  rfl

/-- The reads of an engine after the write came to the arbiter (R178). -/
theorem afterRamWrite_engineReads (ha : addr < Config.ramEnd) (hw : s.port.waiting = []) (value : Byte) (turn : Nat)
    (a : Nat) {n i : Nat} (hi : i < n) :
    ((s.port.afterRamWrite via addr value turn).engineReads a n).1.getD i 0 =
      if a + i = addr ∧ turn ≤ i then value else s.ramByte (a + i) := by
  have hreads := HostPort.engineReads_of_request { s.port with spi := transactionAfter via true addr }
    { turn := turn, addr := addr, value := some value } hw ha a n
  rw [HostPort.afterRamWrite, HostPort.ramWrite, hreads, s.ramByte_of_none hw]
  simp [hi, HostPort.byteRead]

theorem afterRamWrite_same (p : HostPort) (value : Byte) (turn : Nat) :
    p.afterRamWrite via addr value turn =
      { p with
        spi := transactionAfter via true addr
        ram := (p.afterRamWrite via addr value turn).ram
        waiting := (p.afterRamWrite via addr value turn).waiting } := by
  unfold HostPort.afterRamWrite HostPort.ramWrite HostPort.request
  split <;> rfl

end Write

/-! ## Engine accesses while one access waits -/

section One
variable {p : HostPort} {w : WaitingAccess}

theorem blockWrites_addresses (a : Nat) (bs : List Byte) :
    ((List.range bs.length).map (fun i => (i, a + i, bs.getD i 0))).map (fun k => k.2.1) =
      List.range' a bs.length := by
  rw [List.map_map, List.range'_eq_map_range]
  rfl

/-- A run of engine writes is a series of writes at rising places and addresses. -/
theorem HostPort.met_engineWrites (hp : p.waiting = [w]) (hw : w.addr < Config.ramEnd) {a : Nat} {bs : List Byte}
    (hfit : a + bs.length ≤ Config.ramEnd) :
    p.Met (p.engineWrites a bs).drain w ((List.range bs.length).map (fun i => (i, a + i, bs.getD i 0))) := by
  rw [HostPort.engineWrites_eq_writeEach]
  refine HostPort.met_writeEach hw (i := 0) (d := w.turn) ?_ (fun k hk => ?_) ?_ (Nat.zero_add _).symm hp
  · rw [blockWrites_addresses]
    exact List.nodup_range'
  · obtain ⟨i, hi, rfl⟩ := List.mem_map.mp hk
    have hlt := List.mem_range.mp hi
    show a + i < Config.ramEnd
    omega
  · rw [List.map_map, List.length_map, List.length_range, ← List.range_eq_range']
    exact List.map_id _

/-- After engine reads the access has been taken, or stands nearer by as many. -/
theorem HostPort.engineReads_port_of_one (hp : p.waiting = [w]) (a n : Nat) :
    (p.engineReads a n).2 =
      if w.turn < n then { p.take w with waiting := [] }
      else { p with waiting := [{ w with turn := w.turn - n }] } := by
  induction n generalizing p w a with
  | zero =>
    show p = { p with waiting := [w] }
    rw [← hp]
  | succ n ih =>
    obtain ⟨turn, addr, value⟩ := w
    cases turn with
    | zero =>
      have hyield : p.yield = { p.take ⟨0, addr, value⟩ with waiting := [] } := by
        rw [HostPort.yield, hp]
        rfl
      rw [if_pos (Nat.succ_pos n), ← hyield]
      exact congrArg Prod.snd (HostPort.engineReads_of_none p.yield (by rw [hyield]) (a + 1) n)
    | succ t =>
      have hyield : p.yield = { p with waiting := [⟨t, addr, value⟩] } := by
        rw [HostPort.yield, hp]
        rfl
      refine (ih (p := p.yield) (w := ⟨t, addr, value⟩) (by rw [hyield]) (a + 1)).trans ?_
      rw [hyield]
      simp only [Nat.add_lt_add_iff_right, Nat.add_sub_add_right]
      cases value <;> rfl

/-- Engine reads and then engine writes of one happening, numbered on, while one access waits. -/
theorem HostPort.met_reads_then_writes {writes : List (Nat × Nat × Byte)} (hp : p.waiting = [w])
    (hw : w.addr < Config.ramEnd) (hn : (writes.map (fun k => k.2.1)).Nodup)
    (hfit : ∀ k ∈ writes, k.2.1 < Config.ramEnd) (a n : Nat)
    (hplaces : writes.map Prod.fst = List.range' n writes.length) :
    p.Met ((p.engineReads a n).2.writeEach writes).drain w writes := by
  rw [HostPort.engineReads_port_of_one hp]
  split
  · next hturn =>
    have hmet := HostPort.met_of_landed (p := p) hw hn hfit
      (fun k hk => hturn.le.trans (places_ge hplaces k hk))
    rw [HostPort.drain_of_none _ (by rw [hmet.2])]
    exact hmet
  · next hturn =>
    exact HostPort.met_writeEach (p := { p with waiting := [{ w with turn := w.turn - n }] }) hw hn hfit hplaces
      (by omega) rfl

end One

/-! ## A BAD_COMMAND around a waiting access -/

/-- The five writes of a completion, placed after the sixteen reads of the taking (R157, R158). -/
def completionWrites (a : Nat) (status : Status) (flags : Byte) (length detail : Nat) : List (Nat × Nat × Byte) :=
  [(16, a + 2, status.code), (17, a + 3, flags), (18, a + 9, byteOf length), (19, a + 12, byteOf detail),
    (20, a, markerDone)]

section Completion
variable {s : State} {w : WaitingAccess}

/-- A refusal after the reads of the taking have left the port `x`. -/
theorem setPort_finish (s : State) (x : HostPort) (d : Descriptor) (status : Status) :
    ((s.setPort x).finish d status).command = { s.command with index := s.nextIndex }
      ∧ ((s.setPort x).finish d status).port =
          (x.writeEach (completionWrites s.slotAddress status 0 d.length 0)).drain :=
  ⟨rfl, rfl⟩

theorem completionWrites_nodup (a : Nat) (status : Status) (flags : Byte) (length detail : Nat) :
    ((completionWrites a status flags length detail).map (fun k => k.2.1)).Nodup := by
  simp [completionWrites]

theorem completionWrites_places (a : Nat) (status : Status) (flags : Byte) (length detail : Nat) :
    (completionWrites a status flags length detail).map Prod.fst =
      List.range' 16 (completionWrites a status flags length detail).length := rfl

theorem completionWrites_fit {a : Nat} (h : a + 16 ≤ Config.ramEnd) (status : Status) (flags : Byte)
    (length detail : Nat) : ∀ k ∈ completionWrites a status flags length detail, k.2.1 < Config.ramEnd := by
  simp [completionWrites]
  omega

/-- The taking of a descriptor whose bytes the reads find around the waiting access (R157). -/
theorem taking_of_one (hscan : s.command.scanning = true) (hp : s.port.waiting = [w]) (hw : w.addr < Config.ramEnd)
    {d : Descriptor}
    (hd : Descriptor.ofBytes ((List.range 16).map (fun i => s.port.byteRead w i (s.slotAddress + i))) = d)
    (hmarker : d.marker = markerSubmitted) :
    s.taking = some (d, s.setPort (s.port.engineReads s.slotAddress 16).2) := by
  have hread : Descriptor.ofBytes (s.port.engineReads s.slotAddress 16).1 = d := by
    rw [HostPort.engineReads_of_one _ w hw 16 hp, hd]
  simp [State.taking, hscan, hread, hmarker]

/-- The port after the taking and the refusal. -/
theorem finish_met (hr : s.RingsKept) (hscan : s.command.scanning = true) (hp : s.port.waiting = [w])
    (hw : w.addr < Config.ramEnd) (d : Descriptor) (status : Status) :
    s.port.Met ((s.setPort (s.port.engineReads s.slotAddress 16).2).finish d status).port w
      (completionWrites s.slotAddress status 0 d.length 0) := by
  obtain ⟨-, hport⟩ := setPort_finish s (s.port.engineReads s.slotAddress 16).2 d status
  rw [hport]
  exact HostPort.met_reads_then_writes hp hw (completionWrites_nodup _ _ _ _ _)
    (completionWrites_fit (s.slot_in_ram hr hscan).2.1 _ _ _ _) s.slotAddress 16 (completionWrites_places _ _ _ _ _)

end Completion

/-- Settles O19: an access joins the accesses before it, an engine access changes only when it is taken, and reads and
writes of one happening are numbered in one row. -/
theorem sharedRamWriteLandsAtItsTurn : Obligations.SharedRamWriteLandsAtItsTurn := by
  refine ⟨fun s via addr value turn ha hserves => ?_, HostPort.engineReads_then_drain,
    fun p w a bs hp hw hfit => HostPort.met_engineWrites hp hw hfit, ?_⟩
  · have hbyte := afterRamWrite_ramByte (s := s) (via := via) ha value turn
    exact ⟨_, exec_sharedRamWrite_of_serves ha hserves value turn, (hbyte addr).trans (if_pos rfl),
      fun a hne => (hbyte a).trans (if_neg hne),
      fun hwait a n i hi => afterRamWrite_engineReads ha hwait value turn a hi,
      afterRamWrite_same s.port value turn, setPort_changesOnly s _⟩
  · intro s w hr hscan hp hw slot d hmarker hcode
    have htaking := taking_of_one hscan hp hw (d := d) rfl hmarker
    exact ⟨_, exec_badCommand_of_taking htaking hcode, (setPort_finish s _ d .badCommand).1,
      finish_met hr hscan hp hw d .badCommand,
      ((setPort_changesOnly s _).mono (by decide)).trans (finish_changesOnly _ d .badCommand)⟩

end Sys2Proof.Machine
end


section
/-! PROOF. What the interrupt line is decided by (R173): the unread count, the coalescing timer and the trigger of the
start record copy. Posts and every other operation that the commands share leave them alone. -/

namespace Sys2Proof.Machine

section Operations
variable {s : State} {n m source station detail b : Nat} {kind : NoticeKind} {cause : Cause} {tag : Word16} {q : Byte}
  {payload : List Byte} {rep : Bool} {c : Consume} {p : Produce}

/-! ## Blocks and posts -/

/-- Of the timer it matters only whether it is EXPIRED. -/
theorem State.LineFollowsCondition.congr {t : State} (hs : s.LineFollowsCondition)
    (hcopy : t.station.copy = s.station.copy) (hline : t.notice.intLine = s.notice.intLine)
    (hunread : t.notice.unread = s.notice.unread)
    (htimer : t.notice.timer = .expired ↔ s.notice.timer = .expired) : t.LineFollowsCondition := by
  unfold State.LineFollowsCondition at *
  rw [hcopy, hline, hunread, htimer]
  exact hs

theorem State.LineFollowsCondition.elsewhere {t : State} {l : List Block} (hs : s.LineFollowsCondition)
    (h : s.ChangesOnly t l) (hl : .station ∉ l ∧ .notice ∉ l) : t.LineFollowsCondition := by
  have hstation : t.station = s.station := h .station hl.1
  have hnotice : t.notice = s.notice := h .notice hl.2
  exact hs.congr (by rw [hstation]) (by rw [hnotice]) (by rw [hnotice]) (by rw [hnotice])

/-- A change of Station Control that leaves the copy. -/
theorem State.LineFollowsCondition.live {x : Station} (hs : s.LineFollowsCondition)
    (hcopy : x.copy = s.station.copy) : (s.setStation x).LineFollowsCondition := hs.congr hcopy rfl rfl .rfl

theorem State.LineFollowsCondition.highMarkTest (hs : s.LineFollowsCondition) : s.highMarkTest.LineFollowsCondition :=
  hs.elsewhere (highMarkTest_changesOnly s) (by decide)

/-- A notice is unread only once it is placed (R168, R170). -/
theorem State.LineFollowsCondition.post {x : Notice} (hs : s.LineFollowsCondition) :
    (s.post x).LineFollowsCondition := by
  unfold State.post
  split
  · exact State.LineFollowsCondition.highMarkTest (s := s.setNotice _) hs
  · exact hs

theorem State.LineFollowsCondition.postOwnership (hs : s.LineFollowsCondition) :
    (s.postOwnership n kind station cause tag).LineFollowsCondition := hs.post

theorem State.LineFollowsCondition.postHoldEnded (hs : s.LineFollowsCondition) :
    (s.postHoldEnded detail).LineFollowsCondition := hs.post

/-- A report about an entry, and its removal (R33, R74). -/
theorem State.LineFollowsCondition.reportRemove (hs : s.LineFollowsCondition) :
    ((s.postOwnership n kind station cause tag).removeEntry m).LineFollowsCondition :=
  hs.postOwnership.elsewhere (removeEntry_changesOnly _ m) (by decide)

/-! ## The end of a happening -/

/-- The station goes on to DETACHED with its copy (R146). -/
theorem State.LineFollowsCondition.enterDetached (hs : s.LineFollowsCondition) :
    s.enterDetached.LineFollowsCondition := by
  have hleft : ((s.setStation { s.station with life := .detached }).post
      (s.stationNotice .left s.own 0 s.station.keptTag)).LineFollowsCondition :=
    (hs.live (x := { s.station with life := .detached }) rfl).post
  unfold State.enterDetached
  dsimp only
  split
  · exact .postHoldEnded (hleft.elsewhere (setContention_changesOnly _ _) (by decide))
  · exact hleft.elsewhere (setContention_changesOnly _ _) (by decide)

theorem State.LineFollowsCondition.leaveIdle (hs : s.LineFollowsCondition) : s.leaveIdle.LineFollowsCondition :=
  hs.elsewhere (leaveIdle_changesOnly s) (by decide)

theorem State.LineFollowsCondition.settle (hs : s.LineFollowsCondition) : s.settle.LineFollowsCondition := by
  unfold State.settle
  split
  · exact hs.enterDetached.leaveIdle
  · exact hs.leaveIdle

/-! ## Claims and releases -/

theorem State.LineFollowsCondition.withdraw {f : CtlFrame} (hs : s.LineFollowsCondition) :
    (s.withdraw f).LineFollowsCondition := hs.elsewhere (withdraw_changesOnly s f) (by decide)

theorem State.LineFollowsCondition.releaseSlot (hs : s.LineFollowsCondition) :
    (s.releaseSlot n).LineFollowsCondition := hs.elsewhere (releaseSlot_changesOnly s n) (by decide)

theorem State.LineFollowsCondition.stopPublishing (hs : s.LineFollowsCondition) :
    (s.stopPublishing n).LineFollowsCondition := hs.elsewhere (stopPublishing_changesOnly s n) (by decide)

theorem State.LineFollowsCondition.beginRelease (hs : s.LineFollowsCondition) :
    (s.beginRelease n tag).LineFollowsCondition := hs.elsewhere (beginRelease_changesOnly s n tag) (by decide)

theorem State.LineFollowsCondition.requestDispute (hs : s.LineFollowsCondition) :
    (s.requestDispute n).LineFollowsCondition := hs.elsewhere (requestDispute_changesOnly s n) (by decide)

theorem State.LineFollowsCondition.loseClaim (hs : s.LineFollowsCondition) :
    (s.loseClaim n source cause).LineFollowsCondition :=
  .reportRemove (.releaseSlot (.withdraw hs.withdraw))

theorem State.LineFollowsCondition.depose (hs : s.LineFollowsCondition) :
    (s.depose n source cause).LineFollowsCondition :=
  .postOwnership (hs.stopPublishing.elsewhere (updProduce_changesOnly _ n _) (by decide))

theorem State.LineFollowsCondition.releaseClaim (hs : s.LineFollowsCondition) :
    (s.releaseClaim n p tag).LineFollowsCondition := by
  unfold State.releaseClaim
  dsimp only
  split
  · exact .withdraw (.withdraw (.beginRelease (.postOwnership hs.releaseSlot)))
  · exact .reportRemove (.withdraw (.withdraw (.postOwnership hs.releaseSlot)))

theorem State.LineFollowsCondition.release (hs : s.LineFollowsCondition) :
    (s.release n tag).LineFollowsCondition := by
  unfold State.release
  split
  · exact hs
  · split
    · exact hs.releaseClaim
    · exact hs.stopPublishing.beginRelease
    · exact hs
    · exact hs.reportRemove

theorem State.LineFollowsCondition.failClaim (hs : s.LineFollowsCondition) :
    (s.failClaim n).LineFollowsCondition := by
  unfold State.failClaim
  split
  · exact hs
  · split
    · exact .reportRemove hs.releaseSlot.withdraw
    · exact hs

theorem State.LineFollowsCondition.endRelease (hs : s.LineFollowsCondition) :
    (s.endRelease n cause).LineFollowsCondition := by
  unfold State.endRelease
  split
  · exact hs
  · split
    · exact hs.reportRemove
    · exact hs

theorem State.LineFollowsCondition.grantClaim {k : Fin 4} {slot : ClaimSlot} (hs : s.LineFollowsCondition) :
    (s.grantClaim k slot p).LineFollowsCondition := by
  have howned := (hs.elsewhere (putSlot_changesOnly s k none) (by decide)).elsewhere
    (updProduce_changesOnly _ slot.object (fun p =>
      { p with ownership := .owned, claimSlot := none, refreshCounter := 0 })) (by decide)
  unfold State.grantClaim
  dsimp only
  split
  · exact howned.postOwnership.elsewhere (appendNew_changesOnly _ _) (by decide)
  · exact howned.postOwnership

/-! ## The teardown of a muted station (R148) -/

theorem State.LineFollowsCondition.muteEntry (hs : s.LineFollowsCondition) :
    (s.muteEntry n).LineFollowsCondition := by
  unfold State.muteEntry
  split
  · exact hs
  · split
    · exact hs.releaseSlot.reportRemove
    · exact hs.reportRemove

theorem State.LineFollowsCondition.muteContention (hs : s.LineFollowsCondition) :
    s.muteContention.LineFollowsCondition := by
  unfold State.muteContention
  dsimp only
  split
  · exact .postHoldEnded (hs.elsewhere (setContention_changesOnly s _) (by decide))
  · exact hs.elsewhere (setContention_changesOnly s _) (by decide)

theorem State.LineFollowsCondition.enterMuted (hs : s.LineFollowsCondition) : s.enterMuted.LineFollowsCondition := by
  have hsilent := ((hs.live (x := { s.station with life := .muted, joinRunning := false, joinOwed := false }) rfl).post
    (x := s.stationNotice .numberClash s.own s.station.life.code 0)).muteContention
  unfold State.enterMuted
  exact fold_keeps (P := State.LineFollowsCondition) (fun _ _ hu => hu.muteEntry) _
    ((hsilent.elsewhere (setOwnership_changesOnly _ _) (by decide)).elsewhere (setPubQueue_changesOnly _ _) (by decide))

theorem State.LineFollowsCondition.clash (hs : s.LineFollowsCondition) : s.clash.LineFollowsCondition := by
  unfold State.clash
  split
  · exact hs.enterMuted
  · exact hs.enterMuted
  · exact hs.enterMuted
  · exact hs.enterMuted
  · exact hs
  · exact hs

/-! ## Evictions, acceptances and expiries -/

/-- An allocation reports its eviction at most (R26). -/
theorem State.LineFollowsCondition.allocate {t : State} {pinned : Bool} {w : Way} (hs : s.LineFollowsCondition)
    (h : s.allocate n pinned detail tag = some (w, t)) : t.LineFollowsCondition := by
  obtain ⟨ns, hreports⟩ := allocate_reports h
  have hposted := postAll_changesOnly s ns
  have hall : (s.postAll ns).LineFollowsCondition :=
    fold_keeps (P := State.LineFollowsCondition) (fun _ _ hu => hu.post) ns hs
  obtain ⟨hnotice, -, -⟩ := postAll_posts s ns
  have hsame : t.notice = (s.postAll ns).notice := hreports.notice.trans hnotice.symm
  have hstation : t.station = (s.postAll ns).station := hreports.station.trans (hposted .station (by decide)).symm
  exact hall.congr (by rw [hstation]) (by rw [hsame]) (by rw [hsame]) (by rw [hsame])

theorem State.LineFollowsCondition.takeClaim {d : Descriptor} (hs : s.LineFollowsCondition) :
    (s.takeClaim d).LineFollowsCondition := by
  have hentry (k : Fin 4) : (s.claimEntry d k).LineFollowsCondition := by
    unfold State.claimEntry
    split
    · exact hs.elsewhere (updProduce_changesOnly s _ _) (by decide)
    · split
      · exact hs
      · next h => exact (hs.allocate h).elsewhere (setDirectory_changesOnly _ _) (by decide)
  unfold State.takeClaim
  split
  · exact hs
  · next k _ =>
    exact ((hentry k).elsewhere (putSlot_changesOnly _ _ _) (by decide)).elsewhere (handOn_changesOnly _ _) (by decide)

theorem State.LineFollowsCondition.recordLine {t : State} (hs : s.LineFollowsCondition)
    (h : s.recordLine n = some t) : t.LineFollowsCondition := by
  unfold State.recordLine at h
  split at h
  · cases h; exact hs
  · obtain ⟨⟨w, a⟩, ha, rfl⟩ := Option.map_eq_some_iff.mp h
    exact (hs.allocate ha).elsewhere (setDirectory_changesOnly _ _) (by decide)

theorem State.LineFollowsCondition.postBinding {bound : Binding} (hs : s.LineFollowsCondition) :
    (s.postBinding n source q payload bound).LineFollowsCondition := by
  unfold State.postBinding
  split
  · exact hs.post
  · exact hs.post
  · split
    · exact hs
    · exact hs.post

theorem State.LineFollowsCondition.accept (hs : s.LineFollowsCondition) :
    (s.accept n c source rep q payload).LineFollowsCondition := by
  unfold State.accept
  split
  · exact hs.post
  · next lined h =>
    have hbound := ((hs.recordLine h).elsewhere (updConsume_changesOnly lined n (fun c =>
      { c with binding := .bound source })) (by decide)).postBinding (n := n) (source := source) (q := q)
        (payload := payload) (bound := c.binding)
    have hwritten := hbound.elsewhere (refreshed_changesOnly _ n q payload) (by decide)
    dsimp only
    split
    · exact hwritten.post
    · exact hwritten

theorem State.LineFollowsCondition.checkSequence (hs : s.LineFollowsCondition) :
    (s.checkSequence n c source rep q payload).LineFollowsCondition := by
  unfold State.checkSequence
  split
  · exact hs.accept
  · exact hs.accept
  · split
    · exact hs.elsewhere (updConsume_changesOnly s n _) (by decide)
    · split
      · exact hs.accept
      · exact hs.post.accept

theorem State.LineFollowsCondition.judgeRecord (hs : s.LineFollowsCondition) :
    (s.judgeRecord n c source rep q payload).LineFollowsCondition := by
  unfold State.judgeRecord
  split
  · exact hs.accept
  · exact hs.accept
  · split
    · exact hs.checkSequence
    · split
      · exact hs.accept
      · exact hs.post

theorem State.LineFollowsCondition.relinquishAtConsume (hs : s.LineFollowsCondition) :
    (s.relinquishAtConsume n source c).LineFollowsCondition := by
  unfold State.relinquishAtConsume
  split
  · exact .post (hs.elsewhere (updConsume_changesOnly s n _) (by decide))
  · exact hs

theorem State.LineFollowsCondition.expireAge (hs : s.LineFollowsCondition) :
    (s.expireAge n c).LineFollowsCondition := by
  have hupd {u : State} (hu : u.LineFollowsCondition) (f : Consume → Consume) :
      (u.updConsume n f).LineFollowsCondition := hu.elsewhere (updConsume_changesOnly u n f) (by decide)
  unfold State.expireAge
  dsimp only
  split
  · exact .post (hupd (hupd hs _) _)
  · exact .post (hupd (hupd hs _) _)
  · exact .post (hupd (hupd hs _) _)
  · exact .post (hupd (hupd hs _) _)
  all_goals exact hupd hs _

/-! ## The frame in hand -/

theorem State.LineFollowsCondition.setOwnHold {h : OwnHold} (hs : s.LineFollowsCondition) :
    (s.setOwnHold h n).LineFollowsCondition := hs.elsewhere (setOwnHold_changesOnly s h n) (by decide)

theorem State.LineFollowsCondition.holdSucceeded (hs : s.LineFollowsCondition) :
    (s.holdSucceeded n).LineFollowsCondition := by
  unfold State.holdSucceeded
  split
  · exact hs.setOwnHold.post
  · exact hs.setOwnHold
  · split
    · exact hs.setOwnHold.highMarkTest
    · exact hs
  · exact hs

theorem State.LineFollowsCondition.holdAbandoned (hs : s.LineFollowsCondition) :
    (s.holdAbandoned n).LineFollowsCondition := by
  unfold State.holdAbandoned
  split
  · exact hs.setOwnHold.highMarkTest
  · exact hs.setOwnHold.postHoldEnded.highMarkTest
  · split
    · exact hs.setOwnHold.highMarkTest
    · exact hs
  · exact hs

theorem State.LineFollowsCondition.reportSuccess (hs : s.LineFollowsCondition) :
    s.reportSuccess.LineFollowsCondition := by
  unfold State.reportSuccess
  split
  · exact hs
  · exact hs.elsewhere (foldl_changesOnly _ commit_perRec.frame _ s) (by decide)
  · split
    · exact hs
    · exact hs.elsewhere (beginWindow_changesOnly s _) (by decide)
  · exact hs.endRelease
  · exact hs.holdSucceeded
  · exact hs
  · exact hs

theorem State.LineFollowsCondition.reportAbandonment {code : Nat} (hs : s.LineFollowsCondition) :
    (s.reportAbandonment code).LineFollowsCondition := by
  unfold State.reportAbandonment
  split
  · exact hs
  · next records _ =>
    have hreturned := hs.elsewhere (returnRecords_spec s records).2.1 (by decide)
    unfold State.postAbandoned
    split
    · exact hreturned
    · exact hreturned.post
  · split
    · exact hs
    · exact hs.failClaim
  · exact hs.endRelease
  · exact hs.holdAbandoned
  · exact hs
  · exact hs

theorem State.LineFollowsCondition.dropFrame (hs : s.LineFollowsCondition) : s.dropFrame.LineFollowsCondition :=
  hs.elsewhere (dropFrame_changesOnly s) (by decide)

theorem State.LineFollowsCondition.collide (hs : s.LineFollowsCondition) : s.collide.LineFollowsCondition := by
  have hcounted := hs.elsewhere (counted_changesOnly s) (by decide)
  unfold State.collide
  dsimp only
  split
  · exact hcounted.reportAbandonment.dropFrame
  · exact hcounted.elsewhere (collideAgain_changesOnly _) (by decide)

/-! ## The slot timer -/

theorem State.LineFollowsCondition.windowEnds {k : Fin 4} (hs : s.LineFollowsCondition) :
    (s.windowEnds k).LineFollowsCondition := by
  unfold State.windowEnds
  split
  · exact hs
  · split
    · exact hs
    · split
      · exact hs.grantClaim.settle
      · exact hs

theorem State.LineFollowsCondition.lastFall (hs : s.LineFollowsCondition) : s.lastFall.LineFollowsCondition := by
  unfold State.lastFall
  split
  · exact hs
  · exact .settle (hs.elsewhere (setContention_changesOnly s _) (by decide))

theorem State.LineFollowsCondition.ownHoldEnds (hs : s.LineFollowsCondition) :
    s.ownHoldEnds.LineFollowsCondition := by
  unfold State.ownHoldEnds State.expireOwnHold
  split
  · refine .settle ?_
    split
    · exact hs.elsewhere (setContention_changesOnly s _) (by decide)
    · exact hs.setOwnHold.postHoldEnded
  · exact hs

/-- The end of the join period leads on to ACTIVE with the copy (R144). -/
theorem State.LineFollowsCondition.joinEnds (hs : s.LineFollowsCondition) : s.joinEnds.LineFollowsCondition := by
  unfold State.joinEnds State.enterActive
  split
  · exact .settle (.highMarkTest (.post (hs.live rfl)))
  · exact hs

theorem State.LineFollowsCondition.carryOutSlots (hs : s.LineFollowsCondition) :
    s.carryOutSlots.LineFollowsCondition := by
  have hgrants := fold_keeps (F := State.windowEnds) (fun _ _ hu => State.LineFollowsCondition.windowEnds hu)
    [0, 1, 2, 3] hs
  exact hgrants.lastFall.ownHoldEnds.joinEnds

theorem State.LineFollowsCondition.slotBoundary (hs : s.LineFollowsCondition) :
    s.slotBoundary.LineFollowsCondition := by
  have hcopy : (s.station.slot s.cfg.joinPeriod).copy = s.station.copy := by rw [Station.slot_eq]
  exact ((hs.live hcopy).elsewhere (setOwnership_changesOnly _ _) (by decide)).elsewhere
    (setContention_changesOnly _ _) (by decide)

/-! ## The tick timer -/

theorem State.LineFollowsCondition.tickEntry (hs : s.LineFollowsCondition) :
    (s.tickEntry n).LineFollowsCondition := by
  unfold State.tickEntry
  split
  · exact hs
  · split
    · have hmet := hs.elsewhere (setDirectory_changesOnly s
        (updateEntry s.directory n (fun e => { e with tickOwed := false }))) (by decide)
      dsimp only
      split
      · split
        · exact .settle (hmet.elsewhere (expireRefresh_changesOnly _ n) (by decide))
        · exact hmet.expireAge.settle
      · exact hmet.elsewhere (setDirectory_changesOnly _ _) (by decide)
    · exact hs

/-- A tick that does not expire the timer leaves an EXPIRED one so, and makes no other EXPIRED (R172). -/
theorem count_eq_expired_iff (timer : Coalescing) : timer.count = .expired ↔ timer = .expired := by
  cases timer <;> simp [Coalescing.count]

/-- The tick that is owed to the timer decides the line anew where it expires it (R172, R173). -/
theorem State.LineFollowsCondition.tickTimer (hs : s.LineFollowsCondition) : s.tickTimer.LineFollowsCondition := by
  unfold State.tickTimer
  split
  · split
    · exact updateInt_lineFollowsCondition _
    · exact hs.congr rfl rfl rfl (count_eq_expired_iff s.notice.timer)
  · exact hs

theorem State.LineFollowsCondition.carryOutTicks (hs : s.LineFollowsCondition) :
    s.carryOutTicks.LineFollowsCondition :=
  .tickTimer (fold_keeps (P := State.LineFollowsCondition) (fun _ _ hu => hu.tickEntry) _ hs)

/-- A tick leaves to COALESCING_EXPIRY the timer that it would expire (log 4). -/
theorem noticeUnit_tick_line (u : NoticeUnit) (limit : Nat) (late : Bool) :
    (u.tick limit late).intLine = u.intLine ∧ (u.tick limit late).unread = u.unread
      ∧ ((u.tick limit late).timer = .expired ↔ u.timer = .expired) := by
  unfold NoticeUnit.tick
  split
  · exact ⟨rfl, rfl, .rfl⟩
  · exact ⟨rfl, rfl, count_eq_expired_iff u.timer⟩

theorem State.LineFollowsCondition.tickAll (hs : s.LineFollowsCondition) (late : List Nat) (timerLate : Bool) :
    (s.tickAll late timerLate).LineFollowsCondition := by
  obtain ⟨hline, hunread, htimer⟩ := noticeUnit_tick_line s.notice s.cfg.coalescing timerLate
  exact hs.congr rfl hline hunread htimer

end Operations

end Sys2Proof.Machine
end


section
/-! PROOF. The interrupt line follows its condition after every command and step (R171 to R173). A release, a
placement and the expiry of the coalescing timer decide the line anew, a START finds it deasserted, and every other
command leaves alone what decides it. -/

namespace Sys2Proof.Machine

section Commands
variable {s : State}

/-! ## The host port -/

theorem State.LineFollowsCondition.register {t : State} {via : SpiVia} {w : Bool} {a : Nat}
    (hs : s.LineFollowsCondition) (h : s.registerByte via w a = some t) : t.LineFollowsCondition :=
  hs.elsewhere (registerByte_changesOnly s t via w a h) (by decide)

/-- The unread count at which the line is asserted is at least 1 (Table 8.4). -/
theorem trigger_pos_of_valid {r : StartRecord} (h : r.valid = true) : 1 ≤ r.trigger := by
  simp only [StartRecord.valid, StartRecord.checks, List.all_cons, Bool.and_eq_true, decide_eq_true_eq] at h
  omega

/-- With no unread notice the line is deasserted as long as no copy is held, or a copy with a trigger above 0. -/
theorem lineFollowsCondition_iff_of_unread (hunread : s.notice.unread = 0)
    (hcopy : ∀ r, s.station.copy = some r → 1 ≤ r.trigger) :
    s.LineFollowsCondition ↔ s.notice.intLine = false := by
  have hnot : ¬ ((∃ r, s.station.copy = some r ∧ r.trigger ≤ s.notice.unread)
      ∨ (1 ≤ s.notice.unread ∧ s.notice.timer = .expired)) := by
    rw [hunread]
    rintro (⟨r, hr, htrigger⟩ | ⟨hpos, -⟩)
    · have hpos := hcopy r hr
      omega
    · omega
  rw [State.LineFollowsCondition, iff_false_right hnot, Bool.not_eq_true]

/-- A START takes a copy while no notice is unread, and its trigger is at least 1 (R142, Table 8.4). -/
theorem State.LineFollowsCondition.started {r : StartRecord} (hs : s.LineFollowsCondition) (hr : s.RingsKept)
    (hlife : s.station.life = .awaitStart) (hvalid : r.valid = true) : (s.started r).LineFollowsCondition := by
  have hunread := hr.unread_of_await hlife
  obtain ⟨hawait, -⟩ := hr
  have hnone : s.station.copy = none := (hawait hlife).1
  have hline := (lineFollowsCondition_iff_of_unread hunread (by simp [hnone])).mp hs
  refine (lineFollowsCondition_iff_of_unread (s := s.started r) hunread fun r' hr' => ?_).mpr hline
  obtain rfl : r = r' := Option.some.inj hr'
  exact trigger_pos_of_valid hvalid

theorem State.LineFollowsCondition.startRequest (hs : s.LineFollowsCondition) (hr : s.RingsKept)
    (hlife : s.station.life = .awaitStart) : s.startRequest.LineFollowsCondition := by
  unfold State.startRequest
  generalize s.port.engineReads 0 Config.startRecordEnd = record
  have hread := hs.elsewhere (setPort_changesOnly s record.2.drain) (by decide)
  dsimp only
  split
  · exact hread.live rfl
  · next hnone =>
    have hall := all_of_firstError hnone
    rw [startChecks, List.all_append, Bool.and_eq_true] at hall
    exact hread.started hr hlife hall.1

theorem State.LineFollowsCondition.execStart (hs : s.LineFollowsCondition) (hr : s.RingsKept) (via : SpiVia)
    (during : List RamByte) : Ends State.LineFollowsCondition (execStart via s during) := by
  unfold Sys2Proof.Machine.execStart
  split
  · exact (ends_next _ _).mpr hs
  · next t ht =>
    have hmet := (hs.register ht).elsewhere (setPort_changesOnly t (t.port.acceptBytes during)) (by decide)
    have hrings := (hr.register ht).elsewhere (setPort_changesOnly t (t.port.acceptBytes during)) (by decide)
    dsimp only
    split
    · next hlife => exact (ends_next _ _).mpr (hmet.startRequest hrings hlife)
    · exact (ends_next _ _).mpr hmet

theorem State.LineFollowsCondition.execSoftReset (hs : s.LineFollowsCondition) (via : SpiVia) :
    Ends State.LineFollowsCondition (execSoftReset via s) := by
  unfold Sys2Proof.Machine.execSoftReset
  split
  · exact (ends_next _ _).mpr hs
  · exact (ends_next _ _).mpr (resets_lineFollowsCondition (softReset_resets _))

theorem State.LineFollowsCondition.execCmdAdvance (hs : s.LineFollowsCondition) (via : SpiVia) (value : Byte) :
    Ends State.LineFollowsCondition (execCmdAdvance via value s) := by
  unfold Sys2Proof.Machine.execCmdAdvance
  split
  · exact (ends_next _ _).mpr hs
  · next t ht => exact (ends_next _ _).mpr ((hs.register ht).elsewhere (scanRequest_changesOnly t) (by decide))

theorem State.LineFollowsCondition.execNoticeTaken (hs : s.LineFollowsCondition) (via : SpiVia) (k : Byte) :
    Ends State.LineFollowsCondition (execNoticeTaken via k s) := by
  unfold Sys2Proof.Machine.execNoticeTaken State.releaseNotices
  split
  · exact (ends_next _ _).mpr hs
  · next ht =>
    rw [ends_next]
    split
    · exact hs.register ht
    · exact updateInt_lineFollowsCondition _

theorem State.LineFollowsCondition.execTickHighByteRead (hs : s.LineFollowsCondition) (via : SpiVia) :
    Ends State.LineFollowsCondition (execTickHighByteRead via s) := by
  unfold Sys2Proof.Machine.execTickHighByteRead
  split
  · exact (ends_next _ _).mpr hs
  · next t ht => exact (ends_next _ _).mpr ((hs.register ht).elsewhere (setPort_changesOnly t _) (by decide))

theorem State.LineFollowsCondition.execRegisterWriteIgnored (hs : s.LineFollowsCondition) (via : SpiVia) (addr : Nat)
    (value : Byte) : Ends State.LineFollowsCondition (execRegisterWriteIgnored via addr value s) := by
  unfold Sys2Proof.Machine.execRegisterWriteIgnored
  split
  · split
    · exact (ends_next _ _).mpr hs
    · next ht => exact (ends_next _ _).mpr (hs.register ht)
  · exact (ends_next _ _).mpr hs

/-- A placement decides the line anew (R170, R173). -/
theorem State.LineFollowsCondition.execPlacement (hs : s.LineFollowsCondition) :
    Ends State.LineFollowsCondition (execPlacement s) := by
  unfold Sys2Proof.Machine.execPlacement
  split
  · exact (ends_next _ _).mpr hs
  · split
    · exact (ends_next _ _).mpr (updateInt_lineFollowsCondition _).settle
    · exact (ends_next _ _).mpr hs

/-! ## The command ring -/

theorem State.LineFollowsCondition.finish {d : Descriptor} {status : Status} (hs : s.LineFollowsCondition) :
    (s.finish d status).LineFollowsCondition := hs.elsewhere (finish_changesOnly s d status) (by decide)

/-- A ring command that is taken: refused, or carried out (R157). -/
theorem State.LineFollowsCondition.ring {code : Byte} {d : Descriptor} {t : State} {checks : List (Bool × Status)}
    {carryOut : State → State} (hs : s.LineFollowsCondition) (h : s.takingCode code = some (d, t))
    (hk : t.LineFollowsCondition → (carryOut t).LineFollowsCondition) :
    (t.perform d checks carryOut).LineFollowsCondition := by
  have ht := hs.elsewhere (takingCode_changesOnly s code d t h) (by decide)
  unfold State.perform
  split
  · exact ht.finish
  · exact hk ht

theorem State.LineFollowsCondition.execExamination (hs : s.LineFollowsCondition) :
    Ends State.LineFollowsCondition (execExamination s) := by
  unfold Sys2Proof.Machine.execExamination
  split
  · dsimp only
    split
    · exact (ends_next _ _).mpr hs
    · exact (ends_next _ _).mpr ((hs.elsewhere (setPort_changesOnly s _) (by decide)).elsewhere
        (setCommand_changesOnly _ _) (by decide))
  · exact (ends_next _ _).mpr hs

theorem State.LineFollowsCondition.execBadCommand (hs : s.LineFollowsCondition) :
    Ends State.LineFollowsCondition (execBadCommand s) := by
  unfold Sys2Proof.Machine.execBadCommand
  split
  · exact (ends_next _ _).mpr hs
  · next d t ht =>
    split
    · exact (ends_next _ _).mpr hs
    · exact (ends_next _ _).mpr (hs.elsewhere (taking_changesOnly s d t ht) (by decide)).finish

theorem State.LineFollowsCondition.execSubscribe (hs : s.LineFollowsCondition) :
    Ends State.LineFollowsCondition (execSubscribe s) := by
  unfold Sys2Proof.Machine.execSubscribe
  split
  · exact (ends_next _ _).mpr hs
  · next ht => exact (ends_next _ _).mpr (hs.ring ht fun h =>
      .finish (h.elsewhere (setDirectory_changesOnly _ _) (by decide)))

theorem State.LineFollowsCondition.execUnsubscribe (hs : s.LineFollowsCondition) :
    Ends State.LineFollowsCondition (execUnsubscribe s) := by
  unfold Sys2Proof.Machine.execUnsubscribe
  split
  · exact (ends_next _ _).mpr hs
  · next ht => exact (ends_next _ _).mpr (hs.ring ht fun h =>
      .finish (h.elsewhere (removeEntry_changesOnly _ _) (by decide)))

theorem State.LineFollowsCondition.execUnbind (hs : s.LineFollowsCondition) :
    Ends State.LineFollowsCondition (execUnbind s) := by
  unfold Sys2Proof.Machine.execUnbind
  split
  · exact (ends_next _ _).mpr hs
  · next ht => exact (ends_next _ _).mpr (hs.ring ht fun h =>
      .finish (h.elsewhere (updConsume_changesOnly _ _ _) (by decide)))

theorem State.LineFollowsCondition.execLock (hs : s.LineFollowsCondition) :
    Ends State.LineFollowsCondition (execLock s) := by
  unfold Sys2Proof.Machine.execLock
  split
  · exact (ends_next _ _).mpr hs
  · next ht => exact (ends_next _ _).mpr (hs.ring ht fun h =>
      .finish (h.elsewhere (markLocked_changesOnly _ _ _) (by decide)))

theorem State.LineFollowsCondition.execUnlock (hs : s.LineFollowsCondition) :
    Ends State.LineFollowsCondition (execUnlock s) := by
  unfold Sys2Proof.Machine.execUnlock
  split
  · exact (ends_next _ _).mpr hs
  · next ht => exact (ends_next _ _).mpr (hs.ring ht fun h =>
      .finish (h.elsewhere (markLocked_changesOnly _ _ _) (by decide)))

theorem State.LineFollowsCondition.execPull (hs : s.LineFollowsCondition) :
    Ends State.LineFollowsCondition (execPull s) := by
  unfold Sys2Proof.Machine.execPull
  split
  · exact (ends_next _ _).mpr hs
  · next ht => exact (ends_next _ _).mpr (hs.ring ht fun h =>
      .settle (.finish (h.elsewhere (placeCommand_changesOnly _ _) (by decide))))

theorem State.LineFollowsCondition.execClaim (hs : s.LineFollowsCondition) :
    Ends State.LineFollowsCondition (execClaim s) := by
  unfold Sys2Proof.Machine.execClaim
  split
  · exact (ends_next _ _).mpr hs
  · next ht => exact (ends_next _ _).mpr (hs.ring ht fun h => h.takeClaim.finish.settle)

theorem State.LineFollowsCondition.execRelinquish (hs : s.LineFollowsCondition) :
    Ends State.LineFollowsCondition (execRelinquish s) := by
  unfold Sys2Proof.Machine.execRelinquish
  split
  · exact (ends_next _ _).mpr hs
  · next ht => exact (ends_next _ _).mpr (hs.ring ht fun h => h.release.finish.settle)

theorem State.LineFollowsCondition.execWrite (hs : s.LineFollowsCondition) :
    Ends State.LineFollowsCondition (execWrite s) := by
  unfold Sys2Proof.Machine.execWrite
  split
  · exact (ends_next _ _).mpr hs
  · next t ht => exact (ends_next _ _).mpr (hs.ring ht fun h =>
      .settle (.finish ((h.elsewhere (setPort_changesOnly t _) (by decide)).elsewhere (stage_changesOnly _ _ _)
        (by decide))))

theorem State.LineFollowsCondition.execRead (hs : s.LineFollowsCondition) :
    Ends State.LineFollowsCondition (execRead s) := by
  unfold Sys2Proof.Machine.execRead
  split
  · exact (ends_next _ _).mpr hs
  · next d t ht => exact (ends_next _ _).mpr (hs.ring ht fun h =>
      h.elsewhere (readLine_changesOnly t d) (by decide))

theorem State.LineFollowsCondition.execSnapshot (hs : s.LineFollowsCondition) :
    Ends State.LineFollowsCondition (execSnapshot s) := by
  unfold Sys2Proof.Machine.execSnapshot
  split
  · exact (ends_next _ _).mpr hs
  · next t ht => exact (ends_next _ _).mpr (hs.ring ht fun h =>
      (h.elsewhere (setPort_changesOnly t _) (by decide)).elsewhere (complete_changesOnly _ _ _ _ _) (by decide))

/-- A LEAVE leads on to LEAVING with the copy (R145). -/
theorem State.LineFollowsCondition.beginLeave {tag : Word16} (hs : s.LineFollowsCondition) :
    (s.beginLeave tag).LineFollowsCondition :=
  fold_keeps (P := State.LineFollowsCondition) (fun _ _ hu => hu.release) _
    (hs.live (x := { s.station with life := .leaving, keptTag := tag }) rfl)

theorem State.LineFollowsCondition.execLeave (hs : s.LineFollowsCondition) :
    Ends State.LineFollowsCondition (execLeave s) := by
  unfold Sys2Proof.Machine.execLeave
  split
  · exact (ends_next _ _).mpr hs
  · next ht => exact (ends_next _ _).mpr (hs.ring ht fun h => h.beginLeave.finish.settle)

theorem State.LineFollowsCondition.execRejoin (hs : s.LineFollowsCondition) :
    Ends State.LineFollowsCondition (execRejoin s) := by
  unfold Sys2Proof.Machine.execRejoin
  split
  · exact (ends_next _ _).mpr hs
  · next ht => exact (ends_next _ _).mpr (hs.ring ht fun h => .finish (h.live rfl))

/-! ## The line -/

theorem State.LineFollowsCondition.setRx (hs : s.LineFollowsCondition) (x : Rx) :
    (s.setRx x).LineFollowsCondition := hs.elsewhere (setRx_changesOnly s x) (by decide)

theorem State.LineFollowsCondition.setContention (hs : s.LineFollowsCondition) (x : Contention) :
    (s.setContention x).LineFollowsCondition := hs.elsewhere (setContention_changesOnly s x) (by decide)

theorem State.LineFollowsCondition.execCarrierBegins (hs : s.LineFollowsCondition) :
    Ends State.LineFollowsCondition (execCarrierBegins s) := by
  unfold Sys2Proof.Machine.execCarrierBegins
  split
  · exact (ends_next _ _).mpr hs
  · exact (ends_next _ _).mpr ((hs.setRx _).setContention _)

theorem State.LineFollowsCondition.execFirstByteCollected (hs : s.LineFollowsCondition) (byte : Byte) :
    Ends State.LineFollowsCondition (execFirstByteCollected byte s) := by
  unfold Sys2Proof.Machine.execFirstByteCollected
  split
  · exact (ends_next _ _).mpr (hs.setRx _)
  · exact (ends_next _ _).mpr hs

theorem State.LineFollowsCondition.execHeaderFieldsComplete (hs : s.LineFollowsCondition) (byte1 byte2 : Byte) :
    Ends State.LineFollowsCondition (execHeaderFieldsComplete byte1 byte2 s) := by
  unfold Sys2Proof.Machine.execHeaderFieldsComplete
  split
  · split
    · exact (ends_next _ _).mpr hs
    · exact (ends_next _ _).mpr (hs.setRx _)
  · exact (ends_next _ _).mpr hs

theorem State.LineFollowsCondition.frameEnd (hs : s.LineFollowsCondition) (f : RxFrame) (rest : List Byte) :
    (s.frameEnd f rest).LineFollowsCondition := by
  unfold State.frameEnd
  split
  · exact hs
  · split
    · exact hs
    · split
      · exact hs.clash
      · exact hs.elsewhere (arrive_changesOnly s _) (by decide)

theorem State.LineFollowsCondition.execFrameEnd (hs : s.LineFollowsCondition) (bytes : List Byte) :
    Ends State.LineFollowsCondition (execFrameEnd bytes s) := by
  unfold Sys2Proof.Machine.execFrameEnd
  split
  · split
    · exact (ends_next _ _).mpr ((hs.setRx .skip).frameEnd _ bytes)
    · exact (ends_next _ _).mpr hs
  · exact (ends_next _ _).mpr hs

/-! ## The dispatched items -/

theorem State.LineFollowsCondition.setDispatch (hs : s.LineFollowsCondition) (x : List Item) :
    (s.setDispatch x).LineFollowsCondition := hs.elsewhere (setDispatch_changesOnly s x) (by decide)

theorem State.LineFollowsCondition.dropIgnored (hs : s.LineFollowsCondition) :
    Ends State.LineFollowsCondition (.next s.dropIgnored) := (ends_next _ _).mpr (hs.setDispatch _)

theorem State.LineFollowsCondition.dataAtProduce {n source : Nat} {p : Produce} (hs : s.LineFollowsCondition) :
    (s.dataAtProduce n source p).LineFollowsCondition := by
  unfold State.dataAtProduce
  split
  · exact hs.loseClaim
  · split
    · exact hs.depose
    · exact hs.requestDispute
  · exact hs
  · exact hs

theorem State.LineFollowsCondition.claimAtProduce {n source : Nat} {p : Produce} (hs : s.LineFollowsCondition) :
    (s.claimAtProduce n source p).LineFollowsCondition := by
  unfold State.claimAtProduce
  split
  · split
    · exact hs.requestDispute
    · exact hs.loseClaim
  · exact hs.requestDispute
  · exact hs
  · exact hs

theorem State.LineFollowsCondition.disputeAtProduce {n source : Nat} {p : Produce} (hs : s.LineFollowsCondition) :
    (s.disputeAtProduce n source p).LineFollowsCondition := by
  unfold State.disputeAtProduce
  split
  · exact hs.loseClaim
  · split
    · exact hs.depose
    · exact hs.requestDispute
  · exact hs
  · exact hs

theorem State.LineFollowsCondition.execDataRecordAtConsume (hs : s.LineFollowsCondition) :
    Ends State.LineFollowsCondition (execDataRecordAtConsume s) := by
  unfold Sys2Proof.Machine.execDataRecordAtConsume
  split
  · split
    · exact (ends_next _ _).mpr (hs.setDispatch _).judgeRecord.settle
    · exact hs.dropIgnored
  · exact hs.dropIgnored

theorem State.LineFollowsCondition.execDataRecordAtProduce (hs : s.LineFollowsCondition) :
    Ends State.LineFollowsCondition (execDataRecordAtProduce s) := by
  unfold Sys2Proof.Machine.execDataRecordAtProduce
  split
  · split
    · exact (ends_next _ _).mpr (hs.setDispatch _).dataAtProduce.settle
    · exact hs.dropIgnored
  · exact hs.dropIgnored

theorem State.LineFollowsCondition.execClaimHeard (hs : s.LineFollowsCondition) :
    Ends State.LineFollowsCondition (execClaimHeard s) := by
  unfold Sys2Proof.Machine.execClaimHeard
  split
  · split
    · exact (ends_next _ _).mpr (hs.setDispatch _).claimAtProduce.settle
    · exact hs.dropIgnored
  · exact hs.dropIgnored

theorem State.LineFollowsCondition.execDisputeHeard (hs : s.LineFollowsCondition) :
    Ends State.LineFollowsCondition (execDisputeHeard s) := by
  unfold Sys2Proof.Machine.execDisputeHeard
  split
  · split
    · exact (ends_next _ _).mpr (hs.setDispatch _).disputeAtProduce.settle
    · exact hs.dropIgnored
  · exact hs.dropIgnored

theorem State.LineFollowsCondition.execRelinquishHeardAtProduce (hs : s.LineFollowsCondition) :
    Ends State.LineFollowsCondition (execRelinquishHeardAtProduce s) := by
  unfold Sys2Proof.Machine.execRelinquishHeardAtProduce
  split
  · split
    · exact (ends_next _ _).mpr (hs.setDispatch _)
    · exact hs.dropIgnored
  · exact hs.dropIgnored

theorem State.LineFollowsCondition.execRelinquishHeardAtConsume (hs : s.LineFollowsCondition) :
    Ends State.LineFollowsCondition (execRelinquishHeardAtConsume s) := by
  unfold Sys2Proof.Machine.execRelinquishHeardAtConsume
  split
  · split
    · exact (ends_next _ _).mpr (hs.setDispatch _).relinquishAtConsume.settle
    · exact hs.dropIgnored
  · exact hs.dropIgnored

theorem State.LineFollowsCondition.execPullHeard (hs : s.LineFollowsCondition) :
    Ends State.LineFollowsCondition (execPullHeard s) := by
  unfold Sys2Proof.Machine.execPullHeard
  split
  · split
    · exact (ends_next _ _).mpr
        (.settle ((hs.setDispatch _).elsewhere (pullAtProduce_changesOnly _ _ _) (by decide)))
    · exact hs.dropIgnored
  · exact hs.dropIgnored

theorem State.LineFollowsCondition.execHoldHeard (hs : s.LineFollowsCondition) :
    Ends State.LineFollowsCondition (execHoldHeard s) := by
  unfold Sys2Proof.Machine.execHoldHeard
  split
  · split
    · exact (ends_next _ _).mpr ((hs.setDispatch _).setContention _).settle
    · exact (ends_next _ _).mpr (hs.setDispatch _)
  · exact hs.dropIgnored

/-! ## The timers -/

theorem State.LineFollowsCondition.execSlotBoundary (hs : s.LineFollowsCondition) :
    Ends State.LineFollowsCondition (execSlotBoundary s) := by
  unfold Sys2Proof.Machine.execSlotBoundary
  split
  · exact (ends_next _ _).mpr hs
  · exact (ends_next _ _).mpr hs.carryOutSlots.slotBoundary

theorem State.LineFollowsCondition.execGrant (hs : s.LineFollowsCondition) (slot : Nat) :
    Ends State.LineFollowsCondition (execGrant slot s) := by
  unfold Sys2Proof.Machine.execGrant
  split
  · exact (ends_next _ _).mpr hs.windowEnds
  · exact (ends_next _ _).mpr hs

theorem State.LineFollowsCondition.execTick (hs : s.LineFollowsCondition) (late : List Nat) (timerLate : Bool) :
    Ends State.LineFollowsCondition (execTick s late timerLate) := by
  unfold Sys2Proof.Machine.execTick
  split
  · exact (ends_next _ _).mpr hs
  · exact (ends_next _ _).mpr (hs.carryOutTicks.tickAll late timerLate)

theorem State.LineFollowsCondition.execRefreshExpiry (hs : s.LineFollowsCondition) (n : Nat) :
    Ends State.LineFollowsCondition (execRefreshExpiry n s) := by
  unfold Sys2Proof.Machine.execRefreshExpiry
  split
  · exact (ends_next _ _).mpr hs
  · exact (ends_next _ _).mpr hs.tickEntry

theorem State.LineFollowsCondition.execAgeExpiry (hs : s.LineFollowsCondition) (n : Nat) :
    Ends State.LineFollowsCondition (execAgeExpiry n s) := by
  unfold Sys2Proof.Machine.execAgeExpiry
  split
  · exact (ends_next _ _).mpr hs
  · exact (ends_next _ _).mpr hs.tickEntry

/-! ## The Contention Unit -/

theorem State.LineFollowsCondition.execQuietReached (hs : s.LineFollowsCondition) :
    Ends State.LineFollowsCondition (execQuietReached s) := by
  unfold Sys2Proof.Machine.execQuietReached
  split
  · exact (ends_next _ _).mpr (hs.setContention _)
  · exact (ends_next _ _).mpr hs

theorem State.LineFollowsCondition.execDeferralSlot (hs : s.LineFollowsCondition) :
    Ends State.LineFollowsCondition (execDeferralSlot s) := by
  unfold Sys2Proof.Machine.execDeferralSlot
  split
  · split
    · exact (ends_next _ _).mpr (hs.setContention _)
    · exact (ends_next _ _).mpr hs
  · exact (ends_next _ _).mpr hs

theorem State.LineFollowsCondition.execDeferralEnd (hs : s.LineFollowsCondition) :
    Ends State.LineFollowsCondition (execDeferralEnd s) := by
  unfold Sys2Proof.Machine.execDeferralEnd
  split
  · exact (ends_next _ _).mpr (.settle (hs.elsewhere (chooseFrame_changesOnly s) (by decide)))
  · exact (ends_next _ _).mpr hs

theorem State.LineFollowsCondition.execCollision (hs : s.LineFollowsCondition) :
    Ends State.LineFollowsCondition (execCollision s) := by
  unfold Sys2Proof.Machine.execCollision
  split
  · exact (ends_next _ _).mpr hs.collide.settle
  · exact (ends_next _ _).mpr hs

theorem State.LineFollowsCondition.execLateCollision (hs : s.LineFollowsCondition) :
    Ends State.LineFollowsCondition (execLateCollision s) := by
  unfold Sys2Proof.Machine.execLateCollision
  split
  · exact (ends_next _ _).mpr hs.reportAbandonment.dropFrame.settle
  · exact (ends_next _ _).mpr hs

theorem State.LineFollowsCondition.execSuccessfulEnd (hs : s.LineFollowsCondition) :
    Ends State.LineFollowsCondition (execSuccessfulEnd s) := by
  unfold Sys2Proof.Machine.execSuccessfulEnd
  split
  · exact (ends_next _ _).mpr (hs.setRx _).reportSuccess.dropFrame.settle
  · exact (ends_next _ _).mpr hs

/-! ## Every command, and the step -/

theorem State.LineFollowsCondition.exec (hs : s.LineFollowsCondition) (hr : s.RingsKept) (c : Instr) :
    Ends State.LineFollowsCondition (exec c s) := by
  have hport (x : HostPort) : Ends State.LineFollowsCondition (.next (s.setPort x)) :=
    (ends_next _ _).mpr (hs.elsewhere (setPort_changesOnly s x) (by decide))
  cases c with
  | hardReset => exact (ends_next _ _).mpr (resets_lineFollowsCondition (hardReset_resets s))
  | softReset via => exact hs.execSoftReset via
  | start via during => exact hs.execStart hr via during
  | cmdAdvance via value => exact hs.execCmdAdvance via value
  | noticeTaken via k => exact hs.execNoticeTaken via k
  | tickHighByteRead via => exact hs.execTickHighByteRead via
  | registerWriteIgnored via addr value => exact hs.execRegisterWriteIgnored via addr value
  | sharedRamWrite via addr value turn => exact hport _
  | examination => exact hs.execExamination
  | badCommand => exact hs.execBadCommand
  | subscribe => exact hs.execSubscribe
  | unsubscribe => exact hs.execUnsubscribe
  | claim => exact hs.execClaim
  | relinquish => exact hs.execRelinquish
  | write => exact hs.execWrite
  | read => exact hs.execRead
  | pull => exact hs.execPull
  | lock => exact hs.execLock
  | unlock => exact hs.execUnlock
  | unbind => exact hs.execUnbind
  | snapshot => exact hs.execSnapshot
  | leave => exact hs.execLeave
  | rejoin => exact hs.execRejoin
  | carrierBegins => exact hs.execCarrierBegins
  | carrierAbsent => exact (ends_next _ _).mpr ((hs.setRx _).setContention _)
  | frameEnd bytes => exact hs.execFrameEnd bytes
  | dataRecordAtConsume => exact hs.execDataRecordAtConsume
  | dataRecordAtProduce => exact hs.execDataRecordAtProduce
  | claimHeard => exact hs.execClaimHeard
  | disputeHeard => exact hs.execDisputeHeard
  | relinquishHeardAtProduce => exact hs.execRelinquishHeardAtProduce
  | relinquishHeardAtConsume => exact hs.execRelinquishHeardAtConsume
  | pullHeard => exact hs.execPullHeard
  | holdHeard => exact hs.execHoldHeard
  | slotBoundary => exact hs.execSlotBoundary
  | grant slot => exact hs.execGrant slot
  | holdEntryRunsOut => exact (ends_next _ _).mpr hs.lastFall
  | ownHoldExpires => exact (ends_next _ _).mpr hs.ownHoldEnds
  | joinPeriodEnd => exact (ends_next _ _).mpr hs.joinEnds
  | tick late timerLate => exact hs.execTick late timerLate
  | refreshExpiry object => exact hs.execRefreshExpiry object
  | ageExpiry object => exact hs.execAgeExpiry object
  | coalescingExpiry => exact (ends_next _ _).mpr hs.tickTimer
  | quietReached => exact hs.execQuietReached
  | deferralSlot => exact hs.execDeferralSlot
  | deferralEnd => exact hs.execDeferralEnd
  | collision => exact hs.execCollision
  | lateCollision => exact hs.execLateCollision
  | successfulEnd => exact hs.execSuccessfulEnd
  | placement => exact hs.execPlacement
  | firstByteCollected byte => exact hs.execFirstByteCollected byte
  | headerFieldsComplete byte1 byte2 => exact hs.execHeaderFieldsComplete byte1 byte2
  | resetNReleased => exact hport _

end Commands

/-- Settles O8: a change of the unread count and an expiry of the coalescing timer decide the line anew, a START takes
its copy while no notice is unread, and a reset clears the line with its condition. -/
theorem interruptLineFollowsItsCondition : Obligations.InterruptLineFollowsItsCondition := by
  rintro s t ⟨hr, hs⟩ ht
  refine ⟨ringsStayKept s t hr ht, ?_⟩
  unfold step at ht
  split at ht
  · cases ht
    exact hs
  · next c rest _ =>
    have hrest : State.RingsKept { s with pending := rest } := hr
    exact (hs.elsewhere (setPending_changesOnly s rest) (by decide)).exec hrest c t ht

end Sys2Proof.Machine
end


section
/-! PROOF. A release of notices by the host (R171 to R173). -/

namespace Sys2Proof.Machine

/-- A release of at least one notice (R171, R172). -/
theorem releaseNotices_of_ne_zero (s : State) {k : Nat} (hk : k ≠ 0) :
    s.releaseNotices k = (s.setNotice { s.notice with
      unread := s.notice.unread - k
      timer := if s.notice.unread ≤ k then .stopped else s.notice.timer }).updateInt := by
  rw [State.releaseNotices, if_neg hk]
  simp only [Nat.sub_eq_zero_iff_le]

theorem releaseNotices_notice (s : State) {k : Nat} (hk : k ≠ 0) :
    (s.releaseNotices k).notice = { s.notice with
      unread := s.notice.unread - k
      timer := if s.notice.unread ≤ k then .stopped else s.notice.timer
      intLine := (s.releaseNotices k).notice.intLine } := by
  rw [releaseNotices_of_ne_zero s hk]
  rfl

theorem releaseNotices_lineFollowsCondition (s : State) {k : Nat} (hk : k ≠ 0) :
    (s.releaseNotices k).LineFollowsCondition := by
  rw [releaseNotices_of_ne_zero s hk]
  exact updateInt_lineFollowsCondition _

theorem releaseNotices_changesOnly (s : State) (k : Nat) : s.ChangesOnly (s.releaseNotices k) [.notice] := by
  unfold State.releaseNotices State.updateInt
  split
  · exact .refl s _
  · exact (setNotice_changesOnly s _).trans (setNotice_changesOnly _ _)

/-- Settles O18: the served byte is taken by the port, and the release decides the line anew. -/
theorem noticeTakenReleasesNotices : Obligations.NoticeTakenReleasesNotices := by
  intro s via k hk hserves
  have hpos : k.toNat ≠ 0 := fun h => hk (BitVec.eq_of_toNat_eq h)
  have honly := releaseNotices_changesOnly (s.setPort (s.port.afterRegisterByte via true 0x4008)) k.toNat
  exact ⟨_, exec_noticeTaken_of_serves hserves, releaseNotices_notice (s.setPort _) hpos,
    releaseNotices_lineFollowsCondition _ hpos, honly .port (by decide),
    ((setPort_changesOnly s _).mono (by decide)).trans (honly.mono (by decide))⟩

end Sys2Proof.Machine
end


section
/-! PROOF. The equations of the step, one per form of the queue of commands. -/

namespace Sys2Proof.Machine

theorem step_of_pending_cons {s : State} {c : Instr} {rest : List Instr} (h : s.pending = c :: rest) :
    step s = exec c { s with pending := rest } := by
  rw [step, h]

theorem step_of_pending_nil {s : State} (h : s.pending = []) : step s = .next s := by
  rw [step, h]

/-- Settles O1, by the step's equations for a queue with a front command and for the empty queue. -/
theorem stepRunsTheFrontCommand : Obligations.StepRunsTheFrontCommand := fun _ =>
  ⟨fun _ _ => step_of_pending_cons, step_of_pending_nil⟩

end Sys2Proof.Machine
end
